-- ==== Sys2Proof/Word.lean ====
section
/-! DEFINITION. The words of the QT9: bytes, 64-bit registers, and sparse maps kept as lists of pairs. -/

namespace Sys2Proof

/-- One byte. -/
abbrev Byte := BitVec 8

/-- A 64-bit register or memory word. -/
abbrev W64 := BitVec 64

/-- A 32-bit lane, accumulator element or FP32 encoding. -/
abbrev W32 := BitVec 32

/-- A sparse map from a number to a value: pairs with strictly rising keys, none holding the value
that an unlisted key reads as (the operations are in Machine/Ops.lean). -/
abbrev AMap (α : Type) := List (Nat × α)

end Sys2Proof
end

