-- ==== Sys2Proof/Syntax.lean ====
section
/-! DEFINITION. The commands of the QT9 block: one constructor for each row of spec/opcode_table.json,
with the row's operands. Instructions of a core carry a `Slot`; events name the unit they happen in. -/

namespace Sys2Proof

/-- The three engines of a core (R18). -/
inductive Engine where
  | fetch
  | compute
  | store
  deriving DecidableEq, Repr

/-- A register number of a file of 32: x, v or d (R48). -/
abbrev Reg := Fin 32

/-- A physical core number, 32 × cluster + core (R11). -/
abbrev CoreId := Fin 512

/-- A physical cluster number. -/
abbrev ClusterId := Fin 16

/-- An index of the context table (R368). -/
abbrev CtxId := Fin 16384

/-- Where an instruction issues: the core and engine, the fields of its bundle's header (Table 2.1),
the value `rsv` of the bits that the instruction leaves unused (R46: they must be 0), `more`:
further slots of the SAME bundle follow in S, V, T order, so this slot waits for the last of them; and `opc`, where the
slot's opcode bits are not the instruction's own: 0x00, a no-op in its place (R47), or an opcode that no instruction of the
slot has (R46). -/
structure Slot where
  core : CoreId
  eng  : Engine
  kind : BitVec 2 := 2
  vp   : Fin 8 := 0
  vneg : Bool := false
  rsv  : Nat := 0
  more : Bool := false
  opc  : Option (BitVec 8) := none
  deriving DecidableEq, Repr

/-- A fabric frame: the fields of its header (Table 15.1), its payload and the CRC of its trailer (R340). -/
structure Frame where
  typ     : BitVec 4
  vc      : BitVec 2
  adp     : Bool := false
  esc     : Bool := false
  hops    : BitVec 4 := 15
  len     : BitVec 10 := 0
  tag     : BitVec 10 := 0
  dst     : BitVec 16
  src     : BitVec 16
  stream  : BitVec 12 := 0
  lseq    : BitVec 20 := 0
  skey    : BitVec 32 := 0
  addr    : BitVec 48 := 0
  aux     : BitVec 48 := 0
  sseq    : BitVec 16 := 0
  mcf     : Bool := false
  payload : List Byte := []
  crc     : BitVec 32 := 0
  deriving DecidableEq, Repr

/-- What a link-control frame carries (R339, R343, R344): a cumulative acknowledgement, a negative
acknowledgement naming the first number lacked, credits returned for VC0 to VC3, and at link-up the lanes that pass the
check. -/
structure LinkCtl where
  ack     : Option (BitVec 20) := none
  nak     : Option (BitVec 20) := none
  credits : List Nat := []
  lanes   : Option (BitVec 4) := none
  crcOk   : Bool := true
  deriving DecidableEq, Repr

/-- A hello (R353): the neighbour's serial, port number, grade, address and floor plan serial; whether its CRC holds (R340). -/
structure Hello where
  serial  : W64
  port    : BitVec 4
  grade   : Byte
  devaddr : BitVec 16
  plan    : BitVec 32
  crcOk   : Bool := true
  deriving DecidableEq, Repr

/-- A received beat mark (R359, R360): the sender's beat and phase in ns when it left (t1), this device's
time of its arrival (t2), the times t3 and t4 of this device's last mark as the neighbour reports it, and whether its CRC
holds (R340). -/
structure BeatMark where
  beat  : W64
  phase : Nat
  t2    : Int
  t3    : Int
  t4    : Int
  crcOk : Bool := true
  deriving DecidableEq, Repr

/-- How a service action's work ended (R432): passed, failed, and for a reload the core whose image failed. -/
structure ActionResult where
  pass     : Bool
  failCore : Option CoreId := none
  digest   : W64 := 0
  deriving DecidableEq, Repr

/-- The verdict of the replica root for one member (Table 17.10). -/
inductive Verdict where
  | pass
  | takeCopy (giver : BitVec 16) (digest : List Byte)
  | restore  (reference : W64)
  deriving DecidableEq, Repr

/-- A unit judged by a start-up test (R424): core, core in its array run, cluster, stack, channel, Kiln, port or base die. -/
inductive TestUnit where
  | core    (c : CoreId)
  | array   (c : CoreId)
  | cluster (k : ClusterId)
  | stack   (n : Fin 8)
  | channel (m : Fin 12)
  | kiln    (n : Fin 14)
  | port    (p : Fin 16)
  | baseDie (d : Fin 4)
  deriving DecidableEq, Repr

/-- What happens in a start-up stage from outside: the units that fail its tests, the duration reported,
the lines that a memory test finds uncorrectable
and the errors that it corrects, by unit, the modules found (GiB of each channel, 0 where none is fitted; by channel, whether it reports an unbuffered module, one
without ECC, two modules, or another data rate than 8,800 MT/s), and the verdicts the stage takes from its surroundings. -/
structure StageInput where
  fails     : List TestUnit := []
  durationUs : W64 := 0
  modulesGiB : List Nat := []
  unbuffered : BitVec 12 := 0
  noEcc     : BitVec 12 := 0
  twoPer    : BitVec 12 := 0
  otherRate : BitVec 12 := 0
  xspi8d    : Bool := true
  regulatorAbsent : Option Byte := none
  engineFail : Bool := false
  cacheBad  : Bool := false
  retried   : Nat := 0
  lines     : List (TestUnit × Nat × Nat) := []
  portsUp   : List (Fin 16 × BitVec 4) := []
  deriving DecidableEq, Repr

/-- A power sample (R454): the 1 ms average in W and the activity of the clock's limits. -/
structure PowerReading where
  avgW : Nat
  deriving DecidableEq, Repr

/-- The commands of the block, one constructor per row of the table. -/
inductive Instr where
  /-- `ADD` (R51): S-slot add: rd = rs1 + rs2, 64-bit, wrapping without a fault. -/
  | add (sl : Slot) (rd rs1 rs2 : Reg)
  /-- `SUB` (R51): S-slot subtract: rd = rs1 - rs2, wrapping without a fault. -/
  | sub (sl : Slot) (rd rs1 rs2 : Reg)
  /-- `AND` (R51): S-slot bitwise and of rs1 and rs2. -/
  | andW (sl : Slot) (rd rs1 rs2 : Reg)
  /-- `OR` (R51): S-slot bitwise or of rs1 and rs2. -/
  | orW (sl : Slot) (rd rs1 rs2 : Reg)
  /-- `XOR` (R51): S-slot bitwise exclusive or of rs1 and rs2. -/
  | xorW (sl : Slot) (rd rs1 rs2 : Reg)
  /-- `SLL` (R51): Shifts rs1 left by rs2[5:0]. -/
  | sll (sl : Slot) (rd rs1 rs2 : Reg)
  /-- `SRL` (R51): Shifts rs1 right logically by rs2[5:0]. -/
  | srl (sl : Slot) (rd rs1 rs2 : Reg)
  /-- `SRA` (R51): Shifts rs1 right arithmetically by rs2[5:0]. -/
  | sra (sl : Slot) (rd rs1 rs2 : Reg)
  /-- `SLT` (R51): Sets rd to 1 if rs1 < rs2 signed, otherwise 0. -/
  | slt (sl : Slot) (rd rs1 rs2 : Reg)
  /-- `SLTU` (R51): Sets rd to 1 if rs1 < rs2 unsigned, otherwise 0. -/
  | sltu (sl : Slot) (rd rs1 rs2 : Reg)
  /-- `MUL` (R51): Writes the low 64 bits of the product, latency 3. -/
  | mul (sl : Slot) (rd rs1 rs2 : Reg)
  /-- `MULH` (R51): Writes the high 64 bits of the signed product. -/
  | mulh (sl : Slot) (rd rs1 rs2 : Reg)
  /-- `DIV` (R51): Signed quotient truncated toward zero; division by zero and overflow give defined results. -/
  | div (sl : Slot) (rd rs1 rs2 : Reg)
  /-- `DIVU` (R51): Unsigned quotient; division by zero gives all ones. -/
  | divu (sl : Slot) (rd rs1 rs2 : Reg)
  /-- `REM` (R51): Signed remainder with the sign of the dividend. -/
  | rem (sl : Slot) (rd rs1 rs2 : Reg)
  /-- `REMU` (R51): Unsigned remainder; division by zero gives the dividend. -/
  | remu (sl : Slot) (rd rs1 rs2 : Reg)
  /-- `ADDI` (R51): Adds the sign-extended imm22 to rs1. -/
  | addi (sl : Slot) (rd rs1 : Reg) (imm : BitVec 22)
  /-- `ANDI` (R51): Ands rs1 with the sign-extended imm22. -/
  | andi (sl : Slot) (rd rs1 : Reg) (imm : BitVec 22)
  /-- `ORI` (R51): Ors rs1 with the sign-extended imm22. -/
  | ori (sl : Slot) (rd rs1 : Reg) (imm : BitVec 22)
  /-- `XORI` (R51): Xors rs1 with the sign-extended imm22. -/
  | xori (sl : Slot) (rd rs1 : Reg) (imm : BitVec 22)
  /-- `SLLI` (R51): Shifts rs1 left by imm[5:0]. -/
  | slli (sl : Slot) (rd rs1 : Reg) (imm : BitVec 22)
  /-- `SRLI` (R51): Shifts rs1 right logically by imm[5:0]. -/
  | srli (sl : Slot) (rd rs1 : Reg) (imm : BitVec 22)
  /-- `SRAI` (R51): Shifts rs1 right arithmetically by imm[5:0]. -/
  | srai (sl : Slot) (rd rs1 : Reg) (imm : BitVec 22)
  /-- `SLTI` (R51): Sets rd to 1 if rs1 is below the signed immediate. -/
  | slti (sl : Slot) (rd rs1 : Reg) (imm : BitVec 22)
  /-- `LUI` (R51): Writes imm27 sign-extended and shifted left 22 to rd. -/
  | lui (sl : Slot) (rd : Reg) (imm : BitVec 27)
  /-- `LUH` (R51): Writes imm27[15:0] into rd[63:48] and keeps rd[47:0]. -/
  | luh (sl : Slot) (rd : Reg) (imm : BitVec 27)
  /-- `BEQ` (R53): Branches if rs1 = rs2, with one delay issue. -/
  | beq (sl : Slot) (rs1 rs2 : Reg) (off : BitVec 22)
  /-- `BNE` (R53): Branches if rs1 differs from rs2, with one delay issue. -/
  | bne (sl : Slot) (rs1 rs2 : Reg) (off : BitVec 22)
  /-- `BLT` (R53): Branches on signed less-than. -/
  | blt (sl : Slot) (rs1 rs2 : Reg) (off : BitVec 22)
  /-- `BGE` (R53): Branches on signed greater-or-equal. -/
  | bge (sl : Slot) (rs1 rs2 : Reg) (off : BitVec 22)
  /-- `BLTU` (R53): Branches on unsigned less-than. -/
  | bltu (sl : Slot) (rs1 rs2 : Reg) (off : BitVec 22)
  /-- `BGEU` (R53): Branches on unsigned greater-or-equal. -/
  | bgeu (sl : Slot) (rs1 rs2 : Reg) (off : BitVec 22)
  /-- `JAL` (R53): Writes the link and jumps by imm27 bundles. -/
  | jal (sl : Slot) (rd : Reg) (imm : BitVec 27)
  /-- `JALR` (R53): Writes the link and jumps to bundle address rs1 + imm22. -/
  | jalr (sl : Slot) (rd rs1 : Reg) (imm : BitVec 22)
  /-- `LD` (R52): Loads 64 bits from the scratchpad window at rs1 + imm22. -/
  | ld (sl : Slot) (rd rs1 : Reg) (imm : BitVec 22)
  /-- `LW` (R52): Loads 32 bits, zero-extended, from the scratchpad window. -/
  | lw (sl : Slot) (rd rs1 : Reg) (imm : BitVec 22)
  /-- `SD` (R52): Stores 64 bits to the scratchpad window. -/
  | sd (sl : Slot) (rd rs1 : Reg) (imm : BitVec 22)
  /-- `SW` (R52): Stores 32 bits to the scratchpad window. -/
  | sw (sl : Slot) (rd rs1 : Reg) (imm : BitVec 22)
  /-- `CSRR` (R53): Reads a register of the core's own block at offset imm22. -/
  | csrr (sl : Slot) (rd rs1 : Reg) (imm : BitVec 22)
  /-- `STOP` (R379): The engine issues nothing further; the core reports when all three engines have stopped. -/
  | stop (sl : Slot)
  /-- `VADD` (R54): FP32 vector add under the predicate. -/
  | vadd (sl : Slot) (vd vs1 vs2 : Reg)
  /-- `VSUB` (R54): FP32 vector subtract. -/
  | vsub (sl : Slot) (vd vs1 vs2 : Reg)
  /-- `VMUL` (R54): FP32 vector multiply. -/
  | vmul (sl : Slot) (vd vs1 vs2 : Reg)
  /-- `VFMA` (R54): FP32 fused multiply-add rounded once. -/
  | vfma (sl : Slot) (vd vs1 vs2 vs3 : Reg)
  /-- `VMAX` (R54): FP32 maximumNumber per lane. -/
  | vmax (sl : Slot) (vd vs1 vs2 : Reg)
  /-- `VMIN` (R54): FP32 minimumNumber per lane. -/
  | vmin (sl : Slot) (vd vs1 vs2 : Reg)
  /-- `VABS` (R54): FP32 absolute value of vs1. -/
  | vabs (sl : Slot) (vd vs1 : Reg)
  /-- `VNEG` (R54): FP32 negation of vs1. -/
  | vneg (sl : Slot) (vd vs1 : Reg)
  /-- `VADD_BF` (R54): BF16 add on 512 elements. -/
  | vaddBf (sl : Slot) (vd vs1 vs2 : Reg)
  /-- `VMUL_BF` (R54): BF16 multiply on 512 elements. -/
  | vmulBf (sl : Slot) (vd vs1 vs2 : Reg)
  /-- `VFMA_BF` (R54): BF16 fused multiply-add. -/
  | vfmaBf (sl : Slot) (vd vs1 vs2 vs3 : Reg)
  /-- `VMAX_BF` (R54): BF16 maximum per element. -/
  | vmaxBf (sl : Slot) (vd vs1 vs2 : Reg)
  /-- `VMIN_BF` (R54): BF16 minimum per element. -/
  | vminBf (sl : Slot) (vd vs1 vs2 : Reg)
  /-- `VEXP` (R55): FP32 exponential within 1 ulp by the fixed method. -/
  | vexp (sl : Slot) (vd vs1 : Reg)
  /-- `VLOG` (R55): FP32 logarithm within 1 ulp. -/
  | vlog (sl : Slot) (vd vs1 : Reg)
  /-- `VRSQRT` (R55): FP32 reciprocal square root within 1 ulp. -/
  | vrsqrt (sl : Slot) (vd vs1 : Reg)
  /-- `VREDSUM` (R56): FP32 sum of lanes by the fixed pairwise tree into lane 0. -/
  | vredsum (sl : Slot) (vd vs1 : Reg)
  /-- `VREDMAX` (R56): FP32 maximum of lanes by the fixed tree. -/
  | vredmax (sl : Slot) (vd vs1 : Reg)
  /-- `VREDSQ` (R56): FP32 sum of squares by the fixed tree. -/
  | vredsq (sl : Slot) (vd vs1 : Reg)
  /-- `VPERM` (R50): Permutes lanes of vs1 by the indices in vs2. -/
  | vperm (sl : Slot) (vd vs1 vs2 : Reg)
  /-- `VSPLAT` (R50): Copies a scalar register's low 32 bits into every lane. -/
  | vsplat (sl : Slot) (vd vs1 : Reg)
  /-- `VCVT` (R57): Converts between element formats by part, narrowing or widening. -/
  | vcvt (sl : Slot) (vd vs1 : Reg) (mod : BitVec 12)
  /-- `VCMP` (R50): Writes a predicate from an FP32 lane comparison. -/
  | vcmp (sl : Slot) (vd vs1 vs2 : Reg) (mod : BitVec 12)
  /-- `PAND` (R50): Predicate and. -/
  | pand (sl : Slot) (vd vs1 vs2 : Reg)
  /-- `POR` (R50): Predicate or. -/
  | por (sl : Slot) (vd vs1 vs2 : Reg)
  /-- `PNOT` (R50): Predicate not. -/
  | pnot (sl : Slot) (vd vs1 : Reg)
  /-- `PXOR` (R50): Predicate exclusive or. -/
  | pxor (sl : Slot) (vd vs1 vs2 : Reg)
  /-- `QWAIT` (R23): Waits until n entries are present (consumer) or free (producer). -/
  | qwait (sl : Slot) (q : Fin 16) (n : BitVec 7)
  /-- `QWAIT_RELEASE` (R23): A held qwait releases when its queue condition comes to hold. -/
  | qwaitRelease (c : CoreId) (e : Engine)
  /-- `QPOP` (R58): Pops 16 entries into a vector register. -/
  | qpop (sl : Slot) (q : Fin 16) (r : Reg)
  /-- `QPUSH` (R58): Pushes a vector register as 16 entries. -/
  | qpush (sl : Slot) (q : Fin 16) (r : Reg)
  /-- `QFETCH` (R118): Reads the tensor of a descriptor slot from memory and pushes it into a queue. -/
  | qfetch (sl : Slot) (q : Fin 16) (r : Reg)
  /-- `QSTORE` (R118): Pops a queue and writes the tensor of a descriptor slot. -/
  | qstore (sl : Slot) (q : Fin 16) (r : Reg)
  /-- `QDRAIN` (R23): Pops n entries into scratchpad at an aligned offset. -/
  | qdrain (sl : Slot) (q : Fin 16) (r : Reg) (n : BitVec 7)
  /-- `VLD` (R52): Loads 1 KiB from scratchpad into a vector register. -/
  | vld (sl : Slot) (r xs : Reg) (imm : BitVec 22)
  /-- `VST` (R68): Stores 1 KiB from a vector register to scratchpad. -/
  | vst (sl : Slot) (r xs : Reg) (imm : BitVec 22)
  /-- `DLD` (R106): Loads a 128-byte descriptor image into an owned slot. -/
  | dld (sl : Slot) (r xs : Reg) (imm : BitVec 22)
  /-- `DBASE` (R61): Replaces only the base address of an owned descriptor slot. -/
  | dbase (sl : Slot) (d xs : Reg)
  /-- `TWAIT` (R285): Waits until a tally reaches the target. -/
  | twait (sl : Slot) (t : BitVec 12) (xs : Reg)
  /-- `TWAIT_YIELD` (R225): Compute-engine twait with xs[63] set, letting deferred pieces run while held. -/
  | twaitYield (sl : Slot) (t : BitVec 12) (xs : Reg)
  /-- `TWAIT_RELEASE` (R285): A held twait releases when its tally reaches the target. -/
  | twaitRelease (c : CoreId) (e : Engine)
  /-- `YIELD_RELEASE` (R227): A yielding wait releases once its condition holds and no piece holds the units. -/
  | yieldRelease (c : CoreId)
  /-- `TSIG` (R286): Advances a tally by imm15. -/
  | tsig (sl : Slot) (t : BitVec 12) (imm : BitVec 15)
  /-- `TSIG_X` (R286): Advances a tally by xs[47:0]. -/
  | tsigX (sl : Slot) (t : BitVec 12) (xs : Reg)
  /-- `TSIG_R` (R291): Sends a counted remote signal carrying a byte count to a tally named by global address. -/
  | tsigR (sl : Slot) (xa xb : Reg)
  /-- `TRD` (R287): Reads a tally of the own cluster into a scalar register. -/
  | trd (sl : Slot) (t : BitVec 12) (xs : Reg)
  /-- `FARR` (R297): Records the core's arrival at a fold round, naming the tally to advance. -/
  | farr (sl : Slot) (t : BitVec 12) (imm : BitVec 15)
  /-- `BWAIT` (R33): Waits until the disciplined beat count reaches the operand. -/
  | bwait (sl : Slot) (xs : Reg)
  /-- `BWAIT_RELEASE` (R33): A held bwait releases when the beat count reaches the operand. -/
  | bwaitRelease (c : CoreId) (e : Engine)
  /-- `BRD` (R359): Reads the beat count into a scalar register. -/
  | brd (sl : Slot) (xs : Reg)
  /-- `WLD` (R131): Loads a weight tile image into the shadow pair from the relay or own scratchpad. -/
  | wld (sl : Slot) (d1 : Reg) (t : BitVec 12)
  /-- `WLD_PATCH` (R139): Loads a tile and merges the tenant patch segment into it. -/
  | wldPatch (sl : Slot) (d1 d2 : Reg) (t : BitVec 12)
  /-- `SHADOW_LOAD_COMPLETE` (R131): The loaded tile becomes swappable and the relay buffer entry is freed. -/
  | shadowLoadComplete (c : CoreId)
  /-- `MMA_D` (R125): Dense 8-bit array pass streaming activations through the active weights. -/
  | mmaD (sl : Slot) (d1 xs : Reg)
  /-- `MMA_S24` (R123): 2:4 8-bit array pass of 128 input channels. -/
  | mmaS24 (sl : Slot) (d1 xs : Reg)
  /-- `MMA_MX4` (R124): MXFP4 array pass, dense or 2:4 by the control word. -/
  | mmaMx4 (sl : Slot) (d1 xs : Reg)
  /-- `MMA_BF` (R123): BF16 or FP16 array pass, mode taken from the tile. -/
  | mmaBf (sl : Slot) (d1 xs : Reg)
  /-- `PASS_ROW_RESULT` (R127): A pass's result row is rounded and written to its accumulator row. -/
  | passRowResult (c : CoreId)
  /-- `MMA_ISECT` (R145): Two-sided sparse 64x64 product through the intersect front-end. -/
  | mmaIsect (sl : Slot) (d1 d2 xs : Reg)
  /-- `ISECT_COUNT_STAGE` (R154): Reads a k-tile of both operands, forms presence maps and match counts. -/
  | isectCountStage (c : CoreId)
  /-- `ISECT_WALK_CHOICE` (R156): At a walk cycle free lanes take own, stolen or pool segments. -/
  | isectWalkChoice (c : CoreId)
  /-- `ISECT_MERGE` (R153): Adds a round's contributions into the accumulator in ascending round. -/
  | isectMerge (c : CoreId)
  /-- `ISECT_DONE` (R150): After the last merge the isect advances DONE and its rows become readable. -/
  | isectDone (c : CoreId)
  /-- `MMA_PRED` (R141): INT4 predictor pass writing integer scores and optionally a selection. -/
  | mmaPred (sl : Slot) (d1 d2 xs : Reg)
  /-- `PRED_SELECTION_WRITE` (R142): The selection record is written and its range retires. -/
  | predSelectionWrite (c : CoreId)
  /-- `MMA_SEL` (R143): Gathers selected weight columns, swaps them in and streams activations. -/
  | mmaSel (sl : Slot) (d1 d2 xs : Reg)
  /-- `DRAIN` (R198): Drains accumulator rows through scale, non-linearity, statistics, scores and selection to scratchpad. -/
  | drain (sl : Slot) (d1 d2 xs : Reg) (t : BitVec 12)
  /-- `DRAIN_SPILL` (R210): Drain with SPM 1 or 2 writing rows to the binary64 buffer and clearing them. -/
  | drainSpill (sl : Slot) (d1 d2 xs : Reg) (t : BitVec 12)
  /-- `DRAIN_SLOT` (R204): A drain slot reads its elements and, 6S issues later, writes its values. -/
  | drainSlot (c : CoreId)
  /-- `DRAIN_COMPLETE` (R204): At C the SCOPE 1 entry is written, ranges retire and the tally advances. -/
  | drainComplete (c : CoreId)
  /-- `ACCRD` (R48): Reads four accumulator rows into a vector register. -/
  | accrd (sl : Slot) (vd xs : Reg) (imm : BitVec 22)
  /-- `ACCCLR` (R211): Zeroes an accumulator set and sets its pass count to 0. -/
  | accclr (sl : Slot) (imm : BitVec 22)
  /-- `RESULT_LAND` (R28): An issued operation's result lands and becomes readable L issues later. -/
  | resultLand (c : CoreId) (e : Engine)
  /-- `STORE_VISIBLE` (R68): A compute-engine store becomes visible to other agents 8 cycles after issue. -/
  | storeVisible (c : CoreId)
  /-- `BANK_GRANT_RETRY` (R67): A refused bank request asks again in the next cycle. -/
  | bankGrantRetry (c : CoreId) (e : Engine)
  /-- `SCOREBOARD_RANGE_RETIRE` (R85): A registered range retires when its agent's last access completes, releasing held accesses. -/
  | scoreboardRangeRetire (c : CoreId) (i : Nat)
  /-- `TURN` (R119): Permutes and converts the tensor of d1 into d2. -/
  | turn (sl : Slot) (d1 d2 xs : Reg) (t : BitVec 12)
  /-- `TURN_COMPLETE` (R121): After its last write commits the Turn advances its tally and returns the credit. -/
  | turnComplete (k : ClusterId)
  /-- `MOV_GO` (R261): Starts a Mover channel on a descriptor list. -/
  | movGo (sl : Slot) (xa xb : Reg)
  /-- `MOV_RING` (R269): Binds a channel to a ring block or unbinds it. -/
  | movRing (sl : Slot) (xa xb : Reg)
  /-- `MOV_ABORT` (R271): Aborts a Mover channel. -/
  | movAbort (sl : Slot) (xa : Reg)
  /-- `MOVER_DESCRIPTOR_FETCH` (R262): The channel fetches and checks a descriptor whole before its first access. -/
  | moverDescriptorFetch (k : ClusterId) (ch : Fin 128)
  /-- `RING_RESUME` (R270): A paused ring channel resumes when its level reaches START after a tally advance. -/
  | ringResume (k : ClusterId) (ch : Fin 128)
  /-- `MOVER_PACE_TAKE` (R268): A PWAIT descriptor starts once the pace count is at least 1 and subtracts 1. -/
  | moverPaceTake (k : ClusterId) (ch : Fin 128)
  /-- `MOVER_READ_REQUEST` (R273): A channel issues a read request of at most 512 B when a tag is free. -/
  | moverReadRequest (k : ClusterId) (ch : Fin 128)
  /-- `MOVER_WRITE_COMMIT` (R266): A request's write commits at its destination in request order. -/
  | moverWriteCommit (k : ClusterId) (ch : Fin 128)
  /-- `MOVER_DESCRIPTOR_COMPLETE` (R267): On completion the channel advances ETAL, sends MD_RSIG and pulses pace. -/
  | moverDescriptorComplete (k : ClusterId) (ch : Fin 128)
  /-- `MOVER_STOP` (R271): An aborting or faulted channel stops after issued requests complete and writes its status record. -/
  | moverStop (k : ClusterId) (ch : Fin 128)
  /-- `RELAY_IMAGE_ENTER` (R280): An image from a relay descriptor enters the cluster relay, at most one per 32 cycles. -/
  | relayImageEnter (k : ClusterId)
  /-- `RELAY_HOP` (R280): An image reaches the next core; a receiver buffers it and advances its relay tally. -/
  | relayHop (k : ClusterId) (i : Nat)
  /-- `CHAIN` (R275): Ordinary chain running a tile through fetch, Turn, array, drain and store. -/
  | chain (sl : Slot) (d1 d2 d3 xs : Reg) (t : BitVec 12)
  /-- `CHAIN_DEFERRED` (R224): Chain with CLASS 1 whose array and drain run only in pieces during yields. -/
  | chainDeferred (sl : Slot) (d1 d2 d3 xs : Reg) (t : BitVec 12)
  /-- `CHAIN_FETCH_STAGE` (R276): Reads a pass's operands into a staging slot once the slot is free. -/
  | chainFetchStage (c : CoreId) (k : Nat)
  /-- `CHAIN_TURN_STAGE` (R276): Applies the chain's Turn control words through the Turn unit. -/
  | chainTurnStage (c : CoreId) (k : Nat)
  /-- `CHAIN_IMAGE_BUILD` (R279): Builds a tile image from the weight source. -/
  | chainImageBuild (c : CoreId) (k : Nat)
  /-- `CHAIN_PASS` (R276): Loads, swaps and issues one pass of the chain, spilling every SPN passes. -/
  | chainPass (c : CoreId) (k : Nat)
  /-- `CHAIN_DRAIN_STAGE` (R276): After the last pass runs one drain into output staging. -/
  | chainDrainStage (c : CoreId) (k : Nat)
  /-- `CHAIN_STORE_STAGE` (R276): Writes staged output to d3 and then advances the chain tally. -/
  | chainStoreStage (c : CoreId) (k : Nat)
  /-- `DEFERRED_PASS_PIECE` (R226): During a yielding wait a shadow load and pass of a deferred chain start. -/
  | deferredPassPiece (c : CoreId)
  /-- `DEFERRED_DRAIN_PIECE` (R226): During a yielding wait a deferred chain's drain starts. -/
  | deferredDrainPiece (c : CoreId)
  /-- `HERD_ROUTE` (R304): Ranks router logits into top-k route records. -/
  | herdRoute (sl : Slot) (d1 xs : Reg) (t : BitVec 12)
  /-- `HERD_PACK` (R305): Counts choices, prefix-sums and packs rows and tags by expert. -/
  | herdPack (sl : Slot) (d1 xs : Reg) (t : BitVec 12)
  /-- `HERD_SEND_OPEN` (R308): Makes a pair live at this cluster and computes expert capacities. -/
  | herdSendOpen (sl : Slot) (d1 xs : Reg) (t : BitVec 12)
  /-- `HERD_SEND_DISPATCH` (R309): Sends packed rows and count messages to each home. -/
  | herdSendDispatch (sl : Slot) (d1 xs : Reg) (t : BitVec 12)
  /-- `HERD_SEND_RETURN` (R313): Returns expert outputs to sources with done messages. -/
  | herdSendReturn (sl : Slot) (d1 xs : Reg) (t : BitVec 12)
  /-- `HERD_SEND_CANCEL` (R316): Makes a pair not live and discards its state. -/
  | herdSendCancel (sl : Slot) (d1 xs : Reg) (t : BitVec 12)
  /-- `HERD_COMB` (R315): Waits for every home's done message before combining. -/
  | herdComb (sl : Slot) (d1 xs : Reg) (t : BitVec 12)
  /-- `HERD_COMBINE` (R315): Once every done message has acted, combines returns by gate weight and closes the pair. -/
  | herdCombine (k : ClusterId)
  /-- `HERD_ROW_ARRIVAL` (R311): A home keeps, evicts for or drops an arriving row by priority. -/
  | herdRowArrival (i : Nat)
  /-- `HERD_COUNT_MESSAGE` (R309): A count message acts at the home after its rows have committed. -/
  | herdCountMessage (i : Nat)
  /-- `HERD_FINALISE` (R312): After all count messages, the home writes kept rows, tags and statistics and advances RTAL. -/
  | herdFinalise (k : ClusterId) (serial : BitVec 12) (half : Bool)
  /-- `HERD_RETURN_ARRIVAL` (R314): A returned row is written at the source or discarded or refused. -/
  | herdReturnArrival (i : Nat)
  /-- `HERD_DONE_MESSAGE` (R313): A done message acts at the source after its rows have committed. -/
  | herdDoneMessage (i : Nat)
  /-- `KILN_STEP` (R240): Accepts an update command and waits for its norm tally. -/
  | kilnStep (sl : Slot) (xa : Reg) (t : BitVec 12)
  /-- `KILN_STEP_START` (R242): When the norm tally reaches its target the Kiln reads slots, computes the norm and starts updating. -/
  | kilnStepStart (n : Fin 14) (i : Nat)
  /-- `KILN_RING_CHUNK` (R254): Consumes a ring chunk when its producer segment is signalled, advancing RCONS. -/
  | kilnRingChunk (n : Fin 14) (i : Nat)
  /-- `KILN_STEP_COMPLETE` (R247): Writes MH_USTEP and the result, reports to the MC and advances the tally. -/
  | kilnStepComplete (n : Fin 14) (i : Nat)
  /-- `KILN_FIRE` (R255): Fires working copies from the current masters. -/
  | kilnFire (sl : Slot) (xa : Reg) (t : BitVec 12)
  /-- `KILN_FILL` (R256): Writes a repeated 64-bit pattern over a destination range. -/
  | kilnFill (sl : Slot) (xa : Reg) (t : BitVec 12)
  /-- `KILN_EXPORT` (R257): Writes a tenant delta as digested shards with an index. -/
  | kilnExport (sl : Slot) (xa : Reg) (t : BitVec 12)
  /-- `KILN_CAST_COUNT` (R186): Casts the COUNT smallest castable positions. -/
  | kilnCastCount (sl : Slot) (xa : Reg) (t : BitVec 12)
  /-- `KILN_CAST_THRESHOLD` (R186): Casts every castable position below THR. -/
  | kilnCastThreshold (sl : Slot) (xa : Reg) (t : BitVec 12)
  /-- `KILN_GROW` (R188): Grows up to COUNT candidates under the transposable and velvet rules. -/
  | kilnGrow (sl : Slot) (xa : Reg) (t : BitVec 12)
  /-- `KILN_GROW_FOLD` (R184): Folds a score list into the candidate table with decay and trim. -/
  | kilnGrowFold (sl : Slot) (xa : Reg) (t : BitVec 12)
  /-- `KILN_GROW_EMPTY` (R185): Empties the candidate table. -/
  | kilnGrowEmpty (sl : Slot) (xa : Reg) (t : BitVec 12)
  /-- `KILN_SEL` (R190): Transposable reselection of block patterns. -/
  | kilnSel (sl : Slot) (xa : Reg) (t : BitVec 12)
  /-- `MASK_COMMAND_START` (R180): A mask command starts once every earlier command on its header has completed. -/
  | maskCommandStart (n : Fin 14) (i : Nat)
  /-- `COUNTED_SIGNAL_ACT` (R293): A held counted signal acts once its stream's uncredited bytes cover its count. -/
  | countedSignalAct (src : BitVec 16) (stream : BitVec 12)
  /-- `LOCAL_SIGNAL_ARRIVE` (R287): A local signal to another cluster takes effect over the network-on-chip. -/
  | localSignalArrive (i : Nat)
  /-- `FOLD_COMPLETE` (R297): After the last arrival the round completes, advancing named tallies and clearing ARRIVED. -/
  | foldComplete (k : ClusterId) (f : Fin 16)
  /-- `PATROL_SCRUB` (R330): Each beat the scrub reads and corrects SCRUB lines. -/
  | patrolScrub (u : Fin 20)
  /-- `CAL_WINDOW_OPEN` (R334): At MEM_CALN a re-calibration window pauses one stack or channel. -/
  | calWindowOpen (u : Fin 20)
  /-- `CAL_WINDOW_CLOSE` (R334): The window ends and waiting requests are served in arrival order. -/
  | calWindowClose (u : Fin 20)
  /-- `CAL_WINDOW_FORCED` (R336): After LIMIT beats without a window one runs at once. -/
  | calWindowForced (u : Fin 20)
  /-- `PORT_TRAINING` (R339): A port trains its lanes and comes up on 4, 2 or 1 lanes. -/
  | portTraining (p : Fin 16) (ok : BitVec 4)
  /-- `PORT_LINK_TIMEOUT` (R353): A port without a link after 2 s is down. -/
  | portLinkTimeout (p : Fin 16)
  /-- `LANE_DROP` (R339): A lane over the FEC threshold is dropped by a retrain. -/
  | laneDrop (p : Fin 16) (lane : Fin 4)
  /-- `LINK_RETRAIN` (R344): A port retrains after 8 NAKs, keeping its replay buffer. -/
  | linkRetrain (p : Fin 17)
  /-- `ACK_TIMEOUT` (R344): 1 us without acknowledgement causes a retrain. -/
  | ackTimeout (p : Fin 17)
  /-- `CREDIT_RETURN` (R343): A receiving port returns owed credits in link-control frames at least every 100 ns. -/
  | creditReturn (p : Fin 17)
  /-- `FRAME_PORT_TAKE` (R348): A waiting frame takes a candidate or the deterministic port once credits allow. -/
  | framePortTake (i : Nat)
  /-- `WRITE_FRAME` (R351): A write frame is checked, reordered by SSEQ, committed and acknowledged. -/
  | writeFrame (p : Fin 17) (fr : Frame)
  /-- `READ_REQUEST_FRAME` (R352): A remote read request is checked against import tables and served. -/
  | readRequestFrame (p : Fin 17) (fr : Frame)
  /-- `READ_RESPONSE_FRAME` (R342): A read response returns data to the requester. -/
  | readResponseFrame (p : Fin 17) (fr : Frame)
  /-- `WRITE_ACK_FRAME` (R346): A write acknowledgement completes a remote write. -/
  | writeAckFrame (p : Fin 17) (fr : Frame)
  /-- `ERROR_RESPONSE_FRAME` (R346): An error response ends the source unit with the fault of its reason. -/
  | errorResponseFrame (p : Fin 17) (fr : Frame)
  /-- `COUNTED_SIGNAL_FRAME` (R292): A counted signal is accepted and held, or refused. -/
  | countedSignalFrame (p : Fin 17) (fr : Frame)
  /-- `FOLD_ARRIVAL_FRAME` (R357): A fabric fold arrival from a child reaches its parent. -/
  | foldArrivalFrame (p : Fin 17) (fr : Frame)
  /-- `FOLD_COMPLETION_FRAME` (R357): A fold completion is applied locally and forwarded to children. -/
  | foldCompletionFrame (p : Fin 17) (fr : Frame)
  /-- `HERD_ROW_FRAME` (R309): A Herd row frame carries a dispatched or returned row. -/
  | herdRowFrame (p : Fin 17) (fr : Frame)
  /-- `HERD_MESSAGE_FRAME` (R309): A Herd count or done message frame arrives. -/
  | herdMessageFrame (p : Fin 17) (fr : Frame)
  /-- `LINK_CONTROL_FRAME` (R344): Carries acknowledgements, NAKs, credits and lane checks on one link. -/
  | linkControlFrame (p : Fin 17) (lc : LinkCtl)
  /-- `HELLO_SEND` (R353): Each up port sends a hello every 1,000 beats. -/
  | helloSend (p : Fin 16)
  /-- `HELLO_FRAME` (R354): A received hello records or checks the neighbour's serial and port. -/
  | helloFrame (p : Fin 16) (h : Hello)
  /-- `BEAT_MARK_SEND` (R359): Every 64 beats a port sends a beat mark. -/
  | beatMarkSend (p : Fin 17)
  /-- `BEAT_MARK_FRAME` (R361): A received mark measures the link and disciplines the beat rate. -/
  | beatMarkFrame (p : Fin 17) (m : BeatMark)
  /-- `BEAT_UPSTREAM_LOST` (R362): After 16 missed upstream marks the device switches upstream or enters holdover. -/
  | beatUpstreamLost
  /-- `FABRIC_RESPONSE_TIMEOUT` (R345): A request without response within TMO beats ends with a fabric fault. -/
  | fabricResponseTimeout (i : Nat)
  /-- `WRITE_RESEND` (R351): A write refused for a busy reorder store is resent after 1 us. -/
  | writeResend (i : Nat)
  /-- `HEARTBEAT` (R366): The MC answers a control-node heartbeat. -/
  | heartbeat
  /-- `HEARTBEAT_MISS` (R366): A heartbeat not arriving within 2 x HBP beats is counted as missed. -/
  | heartbeatMiss
  /-- `MC_CMDQ_ENQUEUE` (R371): An MC command block is queued, or refused when the queue is full. -/
  | mcCmdqEnqueue (blk : List Byte)
  /-- `CTX_ACQUIRE` (R373): At its beat, checks and acquires a context on named cores and starts their engines. -/
  | ctxAcquire
  /-- `CTX_RELEASE` (R380): At its beat releases a context, aborting channels, cancelling pairs and scrubbing cores. -/
  | ctxRelease
  /-- `CTX_RELEASE_SCRUB_KEPT` (R383): A later release with KEEPS 0 scrubs the cores kept by a deferred scrub. -/
  | ctxReleaseScrubKept
  /-- `CTX_RELEASE_COMPLETE` (R380): When started commands have ended the context becomes parked and a released record is sent. -/
  | ctxReleaseComplete (x : CtxId)
  /-- `CORE_SCRUB_COMPLETE` (R381): A core's scrub finishes and it becomes available for acquisition. -/
  | coreScrubComplete (c : CoreId)
  /-- `CTX_SWITCH` (R384): Releases one context and checks the acquire of another on the same cores. -/
  | ctxSwitch
  /-- `SWITCH_ACQUIRE` (R384): The switch's acquire acts once every core's scrub is complete. -/
  | switchAcquire
  /-- `WAIT_LIMIT_EXPIRY` (R375): A wait held beyond WLIM is ended and the core stops with a tally fault. -/
  | waitLimitExpiry (c : CoreId) (e : Engine)
  /-- `MC_FILL` (R256): The MC runs a fill on the Kiln serving FL_DST under no context. -/
  | mcFill
  /-- `FILL_COMPLETE` (R256): When the fill's last write commits the MC sends a fill-complete record. -/
  | fillComplete (n : Fin 14) (i : Nat)
  /-- `CONE_TICK` (R388): Every 1,000 beats the Cone updates its point count and level. -/
  | coneTick
  /-- `SECURE_ROUND_ARM` (R395): MC command arming a secure round, optionally NOW. -/
  | secureRoundArm
  /-- `SECURE_POINT` (R394): A live context reaches its secure point at its next serial advance or stop. -/
  | securePoint (x : CtxId)
  /-- `REGION_COPY` (R396): A Kiln reads a plan region, digests shards and writes them to keep-areas. -/
  | regionCopy (i : Nat)
  /-- `ROUND_SEAL` (R396): The MC writes the system region, manifest and seal and updates SEC_LAST. -/
  | roundSeal
  /-- `RESTORE` (R399): Restores regions from an image, checking shard digests, and rewrites context state. -/
  | restore
  /-- `REPLICA_DIGEST_FRAME` (R401): A member's step digest travels up the replica tree. -/
  | replicaDigestFrame (x : CtxId) (rank : BitVec 16) (digest : List Byte)
  /-- `REPLICA_VERDICT` (R401): The root decides a verdict and sends it down the tree. -/
  | replicaVerdict (x : CtxId) (v : Verdict)
  /-- `PEER_COPY` (R402): A divergent member copies the giver's regions and rechecks its digest. -/
  | peerCopy (x : CtxId) (data : List Byte)
  /-- `FENCE_COMMAND` (R404): Control-node command fencing a named unit. -/
  | fenceCommand
  /-- `SEQUENCER_WATCHDOG` (R403): A cluster sequencer watchdog expires and the cluster is fenced. -/
  | sequencerWatchdog (k : ClusterId)
  /-- `SERVICE_DRAIN` (R431): Service action 0x1: drain a unit only. -/
  | serviceDrain
  /-- `SERVICE_KNOWN_ANSWER` (R432): Service action 0x2: known-answer runs on a drained unit. -/
  | serviceKnownAnswer
  /-- `SERVICE_MEMORY_TEST` (R432): Service action 0x3: full memory test of a stack or pair. -/
  | serviceMemoryTest
  /-- `SERVICE_FIRMWARE_RELOAD` (R429): Service action 0x4: verify a manifest and reload a cluster's firmware. -/
  | serviceFirmwareReload
  /-- `SERVICE_DEEP_RECAL` (R429): Service action 0x5: retrain a stack or pair. -/
  | serviceDeepRecal
  /-- `SERVICE_RETURN` (R430): Service action 0x6: return a drained unit to service. -/
  | serviceReturn
  /-- `UNIT_DRAINED` (R431): A closing unit becomes drained when no context or command uses it. -/
  | unitDrained (kind : Fin 3) (u : Fin 16)
  /-- `SERVICE_ACTION_START` (R432): An action starts at its beat once its unit is drained. -/
  | serviceActionStart
  /-- `SERVICE_ACTION_END` (R432): An action ends with a service result record and return, stay or fence. -/
  | serviceActionEnd (res : ActionResult)
  /-- `LOAD_IMAGE` (R419): Loads a program into the image stores of named cores with digest check. -/
  | loadImage
  /-- `SIGN_BATCH` (R445): Builds statements, a Merkle root and one signature for a batch. -/
  | signBatch
  /-- `PROVISION` (R439): Signed command 0x01: generate identity, write owner slot 0, burn B. -/
  | provision
  /-- `ENTER_GLAZE` (R438): Signed command 0x02: burn G. -/
  | enterGlaze
  /-- `OWNER_UNLOCK` (R441): Signed command 0x03: open the owner debug set until reset. -/
  | ownerUnlock
  /-- `ROTATE_OWNER_KEY` (R437): Signed command 0x04: write the next owner key slot. -/
  | rotateOwnerKey
  /-- `RETURN_TO_MAKER` (R440): Signed command 0x05: burn S, destroy keys and data, burn D. -/
  | returnToMaker
  /-- `COLD_RESET` (R453): COLD_RST# low starts a cold reset. -/
  | coldReset
  /-- `WARM_RESET` (R453): WARM_RST# low puts DDR5 in self-refresh and restarts in quick mode. -/
  | warmReset
  /-- `STAGE_S0` (R411): ROM, flash read, manifest verification, Gwemosin port bring-up. -/
  | stageS0 (r : StageInput)
  /-- `STAGE_S1` (R416): Staggered power-up of internal domains. -/
  | stageS1 (r : StageInput)
  /-- `STAGE_S2` (R416): Base die, mesh and SRAM self-test; clusters leave reset staggered. -/
  | stageS2 (r : StageInput)
  /-- `STAGE_S3` (R321): HBM training and region assignment. -/
  | stageS3 (r : StageInput)
  /-- `STAGE_S4` (R422): HBM test. -/
  | stageS4 (r : StageInput)
  /-- `STAGE_S5` (R423): DDR5 training, module checks and test. -/
  | stageS5 (r : StageInput)
  /-- `STAGE_S6` (R418): Firmware staging and per-core image fetch and check. -/
  | stageS6 (r : StageInput)
  /-- `STAGE_S7` (R420): Known-answer runs of every unit. -/
  | stageS7 (r : StageInput)
  /-- `STAGE_S8` (R353): Fabric link-up and discovery. -/
  | stageS8 (r : StageInput)
  /-- `STAGE_S9` (R361): Beat lock and ready. -/
  | stageS9 (r : StageInput)
  /-- `POWER_SAMPLE` (R454): Every 50 us the device measures power and steps the clock against the cap. -/
  | powerSample (p : PowerReading)
  /-- `AVS_COMPLETION` (R456): On the regulator's AVSBus completion the clock is raised. -/
  | avsCompletion
  /-- `ACTIVITY_ESTIMATE` (R455): The 100 ns activity estimate stretches the clock to limit current rise. -/
  | activityEstimate (rise : Nat)
  /-- `THERMAL_STEP` (R457): Every 10 us the clock steps by the junction reading and stack rates are halved or restored. -/
  | thermalStep (temps : List Nat)
  /-- `THERMTRIP` (R458): At 110 C THERMTRIP# is driven low and every clock stops. -/
  | thermtrip (temps : List Nat)
  /-- `DROOP_EVENT` (R455): VDD_CMP below 95 % for 100 ns is counted and fed to the Cone. -/
  | droopEvent
  /-- `PMB_ALERT` (R463): PMB_ALERT# low makes the MC read the alerting regulator's status. -/
  | pmbAlert (addr : Byte) (fault : Bool)
  /-- `RECORD_FORWARD` (R469): The MC forwards a queued record to the control node on VC2 when credits allow. -/
  | recordForward
  /-- `SEQ_FPOP` (R472): Write discarding the head record of a sequencer queue. -/
  | seqFpop (k : ClusterId) (w : W64)
  /-- `CORE_STALL_READ` (R27): Read-clear of the core's wait and hold cycle counters. -/
  | coreStallRead (c : CoreId)
  /-- `SB_STAT_READ` (R86): Read returns HIGH and sets it to USED. -/
  | sbStatRead (c : CoreId)
  /-- `HERD_CNT0_READ` (R318): Read-clear of dropped and kept counts. -/
  | herdCnt0Read (k : ClusterId)
  /-- `HERD_CNT1_READ` (R318): Read-clear of stale and refused counts. -/
  | herdCnt1Read (k : ClusterId)
  /-- `MEM_ERR_READ` (R328): Read-clear of corrected and uncorrectable error counts. -/
  | memErrRead (u : Fin 20)
  /-- `MEM_CALP_READ` (R335): Read clears the LATE count. -/
  | memCalpRead (u : Fin 20)
  /-- `PORT_STAT_READ` (R344): Read clears RETRAIN and REPLAY counts. -/
  | portStatRead (p : Fin 16)
  /-- `BEAT_STAT_READ` (R362): Read clears the LOST count. -/
  | beatStatRead
  /-- `CP_STAT_READ` (R366): Read clears the missed heartbeat count. -/
  | cpStatRead
  /-- `PWR_STAT_READ` (R455): Read clears the DROOP count. -/
  | pwrStatRead
  /-- `SEQ_FSTAT_READ` (R471): Read clears the LOST count of a sequencer queue. -/
  | seqFstatRead (k : ClusterId)
  /-- `PORT_CFG_ACCEPT` (R354): Write accepting a changed neighbour so the port carries traffic again. -/
  | portCfgAccept (p : Fin 16) (w : W64)
  /-- `FAB_CFG_READY` (R353): Write setting READY after discovery so the device carries fabric traffic. -/
  | fabCfgReady (v : W64)
  /-- `CTX_DISC_CLEAR` (R369): W1C write clearing a context's DISC. -/
  | ctxDiscClear (x : CtxId) (w : W64)
  /-- `REGISTER_WRITE` (R43): MC-path write to a register without behaviour of its own, refused while a context is held where so stated. -/
  | registerWrite (addr : BitVec 48) (v : W64)
  /-- `QFETCH_ENTRY_ARRIVAL` (R118): Data of a fetch engine's qfetch read returns from HBM, DDR5 or own scratchpad and is pushed into its queue as 64-byte entries, or the read meets an uncorrectable error. -/
  | qfetchEntryArrival (c : CoreId)
  /-- `STORE_ENGINE_COMMIT` (R40): A store engine's write from a qstore commits at its destination, releasing store-engine tally signals and crediting counted-signal byte counts. -/
  | storeEngineCommit (c : CoreId)
  /-- `MC_ABORT` (R271): The MC aborts a Mover channel at the control node's request, ending it with status cause 0x04. -/
  | mcAbort (k : ClusterId) (ch : Fin 128)
  /-- `DEBUG_CORE_HALT` (R441): A debug request under owner unlock, or in Greenware or Sherd, halts a core, stopping it as R41 does and setting DISC on its context. -/
  | debugCoreHalt (c : CoreId)
  /-- `MC_PATH_READ` (R382): An MC-path read of a releasing core's state, or of memory or core state during destruction, is refused with a life-cycle or security record. -/
  | mcPathRead (addr : BitVec 48)
  deriving DecidableEq, Repr

end Sys2Proof
end

