-- ==== Sys2Proof/Config.lean ====
section
/-! DEFINITION. What the spec leaves open: free values and functions without a body (nothing can be proved about
their results beyond what the model says around them), and the constants an implementation fixes. -/

namespace Sys2Proof.Config

/-- The n-th value that the spec leaves undefined; `State.free` counts the values taken (DESIGN CHOICE, log entry 4). -/
opaque freeValue : Nat → W64
/-- A value of that kind at a place of the work in progress: the counter, the place (DESIGN CHOICE, log entries 4, 22 and 25). DESIGN CHOICE, log entry 4. -/
opaque freeAt : Nat → Nat → W64
/-- The byte that another device holds: the counter, the global address (DESIGN CHOICE, log entry 7). -/
opaque remoteByte : Nat → Nat → Byte
/-- Whether another device answers a read of a line by an error response: the counter, the line's global address counted
from 2^48 (R332; DESIGN CHOICE, log entry 7). -/
opaque remoteErr : Nat → Nat → Bool

/-- The exponential, logarithm and reciprocal square root of R55 on ordinary operands: the fixed method is not
given (DESIGN CHOICE, log entry 5). -/
opaque expFn : W32 → W32
/-- See `expFn`. DESIGN CHOICE, log entry 5. -/
opaque logFn : W32 → W32
/-- See `expFn`. DESIGN CHOICE, log entry 5. -/
opaque rsqrtFn : W32 → W32

/-- The non-linearities 2 to 5 of Table 8.3 on ordinary operands (R201: the fixed method is not given). DESIGN CHOICE, log entry 5. -/
opaque actFn : Nat → W32 → W32
/-- Their derivatives, rounded to FP32 (R200, R201). DESIGN CHOICE, log entry 5. -/
opaque actDeriv : Nat → W32 → W32

/-- Verification of an XMSS or XMSS^MT signature of NIST SP 800-208: public key, message, signature (R436). -/
opaque xmssVerify : List Byte → List Byte → List Byte → Bool

/-- Bytes of the public key at the front of what follows a command object's header (R436, R438: by parameter set). DESIGN CHOICE, log entry 38. -/
opaque xmssKeyBytes : List Byte → Nat

/-- The identity key's signature with a seed and index over a message (R436, R443): 4,963 bytes. -/
opaque xmssSign : BitVec 256 → Nat → List Byte → List Byte

/-- The identity public root and seed derived from the identity seed (R439). -/
opaque identityRoot : BitVec 256 → List Byte
/-- See `identityRoot`. -/
opaque identityPubSeed : BitVec 256 → List Byte

/-- The digest of the vendor public key in the ROM of base die 0 (R436). -/
opaque vendorDigest : List Byte

/-- Whether an epoch fuse burns at an attempt: the number of the draw, the fuse (R443). DESIGN CHOICE, log entry 38. -/
opaque fuseBurns : Nat → Nat → Bool

end Sys2Proof.Config
end

