-- ==== Sys2Proof/Machine/State.lean ====
section
/-! DEFINITION. The state of the QT9 block as plain data: every register, memory, queue, counter and pin that the
spec gives the package, the commands waiting (`pending`), and the state right after a cold reset. -/

namespace Sys2Proof.Machine

open Sys2Proof

/-- Why the block stops. No command of this model raises it on any path (DESIGN CHOICE, log entry 2). -/
inductive Fault where
  /-- A stuck state: nothing in the block can act again. Raised by no command: safe. -/
  | stuck
  deriving DecidableEq, Repr

/-- Why a command has no meaning. DESIGN CHOICE, log entry 2. -/
inductive Refusal where
  /-- A command rejected by name in `exec`: no arm does so (every command has its meaning). Safe. -/
  | notModelled (mnemonic : String)
  deriving DecidableEq, Repr

/-- What every meaning answers. -/
abbrev Out (σ : Type) := Host.Outcome σ Fault Refusal

/-! ### Records (Tables 21.1 to 21.4) -/

/-- A fault record's fields (Table 21.1). -/
structure FaultRec where
  cls   : Nat
  sub   : Nat
  ukind : Nat
  flags : Nat := 0
  unit  : Nat := 0
  clus  : Nat := 0xFFFF
  addr  : W64 := 0
  w1    : W64 := 0
  w2    : W64 := 0
  w3    : W64 := 0
  w4    : W64 := 0
  beat  : W64 := 0
  ctx   : Option Nat := none
  deriving DecidableEq, Repr

/-- A record on its way: a fault record, or 64 bytes of a status record, stage report or Mover status record. -/
inductive Record where
  | fault (r : FaultRec)
  | raw   (bytes : List Byte)
  deriving DecidableEq, Repr

/-- A record queue (R471): the records kept, the count lost, whether records were lost since the last one kept; in the MC's, the
cycle of the last arrivals and how many came in it (R470). -/
structure RecQueue where
  held  : List Record := []
  lost  : Nat := 0
  gap   : Bool := false
  cycle : Nat := 0
  fresh : Nat := 0
  deriving DecidableEq, Repr

/-! ### A core's engines -/

/-- A register that an operation reads or writes, for the readiness checks of R30. -/
inductive RegName where
  | x (r : Reg)
  | v (r : Reg)
  | p (r : Fin 8)
  | d (r : Reg)
  deriving DecidableEq, Repr

/-- What a landing result writes. -/
inductive RegWrite where
  | x (r : Reg) (val : W64)
  | v (r : Reg) (lanes : List (Nat × W32))
  | p (r : Fin 8) (bits : BitVec 256)
  | d (r : Reg) (image : List Byte)
  deriving DecidableEq, Repr

/-- A result in flight (R28): readable from issue index `ready`. -/
structure Pending where
  name   : RegName
  ready  : Nat
  write  : RegWrite
  landed : Bool := false
  deriving DecidableEq, Repr

/-- What a slot does when its bundle issues, its register operands already read (R47). -/
inductive Effect where
  | nop
  | write    (w : RegWrite)
  | jump     (target : Int) (link : Option (Reg × W64))
  | notTaken
  | stop
  | load     (rd : Reg) (off : Int) (n : Nat)
  | store    (off : Int) (bytes : List Byte)
  | csrr     (rd : Reg) (off : Int)
  | qwait    (q : Fin 16) (n : Nat)
  | qpop     (q : Fin 16) (vd : Reg)
  | qpush    (q : Fin 16) (bytes : List Byte)
  | qfetch   (q : Fin 16) (d : Reg)
  | qstore   (q : Fin 16) (d : Reg)
  | qdrain   (q : Fin 16) (off : W64) (n : Nat)
  | vld      (vd : Reg) (off : Int)
  | dld      (d : Reg) (off : Int)
  | dbase    (d : Reg) (base : W64)
  | twait    (t : BitVec 12) (target : W64)
  | tsig     (t : BitVec 12) (amount : Nat) (bad : Bool)
  | tsigR    (a b : W64)
  | trd      (rd : Reg) (t : BitVec 12)
  | farr     (t : BitVec 12) (f : Nat)
  | bwait    (beat : W64)
  | brd      (rd : Reg)
  | wld      (d1 : Reg) (patch : Option Reg) (t : BitVec 12)
  | pass     (op : Nat) (d1 : Reg) (ctl : W64)
  | pred     (d1 d2 : Reg) (ctl : W64)
  | sel      (d1 d2 : Reg) (ctl : W64)
  | isect    (d1 d2 : Reg) (ctl : W64)
  | drain    (d1 d2 : Reg) (ctl : W64) (t : BitVec 12)
  | accrd    (vd : Reg) (set : Nat) (row : W64)
  | accclr   (set : Nat)
  | turn     (d1 d2 : Reg) (ctl : W64) (t : BitVec 12)
  | movGo    (a b : W64)
  | movRing  (a b : W64)
  | movAbort (a : W64)
  | chain    (d1 d2 d3 : Reg) (ctl : W64) (t : BitVec 12)
  | herd     (op : Nat) (d1 : Reg) (ctl : W64) (t : BitVec 12)
  | kiln     (op : Nat) (off : W64) (t : BitVec 12)
  deriving DecidableEq, Repr

/-- A slot waiting for the rest of its bundle, or held with it. `place` is 0 S, 1 V, 2 T. -/
structure Staged where
  place  : Fin 3
  slot   : Slot
  opcode : Nat
  newT2  : Bool := false
  badEnc : Bool := false
  badFmt : Option Nat := none
  only   : Option Engine := none
  reads  : List RegName := []
  dest   : Option RegName := none
  lat    : Nat := 1
  effect : Effect
  deriving DecidableEq, Repr

/-- What holds a bundle at issue (Table 1.4; interlocks and credits of Table 1.2 and R60). -/
inductive WaitCause where
  | queue
  | tally (yielding : Bool)
  | beat
  | range
  | bank
  | interlock
  | credit
  deriving DecidableEq, Repr

/-- A bundle held at issue, the beat since which it is held, the cycle in which it asked last, and the cycles in which
lines of it have been served (R69). -/
structure Held where
  cause  : WaitCause
  bundle : List Staged
  since  : Nat
  cyc    : Nat := 0
  served : Nat := 0
  deriving DecidableEq, Repr

/-- Whether an engine runs: off before acquisition or after a fault, running, or stopped by `stop`. -/
inductive RunState where
  | off
  | running
  | stopped
  deriving DecidableEq, Repr

/-- A `qfetch` or `qstore` in progress (R58, R118): the queue, the descriptor image, the number of the next 64-byte entry
(of the next tile for a BP or HB tensor that is stored); the running sums of an accumulate-write (R112); the bytes of the
tile that is arriving and its place in the operand; what another device has answered, by address. -/
structure Stream where
  q     : Fin 16
  image : List Byte
  next  : Nat := 0
  acc   : AMap W32 := []
  buf   : List Byte := []
  off   : Nat := 0
  got   : AMap (Option Byte) := []
  asked : Nat := 0
  deriving DecidableEq, Repr

/-- Work of a fetch or store engine's memory stream: a `qfetch` or `qstore`, or (store engine, R40) a tally signal waiting
behind the stores issued before it, with the bundle it came from. -/
inductive StreamItem where
  | move   (m : Stream)
  | signal (t : BitVec 12) (amount : Nat) (pc : Int)
  | remote (a b : W64) (pc : Int)
  deriving DecidableEq, Repr

/-- One engine of a core. `target` is the time before which the target of its last taken branch does not issue in interlocked mode (R65). -/
structure Eng where
  x        : AMap W64 := []
  pc       : Int := 0
  idx      : Nat := 0
  run      : RunState := .off
  delay    : Option Int := none
  target   : Nat := 0
  pend     : List Pending := []
  staged   : List Staged := []
  held     : Option Held := none
  divUntil : Nat := 0
  streams  : List StreamItem := []
  deriving DecidableEq, Repr

/-! ### A core's units -/

/-- An agent of the range scoreboard (R83): the unit, with a number that tells its commands or channel apart. -/
inductive Agent where
  | engine (e : Engine)
  | load   (n : Nat)
  | isect
  | drain
  | select
  | turn
  | mover  (ch : Nat)
  | kiln
  | chain  (n : Nat)
  | herd   (n : Nat)
  | remote (n : Nat)
  deriving DecidableEq, Repr

/-- A registered range of window offsets, whole lines (R83), and whether its agent's last access is done (R85). -/
structure SbRange where
  agent : Agent
  lo    : Nat
  hi    : Nat
  write : Bool
  done  : Bool := false
  deriving DecidableEq, Repr

/-- A compute-engine store not yet visible to other agents (R68): its window offset, its bytes, the cycle of its issue. -/
structure PendStore where
  off   : Nat
  bytes : List Byte
  cyc   : Nat := 0
  deriving DecidableEq, Repr

/-- A bank port taken (R67): in this cycle, or, `late`, in the next one, where an agent of a better rank has taken it in
this cycle (R70). -/
structure PortClaim where
  bank  : Nat
  write : Bool
  agent : Agent
  late  : Bool := false
  deriving DecidableEq, Repr

/-- Bytes of the scratchpad as they stood before a write of this cycle (R67): who wrote, the physical offset. -/
structure BankOld where
  agent : Agent
  off   : Nat
  bytes : List Byte
  deriving DecidableEq, Repr

/-- An agent refused a bank port (R70): in how many cycles on end, and the last of them. -/
structure Asked where
  agent : Agent
  run   : Nat
  cyc   : Nat
  deriving DecidableEq, Repr

/-- A registration that waits (R84): the agent and its ranges (window offset, length, write). -/
structure Waiter where
  agent : Agent
  rs    : List (Nat × Nat × Bool)
  deriving DecidableEq, Repr

/-- A shadow load (R131): swappable at issue `ready`, loaded under relay tally `t` (0: own scratchpad). A fault
found by the weight-load path waits here until it is delivered at completion (R144). -/
structure Load where
  ready   : Nat
  relay   : Bool
  patched : Bool := false
  fault   : Option FaultRec := none
  deriving DecidableEq, Repr

/-- A pass in flight (R127): issue, rows, first accumulator row, set, INIT, the tile it uses, its activation
descriptor, the opcode, the activation rows read so far (R134) and the number of rows landed. -/
structure Pass where
  op     : Nat
  issue  : Nat
  rows   : Nat
  row0   : Nat
  set    : Nat
  init   : Bool
  pcol   : Nat := 0
  isPred : Bool := false
  masks  : List Nat := []
  first  : Nat := 96
  tile   : AMap Byte
  hasHdr : Bool
  act    : List Byte
  readRows : List (List Nat) := []
  landed : Nat := 0
  chain  : Option Nat := none
  deriving DecidableEq, Repr

/-- A selection record to be written (R142): the image of d2, the rows and columns it ranks, the issue it is ready, and its
bytes once the last row's scores have landed. -/
structure SelWrite where
  d2    : List Byte
  rows  : Nat
  pcol  : Nat
  selk  : Nat
  thr   : Nat
  set   : Nat
  issue : Nat
  ready : Nat
  bytes : List Byte := []
  deriving DecidableEq, Repr

/-- A segment of an isect walk (R155, R158): row, columns `col` to `col + cols − 1`, own cost. -/
structure Segment where
  row  : Nat
  col  : Nat
  cols : Nat
  cost : Nat
  deriving DecidableEq, Repr

/-- A round of an isect (R154 to R159): its number, the presence maps with the encodings, the own lists and the pool, the
segments that lanes run with the walk cycle of their ends, the walk cycle, the contributions formed. -/
structure IsectRound where
  round : Nat
  mapA  : List (List (Option Nat)) := []
  mapB  : List (List (Option Nat)) := []
  own   : List (List Segment) := []
  pool  : List Segment := []
  busy  : List (Nat × Nat × Segment) := []
  walk  : Nat := 0
  contrib : AMap W32 := []
  deriving DecidableEq, Repr

/-- An isect in progress (R149 to R159): its operands, control word and issue, KT, the rounds counted and those merged, the
round that is counted and not yet walked, the round in its walk, the rounds walked and not yet merged, and whether a count
stage has met a fault (R163). -/
structure Isect where
  a     : List Byte
  b     : List Byte
  ctl   : W64
  issue : Nat
  kt    : Nat
  counted : Nat := 0
  merged  : Nat := 0
  next  : Option IsectRound := none
  cur   : Option IsectRound := none
  outs  : List IsectRound := []
  failed : Bool := false
  deriving DecidableEq, Repr

/-- A drain in progress (R204): the control word, descriptors, parameter block, issue, the issues of its slots, the last
read of each row counted from the issue, the slots done, the elements formed for d1 by index (none: a skipped list entry),
how many groups of them have been written, the writes on their way with the issue they are due, the running sums of an
accumulate-write (R112), the rows and columns that the list named, the scored elements, the statistics elements, its
scratchpad ranges and the chain it serves. -/
structure Drain where
  ctl    : W64
  d1     : List Byte
  d2     : List Byte
  par    : List Byte
  tally  : BitVec 12
  issue  : Nat
  costs  : List Nat
  reads  : List (Option Nat) := []
  slot   : Nat := 0
  formed : List (Option W32) := []
  groups : Nat := 0
  out    : List (Nat × List (Nat × List Byte)) := []
  acc    : AMap W32 := []
  picked : List (Nat × Nat) := []
  scored : List (List (Nat × W32)) := []
  stat   : List W32 := []
  ranges : List (Nat × Nat × Bool) := []
  chain  : Option Nat := none
  deriving DecidableEq, Repr

/-- An image of the relay (R280, R281): the relay tally it is delivered under, the receivers that it has still to
reach, the core whose hop comes next, and the channel that feeds it. -/
structure RelayImage where
  tile  : AMap Byte
  tally : BitVec 12
  mask  : BitVec 32 := 0
  pos   : Nat := 0
  chan  : Nat := 0
  deriving DecidableEq, Repr

/-- A chain command in its core's chain queue (R224, R275 to R279): the images of d1, d2, d3, its block and the image
of `CB_DAUX`; whether it has been accepted; the passes fetched, turned, built and issued so far; the operands of passes
on their way by pass number (bytes, or FP32 encodings of the elements in canonical order), and where the weights of a pass
could not be decoded the fault, the elements before it being those kept; its spills; its drain and store. -/
structure Chain where
  deferred : Bool
  d1    : List Byte
  d2    : List Byte
  d3    : List Byte
  d3reg : Nat := 0
  ctl   : W64
  tally : BitVec 12
  serial : Nat
  accepted : Bool := false
  blk   : List Byte := []
  aux   : List Byte := []
  ranges : List (Nat × Nat × Bool) := []
  fetched : Nat := 0
  turned  : Nat := 0
  built   : Nat := 0
  passed  : Nat := 0
  wRaw    : AMap (List Nat) := []
  aRaw    : AMap (List Nat) := []
  images  : AMap (AMap Byte) := []
  bad     : AMap (Option FaultRec) := []
  sinceSpill : Nat := 0
  spilled : Bool := false
  draining : Bool := false
  drained : Bool := false
  stored  : Bool := false
  deriving DecidableEq, Repr

/-- The shadow load of a chain's pass (R276): over in cycle `ready`, its image taken from the relay buffer or not. -/
structure ChainLoad where
  ready : Nat
  relay : Bool
  deriving DecidableEq, Repr

/-- An ordinary chain that has completed and that the program has not waited for (R37): its accumulator set, its tally. -/
structure Unwaited where
  set   : Nat
  tally : BitVec 12
  deriving DecidableEq, Repr

/-- The scrub state of a core (R380, R381, R383): a deferred scrub names the context that left it. -/
inductive ScrubState where
  | clean
  | scrubbing
  | kept (ctx : Nat)
  deriving DecidableEq, Repr

/-- A line of the hardware-managed cache (R75). -/
structure CacheLine where
  tag  : Nat
  data : List Byte
  deriving DecidableEq, Repr

/-- One core. `chainSwap` is the cycle in which the last pass of a chain swaps its tile in and
begins to stream, `chainArray` the cycle from which it leaves the array free. `coreId` holds bits 47:0 of `CORE_ID`; its `DEVADDR` is the fabric's (R354). -/
structure Core where
  coreId    : W64 := 0
  coreMode  : W64 := 0
  queueBind : W64 := 0
  dslotOwn  : W64 := 0x5555555555555555
  waitCyc   : Nat := 0
  holdCyc   : Nat := 0
  coreCtx   : W64 := 0
  coreEntry : W64 := 0
  spw       : W64 := 0
  sbHigh    : Nat := 0
  winBase   : AMap W64 := []
  winBound  : AMap W64 := []
  ttr       : AMap W64 := []
  fe        : Eng := {}
  ce        : Eng := {}
  se        : Eng := {}
  v         : AMap W32 := []
  p         : AMap (BitVec 256) := []
  d         : AMap Byte := []
  acc       : AMap W32 := []
  passCount : AMap Nat := []
  queues    : AMap (List (List Byte)) := []
  ranges    : List SbRange := []
  waiters   : List Waiter := []
  stores    : List PendStore := []
  ports     : List PortClaim := []
  olds      : List BankOld := []
  refused   : List Asked := []
  active    : AMap Byte := []
  shadow    : AMap Byte := []
  hasTile   : Bool := false
  shadowOk  : Bool := false
  voided    : Bool := false
  load      : Option Load := none
  unswapped : Bool := false
  shadowUntil : Nat := 0
  arrayUntil  : Nat := 0
  drainUntil  : Nat := 0
  relayBuf  : List RelayImage := []
  relayCnt  : AMap Nat := []
  passes    : List Pass := []
  selWrites : List SelWrite := []
  isect     : Option Isect := none
  drains    : List Drain := []
  chains    : List Chain := []
  chainSer  : Nat := 0
  unwaited  : List Unwaited := []
  chainLoad : Option ChainLoad := none
  chainSwap : Nat := 0
  chainArray : Nat := 0
  used      : AMap Nat := []
  image     : AMap Byte := []
  bundles   : Nat := 0
  scrub     : ScrubState := .clean
  faulted   : Bool := false
  stopNext  : Bool := false
  cache     : AMap (List (Option CacheLine)) := []
  plru      : AMap Nat := []
  deriving DecidableEq, Repr

/-! ### Units of a cluster -/

/-- A Turn command (R119): the issuing core, the two images, the control word, the tally; `held` once its ranges are registered
and a bank port has been refused to it, `ready` once its writes are done; `chain` names the chain of the core whose Turn
stage takes this place in the queue (R276). -/
structure TurnCmd where
  core  : Nat
  d1    : List Byte
  d2    : List Byte
  ctl   : W64
  tally : BitVec 12
  held  : Bool := false
  ready : Bool := false
  chain : Option Nat := none
  deriving DecidableEq, Repr

/-- A piece of a request's data: its length, and where it goes (none: a pad that is discarded, R114). -/
structure MoverPiece where
  dest : Option Nat
  len  : Nat
  deriving DecidableEq, Repr

/-- A read request of a channel (R273): the device written to (none: own scratchpad), the pieces in order, the data
once read, its tag, whether it ends the element that it belongs to, and, once its writes have left for another device, how
many of them are not yet acknowledged (R266). -/
structure MoverReq where
  dev    : Option Nat
  pieces : List MoverPiece
  data   : Option (List Byte) := none
  tag    : Nat := 0
  ends   : Bool := false
  acks   : Option Nat := none
  deriving DecidableEq, Repr

/-- A Mover channel (Tables 11.1 to 11.3), the ring block bound to it, and the descriptor in progress: its bytes, the
tensor images or the current list entry, the next unit (or element) and byte offset to request, the requests issued,
the bytes committed and the elements wholly committed, the bytes written to each device, the ranges registered at each
core, the running sums of an accumulate-write (R112), what other devices have answered of the descriptor, its images and its
list by global address, and of a relay image by source address, and why it is ending. -/
structure Chan where
  st     : Nat := 0
  head   : W64 := 0
  own    : W64 := 0
  saddr  : W64 := 0
  pace   : Nat := 0
  ring   : Option (List Byte) := none
  desc   : Option (List Byte) := none
  src    : List Byte := []
  dst    : List Byte := []
  entry  : Option (W64 × Nat) := none
  unit   : Nat := 0
  off    : Nat := 0
  contig : Nat := 0
  nreq   : Nat := 0
  reqs   : List MoverReq := []
  bytes  : Nat := 0
  elems  : Nat := 0
  wrote  : AMap Nat := []
  ranges : List (Nat × Nat × Nat × Bool) := []
  acc    : AMap W32 := []
  got    : AMap (Option Byte) := []
  cause  : Nat := 0
  fault  : Option FaultRec := none
  deriving DecidableEq, Repr

/-- The weight relay of a cluster (R280): the channel it serves, the images left to enter, the images on the ring. -/
structure Relay where
  serving : Option Nat := none
  toEnter : List RelayImage := []
  ring    : List RelayImage := []
  deriving DecidableEq, Repr

/-- A row kept in an expert's staging buffer (R310, R311): its tag, its score, its place. -/
structure HerdKept where
  tag   : W64
  score : W32
  pos   : Nat
  deriving DecidableEq, Repr

/-- What one hosted expert of a live pair holds (R308, R311, R312): its map entry, its capacity, the kept rows in
priority order, the arrivals, the rank-0 arrivals dropped. -/
structure HerdExpert where
  entry  : List Byte
  cap    : Nat
  kept   : List HerdKept := []
  demand : Nat := 0
  drop0  : Nat := 0
  deriving DecidableEq, Repr

/-- A live pair (R308): who opened it and with which block, its sources and hosted experts, the rows accepted and the
count messages acted by source, whether it is finalised, the returns written and the done messages acted by home, and whether
its finalisation ended on a line that cannot be corrected (R331). -/
structure HerdPair where
  serial  : Nat
  half    : Bool
  ctx     : Nat
  core    : Nat
  blk     : List Byte
  sources : List Nat := []
  experts : AMap (Option HerdExpert) := []
  rowsFrom : AMap Nat := []
  counts  : List Nat := []
  final   : Bool := false
  retFrom : AMap Nat := []
  dones   : List Nat := []
  broken  : Bool := false
  deriving DecidableEq, Repr

/-- A Herd command in its unit: not fetched yet, a `herd.comb` that waits for its homes, or one whose work is done and whose
writes and messages have not all committed, with the words of its result (R301, R315). `op` is 0 route, 1 pack, 2 open,
3 dispatch, 4 return, 5 cancel, 6 comb. -/
structure HerdCmd where
  id    : Nat
  core  : Nat
  ctx   : Option Nat
  op    : Nat
  ctl   : W64
  off   : Nat
  tally : BitVec 12
  d1    : List Byte := []
  blk   : List Byte := []
  fetched : Bool := false
  homes : List Nat := []
  words : Option (List Nat) := none
  deriving DecidableEq, Repr

/-- The parts of a row that arrives from another device in several frames (DESIGN CHOICE, log entry 24). -/
structure HerdPart where
  src    : Nat
  back   : Bool
  hdr    : List Byte
  pieces : AMap (List Byte) := []
  deriving DecidableEq, Repr

/-- The Herd unit of a cluster. -/
structure Herd where
  pairs   : List (Option HerdPair) := [none, none, none, none]
  dropped : Nat := 0
  kept    : Nat := 0
  stale   : Nat := 0
  refused : Nat := 0
  serial  : Nat := 0
  cmds    : List HerdCmd := []
  parts   : List HerdPart := []
  deriving DecidableEq, Repr

/-- A Herd message on its way to a cluster of this device (R309, R313). `kind` 0 row, 1 count, 2 return, 3 done;
`cmd` is the command of cluster `srcCl` that sent it, `frame` the frame that brought it from another device. -/
structure HerdMsg where
  kind    : Nat
  cluster : Nat
  skey    : W32
  srcDev  : Nat
  srcCl   : Nat
  tag     : W64
  score   : W32 := 0
  expert  : Nat := 0
  row     : List Byte := []
  count   : Nat := 0
  cmd     : Option Nat := none
  frame   : Option Frame := none
  deriving DecidableEq, Repr

/-- A Kiln command (R180, R238): `op` 0 step, 1 fire, 2 fill, 3 export, 4 cast, 5 grow, 6 select; the engine that
issued it, the block at window offset `off`. `phase` 0 not yet fetched, 1 accepted, 2 in its stream (a ring), 3 written:
it awaits its completion. Of an update: norm, clip factor, slot count n, the ring segment and chunk, the stream elements
done and bands fired, the gradient values received, the masters written, the counts of its result; `words` its result. -/
structure KilnCmd where
  op    : Nat
  core  : Nat
  eng   : Engine
  ctx   : Option Nat
  off   : Nat
  tally : BitVec 12
  mc    : Bool := false
  blk   : List Byte := []
  phase : Nat := 0
  norm  : W32 := 0
  clip  : W32 := 0
  n     : Nat := 0
  seg   : Nat := 0
  chunk : Nat := 0
  done  : Nat := 0
  bands : Nat := 0
  got   : Nat := 0
  masters : List Byte := []
  nonfin : Nat := 0
  tiles  : Nat := 0
  words  : List Nat := []
  fire   : List Byte := []
  slots  : List (Nat × W32) := []
  deriving DecidableEq, Repr

/-- A Kiln: its commands in arrival order. Entry 14 + k of the map holds the commands of cluster k whose blocks have
still to be read (R83). -/
structure Kiln where
  cmds : List KilnCmd := []
  deriving DecidableEq, Repr

/-! ### Tallies, folds, streams -/

/-- A local signal on its way to a tally of another cluster (R287): the core, engine and bundle it came from, or
the Mover channel, with the tally and the amount. -/
structure LocalSig where
  core   : Nat
  eng    : Engine
  pc     : Int
  chan   : Option Nat := none
  phys   : Nat
  amount : Nat
  virt   : BitVec 12
  deriving DecidableEq, Repr

/-- A fold slot (Tables 12.2, 12.5, 12.6): its registers, the arrivals of the round with the tallies they name, and for a
fabric fold the arrivals received from children and whether one was sent up. -/
structure Fold where
  defn    : W64 := 0
  grp     : W64 := 0
  rounds  : BitVec 32 := 0
  arrived : BitVec 32 := 0
  named   : List LocalSig := []
  kids    : List (BitVec 16) := []
  sentUp  : Bool := false
  deriving DecidableEq, Repr

/-- A held counted signal (R293): context, virtual tally, byte count, and for a signal of this device the unit and the bundle or
descriptor that it came from. -/
structure HeldSig where
  ctx   : Nat
  t     : BitVec 12
  bytes : Nat
  cmd   : W64 := 0
  agent : Agent := .remote 0
  deriving DecidableEq, Repr

/-- A source stream at this receiver (R293): uncredited bytes and held signals, oldest first. -/
structure SrcStream where
  uncredited : Nat := 0
  held       : List HeldSig := []
  deriving DecidableEq, Repr

/-! ### Fabric -/

/-- A port (R338 to R345): number 16 is the Gwemosin port. -/
structure Port where
  st      : Nat := 0
  lanes   : BitVec 4 := 0
  retrain : Nat := 0
  replay  : Nat := 0
  neigh   : W64 := 0
  neighP  : W64 := 0
  known   : Bool := false
  delay   : W64 := 0
  sendSeq : BitVec 20 := 0
  recvSeq : BitVec 20 := 0
  nakFor  : Option (BitVec 20) := none
  naks    : Nat := 0
  unacked : List Frame := []
  waitNak : Bool := false
  credits : List Nat := [0, 0, 0, 0]
  owed    : List Nat := [0, 0, 0, 0]
  lastRx  : Nat := 0
  retrains : List Nat := []
  lastHello : Nat := 0
  lastMark : Nat := 0
  dropped : BitVec 4 := 0
  excess  : Bool := false
  linked  : Bool := false
  peer    : Option (BitVec 4) := none
  ctl     : List LinkCtl := []
  deriving DecidableEq, Repr

/-- A request of this device that awaits a response (R345): the unit, the beat it was sent, the frame, for a signal
of an engine its bundle, and the port that it left by (R273; 17: none yet). -/
structure Outstanding where
  agent : Agent
  core  : Nat
  sent  : Nat
  frame : Frame
  cmd   : W64 := 0
  port  : Nat := 17
  deriving DecidableEq, Repr

/-- A frame in the transmit queues: the port that received it (17: a unit of this device), and whether it answers a frame of
the Gwemosin port and so leaves by that port (R364). -/
structure Queued where
  frame  : Frame
  inPort : Nat := 17
  toNode : Bool := false
  deriving DecidableEq, Repr

/-- A reorder window of a source stream (R351): the next SSEQ to commit, and the frames held early with the port at which each
arrived. -/
structure Reorder where
  next  : BitVec 16 := 0
  early : List (Nat × Frame) := []
  deriving DecidableEq, Repr

/-- The fabric and the Gwemosin control port. -/
structure Fabric where
  ports    : AMap Port := []
  tmo      : W64 := 10000
  devaddr  : BitVec 16 := 0xFFFF
  ready    : Bool := false
  beatCtl  : W64 := 0
  lock     : Bool := false
  hold     : Bool := false
  src      : Nat := 0
  err      : Int := 0
  lost     : Nat := 0
  rate     : Int := 0
  goodRun  : Nat := 0
  lastUp   : Nat := 0
  memberRt : AMap W64 := []
  groupRt  : AMap W64 := []
  groups   : AMap W64 := []
  imports  : AMap W64 := []
  hbp      : W64 := 1000000
  miss     : Nat := 0
  lastHb   : Nat := 0
  hbAnswered : Nat := 0
  waiting  : List Queued := []
  parked   : List (Nat × Frame) := []
  sent     : List (Nat × Frame) := []
  sentHello : List (Nat × Hello) := []
  sentMark : List (Nat × Nat) := []
  sentCtl  : List (Nat × LinkCtl) := []
  wires    : List (Nat × Nat × List Byte) := []
  sseq     : AMap (BitVec 16) := []
  reorder  : AMap (Option Reorder) := []
  outst    : List Outstanding := []
  resend   : List (Nat × Frame) := []
  deriving DecidableEq, Repr

/-! ### Memory units -/

/-- A memory unit (Tables 14.3 to 14.6): stacks 0 to 7, channels 8 to 19. -/
structure MemUnit where
  present : Bool := false
  region  : Nat := 0
  capGiB  : Nat := 0
  scrub   : BitVec 16 := 1
  uncorr  : Nat := 0
  corr    : Nat := 0
  eaddr   : W64 := 0
  caln    : W64 := 0
  late    : Nat := 0
  limit   : BitVec 16 := 60000
  period  : BitVec 32 := 0
  cal     : Bool := false
  lastCal : Nat := 0
  dueLate : Bool := false
  scrubAt : Nat := 0
  carried : Nat := 0
  lastScrub : Nat := 0
  recent  : List (Nat × Nat) := []
  deriving DecidableEq, Repr

/-! ### Securing, service, life-cycle, power, start-up -/

/-- A region of the plan of a round (Table 17.5), whether its context reached its secure point, was dropped, or it was
copied, and then its place in the image and the digests of its shards. -/
structure Region where
  regSrc : Nat
  regLen : Nat
  ctx    : Nat
  devWide : Bool
  isDig  : Bool
  regId  : Nat
  ready  : Bool := false
  dropped : Bool := false
  copied : Bool := false
  imgOff : Nat := 0
  digests : List (List Byte) := []
  deriving DecidableEq, Repr

/-- A secure round (R389 to R397): its number, the slot it writes in each keep-area, and whether its seals are being
written. -/
structure Round where
  number    : Nat := 0
  emergency : Bool := false
  regions   : List Region := []
  descs     : List (Nat × List W64) := []
  mixed     : Bool := false
  partly    : Bool := false
  sealing   : Bool := false
  slotL     : Bool := false
  slotP     : Bool := false
  beat      : Nat := 0
  deriving DecidableEq, Repr

/-- A restore in progress (R399): the image by its global address, the contexts, the destination region and shard that come
next, the shards taken from the other keep-area. -/
structure Restore where
  base   : Nat
  ctxs   : List Nat
  region : Nat := 0
  shard  : Nat := 0
  others : Nat := 0
  deriving DecidableEq, Repr

/-- The Cone and the securing registers (Tables 17.1 to 17.8) and the events gathered for the next tick. -/
structure Secure where
  cfg     : W64 := 0x9C00004000000000
  weights : W64 := 0x8001041008201002
  ext     : W64 := 0
  points  : Nat := 0
  missRun : Nat := 0
  last    : W64 := 0
  plan    : W64 := 0
  keepLoc : W64 := 0
  keepPart : W64 := 0
  feed    : W64 := 0
  roundNo : Nat := 0
  lslot   : Bool := false
  pslot   : Bool := false
  lok     : Bool := false
  pok     : Bool := false
  pwhole  : Option Bool := none
  toPartner : List Frame := []
  partnerFail : Bool := false
  fetched : AMap (List Byte) := []
  restore : Option Restore := none
  early   : List (Nat × Nat × List Byte) := []
  verdicts : List (Nat × Nat × Verdict) := []
  repl    : W64 := 0
  evUnc   : Nat := 0
  uncLines : List Nat := []
  evCorr  : Nat := 0
  evDroop : Nat := 0
  evRetr  : Nat := 0
  evLoss  : Nat := 0
  evMiss  : Nat := 0
  lastTick : Nat := 0
  restoring : List Nat := []
  aboveEmg : Bool := false
  round   : Option Round := none
  deriving DecidableEq, Repr

/-- The replica gate of a context (R400 to R402): its step digest, the serial, the digests received from members, those
sent up the tree, the giver whose copy it takes, whether it restores. -/
structure Gate where
  digest : List Byte
  serial : Nat
  from_  : List (Nat × List Byte) := []
  sentUp : List (Nat × List Byte) := []
  giver  : Option (BitVec 16 × List Byte) := none
  restoring : Bool := false
  deriving DecidableEq, Repr

/-- A service request (R429): kind 0 cluster, 1 stack, 2 pair; the unit; action; RET; beat; drained or running. -/
structure SvcReq where
  kind   : Nat
  unit   : Nat
  action : Nat
  ret    : Bool
  beat   : Nat
  img    : Nat := 0
  deriving DecidableEq, Repr

/-- In-service drain, test and repair (R429 to R433, Tables 18.15 to 18.17). -/
structure Service where
  minReg  : W64 := 0
  closing : List (Nat × Nat) := []
  drained : List (Nat × Nat) := []
  reqs    : List SvcReq := []
  running : Option SvcReq := none
  deriving DecidableEq, Repr

/-- The floor plan (Tables 18.8 to 18.10): masks of the units present, one bit each. DESIGN CHOICE, log entry 3. -/
structure Plan where
  serial  : BitVec 32 := 0
  mode    : Nat := 0
  disag   : Nat := 0
  cores   : BitVec 512 := 0
  clusters : BitVec 16 := 0
  hstacks : BitVec 8 := 0
  channels : BitVec 12 := 0
  dies    : BitVec 4 := 0
  ports   : BitVec 16 := 0
  beat    : W64 := 0
  deriving DecidableEq, Repr

/-- An object of a manifest (R410): its kind, the digest of its entry, the bytes that lie in flash. -/
structure FlashObject where
  kind    : Nat
  digest  : List Byte := []
  bytes   : List Byte := []
  deriving DecidableEq, Repr

/-- The manifest in a flash slot: whether its signatures verify, its version, its objects, the fields of the configuration record and the key
that signed that record: an owner key, or none for the vendor's (R410 to R412, R435). DESIGN CHOICE, log entry 3. -/
structure Manifest where
  valid   : Bool := true
  version : BitVec 32 := 1
  quick   : Bool := false
  fwStage : W64 := 0
  svcMin  : W64 := 0
  floor   : Nat := 1
  body    : List Byte := []
  objects : List FlashObject := []
  recordSigner : Option (BitVec 256) := none
  deriving DecidableEq, Repr

/-- The bytes of a manifest's objects of some kinds, in order. -/
def Manifest.bytesOf (m : Manifest) (kinds : List Nat) : List Byte := ((m.objects.filter fun o => kinds.contains o.kind).map (·.bytes)).flatten
/-- The MC's and the sequencers' firmware (kinds 0x01 and 0x02 of Table 18.2). -/
def Manifest.firmware (m : Manifest) : List Byte := m.bytesOf [1, 2]
/-- The core runtime image (kind 0x03). -/
def Manifest.runtime (m : Manifest) : List Byte := m.bytesOf [3]

/-- What survives the loss of power: the fuses (R2, R424, R435, R437, R439, R442) and the configuration flash (R409). DESIGN CHOICE, log entry 3. -/
structure Part where
  grade     : Nat := 0x0A
  enClusters : BitVec 16 := 0xFFFF
  enStacks  : BitVec 8 := 0xFF
  enChannels : BitVec 12 := 0xFFF
  enPorts   : BitVec 16 := 0xFFFF
  badCores  : BitVec 512 := 0
  badStacks : BitVec 8 := 0
  badChannels : BitVec 12 := 0
  badPorts  : BitVec 16 := 0
  fuseB     : Bool := false
  fuseG     : Bool := false
  fuseS     : Bool := false
  fuseD     : Bool := false
  seed      : Option (BitVec 256) := none
  owners    : List (BitVec 256) := []
  epochs    : BitVec 1024 := 0
  serialNo  : W64 := 0
  slotA     : Manifest := {}
  slotB     : Manifest := {}
  remCores  : BitVec 512 := 0
  remStacks : BitVec 8 := 0
  remChannels : BitVec 12 := 0
  remPorts  : BitVec 16 := 0
  remDies   : BitVec 4 := 0
  remA      : List Byte := []
  remB      : List Byte := []
  lastPlan  : Option Plan := none
  log       : List Record := []
  deriving DecidableEq, Repr

/-- Signing and life-cycle registers (Tables 19.6 to 19.8). DESIGN CHOICE, log entry 3. -/
structure Life where
  unlock  : Bool := false
  nonce   : W64 := 0
  pubRoot : List Byte := []
  pubSeed : List Byte := []
  active  : Bool := false
  epoch   : Nat := 0
  leaf    : Nat := 0
  deriving DecidableEq, Repr

/-- Power, clock, temperature and board pins (R453 to R461, R463). `clkMHz` is the arithmetic clock. -/
structure Power where
  cap     : Nat := 2400
  pavg    : Nat := 0
  tmax    : Nat := 0
  clkMHz  : Nat := 3300
  cause   : Nat := 0
  droop   : Nat := 0
  raising : Bool := false
  wantMHz : Nat := 3300
  stretch : Bool := false
  throt   : Bool := false
  therm   : Bool := false
  temps   : List Nat := []
  halved  : BitVec 8 := 0
  thermMHz : Nat := 3300
  powMHz  : Nat := 3300
  ibi     : Nat := 0
  deriving DecidableEq, Repr

/-- Start-up (R413 to R415, Table 18.3). `state` 0 running, 1 ready, 2 halted; `next` is the stage that runs next. -/
structure Boot where
  stage   : Nat := 0
  state   : Nat := 0
  next    : Nat := 0
  warm    : Bool := false
  quick   : Bool := false
  slotB   : Bool := false
  failed  : List TestUnit := []
  manifest : Manifest := {}
  deriving DecidableEq, Repr

/-- A cycle of the arithmetic clock and the beat (R359): `phase` counts 10⁻⁸ of a clock tick toward the next beat. -/
structure Clock where
  cycle : Nat := 0
  beat  : Nat := 0
  phase : Nat := 0
  deriving DecidableEq, Repr

/-- A switch whose acquire waits for the scrubs (R384), with the command block; a release that waits or runs. -/
structure Release where
  ctx     : Nat
  cores   : List Nat
  forced  : Nat := 0
  offend  : Nat := 0
  deriving DecidableEq, Repr

/-- What the block has answered to the outside: records sent on VC2, the data of the last MC-path read. -/
structure HostOut where
  vc2    : List Record := []
  data   : Option W64 := none
  deriving DecidableEq, Repr

/-- The whole state of the block. -/
structure State where
  pending  : List Instr := []
  clock    : Clock := {}
  part     : Part := {}
  plan     : Plan := {}
  boot     : Boot := {}
  mem      : List Host.Cell := []
  badLines : List Nat := []
  softLines : List Nat := []
  units    : AMap MemUnit := []
  cores    : AMap Core := []
  turns    : AMap (List TurnCmd) := []
  chans    : AMap Chan := []
  relays   : AMap Relay := []
  herds    : AMap Herd := []
  herdMsgs : List HerdMsg := []
  kilns    : AMap Kiln := []
  tallies  : AMap (BitVec 48) := []
  folds    : AMap Fold := []
  srcs     : AMap SrcStream := []
  localSigs : List LocalSig := []
  ctxs     : AMap W64 := []
  cmdq     : List (List Byte) := []
  switches : List (List Byte) := []
  releases : List Release := []
  seqs     : AMap RecQueue := []
  mcq      : RecQueue := {}
  fabric   : Fabric := {}
  secure   : Secure := {}
  gates    : AMap (Option Gate) := []
  service  : Service := {}
  life     : Life := {}
  power    : Power := {}
  host     : HostOut := {}
  free     : Nat := 0
  deriving DecidableEq, Repr

/-- The block right after a cold reset, before S0: every register at the value the spec states for reset,
nothing queued, no unit in the floor plan, the fuses as DESIGN CHOICE, log entry 3 chooses them. DESIGN CHOICE, log entry 59. -/
def State.reset : State := {}

end Sys2Proof.Machine
end

