-- ==== Sys2Proof/Machine/Ops.lean ====
section
/-! DEFINITION. The named operations that every meaning is built from: sparse maps, bit fields, bytes, the local
memory, the registers of cores and contexts, records and faults, tallies. -/

namespace Sys2Proof.Machine

open Sys2Proof

/-! ### Sparse maps -/

/-- The value at key `k`, `d` where the map lists none. DESIGN CHOICE, log entry 6. -/
def mget {α : Type} (d : α) : AMap α → Nat → α
  | [], _ => d
  | (j, v) :: t, k => if j = k then v else mget d t k

/-- The map with `k` holding `v`, keys kept rising. -/
def mput {α : Type} (k : Nat) (v : α) : AMap α → AMap α
  | [] => [(k, v)]
  | (j, w) :: t =>
    if k < j then (k, v) :: (j, w) :: t
    else if k = j then (k, v) :: t
    else (j, w) :: mput k v t

/-- The map without `k`. -/
def mdel {α : Type} (k : Nat) : AMap α → AMap α
  | [] => []
  | (j, w) :: t => if j = k then mdel k t else (j, w) :: mdel k t

/-- The map with `k` reading as `v`: a value equal to the default removes the entry (canonical form). -/
def mset {α : Type} [DecidableEq α] (d : α) (m : AMap α) (k : Nat) (v : α) : AMap α :=
  if v = d then mdel k m else mput k v m

/-- Keys strictly rising, all above `lo`, and no value equal to the default. -/
def mwfFrom {α : Type} [DecidableEq α] (d : α) : Option Nat → AMap α → Bool
  | _, [] => true
  | lo, (k, v) :: t =>
    (match lo with | none => true | some l => decide (l < k)) && decide (v ≠ d) && mwfFrom d (some k) t

/-- The canonical form of a map whose unlisted keys read as `d`. -/
def mwf {α : Type} [DecidableEq α] (d : α) (m : AMap α) : Bool := mwfFrom d none m

/-! ### Bit fields and bytes -/

/-- Bits hi to lo of a word, as a number. -/
def bits {n : Nat} (w : BitVec n) (hi lo : Nat) : Nat := (w.toNat >>> lo) % 2 ^ (hi + 1 - lo)

/-- One bit of a word. -/
def bit {n : Nat} (w : BitVec n) (i : Nat) : Bool := w.getLsbD i

/-- A number's bits hi to lo. -/
def nbits (w : Nat) (hi lo : Nat) : Nat := (w >>> lo) % 2 ^ (hi + 1 - lo)

/-- A word with its bits hi to lo replaced by a number. -/
def setBits {n : Nat} (w : BitVec n) (hi lo v : Nat) : BitVec n :=
  BitVec.ofNat n (w.toNat - (bits w hi lo) * 2 ^ lo + (v % 2 ^ (hi + 1 - lo)) * 2 ^ lo)

/-- The number of `n` bits read as two's complement. -/
def signed (n v : Nat) : Int := (BitVec.ofNat n v).toInt

/-- `n` bytes of a number, lowest first (R93). -/
def leBytes (n v : Nat) : List Byte := (List.range n).map fun i => BitVec.ofNat 8 (v >>> (8 * i))

/-- The number of little-endian bytes. -/
def leNat : List Byte → Nat
  | [] => 0
  | b :: t => b.toNat + 256 * leNat t

/-- The number in `n` bytes from offset `off`; bytes beyond the list read as 0. -/
def numAt (bs : List Byte) (off n : Nat) : Nat := leNat ((bs.drop off).take n)

/-- The 64-bit word at byte offset `off`. -/
def wordAt (bs : List Byte) (off : Nat) : W64 := BitVec.ofNat 64 (numAt bs off 8)

/-- A list padded with zero bytes, or cut, to `n` bytes. -/
def padTo (n : Nat) (bs : List Byte) : List Byte := (bs ++ List.replicate (n - bs.length) 0).take n

/-- Replace the bytes from `off` on. -/
def patchBytes (bs : List Byte) (off : Nat) (new : List Byte) : List Byte :=
  bs.take off ++ new ++ bs.drop (off + new.length)

/-- Smallest multiple of `m` not below `n`. -/
def roundUp (n m : Nat) : Nat := (n + m - 1) / m * m

/-- Division rounded up. -/
def ceilDiv (a b : Nat) : Nat := (a + b - 1) / b

/-- A counter that stops at its largest value. -/
def satAdd (w a b : Nat) : Nat := min (2 ^ w - 1) (a + b)

/-- Cut a list into pieces of `n` elements (`fuel` pieces at most). -/
def chunksFuel {α : Type} (n : Nat) : Nat → List α → List (List α)
  | 0, _ => []
  | _, [] => []
  | fuel + 1, l => l.take n :: chunksFuel n fuel (l.drop n)

/-- Cut a list into pieces of `n` elements. -/
def chunks {α : Type} (n : Nat) (l : List α) : List (List α) := chunksFuel n l.length l

/-- Insert into a list ordered by `le`, after the elements equal to it. -/
def insertBy {α : Type} (le : α → α → Bool) (x : α) : List α → List α
  | [] => [x]
  | y :: t => if le y x then y :: insertBy le x t else x :: y :: t

/-- A list ordered by `le`, equal elements kept in their order. -/
def sortBy {α : Type} (le : α → α → Bool) (l : List α) : List α := l.foldl (fun a x => insertBy le x a) []

/-- Replace the i-th element. -/
def setAt {α : Type} (l : List α) (i : Nat) (v : α) : List α := l.set i v

/-! ### The local memory (R12, R13, R321 to R324) -/

/-- The byte at a local address; memory that nothing has written reads 0 (DESIGN CHOICE, log entry 6). -/
def readByte (s : State) (a : Nat) : Byte := mget 0 s.mem a

/-- `n` bytes from a local address. -/
def readMem (s : State) (a n : Nat) : List Byte := (List.range n).map fun i => readByte s (a + i)

/-- A memory with bytes stored from address `a` on. -/
def storeCells (m : List Host.Cell) (a : Nat) : List Byte → List Host.Cell
  | [] => m
  | b :: t => storeCells (mset 0 m a b) (a + 1) t

/-- Store bytes from a local address on. A whole 64-byte line written clears an error held in it (R329). -/
def writeMem (s : State) (a : Nat) (bs : List Byte) : State :=
  let covered := fun l => decide (a ≤ l ∧ l + 64 ≤ a + bs.length)
  { s with mem := storeCells s.mem a bs
           badLines := s.badLines.filter fun l => !covered l
           softLines := s.softLines.filter fun l => !covered l }

/-- First address of the HBM, DDR5, scratchpad and register ranges of Table 0.6. -/
def ddrBase : Nat := 0x100000000000
/-- See `ddrBase`. -/
def spadBase : Nat := 0x200000000000
/-- See `ddrBase`. -/
def csrBase : Nat := 0x300000000000
/-- The size of an HBM region (R321) and of a DDR5 pair region (R323). -/
def hbmRegion : Nat := 0xC00000000
/-- See `hbmRegion`. -/
def pairRegion : Nat := 0x8000000000

/-- The memory unit numbered 0 to 7 (stacks) or 8 to 19 (channels). -/
def unitOf (s : State) (u : Nat) : MemUnit := mget {} s.units u

/-- Whether a unit is drained or closing under in-service repair (R431). -/
def outOfService (s : State) (kind unit : Nat) : Bool :=
  (kind, unit) ∈ s.service.closing || (kind, unit) ∈ s.service.drained

/-- The stack serving HBM region r (R321), where present and in service. -/
def stackOf (s : State) (r : Nat) : Option Nat :=
  (List.range 8).find? fun n =>
    let m := unitOf s n
    m.present && (m.region == r) && !outOfService s 1 n

/-- Whether core c is in the floor plan. -/
def goodCore (s : State) (c : Nat) : Bool := s.plan.cores.getLsbD c

/-- Whether the local address is populated (R13, R321, R323). -/
def populated (s : State) (a : Nat) : Bool :=
  if a < 8 * hbmRegion then (stackOf s (a / hbmRegion)).isSome
  else if ddrBase ≤ a ∧ a < ddrBase + 6 * pairRegion then
    let n := (a - ddrBase) / pairRegion
    let m := unitOf s (8 + 2 * n)
    m.present && decide ((a - ddrBase) % pairRegion < 2 * m.capGiB * 2 ^ 30) && !outOfService s 2 n
  else if spadBase ≤ a ∧ a < spadBase + 512 * 0x400000 then
    goodCore s ((a - spadBase) / 0x400000) && decide ((a - spadBase) % 0x400000 < 0x200000)
  else false

/-- Whether a region boundary `e` inside [a, a + n) has populated bytes on both sides. -/
def boundaryOk (s : State) (a n e : Nat) : Bool := !decide (a < e ∧ e < a + n) || (populated s (e - 1) && populated s e)

/-- The boundaries between memory regions at which what is populated may change (Table 0.6). -/
def boundaries : List Nat :=
  ((List.range 8).map fun r => (r + 1) * hbmRegion) ++ (List.range 6).map fun r => ddrBase + (r + 1) * pairRegion

/-- Whether every byte of [a, a + n) is populated: both ends, both sides of every region boundary between them, and no byte
in the upper 2 MiB of a scratchpad stride (R13). -/
def populatedRange (s : State) (a n : Nat) : Bool :=
  n == 0 || (populated s a && populated s (a + n - 1) && boundaries.all (boundaryOk s a n)
    && (decide (a < spadBase) || decide ((a - spadBase) % 0x400000 + n ≤ 0x200000)))

/-- Whether an address lies in HBM, in DDR5, in the scratchpad map. -/
def inHbm (a : Nat) : Bool := decide (a < 8 * hbmRegion)
/-- See `inHbm`. -/
def inDdr (a : Nat) : Bool := decide (ddrBase ≤ a ∧ a < ddrBase + 6 * pairRegion)
/-- See `inHbm`. -/
def inSpad (a : Nat) : Bool := decide (spadBase ≤ a ∧ a < spadBase + 512 * 0x400000)

/-- The memory unit that holds an address: the stack of its region, or the channel of R324. -/
def unitOfAddr (s : State) (a : Nat) : Option Nat :=
  if inHbm a then stackOf s (a / hbmRegion)
  else if inDdr a then
    let n := (a - ddrBase) / pairRegion
    some (8 + 2 * n + nbits (a - ddrBase) 12 12)
  else none

/-- The Kiln that serves an address (R236): 0 to 7 kiln.hN, 8 to 13 kiln.mN. -/
def kilnOf (s : State) (a : Nat) : Option Nat :=
  if inHbm a then stackOf s (a / hbmRegion)
  else if inDdr a ∧ populated s a then some (8 + (a - ddrBase) / pairRegion)
  else none

/-- Whether a whole range is served by Kiln `n`. -/
def servedBy (s : State) (n a len : Nat) : Bool :=
  kilnOf s a == some n && (len == 0 || kilnOf s (a + len - 1) == some n)

/-- The 64-byte lines of [a, a + n) that hold an uncorrectable error. -/
def badIn (s : State) (a n : Nat) : Option Nat :=
  s.badLines.find? fun l => decide (l < a + n ∧ a < l + 64)

/-! ### Cores, engines, contexts -/

/-- Physical core c. -/
def coreOf (s : State) (c : Nat) : Core := mget {} s.cores c
/-- The state with core c replaced. -/
def setCore (s : State) (c : Nat) (k : Core) : State := { s with cores := mset {} s.cores c k }
/-- Apply a change to core c. -/
def modCore (s : State) (c : Nat) (f : Core → Core) : State := setCore s c (f (coreOf s c))

/-- An engine of a core. -/
def engOf (k : Core) : Engine → Eng
  | .fetch => k.fe
  | .compute => k.ce
  | .store => k.se
/-- The core with one engine replaced. -/
def setEng (k : Core) (e : Engine) (g : Eng) : Core :=
  match e with
  | .fetch => { k with fe := g }
  | .compute => { k with ce := g }
  | .store => { k with se := g }
/-- Apply a change to one engine of core c. -/
def modEng (s : State) (c : Nat) (e : Engine) (f : Eng → Eng) : State :=
  modCore s c fun k => setEng k e (f (engOf k e))

/-- The cluster of a core (R11). -/
def clusterOf (c : Nat) : Nat := c / 32

/-- The context a core holds (Table 16.7). -/
def ctxOf (k : Core) : Option Nat := if bit k.coreCtx 63 then some (bits k.coreCtx 13 0) else none

/-- Whether a core runs in interlocked mode (Table 1.9). -/
def interlocked (k : Core) : Bool := bits k.coreMode 1 0 == 1

/-- What the latencies of the compute engine of a core are counted in: issues in scheduled mode, cycles in interlocked
mode (R27, R29). -/
def issueTime (s : State) (k : Core) : Nat := if interlocked k then s.clock.cycle else k.ce.idx

/-- The word at byte offset `off` of context descriptor x (Table 16.1). -/
def cw (s : State) (x off : Nat) : W64 := mget 0 s.ctxs (x * 32 + off / 8)
/-- Write that word. -/
def setCw (s : State) (x off : Nat) (v : W64) : State := { s with ctxs := mset 0 s.ctxs (x * 32 + off / 8) v }
/-- `CTX_STATE.STATE`: 0 empty, 1 parked, 2 live, 3 releasing. -/
def ctxState (s : State) (x : Nat) : Nat := bits (cw s x 0) 63 62
/-- Move a context to a state. -/
def setCtxState (s : State) (x v : Nat) : State := setCw s x 0 (setBits (cw s x 0) 63 62 v)
/-- `DISC`. -/
def ctxDisc (s : State) (x : Nat) : Bool := bit (cw s x 0) 61
/-- Set `DISC` on a context (R378). -/
def setDisc (s : State) (x : Nat) : State := setCw s x 0 (setBits (cw s x 0) 61 61 1)
/-- Set `DISC` where a context is named. -/
def discOpt (s : State) : Option Nat → State
  | none => s
  | some x => setDisc s x
/-- `SKEY` of a context. -/
def ctxKey (s : State) (x : Nat) : W32 := BitVec.ofNat 32 (bits (cw s x 8) 31 0)
/-- `WLIM`. -/
def ctxWlim (s : State) (x : Nat) : Nat := bits (cw s x 0) 47 32
/-- `STEP` of a context. -/
def ctxStep (s : State) (x : Nat) : Nat := bits (cw s x 0xE0) 47 0

/-- The cores that hold a context, ascending. -/
def coresOf (s : State) (x : Nat) : List Nat :=
  (s.cores.filter fun p => ctxOf p.2 == some x).map (·.1)

/-- The beat as a word. -/
def beatW (s : State) : W64 := BitVec.ofNat 64 s.clock.beat

/-- The counter of free values advances: what is read afterwards is another value (DESIGN CHOICE, log entry 4). DESIGN CHOICE, log entry 7. -/
def nextFree (s : State) : State := { s with free := s.free + 1 }

/-- Take the next free value (DESIGN CHOICE, log entry 4). -/
def takeFree (s : State) : W64 × State := (Config.freeValue s.free, nextFree s)

/-- The device address that means this device (R14). -/
def isHere (s : State) (dev : Nat) : Bool := dev == 0xFFFF || dev == s.fabric.devaddr.toNat
/-- Whether a device field is one a global address may hold (R14). -/
def devOk (s : State) (dev : Nat) : Bool :=
  isHere s dev || decide (dev / 256 < 0x80 ∧ dev % 256 < 0x80)

/-! ### Records and faults (Tables 21.1 to 21.5) -/

/-- The 64 bytes of a fault record (Table 21.1). -/
def FaultRec.bytes (r : FaultRec) : List Byte :=
  leBytes 1 r.cls ++ leBytes 1 r.sub ++ leBytes 1 r.ukind ++ leBytes 1 r.flags ++ leBytes 2 r.unit ++ leBytes 2 r.clus
    ++ leBytes 8 r.addr.toNat ++ leBytes 8 r.w1.toNat ++ leBytes 8 r.w2.toNat ++ leBytes 8 r.w3.toNat
    ++ leBytes 8 r.w4.toNat ++ leBytes 8 r.beat.toNat
    ++ leBytes 2 (match r.ctx with | none => 0 | some x => 0x8000 + x) ++ leBytes 6 0

/-- The 64 bytes of a record. -/
def Record.bytes : Record → List Byte
  | .fault r => r.bytes
  | .raw b => padTo 64 b

/-- The record marked as the first kept after records were lost (R471). -/
def Record.markGap : Record → Record
  | .fault r => .fault { r with flags := r.flags ||| 4 }
  | .raw b => .raw b

/-- A queue of `cap` records with one more offered to it (R471). -/
def RecQueue.offer (cap : Nat) (q : RecQueue) (r : Record) : RecQueue :=
  if q.held.length < cap then
    { q with held := q.held ++ [if q.gap then r.markGap else r], gap := false }
  else { q with lost := satAdd 16 q.lost 1, gap := true }

/-- What orders the records that reach the MC in one cycle: `UKIND`, then `CLUS`, then `UNIT`; a status record stands as one of the MC, a
Mover status record as one of its channel (R470, Table 11.7). -/
def Record.rank : Record → Nat
  | .fault r => (r.ukind * 2 ^ 16 + r.clus) * 2 ^ 16 + r.unit
  | .raw b => if numAt b 0 1 = 0 then (0x0D * 2 ^ 16 + 0xFFFF) * 2 ^ 16 else (8 * 2 ^ 16 + numAt b 6 2) * 2 ^ 16 + numAt b 4 2

/-- A record taken by the MC in cycle n: after the records of earlier cycles, and among those of this one by their rank (R470). DESIGN CHOICE, log entry 62. -/
def RecQueue.takeAt (n : Nat) (q : RecQueue) (r : Record) : RecQueue :=
  let fresh := if q.cycle = n then Min.min q.fresh q.held.length else 0
  let o := q.offer 1024 r
  if q.held.length < 1024 then
    let l := q.held.length - fresh
    { o with held := o.held.take l ++ sortBy (fun a b => decide (a.rank ≤ b.rank)) (o.held.drop l), cycle := n, fresh := fresh + 1 }
  else o

/-- Whether a record also goes to the flash log ring (R469). -/
def Record.logged : Record → Bool
  | .fault r => r.cls == 0x09 || r.cls == 0x0D || r.cls == 0x0E || r.cls == 0x0F
  | .raw b => numAt b 0 1 == 0 && (numAt b 1 1 == 1 || numAt b 1 1 == 2)

/-- Deliver a record to the MC (DESIGN CHOICE, log entry 62: it arrives in the cycle of its event), and to the log ring where R469 says so. -/
def reportMC (s : State) (r : Record) : State :=
  { s with mcq := s.mcq.takeAt s.clock.cycle r
           part := if r.logged then { s.part with log := s.part.log ++ [r] } else s.part }

/-- Deliver a record to the sequencer of a cluster in the floor plan and to the MC (Table 21.5, R469). -/
def report (s : State) (k : Option Nat) (r : Record) : State :=
  let s := match k with
    | some k => if s.plan.clusters.getLsbD k then
        { s with seqs := mset {} s.seqs k ((mget {} s.seqs k).offer 64 r) } else s
    | none => s
  reportMC s r

/-- A status record (R468): kind, bytes 2 to 47, and the context named. -/
def statusRec (s : State) (kind : Nat) (body : List Byte) (ctx : Option Nat) : Record :=
  .raw (leBytes 1 0 ++ leBytes 1 kind ++ padTo 46 body ++ leBytes 8 s.clock.beat
    ++ leBytes 2 (match ctx with | none => 0 | some x => 0x8000 + x))

/-- A refusal of class 0x0F by the MC (Table 21.3): subcode, address, `OP` or register offset, the core concerned. -/
def lcStat (s : State) : W64 :=
  let st := if s.part.fuseS then 3 else if s.part.fuseB ∧ s.part.fuseG then 2
    else if s.part.fuseG then 3 else if s.part.fuseB then 1 else 0
  BitVec.ofNat 64 (st * 2 ^ 62 + (if s.part.fuseD then 2 ^ 61 else 0) + (if s.life.unlock then 2 ^ 60 else 0)
    + Min.min 3 (s.part.owners.length - 1) * 2 ^ 58)

/-- Record a life-cycle or security refusal (class 0x0F), delivered to the MC alone. -/
def refuse (s : State) (sub : Nat) (addr w1 : W64) (w3 : W64 := 0) : State :=
  reportMC s (.fault { cls := 0x0F, sub := sub, ukind := 0x0D, addr := addr, w1 := w1, w2 := lcStat s, w3 := w3,
                       beat := beatW s })

/-- `UKIND` of an engine (Table 21.2). -/
def engKind : Engine → Nat
  | .fetch => 1
  | .compute => 2
  | .store => 3

/-- A fault record of a unit of core c, filled in with its unit number (Table 21.2), cluster, context and beat. -/
def coreRec (s : State) (c : Nat) (r : FaultRec) : FaultRec :=
  { r with unit := if r.ukind == 7 || r.ukind == 9 then 0 else c, clus := clusterOf c, beat := beatW s
           ctx := ctxOf (coreOf s c) }

/-- Whether an engine has ended: stopped, or off. -/
def engDone (g : Eng) : Bool := g.run != .running

/-- Whether every core that holds context x has reported (R379): its engines stopped, or it stopped on a fault,
with no isect in progress (R150). -/
def ctxStopped (s : State) (x : Nat) : Bool :=
  (coresOf s x).all fun c =>
    let k := coreOf s c
    k.faulted || (engDone k.fe && engDone k.ce && engDone k.se && k.isect.isNone)

/-- Send the context-stopped record from `s` when the change from `s0` to `s1` made the last core of a context report:
once for an acquisition (R379). -/
def reportStopped (s0 s1 s : State) (x : Option Nat) : State :=
  match x with
  | none => s
  | some x =>
    if ctxState s x == 2 && !ctxStopped s0 x && ctxStopped s1 x then
      reportMC s (statusRec s 3 (leBytes 6 0
        ++ leBytes 8 ((coresOf s x).filter fun c => (coreOf s c).faulted).length) (some x))
    else s

/-- Stop an engine where it stands: it finishes nothing further, and its wait ends (R41). -/
def haltEng (g : Eng) : Eng := { g with run := .off, staged := [], held := none, delay := none }

/-- Stop a core under R41 without a record: HALT is set, nothing further issues. -/
def haltCore (k : Core) : Core :=
  { k with fe := haltEng k.fe, ce := haltEng k.ce, se := haltEng k.se, faulted := true, stopNext := false
           coreMode := setBits k.coreMode 2 2 1 }

/-- The core stops under R41 without a record of its own. -/
def stopCore (s : State) (c : Nat) : State :=
  if (coreOf s c).faulted then s
  else
    let t := modCore s c haltCore
    reportStopped s t t (ctxOf (coreOf s c))

/-- Deliver a fault record of a unit of core c to its sequencer and the MC; `FLAGS` bit 0 where the core stops on it. -/
def reportCore (s : State) (c : Nat) (r : FaultRec) : State :=
  let r' := if (coreOf s c).faulted then r else { r with flags := r.flags ||| 1 }
  report s (some (clusterOf c)) (.fault (coreRec s c r'))

/-- A core's unit raises a fault: one record, and the core stops (R41). -/
def coreFault (s : State) (c : Nat) (r : FaultRec) : State := stopCore (reportCore s c r) c

/-- A core for which a fault was found after issue stops at its next issue, or at once when the compute engine is held or has
stopped (R41, R144). -/
def stopLater (s : State) (c : Nat) : State :=
  let k := coreOf s c
  if k.faulted then s
  else if k.ce.held.isSome || k.ce.run != .running then stopCore s c
  else modCore s c fun k => { k with stopNext := true }

/-- A fault found after issue by a unit of the core: one record; the core stops (R41). -/
def lateFault (s : State) (c : Nat) (r : FaultRec) : State := stopLater (reportCore s c r) c

/-! ### Uncorrectable errors (R331 to R333) -/

/-- Subcode of a memory uncorrectable record for a line (Table 14.2). DESIGN CHOICE, log entry 48. -/
def uncorrSub (a : Nat) : Nat := if inHbm a then 1 else 2

/-- Count an uncorrectable error in its unit, tell the Cone, and set `DISC` on the context that read the line. -/
def countUncorr (s : State) (line : Nat) (ctx : Option Nat) : State :=
  let s := { s with secure := { s.secure with evUnc := s.secure.evUnc + 1, uncLines := (s.secure.uncLines.filter (· != line / 64 * 64)) ++ [line / 64 * 64] } }
  let s := match unitOfAddr s line with
    | some u =>
      let m := unitOf s u
      let m := { m with uncorr := satAdd 16 m.uncorr 1, eaddr := BitVec.ofNat 64 (line / 64 * 64 % 2 ^ 48)
                        recent := (m.recent.filter fun r => r.1 != line / 64 && decide (s.clock.beat < r.2 + 1000000)) ++ [(line / 64, s.clock.beat)] }
      { s with units := mset {} s.units u m }
    | none => s
  discOpt s ctx

/-- Count a corrected error in its unit and toward the Cone. -/
def countCorrected (s : State) (line : Nat) : State :=
  let s := { s with secure := { s.secure with evCorr := s.secure.evCorr + 1 } }
  match unitOfAddr s line with
  | some u => { s with units := mset {} s.units u { unitOf s u with corr := satAdd 32 (unitOf s u).corr 1 } }
  | none => s

/-- A read of [a, a + n) meets the correctable errors held in its lines: each is counted, none is
written back. DESIGN CHOICE, log entry 48. DEDUCED, log entry 49. -/
def noteSoft (s : State) (a n : Nat) : State :=
  (s.softLines.filter fun l => decide (l < a + n ∧ a < l + 64)).foldl countCorrected s

/-- The record of an uncorrectable line met by a consumer (Table 21.3, class 0x09). -/
def uncorrRec (s : State) (ukind sub line : Nat) (cmd : W64) (ctx : Option Nat) : FaultRec :=
  { cls := 9, sub := sub, ukind := ukind, flags := if ctx.isSome then 2 else 0
    addr := BitVec.ofNat 64 (s.fabric.devaddr.toNat * 2 ^ 48 + line), w1 := cmd, beat := beatW s, ctx := ctx }

/-- The global address of a line of this device. -/
def globalLine (s : State) (line : Nat) : W64 := BitVec.ofNat 64 (s.fabric.devaddr.toNat * 2 ^ 48 + line % 2 ^ 48)

/-! ### Tallies (R284 to R289) -/

/-- The range of a core's (or context's) translation that holds virtual tally v (R288): its index. -/
def ttrFind (ttr : Nat → W64) (v : Nat) : Option W64 :=
  ((List.range 8).map ttr).find? fun r =>
    bit r 63 && decide (bits r 59 48 ≤ v ∧ v ≤ bits r 47 36)

/-- The physical tally of virtual tally v for a core: cluster × 4096 + number (Table 12.1). -/
def translateFor (ttr : Nat → W64) (c v : Nat) : Option Nat :=
  match ttrFind ttr v with
  | none => none
  | some r =>
    let i := v - bits r 59 48
    if bit r 62 then some (clusterOf c * 4096 + (bits r 11 0 + 32 * i + c % 32))
    else some (bits r 35 32 * 4096 + (bits r 11 0 + i))

/-- Translation through the ranges loaded into core c. -/
def translate (s : State) (c : Nat) (t : BitVec 12) : Option Nat :=
  translateFor (fun n => mget 0 (coreOf s c).ttr n) c t.toNat

/-- Translation through a context's descriptor, for units that act for it. -/
def translateCtx (s : State) (x c : Nat) (t : BitVec 12) : Option Nat :=
  translateFor (fun n => cw s x (0xA0 + 8 * n)) c t.toNat

/-- The count of a physical tally. -/
def tallyAt (s : State) (p : Nat) : Nat := (mget 0 s.tallies p).toNat

/-- Whether an advance would pass the 48-bit range (R284). -/
def overflows (s : State) (p amount : Nat) : Bool := decide (2 ^ 48 ≤ tallyAt s p + amount)

/-- Advance a physical tally; one that would pass the range keeps its value (R284). -/
def advance (s : State) (p amount : Nat) : State :=
  if overflows s p amount then s
  else { s with tallies := mset 0 s.tallies p (BitVec.ofNat 48 (tallyAt s p + amount)) }

/-- The tally overflow fault (class 0x08, subcode 0x05). -/
def overflowRec (s : State) (ukind : Nat) (addr : W64) (t p amount : Nat) : FaultRec :=
  { cls := 8, sub := 5, ukind := ukind, addr := addr, w1 := BitVec.ofNat 64 t
    w2 := BitVec.ofNat 64 (tallyAt s p), w3 := BitVec.ofNat 64 amount }

/-- A unit acting for core c's command advances its completion tally by 1; an overflow is reported in the unit's
name, the tally keeps its value, and the core stops (R41, R284). DEDUCED, log entry 15. -/
def completeTally (s : State) (c : Nat) (ukind : Nat) (t : BitVec 12) : State :=
  match translate s c t with
  | none => s
  | some p =>
    if overflows s p 1 then
      lateFault s c (overflowRec s ukind 0 t.toNat p 1)
    else advance s p 1

/-! ### Command credits (R60): classes 0 Turn, 1 chain, 2 Herd, 3 Kiln, 4 deferred chain -/

/-- Credits a core has left in a class. -/
def creditsLeft (k : Core) (cl : Nat) : Nat := 8 - mget 0 k.used cl
/-- Take a credit. -/
def takeCredit (k : Core) (cl : Nat) : Core := { k with used := mset 0 k.used cl (mget 0 k.used cl + 1) }
/-- Return a credit. -/
def giveCredit (s : State) (c cl : Nat) : State :=
  modCore s c fun k => { k with used := mset 0 k.used cl (mget 0 k.used cl - 1) }

/-! ### Register files -/

/-- A scalar register as the file holds it; x0 reads 0 (R48). -/
def xFile (g : Eng) (r : Reg) : W64 := if r = 0 then 0 else mget 0 g.x r.val
/-- Write a scalar register; a write to x0 is discarded (R49). -/
def setX (g : Eng) (r : Reg) (v : W64) : Eng := if r = 0 then g else { g with x := mset 0 g.x r.val v }
/-- Lane i of vector register r. -/
def vLane (k : Core) (r : Reg) (i : Nat) : W32 := mget 0 k.v (r.val * 256 + i)
/-- Write lanes of vector register r. -/
def setLanes (m : AMap W32) (r : Reg) : List (Nat × W32) → AMap W32
  | [] => m
  | (i, v) :: t => setLanes (mset 0 m (r.val * 256 + i) v) r t
/-- Predicate r; p0 reads all ones (Table 2.3). -/
def pFile (k : Core) (r : Fin 8) : BitVec 256 := if r = 0 then BitVec.allOnes 256 else mget 0 k.p r.val
/-- The 128-byte image in descriptor slot r. -/
def dImage (k : Core) (r : Reg) : List Byte := (List.range 128).map fun i => mget 0 k.d (r.val * 128 + i)
/-- Write a list of bytes into a sparse byte map from a key on. -/
def setBytes (m : AMap Byte) (a : Nat) : List Byte → AMap Byte
  | [] => m
  | b :: t => setBytes (mset 0 m a b) (a + 1) t
/-- `n` bytes of a sparse byte map. -/
def getBytes (m : AMap Byte) (a n : Nat) : List Byte := (List.range n).map fun i => mget 0 m (a + i)
/-- Element (row, col) of an accumulator set. -/
def accAt (k : Core) (set row col : Nat) : W32 := mget 0 k.acc (set * 32768 + row * 64 + col)
/-- Write an accumulator row's elements from column `c` on. -/
def setAccRow (m : AMap W32) (set row c : Nat) : List W32 → AMap W32
  | [] => m
  | v :: t => setAccRow (mset 0 m (set * 32768 + row * 64 + c) v) set row (c + 1) t

/-- Let a landing result reach its register (x0 and p0 discard it, R49). -/
def land (k : Core) (e : Engine) : RegWrite → Core
  | .x r v => setEng k e (setX (engOf k e) r v)
  | .v r lanes => { k with v := setLanes k.v r lanes }
  | .p r w => if r = 0 then k else { k with p := mset 0 k.p r.val w }
  | .d r img => { k with d := setBytes k.d (r.val * 128) img }

/-- Land every result of an engine that is readable at its issue index, oldest first. -/
def landDue (k : Core) (e : Engine) : List Pending → Nat → Core
  | [], _ => k
  | p :: t, idx =>
    let k := if p.ready ≤ idx ∧ ¬ p.landed then land k e p.write else k
    landDue k e t idx

/-- The owner of a descriptor slot (Table 1.11). -/
def slotOwner (k : Core) (r : Reg) : Option Engine :=
  match bits k.dslotOwn (2 * r.val + 1) (2 * r.val) with
  | 0 => some .fetch
  | 1 => some .compute
  | 2 => some .store
  | _ => none

/-- The binding of a queue (Table 1.10): producer and consumer. -/
def queueEnds (k : Core) (q : Fin 16) : Option (Engine × Engine) :=
  if interlocked k ∧ 8 ≤ q.val then none
  else match bits k.queueBind (2 * q.val + 1) (2 * q.val) with
  | 1 => some (.fetch, .compute)
  | 2 => some (.compute, .store)
  | 3 => some (.fetch, .store)
  | _ => none

/-- The entries of a queue, oldest first. -/
def queueAt (k : Core) (q : Fin 16) : List (List Byte) := mget [] k.queues q.val
/-- Replace the entries of a queue. -/
def setQueue (k : Core) (q : Fin 16) (l : List (List Byte)) : Core := { k with queues := mset [] k.queues q.val l }

end Sys2Proof.Machine
end

