-- ==== Sys2Proof/Machine/Float.lean ====
section
/-! DEFINITION. Floating point: exact values, the element formats of Table 4.1, rounding to nearest even, and the
FP32, BF16 and binary64 operations of R54 that the units share. -/

namespace Sys2Proof.Machine

open Sys2Proof

/-- An exact value: a NaN with its sign, an infinity, or ±m × 2^e. -/
inductive FV where
  | nan (neg : Bool)
  | inf (neg : Bool)
  | fin (neg : Bool) (m : Nat) (e : Int)
  deriving DecidableEq, Repr

/-- The sign. -/
def FV.neg : FV → Bool
  | .nan s => s
  | .inf s => s
  | .fin s _ _ => s
/-- Whether the value is a NaN. -/
def FV.isNan : FV → Bool
  | .nan _ => true
  | _ => false
/-- Whether the value is ±0. -/
def FV.isZero : FV → Bool
  | .fin _ 0 _ => true
  | _ => false
/-- Whether the value is finite. -/
def FV.isFin : FV → Bool
  | .fin _ _ _ => true
  | _ => false
/-- The value with another sign. -/
def FV.withSign (v : FV) (s : Bool) : FV :=
  match v with
  | .nan _ => .nan s
  | .inf _ => .inf s
  | .fin _ m e => .fin s m e
/-- The magnitude. -/
def FV.abs (v : FV) : FV := v.withSign false
/-- The value with its sign changed. -/
def FV.negate (v : FV) : FV := v.withSign (!v.neg)
/-- An integer as an exact value. -/
def FV.ofInt (i : Int) : FV := .fin (decide (i < 0)) i.natAbs 0
/-- The value times 2^k. -/
def FV.scale (v : FV) (k : Int) : FV :=
  match v with
  | .fin s m e => .fin s m (e + k)
  | v => v

/-- ±m × 2^e as an integer multiple of 2^e0, for e0 at or below e. -/
def alignedInt (s : Bool) (m : Nat) (e e0 : Int) : Int :=
  let n : Int := (m * 2 ^ (e - e0).toNat : Nat)
  if s then -n else n

/-- The exact sum; an exact zero is +0 unless both are −0. -/
def FV.add (a b : FV) : FV :=
  match a, b with
  | .nan _, _ => .nan false
  | _, .nan _ => .nan false
  | .inf s, .inf t => if s = t then .inf s else .nan false
  | .inf s, _ => .inf s
  | _, .inf t => .inf t
  | .fin s m e, .fin t n f =>
    if m = 0 ∧ n = 0 then .fin (s && t) 0 0
    else if m = 0 then .fin t n f
    else if n = 0 then .fin s m e
    else
      let e0 := min e f
      let z := alignedInt s m e e0 + alignedInt t n f e0
      .fin (decide (z < 0)) z.natAbs e0

/-- The exact difference. -/
def FV.sub (a b : FV) : FV := a.add b.negate

/-- The exact product. -/
def FV.mul (a b : FV) : FV :=
  match a, b with
  | .nan _, _ => .nan false
  | _, .nan _ => .nan false
  | .inf s, b => if b.isZero then .nan false else .inf (s != b.neg)
  | a, .inf t => if a.isZero then .nan false else .inf (a.neg != t)
  | .fin s m e, .fin t n f => .fin (s != t) (m * n) (e + f)

/-- A quotient with 160 bits and a sticky bit: rounding it once gives the correctly rounded quotient. -/
def FV.div (a b : FV) : FV :=
  match a, b with
  | .nan _, _ => .nan false
  | _, .nan _ => .nan false
  | .inf _, .inf _ => .nan false
  | .inf s, b => .inf (s != b.neg)
  | a, .inf t => .fin (a.neg != t) 0 0
  | .fin s m e, .fin t n f =>
    if n = 0 then (if m = 0 then .nan false else .inf (s != t))
    else
      let k := 160 + Nat.log2 n
      let q := (m * 2 ^ k) / n
      let r := (m * 2 ^ k) % n
      .fin (s != t) (2 * q + (if r = 0 then 0 else 1)) (e - f - (k : Int) - 1)

/-- The integer square root by bits, highest first. -/
def isqrtBits (n : Nat) : Nat → Nat → Nat
  | 0, acc => acc
  | k + 1, acc =>
    let c := acc + 2 ^ k
    isqrtBits n k (if c * c ≤ n then c else acc)

/-- A square root with ample bits and a sticky bit. A negative operand gives NaN; ±0 gives itself. -/
def FV.sqrt (a : FV) : FV :=
  match a with
  | .nan _ => .nan false
  | .inf s => if s then .nan false else .inf false
  | .fin s m e =>
    if m = 0 then .fin s 0 0
    else if s then .nan false
    else
      let odd := e % 2 != 0
      let m1 := (if odd then 2 * m else m) * 2 ^ 160
      let e1 := (if odd then e - 1 else e) - 160
      let r := isqrtBits m1 (Nat.log2 m1 / 2 + 1) 0
      .fin false (2 * r + (if r * r = m1 then 0 else 1)) (e1 / 2 - 1)

/-- Whether a < b as numbers (false where either is a NaN). -/
def FV.lt (a b : FV) : Bool :=
  match a, b with
  | .nan _, _ => false
  | _, .nan _ => false
  | .inf s, .inf t => s && !t
  | .inf s, _ => s
  | _, .inf t => !t
  | .fin s m e, .fin t n f => decide (alignedInt s m e (min e f) < alignedInt t n f (min e f))

/-- Whether a = b as numbers (false where either is a NaN). -/
def FV.eq (a b : FV) : Bool := !a.isNan && !b.isNan && !a.lt b && !b.lt a

/-- maximumNumber of IEEE 754: a NaN yields the other operand, and −0 lies below +0. -/
def FV.max (a b : FV) : FV :=
  if a.isNan then (if b.isNan then .nan false else b)
  else if b.isNan then a
  else if a.lt b then b
  else if b.lt a then a
  else if a.neg then b else a

/-- minimumNumber of IEEE 754. -/
def FV.min (a b : FV) : FV :=
  if a.isNan then (if b.isNan then .nan false else b)
  else if b.isNan then a
  else if a.lt b then a
  else if b.lt a then b
  else if a.neg then a else b

/-! ### Formats -/

/-- A format's widths, bias, and which special encodings it has. -/
structure Fmt where
  ebits : Nat
  mbits : Nat
  bias  : Nat
  hasInf : Bool
  hasNan : Bool
  deriving DecidableEq, Repr

/-- binary32. -/
def fmtF32 : Fmt := ⟨8, 23, 127, true, true⟩
/-- BF16. -/
def fmtBf16 : Fmt := ⟨8, 7, 127, true, true⟩
/-- binary16. -/
def fmtF16 : Fmt := ⟨5, 10, 15, true, true⟩
/-- FP8 E4M3: no infinity, one NaN. -/
def fmtE4m3 : Fmt := ⟨4, 3, 7, false, true⟩
/-- FP8 E5M2. -/
def fmtE5m2 : Fmt := ⟨5, 2, 15, true, true⟩
/-- FP6 E2M3. -/
def fmtE2m3 : Fmt := ⟨2, 3, 1, false, false⟩
/-- FP6 E3M2. -/
def fmtE3m2 : Fmt := ⟨3, 2, 3, false, false⟩
/-- FP4 E2M1. -/
def fmtE2m1 : Fmt := ⟨2, 1, 1, false, false⟩
/-- binary64. -/
def fmtF64 : Fmt := ⟨11, 52, 1023, true, true⟩

/-- The magnitude encoding of the largest finite value. -/
def Fmt.maxEnc (f : Fmt) : Nat :=
  if f.hasInf then (2 ^ f.ebits - 1) * 2 ^ f.mbits - 1
  else if f.hasNan then 2 ^ (f.ebits + f.mbits) - 2
  else 2 ^ (f.ebits + f.mbits) - 1

/-- The sign bit's weight. -/
def Fmt.signW (f : Fmt) : Nat := 2 ^ (f.ebits + f.mbits)

/-- The value of an encoding. -/
def Fmt.decode (f : Fmt) (w : Nat) : FV :=
  let s := w / f.signW % 2 == 1
  let mag := w % f.signW
  let x := mag / 2 ^ f.mbits
  let m := mag % 2 ^ f.mbits
  if f.hasInf && x == 2 ^ f.ebits - 1 then (if m = 0 then .inf s else .nan s)
  else if f.hasNan && !f.hasInf && mag == f.signW - 1 then .nan s
  else if x = 0 then .fin s m (1 - (f.bias : Int) - f.mbits)
  else .fin s (m + 2 ^ f.mbits) ((x : Int) - f.bias - f.mbits)

/-- m × 2^−s rounded to nearest even. -/
def shiftRne (m s : Nat) : Nat :=
  let q := m / 2 ^ s
  let r := m % 2 ^ s
  if 2 * r > 2 ^ s ∨ (2 * r = 2 ^ s ∧ q % 2 = 1) then q + 1 else q

/-- The magnitude encoding of m × 2^e (m ≠ 0) rounded to nearest even, as if no largest exponent bounded it. -/
def Fmt.roundMag (f : Fmt) (m : Nat) (e : Int) : Nat :=
  let qmin : Int := 1 - (f.bias : Int) - f.mbits
  let q : Int := Max.max ((Nat.log2 m : Int) + e - f.mbits) qmin
  let mant := if q ≤ e then m * 2 ^ (e - q).toNat else shiftRne m (q - e).toNat
  (q - qmin).toNat * 2 ^ f.mbits + mant

/-- The canonical NaN (R54) of a format with infinities. -/
def Fmt.nanEnc (f : Fmt) : Nat := (2 ^ f.ebits - 1) * 2 ^ f.mbits + 2 ^ (f.mbits - 1)

/-- Round an exact value as IEEE 754 arithmetic does: overflow gives an infinity, a NaN is canonical. -/
def Fmt.round (f : Fmt) (v : FV) : Nat :=
  match v with
  | .nan _ => f.nanEnc
  | .inf s => (if s then f.signW else 0) + (f.maxEnc + 1)
  | .fin s m e =>
    (if s then f.signW else 0) + (if m = 0 then 0 else Min.min (f.roundMag m e) (f.maxEnc + 1))

/-- Round an exact value as the conversions do (R57): a finite overflow saturates; an infinity stays one where the
format has it and saturates where not; a NaN is canonical in FP32, BF16 and FP16 and 0x7F with its sign in FP8. -/
def Fmt.convert (f : Fmt) (v : FV) : Nat :=
  match v with
  | .nan s => if f.ebits + f.mbits = 7 then (if s then f.signW else 0) + 0x7F else f.nanEnc
  | .inf s => (if s then f.signW else 0) + (if f.hasInf then f.maxEnc + 1 else f.maxEnc)
  | .fin s m e =>
    (if s then f.signW else 0) + (if m = 0 then 0 else Min.min (f.roundMag m e) f.maxEnc)

/-- A value rounded to an integer, ties to even. -/
def roundInt (m : Nat) (e : Int) : Nat := if 0 ≤ e then m * 2 ^ e.toNat else shiftRne m (-e).toNat

/-- Conversion to a two's complement integer of n bits: nearest even, saturating; NaN gives 0 (R57, R120). -/
def toIntSat (n : Nat) (v : FV) : Int :=
  match v with
  | .nan _ => 0
  | .inf s => if s then -(2 ^ (n - 1) : Int) else 2 ^ (n - 1) - 1
  | .fin s m e =>
    let r : Int := roundInt m e
    Max.max (-(2 ^ (n - 1) : Int)) (Min.min (2 ^ (n - 1) - 1) (if s then -r else r))

/-! ### Element format codes (Table 4.1) -/

/-- The floating format of a code, where it names one. -/
def fmtOf : Nat → Option Fmt
  | 0 => some fmtF32
  | 1 => some fmtBf16
  | 2 => some fmtF16
  | 3 => some fmtE4m3
  | 4 => some fmtE5m2
  | 5 => some fmtE4m3
  | 6 => some fmtE2m3
  | 7 => some fmtE3m2
  | 8 => some fmtE2m1
  | 0xC => some fmtF64
  | _ => none

/-- Bits of an element of a format code. -/
def elemBits : Nat → Nat
  | 0 => 32
  | 1 => 16
  | 2 => 16
  | 6 => 6
  | 7 => 6
  | 8 => 4
  | 0xB => 4
  | 0xC => 64
  | _ => 8

/-- The value of an element encoding, without its block scale. -/
def elemVal (code w : Nat) : FV :=
  match fmtOf code with
  | some f => f.decode w
  | none =>
    if code = 9 then (FV.ofInt (signed 8 w)).scale (-6)
    else if code = 0xB then FV.ofInt (signed 4 w)
    else FV.ofInt (signed 8 w)

/-- Whether an element encoding is +0 or −0 (R92). -/
def elemZero (code w : Nat) : Bool :=
  match fmtOf code with
  | some f => w % f.signW == 0
  | none => w == 0

/-- The encoding of a value in a plain format (R57, R120). -/
def elemEnc (code : Nat) (v : FV) : Nat :=
  match fmtOf code with
  | some f => f.convert v
  | none =>
    if code = 0xB then (BitVec.ofInt 4 (toIntSat 4 v)).toNat else (BitVec.ofInt 8 (toIntSat 8 v)).toNat

/-- The encoding of value / 2^x in an MX format: nearest even, saturated (R99). -/
def mxEnc (code : Nat) (v : FV) (x : Int) : Nat :=
  let v := v.scale (-x)
  match fmtOf code with
  | some f => f.convert v
  | none =>
    let i := toIntSat 8 (v.scale 6)
    (BitVec.ofInt 8 (Max.max (-127) i)).toNat

/-- `emax` of R99. -/
def mxEmax : Nat → Int
  | 5 => 8
  | 6 => 2
  | 7 => 4
  | 8 => 2
  | _ => 0

/-- The scale byte of a block of values (R99), and whether the block is all NaN or all zero. -/
def mxScale (code : Nat) (vs : List FV) : Nat :=
  if vs.any fun v => !v.isFin then 0xFF
  else
    let amax := vs.foldl (fun a v => FV.max a v.abs) (.fin false 0 0)
    match amax with
    | .fin _ m e =>
      if m = 0 then 0
      else (Max.max (-127) (Min.min 127 ((Nat.log2 m : Int) + e - mxEmax code)) + 127).toNat
    | _ => 0xFF

/-- The element encodings of a block under its scale (R99). -/
def mxElems (code scale : Nat) (vs : List FV) : List Nat :=
  if scale = 0xFF then vs.map fun _ => 0
  else if (vs.all FV.isZero) then vs.map fun _ => 0
  else vs.map fun v => mxEnc code v ((scale : Int) - 127)

/-- The value of an MX element under its scale byte (R90). -/
def mxVal (code scale w : Nat) : FV :=
  if scale = 0xFF then .nan false else (elemVal code w).scale ((scale : Int) - 127)

/-! ### FP32, BF16 and binary64 operations -/

/-- The value of an FP32 encoding. -/
def f32 (w : W32) : FV := fmtF32.decode w.toNat
/-- Round to FP32. -/
def rnd32 (v : FV) : W32 := BitVec.ofNat 32 (fmtF32.round v)
/-- FP32 addition. -/
def f32Add (a b : W32) : W32 := rnd32 ((f32 a).add (f32 b))
/-- FP32 subtraction. -/
def f32Sub (a b : W32) : W32 := rnd32 ((f32 a).sub (f32 b))
/-- FP32 multiplication. -/
def f32Mul (a b : W32) : W32 := rnd32 ((f32 a).mul (f32 b))
/-- FP32 fused multiply-add. -/
def f32Fma (a b c : W32) : W32 := rnd32 (((f32 a).mul (f32 b)).add (f32 c))
/-- FP32 division. -/
def f32Div (a b : W32) : W32 := rnd32 ((f32 a).div (f32 b))
/-- FP32 square root. -/
def f32Sqrt (a : W32) : W32 := rnd32 (f32 a).sqrt
/-- FP32 maximumNumber. -/
def f32Max (a b : W32) : W32 := rnd32 ((f32 a).max (f32 b))
/-- FP32 minimumNumber. -/
def f32Min (a b : W32) : W32 := rnd32 ((f32 a).min (f32 b))
/-- FP32 less-than. -/
def f32Lt (a b : W32) : Bool := (f32 a).lt (f32 b)
/-- FP32 equality as numbers. -/
def f32Eq (a b : W32) : Bool := (f32 a).eq (f32 b)
/-- Whether an FP32 encoding is a NaN. -/
def f32IsNan (a : W32) : Bool := (f32 a).isNan
/-- Whether an FP32 encoding is finite. -/
def f32IsFin (a : W32) : Bool := (f32 a).isFin
/-- Canonical NaN, ±∞ and ±1 in FP32. -/
def nan32 : W32 := 0x7FC00000
/-- See `nan32`. -/
def inf32 : W32 := 0x7F800000
/-- See `nan32`. -/
def ninf32 : W32 := 0xFF800000
/-- See `nan32`. -/
def one32 : W32 := 0x3F800000

/-- Round an FP32 value to BF16 and to FP16, as arithmetic results (R54). -/
def rndBf (v : FV) : Nat := fmtBf16.round v
/-- The value of a BF16 encoding. -/
def bf (w : Nat) : FV := fmtBf16.decode w

/-- The value of a binary64 encoding. -/
def f64 (w : W64) : FV := fmtF64.decode w.toNat
/-- Round to binary64. -/
def rnd64 (v : FV) : W64 := BitVec.ofNat 64 (fmtF64.round v)
/-- binary64 addition. -/
def f64Add (a b : W64) : W64 := rnd64 ((f64 a).add (f64 b))

/-- The fixed pairwise tree over a list of 2^k elements: element i joins element i + half (R56). -/
def treeFold {α : Type} (op : α → α → α) : Nat → List α → List α
  | 0, l => l
  | k + 1, l =>
    let h := l.length / 2
    treeFold op k (List.zipWith op (l.take h) (l.drop h))

end Sys2Proof.Machine
end

