-- ==== Sys2Proof/Machine/Elementary.lean ====
section
/-! DEFINITION. The elementary functions of R55 and R201: each result is within 1 or 2 ulp of the exact value, the fixed
method that picks it being left open. Exact values are computed in fixed point with 256 fraction bits, whose error lies
far below the ulp they are compared with. -/

namespace Sys2Proof.Machine

open Sys2Proof

/-! ### Fixed point with 256 fraction bits -/

/-- One. -/
def fxOne : Int := 2 ^ 256
/-- A product. -/
def fxMul (a b : Int) : Int := a * b / fxOne
/-- A quotient. -/
def fxDiv (a b : Int) : Int := a * fxOne / b
/-- The fixed-point number of a finite FP32 value, exact; 0 for the others. -/
def fxOf (v : FV) : Int :=
  match v with
  | .fin s m e => alignedInt s m e (-256)
  | _ => 0
/-- The value of a fixed-point number. -/
def fxVal (z : Int) : FV := .fin (decide (z < 0)) z.natAbs (-256)

/-- e^x for 0 ≤ x < 256: the series at x / 256, squared eight times. -/
def fxExpPos (x : Int) : Int :=
  let y := x / 256
  let t := (List.range 60).foldl (fun (p : Int × Int) i =>
    let term := p.1 * y / ((i + 1 : Nat) * fxOne)
    (term, p.2 + term)) (fxOne, fxOne)
  (List.range 8).foldl (fun a _ => fxMul a a) t.2

/-- e^x; 0 where x ≤ −256. Not used above 256. -/
def fxExp (x : Int) : Int :=
  if x ≤ -(256 * fxOne) then 0
  else if x < 0 then fxDiv fxOne (fxExpPos (-x))
  else fxExpPos x

/-- Twice the inverse hyperbolic tangent of 0 ≤ z ≤ 1/3, by its series. -/
def fxAtanh2 (z : Int) : Int :=
  let q := fxMul z z
  2 * ((List.range 90).foldl (fun (p : Int × Int) i => (fxMul p.1 q, p.2 + p.1 / (2 * i + 1 : Nat))) (z, 0)).2

/-- The natural logarithm of m × 2^e: that of the significand and e times that of 2. -/
def fxLog (m : Nat) (e : Int) : Int :=
  let k := Nat.log2 m
  let f : Int := m * fxOne / 2 ^ k
  fxAtanh2 (fxDiv (f - fxOne) (f + fxOne)) + (e + k) * fxAtanh2 (fxOne / 3)

/-- σ(x) = 1 ÷ (1 + e^−x): 0 and 1 beyond ±256. -/
def fxSigma (x : Int) : Int :=
  if 256 * fxOne ≤ x then fxOne
  else if x < 0 then fxDiv (fxExp x) (fxOne + fxExp x)
  else fxDiv fxOne (fxOne + fxExp (-x))

/-! ### Exact values (R55, Table 8.3) -/

/-- e^x of a finite x: an infinity stands for every value too large for FP32, 0 for those too small. -/
def expExact (x : FV) : FV :=
  let z := fxOf x
  if 128 * fxOne ≤ z then .inf false else fxVal (fxExp z)

/-- ln x of a finite x > 0. -/
def logExact (x : FV) : FV :=
  match x with
  | .fin _ m e => fxVal (fxLog m e)
  | v => v

/-- 1 ÷ √x of a finite x > 0. -/
def rsqrtExact (x : FV) : FV := (FV.fin false 1 0).div x.sqrt

/-- 2√(2/π). -/
def geluScale : Int := 0x19884533d436508d0fcb3c500bab8e2ff4e0a7cc1449c1b63011c6d20098e74ba
/-- 2√(2/π)(x + 0.044715x³), for |x| < 64. -/
def geluArg (x : Int) : Int := fxMul geluScale (x + fxMul x (fxMul x x) * 44715 / 1000000)
/-- Its derivative in x. -/
def geluArgDer (x : Int) : Int := fxMul geluScale (fxOne + 3 * fxMul x x * 44715 / 1000000)

/-- f(x) of Table 8.3 for functions 2 to 5 and a finite x; 0.5(1 + tanh u) is σ(2u). -/
def actExact (a : Nat) (x : FV) : FV :=
  let z := fxOf x
  let big := decide (64 * fxOne ≤ z.natAbs)
  if a = 2 then
    if big then (if x.neg then .fin true 0 0 else x) else x.mul (fxVal (fxSigma (geluArg z)))
  else if a = 3 then
    if decide (256 * fxOne ≤ z.natAbs) then (if x.neg then .fin true 0 0 else x) else x.mul (fxVal (fxSigma z))
  else if a = 4 then fxVal (fxSigma z)
  else if big then .fin x.neg 1 0
  else
    let e := fxExp (2 * (z.natAbs : Int))
    (fxVal (fxDiv (e - fxOne) (e + fxOne))).withSign x.neg

/-- f′(z) of Table 8.3 for functions 2 to 5 and a finite z. -/
def derExact (a : Nat) (x : FV) : FV :=
  let z := fxOf x
  let big := decide (64 * fxOne ≤ z.natAbs)
  if a = 2 then
    if big then (if x.neg then .fin false 0 0 else .fin false 1 0)
    else
      let w := geluArg z
      fxVal (fxSigma w + fxMul (fxMul z (geluArgDer z)) (fxMul (fxSigma w) (fxSigma (-w))))
  else if a = 3 then
    if decide (256 * fxOne ≤ z.natAbs) then (if x.neg then .fin false 0 0 else .fin false 1 0)
    else fxVal (fxMul (fxSigma z) (fxOne + fxMul z (fxSigma (-z))))
  else if a = 4 then fxVal (fxMul (fxSigma z) (fxSigma (-z)))
  else if big then .fin false 0 0
  else fxVal (4 * fxMul (fxSigma (2 * z)) (fxSigma (-(2 * z))))

/-! ### Results within a bound (R55, R201) -/

/-- The ulp of FP32 at an exact value: the exponent of its last place. DEDUCED, log entry 5. -/
def ulpExp (v : FV) : Int :=
  match v with
  | .fin _ m e => if m = 0 then -149 else Max.max ((Nat.log2 m : Int) + e - 23) (-149)
  | _ => 104

/-- Whether an FP32 word is within n ulp of an exact value. An infinity counts as 2^128. DEDUCED, log entry 5. -/
def withinUlps (n : Nat) (exact : FV) (w : W32) : Bool :=
  let v := match f32 w with
    | .inf s => FV.fin s 1 128
    | v => v
  let u := ulpExp exact
  v.isFin && !((FV.fin false n u).lt (v.sub exact).abs)

/-- A result of the fixed method: the free value where it keeps the bound, else the exact value rounded, which keeps it.
An overflow gives the infinity (R55). DESIGN CHOICE, log entry 5. -/
def bounded (n : Nat) (exact : FV) (free : W32) : W32 :=
  if f32IsFin (rnd32 exact) && withinUlps n exact free then free else rnd32 exact

/-- The exponential of R55: its special values, an overflow, else a value within 1 ulp. DESIGN CHOICE, log entry 5. -/
def exp32 (x : W32) : W32 :=
  if f32IsNan x then nan32
  else if x = ninf32 then 0
  else if x = inf32 then inf32
  else bounded 1 (expExact (f32 x)) (Config.expFn x)

/-- The logarithm of R55: its special values, else a value within 1 ulp. DESIGN CHOICE, log entry 5. -/
def log32 (x : W32) : W32 :=
  if f32IsNan x then nan32
  else if (f32 x).isZero then ninf32
  else if (f32 x).neg then nan32
  else if x = inf32 then inf32
  else bounded 1 (logExact (f32 x)) (Config.logFn x)

/-- The reciprocal square root of R55: its special values, else a value within 1 ulp. DESIGN CHOICE, log entry 5. -/
def rsqrt32 (x : W32) : W32 :=
  if f32IsNan x then nan32
  else if x = 0 then inf32
  else if x = 0x80000000 then ninf32
  else if (f32 x).neg then nan32
  else if x = inf32 then 0
  else bounded 1 (rsqrtExact (f32 x)) (Config.rsqrtFn x)

/-- f(x) of Table 8.3 (R201): its limits, else a value within 2 ulp. DESIGN CHOICE, log entry 5. -/
def actVal (a : Nat) (x : W32) : W32 :=
  if f32IsNan x then nan32
  else if a = 1 then (if f32Lt 0 x then x else 0)
  else if x = inf32 then (if a = 2 ∨ a = 3 then inf32 else one32)
  else if x = ninf32 then (if a = 2 ∨ a = 3 then 0x80000000 else if a = 4 then 0 else 0xBF800000)
  else bounded 2 (actExact a (f32 x)) (Config.actFn a x)

/-- f′(z), rounded to FP32 (R200, R201). DESIGN CHOICE, log entry 5. -/
def actPrime (a : Nat) (z : W32) : W32 :=
  if z = inf32 then (if a = 2 ∨ a = 3 then one32 else 0)
  else if z = ninf32 then 0
  else bounded 2 (derExact a (f32 z)) (Config.actDeriv a z)

/-- x × f′(z) (R200). DESIGN CHOICE, log entry 5. -/
def actDer (a : Nat) (x z : W32) : W32 :=
  if f32IsNan z then nan32
  else if a = 1 then (if f32Lt 0 z then x else 0)
  else f32Mul x (actPrime a z)

end Sys2Proof.Machine
end

