-- ==== Sys2Proof/Machine/Hash.lean ====
section
/-! DEFINITION. SHAKE256 of FIPS 202, used for every digest the spec names, and the CRC-32 of the fabric's frames. -/

namespace Sys2Proof.Machine

open Sys2Proof

/-- Rotate a lane left. -/
def rotLane (w : W64) (k : Nat) : W64 := w.rotateLeft k

/-- Lane (x, y) of a Keccak state, at index x + 5y. -/
def lane (a : List W64) (x y : Nat) : W64 := a.getD (x % 5 + 5 * (y % 5)) 0

/-- The rotation offsets of ρ, at index x + 5y. -/
def keccakRho : List Nat :=
  [0, 1, 62, 28, 27, 36, 44, 6, 55, 20, 3, 10, 43, 25, 39, 41, 45, 15, 21, 8, 18, 2, 61, 56, 14]

/-- The round constants of ι. -/
def keccakRc : List W64 :=
  [0x0000000000000001, 0x0000000000008082, 0x800000000000808A, 0x8000000080008000,
   0x000000000000808B, 0x0000000080000001, 0x8000000080008081, 0x8000000000008009,
   0x000000000000008A, 0x0000000000000088, 0x0000000080008009, 0x000000008000000A] ++
  [0x000000008000808B, 0x800000000000008B, 0x8000000000008089, 0x8000000000008003,
   0x8000000000008002, 0x8000000000000080, 0x000000000000800A, 0x800000008000000A,
   0x8000000080008081, 0x8000000000008080, 0x0000000080000001, 0x8000000080008008]

/-- One round of Keccak-f[1600]. -/
def keccakRound (a : List W64) (rc : W64) : List W64 :=
  let c := (List.range 5).map fun x => lane a x 0 ^^^ lane a x 1 ^^^ lane a x 2 ^^^ lane a x 3 ^^^ lane a x 4
  let d := (List.range 5).map fun x => c.getD ((x + 4) % 5) 0 ^^^ rotLane (c.getD ((x + 1) % 5) 0) 1
  let a := (List.range 25).map fun i => a.getD i 0 ^^^ d.getD (i % 5) 0
  let b := (List.range 25).map fun i =>
    let x := i % 5
    let y := i / 5
    let sx := (x + 3 * y) % 5
    rotLane (a.getD (sx + 5 * x) 0) (keccakRho.getD (sx + 5 * x) 0)
  (List.range 25).map fun i =>
    let x := i % 5
    let y := i / 5
    let v := lane b x y ^^^ (~~~(lane b (x + 1) y) &&& lane b (x + 2) y)
    if i = 0 then v ^^^ rc else v

/-- Keccak-f[1600]. -/
def keccakF (a : List W64) : List W64 := keccakRc.foldl keccakRound a

/-- Absorb whole 136-byte blocks. -/
def absorb (a : List W64) (blocks : List (List Byte)) : List W64 :=
  blocks.foldl (fun a b => keccakF ((List.range 25).map fun i =>
    a.getD i 0 ^^^ (if i < 17 then wordAt b (8 * i) else 0))) a

/-- Squeeze `n` blocks of 136 bytes. -/
def squeeze : Nat → List W64 → List Byte
  | 0, _ => []
  | n + 1, a => ((a.take 17).map fun w => leBytes 8 w.toNat).flatten ++ squeeze n (keccakF a)

/-- SHAKE256 of a message, `n` bytes of output. -/
def shake256 (n : Nat) (m : List Byte) : List Byte :=
  let l := m.length % 136
  let pad : List Byte := if l = 135 then [0x9F] else [0x1F] ++ List.replicate (134 - l) 0 ++ [0x80]
  (squeeze (n / 136 + 1) (absorb (List.replicate 25 0) (chunks 136 (m ++ pad)))).take n

/-- The 32-byte digest that the spec takes of SHAKE256. -/
def digest32 (m : List Byte) : List Byte := shake256 32 m

/-- One bit step of the reflected CRC-32 (polynomial 0xEDB8_8320). -/
def crcStep (c : BitVec 32) : BitVec 32 :=
  if c.getLsbD 0 then (c >>> 1) ^^^ 0xEDB88320 else c >>> 1

/-- One byte of the CRC-32. -/
def crcByte (c : BitVec 32) (b : Byte) : BitVec 32 :=
  (List.range 8).foldl (fun c _ => crcStep c) (c ^^^ b.zeroExtend 32)

/-- The CRC-32 of IEEE 802.3. -/
def crc32 (bs : List Byte) : BitVec 32 := ~~~(bs.foldl crcByte 0xFFFFFFFF)

end Sys2Proof.Machine
end

