-- ==== Sys2Proof/Machine/Operands.lean ====
section
/-! DEFINITION. Operand forms: tensor descriptors and their checks (R89 to R118), canonical index order, the
saggar, strip, BP and HB forms read and written, and the window checks of R13, R14, R25 and R78 to R81. -/

namespace Sys2Proof.Machine

open Sys2Proof

/-- A fault's class, subcode and words, before its unit is known. -/
structure Flt where
  cls  : Nat
  sub  : Nat
  addr : W64 := 0
  w1   : W64 := 0
  w2   : W64 := 0
  w3   : W64 := 0
  w4   : W64 := 0
  deriving DecidableEq, Repr

/-- The record of a fault in a unit of kind `ukind`. -/
def Flt.toRec (f : Flt) (ukind : Nat) : FaultRec :=
  { cls := f.cls, sub := f.sub, ukind := ukind, addr := f.addr, w1 := f.w1, w2 := f.w2, w3 := f.w3, w4 := f.w4 }

/-- Count a memory uncorrectable fault: at the unit of its line, or, for a line of another device (R332), toward the Cone
and the context alone. -/
def countErr (s : State) (f : Flt) (ctx : Option Nat) : State :=
  if f.sub = 5 then discOpt { s with secure := { s.secure with evUnc := s.secure.evUnc + 1 } } ctx
  else countUncorr s (f.addr.toNat % 2 ^ 48) ctx

/-- The global address of the line that a memory uncorrectable fault names. DESIGN CHOICE, log entry 48. -/
def errLine (s : State) (f : Flt) : W64 := if f.sub = 5 then f.addr else globalLine s f.addr.toNat

/-- A unit that acts for core c meets a fault after issue (R41): an uncorrectable line is counted and sets `DISC`
(R331, R333), one record names it with the command `cmd`, and the core stops at its next issue. -/
def unitFault (s : State) (c ukind : Nat) (cmd : W64) (f : Flt) : State :=
  if f.cls = 9 then
    let x := ctxOf (coreOf s c)
    lateFault (countErr s f x) c
      { f.toRec ukind with addr := errLine s f, w1 := cmd, flags := if x.isSome then 2 else 0 }
  else lateFault s c (f.toRec ukind)

/-- The index that does not apply (R466). -/
def noIndex : W64 := BitVec.allOnes 64

/-- A schedule fault of the bundle at `pc` (Table 21.3): `what` is the register, row or slot concerned, all ones where
none is (R466). DEDUCED, log entry 46. -/
def schedFlt (sub : Nat) (pc : W64) (what : W64 := noIndex) : Flt := { cls := 1, sub := sub, addr := pc, w3 := what }

/-- The lowest accumulator row that a check concerns. DEDUCED, log entry 46. -/
def rowWord (p : Nat → Bool) : W64 :=
  match (List.range 512).find? p with
  | some r => BitVec.ofNat 64 r
  | none => noIndex

/-- R17: of the conditions met, the one of the lowest class; within a class the lowest subcode (DEDUCED, log entry 10). -/
def lowest : List Flt → Option Flt
  | [] => none
  | f :: t =>
    match lowest t with
    | none => some f
    | some g => if f.cls < g.cls ∨ (f.cls = g.cls ∧ f.sub ≤ g.sub) then some f else some g

/-- A condition that raises a fault when it holds. DEDUCED, log entry 10. -/
def faultIf (b : Bool) (f : Flt) : List Flt := if b then [f] else []

/-- What bytes a unit reads, and the line of an uncorrectable error in a range. -/
structure Rd where
  byte : Nat → Byte
  bad  : Nat → Nat → Option Nat

/-- `n` bytes through a reader. -/
def Rd.bytes (r : Rd) (a n : Nat) : List Byte := (List.range n).map fun i => r.byte (a + i)
/-- A little-endian number of `n` bytes through a reader. -/
def Rd.num (r : Rd) (a n : Nat) : Nat := leNat (r.bytes a n)

/-! ### Descriptors (Tables 4.4 to 4.8) -/

/-- A dimension: pad below, extent, pad above, stride. -/
structure Dim where
  lo  : Nat
  ext : Nat
  hi  : Nat
  stride : Int
  deriving DecidableEq, Repr

/-- The extent with padding. -/
def Dim.pext (d : Dim) : Nat := d.lo + d.ext + d.hi

/-- A tensor descriptor taken apart. -/
structure Desc where
  base   : W64
  fmt    : Nat
  form   : Nat
  chint  : Nat
  matpad : Bool
  accw   : Bool
  spad   : Bool
  padv   : Nat
  dims   : List Dim
  splen  : Nat
  rsvd   : Bool
  deriving DecidableEq, Repr

/-- Take a 128-byte image apart. -/
def Desc.of (img : List Byte) : Desc :=
  let c := wordAt img 8
  let dims := (List.range 5).map fun k =>
    let st := wordAt img (0x10 + 8 * k)
    let ex := wordAt img (0x38 + 8 * k)
    { lo := bits st 63 48, ext := bits ex 31 0, hi := bits ex 63 48, stride := signed 48 (bits st 47 0) }
  { base := wordAt img 0, fmt := bits c 63 60, form := bits c 59 58, chint := bits c 57 56, matpad := bit c 55
    accw := bit c 54, spad := bit c 53, padv := bits c 31 0, dims := dims
    splen := numAt img 0x60 6
    rsvd := bits c 52 32 != 0 || numAt img 0x66 2 != 0 || (img.drop 0x68).any (· != 0)
      || (List.range 5).any fun k => bits (wordAt img (0x38 + 8 * k)) 47 32 != 0 }

/-- The base as a record names it (Table 21.3): the window offset of a scratchpad operand, else the global address.
DEDUCED, log entry 11. -/
def Desc.place (d : Desc) : W64 := if d.spad then BitVec.ofNat 64 (bits d.base 47 0) else d.base
/-- Dimension k. -/
def Desc.dim (d : Desc) (k : Nat) : Dim := d.dims.getD k ⟨0, 0, 0, 0⟩
/-- Whether the tensor is empty (R107). -/
def Desc.empty (d : Desc) : Bool := d.dims.any fun x => x.ext == 0
/-- Whether the format is an MX format. -/
def isMx (fmt : Nat) : Bool := decide (5 ≤ fmt ∧ fmt ≤ 9)
/-- Whether the form is BP or HB. -/
def Desc.sparse (d : Desc) : Bool := decide (2 ≤ d.form)
/-- Whether elements are stored one by one (plain form; INT4 rows are packed). -/
def Desc.plain (d : Desc) : Bool := d.form == 0 && !isMx d.fmt
/-- Element size in bytes. -/
def Desc.es (d : Desc) : Nat := Max.max 1 (elemBits d.fmt / 8)
/-- How many leading dimensions address the stored units: elements, rows, or whole operands. -/
def Desc.unitDims (d : Desc) : Nat := if d.sparse then 3 else if d.plain && d.fmt != 0xB then 5 else 4

/-- Saggar size of an MX format (Table 4.3). -/
def saggarBytes (fmt : Nat) (s24 : Bool) : Nat :=
  let eb := elemBits fmt
  8 * (8 + 4 * (if s24 then 16 * eb / 8 + 4 else 32 * eb / 8))
/-- Strip size of a plain format (R100). -/
def stripBytes (fmt : Nat) : Nat := 256 * (elemBits fmt / 8) + 64

/-- Bytes of one stored unit. -/
def Desc.unitBytes (d : Desc) : Nat :=
  let e4 := (d.dim 4).ext
  if d.sparse then d.splen
  else if isMx d.fmt then ceilDiv e4 1024 * saggarBytes d.fmt (d.form == 1)
  else if d.form = 1 then ceilDiv e4 512 * stripBytes d.fmt
  else if d.fmt = 0xB then e4 / 2
  else d.es

/-- The use a unit makes of a descriptor. -/
structure Use where
  write : Bool := false
  priv  : Bool := false
  int4  : Bool := false
  f64   : Bool := false
  deriving DecidableEq, Repr

/-- Table length of a BP or HB operand. -/
def Desc.tableBytes (d : Desc) : Nat := (d.dim 3).ext / 64 * ((d.dim 4).ext / 64) * 8

/-- Every check made on a descriptor when it is read whole (R91, R106, R108, R110, R112, R115 to R117, R161, R162). A
`SPLEN` that is not 0 on a form other than BP and HB, for which Table 4.4 names no fault, raises none outside the privileged check. DEDUCED, log
entry 9. DESIGN CHOICE, log entry 65. DEDUCED, log entry 9. DEDUCED, log entry 11. -/
def Desc.faults (d : Desc) (u : Use) (at_ : W64) : List Flt :=
  let strides := (d.dims.take d.unitDims).map (·.stride)
  let used := d.base.toNat % 2 ^ 48
  let notMult := fun (m : Nat) => used % m != 0 || strides.any fun x => x % (m : Int) != 0
  let starts := (d.dims.take d.unitDims).filter fun x => decide (2 ≤ if u.write && d.matpad then x.pext else x.ext)
  let e4 := (d.dim 4).ext
  let d3 := d.dim 3
  let d4 := d.dim 4
  let code := d.fmt ≥ 0xD || (d.fmt == 0xB && !u.int4) || (d.fmt == 0xC && !u.f64)
    || (d.form == 1 && (d.fmt == 0 || d.fmt ≥ 0xB)) || (d.sparse && (isMx d.fmt || d.fmt ≥ 0xB))
  let shape :=
    if d.sparse then
      d4.stride != 0 || d3.stride != 0 || d3.ext % 64 != 0 || e4 % 64 != 0 || d3.lo + d3.hi + d4.lo + d4.hi != 0
        || d.padv != 0 || d.splen == 0
    else if isMx d.fmt || d.form == 1 then
      d4.stride != 0 || d4.lo + d4.hi != 0 || d.padv != 0 || e4 % 32 != 0
    else if d.fmt == 0xB then d4.stride != 0 || e4 % 2 != 0 || d4.lo + d4.hi != 0
    else false
  let grain := if d.plain && d.fmt != 0xB then d.es else 1
  faultIf (d.plain && notMult grain) { cls := 3, sub := 1, addr := d.place, w1 := BitVec.ofNat 64 grain }
  ++ faultIf (u.priv && (used % 64 != 0 || (d.dims.any fun x => x.stride % 64 != 0) || d.splen % 64 != 0)) { cls := 3, sub := 2, addr := d.place, w1 := 64 }
  ++ faultIf (d.sparse && decide (d.splen < d.tableBytes) && d.splen != 0)
       { cls := 5, sub := 2, addr := d.place, w1 := BitVec.ofNat 64 d.tableBytes, w2 := BitVec.ofNat 64 d.splen, w3 := noIndex }
  ++ (match ((List.range d.unitDims).filter fun k => (d.dim k).stride == 0 && decide (2 ≤ (d.dim k).ext)) with
      | k :: _ => faultIf (u.write && !d.accw) { cls := 6, sub := 1, addr := at_, w1 := BitVec.ofNat 64 k }
      | [] => [])
  ++ faultIf code { cls := 0xB, sub := 1, addr := at_, w1 := noIndex, w2 := BitVec.ofNat 64 d.fmt }
  ++ faultIf (d.rsvd || (d.spad && bits d.base 63 48 != 0xFFFF)) { cls := 0xB, sub := 2, addr := at_, w1 := noIndex }
  ++ faultIf (!d.plain && (used % 8 != 0 || starts.any fun x => x.stride % 8 != 0)) { cls := 0xB, sub := 3, addr := at_, w1 := noIndex }
  ++ faultIf shape { cls := 0xB, sub := 4, addr := at_, w1 := noIndex }
  ++ faultIf (u.write && d.accw && (!d.plain || decide (2 < d.fmt))) { cls := 0xB, sub := 8, addr := at_, w1 := noIndex }

/-- Lowest and highest index a dimension reaches in memory: pads count only where a write materialises them (R114). -/
def Dim.span (x : Dim) (pads : Bool) : Int × Int :=
  if pads then (-(x.lo : Int), (x.ext : Int) + x.hi - 1) else (0, (x.ext : Int) - 1)

/-- The bounding range (R80, R161): first byte and length; none where nothing is reached. -/
def Desc.bounds (d : Desc) (write : Bool) : Option (Int × Nat) :=
  if d.empty then none
  else
    let ends := (d.dims.take d.unitDims).map fun x =>
      let p := x.span (write && d.matpad)
      (min (p.1 * x.stride) (p.2 * x.stride), max (p.1 * x.stride) (p.2 * x.stride))
    let lo : Int := ends.foldl (fun a p => a + p.1) 0
    let hi : Int := ends.foldl (fun a p => a + p.2) 0
    some ((d.base.toNat % 2 ^ 48 : Nat) + lo, (hi - lo).toNat + d.unitBytes)

/-- The mixed-radix index of position n over the padded extents, outermost first. -/
def indexOf : List Dim → Nat → List Int
  | [], _ => []
  | x :: t, n =>
    let inner := t.foldl (fun a y => a * y.pext) 1
    (((n / inner : Nat) : Int) - x.lo) :: indexOf t (n % inner)

/-- The number of stored units in canonical order, pads included. -/
def Desc.unitCount (d : Desc) : Nat :=
  if d.empty then 0 else (d.dims.take d.unitDims).foldl (fun a x => a * x.pext) 1

/-- The number of elements of the index space, pads included. DEDUCED, log entry 11. -/
def Desc.elemCount (d : Desc) : Nat := if d.empty then 0 else d.dims.foldl (fun a x => a * x.pext) 1

/-- Unit n in canonical order: whether it is a pad, and its address (R107). -/
def Desc.unitAt (d : Desc) (n : Nat) : Bool × Int :=
  let ds := d.dims.take d.unitDims
  let ix := indexOf ds n
  let pad := (List.zipWith (fun (x : Dim) (i : Int) => decide (i < 0 ∨ (x.ext : Int) ≤ i)) ds ix).any id
  let off := (List.zipWith (fun (x : Dim) (i : Int) => i * x.stride) ds ix).foldl (· + ·) 0
  (pad, (d.base.toNat % 2 ^ 48 : Nat) + off)

/-! ### Saggars and strips (R94 to R101) -/

/-- Element k of `eb` bits in packed bytes (R93). -/
def packedAt (bs : List Byte) (eb k : Nat) : Nat :=
  (numAt bs (k * eb / 8) (eb / 8 + 2) >>> (k * eb % 8)) % 2 ^ eb

/-- Elements of `eb` bits packed into bytes, lowest index first (R93). -/
def packElems (eb : Nat) (es : List Nat) : List Byte :=
  leBytes (ceilDiv (es.length * eb) 8)
    ((es.foldl (fun (p : Nat × Nat) e => (p.1 + e * 2 ^ p.2, p.2 + eb)) (0, 0)).1)

/-- An element read: its value, or the fault met reading it. DEDUCED, log entry 11. -/
abbrev ElemRes := Except Flt FV

/-- The kept elements of groups of four, expanded: element values by position; a bad index pair faults (R97). -/
def expand24 (idx : Nat → Nat) (vals : Nat → FV) (addr : W64) (groups first : Nat) : List ElemRes :=
  ((List.range groups).map fun g =>
    let i0 := idx (2 * g)
    let i1 := idx (2 * g + 1)
    (List.range 4).map fun j =>
      if i1 ≤ i0 then
        Except.error { cls := 0xB, sub := 5, addr := addr, w1 := BitVec.ofNat 64 (first + 4 * g), w2 := BitVec.ofNat 64 (i0 + 4 * i1) }
      else if j = i0 then .ok (vals (2 * g))
      else if j = i1 then .ok (vals (2 * g + 1))
      else .ok (.fin false 0 0)).flatten

/-- One block of an MX cell: its 32 values (R90, R97). -/
def mxBlock (fmt : Nat) (s24 : Bool) (scale : Nat) (bs : List Byte) (addr : W64) (first : Nat) : List ElemRes :=
  let eb := elemBits fmt
  if s24 then
    let kept := 16 * eb / 8
    expand24 (fun k => nbits (numAt bs kept 4) (2 * k + 1) (2 * k))
      (fun k => mxVal fmt scale (packedAt bs eb k)) addr 8 first
      |>.map fun r => if scale = 0xFF then r.map fun _ => FV.nan false else r
  else (List.range 32).map fun k => .ok (mxVal fmt scale (packedAt bs eb k))

/-- The values of a row of saggars or strips: E4 elements. -/
def Desc.rowVals (d : Desc) (bs : List Byte) : List ElemRes :=
  let e4 := (d.dim 4).ext
  if isMx d.fmt then
    let s24 := d.form == 1
    let sb := saggarBytes d.fmt s24
    let cb := sb / 8
    let blk := (cb - 8) / 4
    ((List.range (e4 / 32)).map fun b =>
      let cell := b / 32 * sb + b / 4 % 8 * cb
      let scale := numAt bs (cell + b % 4) 1
      mxBlock d.fmt s24 scale ((bs.drop (cell + 8 + b % 4 * blk)).take blk) d.base (32 * b)).flatten
  else
    let sb := stripBytes d.fmt
    let eb := elemBits d.fmt
    ((List.range (ceilDiv e4 512)).map fun t =>
      let st := (bs.drop (t * sb)).take sb
      let md := st.drop (256 * (eb / 8))
      expand24 (fun k => nbits (numAt md (k / 4) 1) (2 * (k % 4) + 1) (2 * (k % 4)))
        (fun k => elemVal d.fmt (packedAt st eb k)) d.place (Min.min 128 ((e4 - 512 * t) / 4)) (512 * t)).flatten

/-- The two kept positions of a group and their encodings (R98); none where three or more are non-zero. -/
def keepTwo (fmt : Nat) (es : List Nat) : Option (Nat × Nat) :=
  let nz := (List.range 4).filter fun j => !elemZero fmt (es.getD j 0)
  match nz with
  | [] => some (0, 1)
  | [a] => if a = 0 then some (0, 1) else some (0, a)
  | [a, b] => some (a, b)
  | _ => none

/-- Compress groups of four encodings: kept encodings and metadata indices, or the group that fails and its count (R164).
A zero that is kept to fill a group is +0 (R98). -/
def compress24 (fmt : Nat) (es : List Nat) : Except (Nat × Nat) (List Nat × List Nat) :=
  (chunks 4 es).foldl (fun (acc : Except (Nat × Nat) (List Nat × List Nat)) g =>
    acc.bind fun p =>
      match keepTwo fmt g with
      | some (a, b) =>
        let kept := fun j => if elemZero fmt (g.getD j 0) then 0 else g.getD j 0
        .ok (p.1 ++ [kept a, kept b], p.2 ++ [a, b])
      | none => .error (p.1.length / 2, (g.filter fun e => !elemZero fmt e).length)) (.ok ([], []))

/-- The density fault of R164: the destination base, the index of the group's first position, the count. -/
def densityFlt (base : W64) (index count : Nat) : Flt :=
  { cls := 4, sub := 3, addr := base, w1 := BitVec.ofNat 64 index, w3 := noIndex, w4 := BitVec.ofNat 64 count }

/-- Pack two-bit indices, lowest first. -/
def packIdx (ix : List Nat) : List Byte := packElems 2 ix

/-- One saggar or strip from its values (1,024 or 512, short ones completed with zeros, R101). `first` is the
destination index of its first position. DEDUCED, log entry 11. -/
def encodeGroup (d : Desc) (vs : List FV) (first : Nat) : Except Flt (List Byte) :=
  let zero := FV.fin false 0 0
  let eb := elemBits d.fmt
  if isMx d.fmt then
    let vs := vs ++ List.replicate (1024 - vs.length) zero
    let cells := (chunks 128 vs).zipIdx.map fun (cell, ci) =>
      let blocks := (chunks 32 cell).map fun b => (mxScale d.fmt b, mxElems d.fmt (mxScale d.fmt b) b)
      let body : Except Flt (List Byte) := blocks.zipIdx.foldl (fun (acc : Except Flt (List Byte)) (bb : (Nat × List Nat) × Nat) =>
        let b := bb.1
        let bi := bb.2
        acc.bind fun out =>
          if d.form = 1 then
            match compress24 d.fmt b.2 with
            | .ok (kept, ix) => .ok (out ++ packElems eb kept ++ packIdx ix)
            | .error (g, n) => .error (densityFlt d.place (first + 128 * ci + 32 * bi + 4 * g) n)
          else .ok (out ++ packElems eb b.2)) (.ok [])
      body.map fun x => (blocks.map fun (b : Nat × List Nat) => BitVec.ofNat 8 b.1) ++ leBytes 4 0 ++ x
    cells.foldl (fun (acc : Except Flt (List Byte)) c => acc.bind fun o => c.map fun x => o ++ x) (.ok [])
  else
    let vs := vs ++ List.replicate (512 - vs.length) zero
    match compress24 d.fmt (vs.map (elemEnc d.fmt)) with
    | .ok (kept, ix) => .ok (packElems eb kept ++ packIdx ix)
    | .error (g, n) => .error (densityFlt d.place (first + 4 * g) n)

/-- The stored bytes of a pad row: zero elements, scale 0x00, indices 0 and 1 (R108). -/
def Desc.padRow (d : Desc) : List Byte :=
  if d.form = 1 then
    if isMx d.fmt then
      let eb := elemBits d.fmt
      let cell : List Byte := leBytes 8 0
        ++ (List.replicate 4 (leBytes (16 * eb / 8) 0 ++ List.replicate 4 (0x44 : Byte))).flatten
      (List.replicate (ceilDiv (d.dim 4).ext 1024 * 8) cell).flatten
    else
      (List.replicate (ceilDiv (d.dim 4).ext 512)
        (leBytes (stripBytes d.fmt - 64) 0 ++ List.replicate 64 (0x44 : Byte))).flatten
  else leBytes d.unitBytes 0

/-! ### BP and HB tiles (R102 to R105, R160, R162) -/

/-- A tile read: its count, its positions 64i + j in value order, the values' encodings, and its stored bytes. -/
structure Tile where
  count : Nat
  pos   : List Nat
  vals  : List Nat
  raw   : List Byte
  deriving DecidableEq, Repr

/-- Positions of the set bits of a word of `n` bits, ascending. -/
def setBitsOf (n w : Nat) : List Nat := (List.range n).filter fun i => w.testBit i

/-- An operand bound or format fault of tile `t` of an operand (Table 21.3): the value read and the declared extent with the
tile's number as entry index, or the tile's number and the value found. DEDUCED, log entry 11. -/
def tileFlt (cls sub : Nat) (d : Desc) (t read ext : Nat) : Flt :=
  { cls := cls, sub := sub, addr := d.place, w1 := BitVec.ofNat 64 (if cls = 5 then read else t)
    w2 := BitVec.ofNat 64 (if cls = 5 then ext else read), w3 := BitVec.ofNat 64 (if cls = 5 then t else 0) }

/-- The memory uncorrectable fault of a line that a reader names bad: a line of this device, or from 2^48 on a line of
another device whose read is answered by an error response (R331, R332). -/
def lineErr (l : Nat) : Flt :=
  if l < 2 ^ 48 then { cls := 9, sub := uncorrSub l, addr := BitVec.ofNat 64 l }
  else { cls := 9, sub := 5, addr := BitVec.ofNat 64 (l - 2 ^ 48) }

/-- Read tile t of the operand at address `a`, with every check of R105 and R162. -/
def readTile (rd : Rd) (d : Desc) (priv : Bool) (a t : Nat) : Except Flt Tile :=
  let e := rd.num (a + 8 * t) 8
  let n := nbits e 63 48
  let off := nbits e 47 0
  let vb := elemBits d.fmt / 8
  let line := fun (x len : Nat) => (rd.bad x len).map lineErr
  let head := if d.form = 2 then 512 else 8
  match line (a + 8 * t) 8 with
  | some f => .error f
  | none =>
    if n = 0 then .ok ⟨0, [], [], leBytes head 0⟩
    else if priv && off % 64 != 0 then .error { cls := 3, sub := 2, addr := BitVec.ofNat 64 (a + off), w1 := 64 }
    else if d.splen < off + head then .error (tileFlt 5 3 d t (off + head) d.splen)
    else if off % 8 ≠ 0 then .error (tileFlt 0xB 3 d t off 0)
    else
      match line (a + off) head with
      | some f => .error f
      | none =>
        let top := rd.num (a + off) head
        let marked := if d.form = 2 then [] else setBitsOf 64 top
        let len := head + 8 * marked.length + n * vb
        if d.splen < off + len then .error (tileFlt 5 4 d t (off + len) d.splen)
        else
          match line (a + off) len with
          | some f => .error f
          | none =>
            let pos :=
              if d.form = 2 then setBitsOf 4096 top
              else (marked.zipIdx.map fun (sb, i) =>
                (setBitsOf 64 (rd.num (a + off + 8 + 8 * i) 8)).map fun u =>
                  64 * (8 * (sb / 8) + u / 8) + 8 * (sb % 8) + u % 8).flatten
            if pos.length ≠ n then .error (tileFlt 0xB 6 d t n 0)
            else
              let v0 := a + off + head + 8 * marked.length
              .ok ⟨n, pos, (List.range n).map fun i => rd.num (v0 + i * vb) vb, rd.bytes (a + off) len⟩

/-- The 4,096 values of a tile: absent positions are +0. -/
def Tile.grid (t : Tile) (fmt : Nat) : List FV :=
  (List.range 4096).map fun p =>
    match (List.zip t.pos t.vals).find? fun q => q.1 == p with
    | some q => elemVal fmt q.2
    | none => .fin false 0 0

/-- A tile's stored bytes from its 4,096 encodings, and its value count. -/
def encodeTile (fmt form : Nat) (es : List Nat) : Nat × List Byte :=
  let nz := fun p => !elemZero fmt (es.getD p 0)
  if form = 2 then
    let pos := (List.range 4096).filter nz
    (pos.length, packElems 1 ((List.range 4096).map fun p => if nz p then 1 else 0)
      ++ packElems (elemBits fmt) (pos.map fun p => es.getD p 0))
  else
    let sub := (List.range 64).map fun s =>
      (List.range 64).map fun u => 64 * (8 * (s / 8) + u / 8) + 8 * (s % 8) + u % 8
    let listed := sub.filter fun ps => ps.any nz
    let pos := (listed.map fun ps => ps.filter nz).flatten
    (pos.length, packElems 1 (sub.map fun ps => if ps.any nz then 1 else 0)
      ++ (listed.map fun ps => packElems 1 (ps.map fun p => if nz p then 1 else 0)).flatten
      ++ packElems (elemBits fmt) (pos.map fun p => es.getD p 0))

/-! ### Whole tensors as values -/

/-- The fault of an uncorrectable line in a range, if any. -/
def lineFlt (rd : Rd) (a n : Nat) : Option Flt :=
  (rd.bad a n).map lineErr

/-- The elements of one stored unit, in canonical order. A pad element of a plain source is its `PADV` (R113), also where a sparse form takes
it, as an element that is not zero where `PADV` is not; R165 calls pads made on the read side zero. DESIGN CHOICE, log entry 65. -/
def Desc.unitVals (d : Desc) (rd : Rd) (priv : Bool) (n : Nat) : List ElemRes :=
  let (pad, ai) := d.unitAt n
  let a := ai.toNat
  let e4 := (d.dim 4).ext
  if d.sparse then
    let kc := e4 / 64
    if pad then List.replicate ((d.dim 3).ext * e4) (.ok (.fin false 0 0))
    else
      let tiles := (List.range ((d.dim 3).ext / 64 * kc)).map fun t =>
        (readTile rd d priv a t).map fun x => x.grid d.fmt
      (List.range ((d.dim 3).ext * e4)).map fun p =>
        let r := p / e4
        let c := p % e4
        match tiles.getD (r / 64 * kc + c / 64) (.ok []) with
        | .ok g => .ok (g.getD (64 * (r % 64) + c % 64) (.fin false 0 0))
        | .error f => .error f
  else if d.plain && d.fmt != 0xB then
    if pad then [.ok (elemVal d.fmt (d.padv % 2 ^ elemBits d.fmt))]
    else match lineFlt rd a d.es with
      | some f => [.error f]
      | none => [.ok (elemVal d.fmt (rd.num a d.es))]
  else
    if pad then
      List.replicate e4 (.ok (if d.fmt = 0xB then elemVal 0xB (d.padv % 16) else .fin false 0 0))
    else match lineFlt rd a d.unitBytes with
      | some f => List.replicate e4 (.error f)
      | none =>
        let bs := rd.bytes a d.unitBytes
        if d.fmt = 0xB then (List.range e4).map fun k => .ok (elemVal 0xB (packedAt bs 4 k))
        else d.rowVals bs

/-- Every element of the tensor in canonical index order (R107). -/
def Desc.vals (d : Desc) (rd : Rd) (priv : Bool := false) : List ElemRes :=
  ((List.range d.unitCount).map fun n => d.unitVals rd priv n).flatten

/-- A write: the address (or window offset) and the bytes. -/
abbrev Wr := Nat × List Byte

/-- The elements before the first fault, and the fault with its index. -/
def splitFault : List ElemRes → List FV × Option Flt
  | [] => ([], none)
  | .ok v :: t => let p := splitFault t; (v :: p.1, p.2)
  | .error f :: _ => ([], some f)

/-- An accumulate-write's sums so far: FP32 per address (R112). -/
def accStep (d : Desc) (old : Nat → Nat) (m : AMap W32) (a : Nat) (v : FV) : AMap W32 :=
  let o := match m.find? fun p => p.1 == a with
    | some p => p.2
    | none => rnd32 (elemVal d.fmt (old a))
  mput a (f32Add o (rnd32 v)) m

/-- The writes of a plain tensor for its elements in canonical order (R110 to R114): pads only where materialised. DEDUCED, log entry 9. -/
def Desc.plainWrites (d : Desc) (old : Nat → Nat) (vs : List FV) : List Wr :=
  let at_ := vs.zipIdx.filterMap fun (v, n) =>
    let p := d.unitAt n
    if p.1 && !d.matpad then none else some (p.2.toNat, v)
  if d.accw then
    (at_.foldl (fun m p => accStep d old m p.1 p.2) []).map fun p =>
      (p.1, leBytes d.es (elemEnc d.fmt (f32 p.2)))
  else at_.map fun p => (p.1, leBytes d.es (elemEnc d.fmt p.2))

/-- The writes of a tensor from its elements, with the fault that ends them (R121, R164): whole lines of plain
elements, saggars, strips and tiles before it stay. The tiles of a BP or HB operand are written in tile order, each from
the first 64-byte boundary after the table and the tiles before it, and the entry of an empty tile has offset 0: R118 gives no places and no
offset for an empty tile. DESIGN CHOICE, log entry 65. -/
def Desc.writes (d : Desc) (old : Nat → Nat) (src : List ElemRes) : List Wr × Option Flt :=
  let (vs, flt) := splitFault src
  let e4 := (d.dim 4).ext
  let named := fun (n : Nat) (f : Flt) =>
    if f.cls = 9 then f else if f.cls = 5 then { f with w3 := BitVec.ofNat 64 n } else { f with w1 := BitVec.ofNat 64 n }
  if d.sparse then
    let rows := (d.dim 3).ext
    let kc := e4 / 64
    let per := rows * e4
    let nt := rows / 64 * kc
    let step := fun (acc : (List Wr × Nat) × Option Flt) (o : Nat) =>
      (List.range nt).foldl (fun (acc : (List Wr × Nat) × Option Flt) t =>
        match acc.2 with
        | some _ => acc
        | none =>
          let base := (d.unitAt o).2.toNat
          let off := if t = 0 then roundUp d.tableBytes 64 else acc.1.2
          let r0 := t / kc * 64
          let c0 := t % kc * 64
          let ixs := (List.range 4096).map fun p => o * per + (r0 + p / 64) * e4 + c0 + p % 64
          let els := ixs.map fun i => (i, src.getD i (.ok (.fin false 0 0)))
          match els.findSome? fun q => match q.2 with | .error f => some (q.1, f) | .ok _ => none with
          | some (i, f) => (acc.1, some (named i f))
          | none =>
            let (n, bs) := encodeTile d.fmt d.form (els.map fun q => match q.2 with | .ok v => elemEnc d.fmt v | .error _ => 0)
            if n = 0 then ((acc.1.1 ++ [(base + 8 * t, leBytes 8 0)], off), none)
            else if d.splen < off + bs.length then
              (acc.1, some { tileFlt 5 4 d t (off + bs.length) d.splen with w3 := BitVec.ofNat 64 (ixs.headD 0) })
            else ((acc.1.1 ++ [(base + 8 * t, leBytes 8 (n * 2 ^ 48 + off)), (base + off, bs)], roundUp (off + bs.length) 64), none))
        acc
    let live := (List.range d.unitCount).filter fun o => d.matpad || !(d.unitAt o).1
    let r := live.foldl step (([], 0), none)
    (r.1.1, r.2)
  else if d.plain && d.fmt != 0xB then
    let keep := if flt.isSome then vs.length / (64 / d.es) * (64 / d.es) else vs.length
    (d.plainWrites old (vs.take keep), flt.map (named vs.length))
  else
    let per := if d.fmt = 0xB then e4 else if isMx d.fmt then 1024 else 512
    let ub := if d.fmt = 0xB then e4 / 2 else if isMx d.fmt then saggarBytes d.fmt (d.form == 1) else stripBytes d.fmt
    let r := (List.range d.unitCount).foldl (fun (acc : List Wr × Option Flt) n =>
      let (pad, a) := d.unitAt n
      (List.range (ceilDiv e4 per)).foldl (fun (acc : List Wr × Option Flt) g =>
        match acc.2 with
        | some _ => acc
        | none =>
          let i0 := n * e4 + g * per
          let len := Min.min per (e4 - g * per)
          if vs.length < i0 + len then (acc.1, flt.map (named vs.length))
          else if pad && !d.matpad then acc
          else
            let xs := (vs.drop i0).take len
            let enc := if d.fmt = 0xB then .ok (packElems 4 (xs.map (elemEnc 0xB))) else encodeGroup d xs i0
            match enc with
            | .ok bs => (acc.1 ++ [(a.toNat + g * ub, bs)], none)
            | .error f => (acc.1, some f)) acc) ([], none)
    r

/-! ### Stored streams (R118, R263) -/

/-- The stored bytes of unit n as they travel: elements, rows or whole operands; pads generated (R113). -/
def Desc.rawUnit (d : Desc) (rd : Rd) (n : Nat) : Except Flt (List Byte) :=
  let (pad, a) := d.unitAt n
  if pad then
    .ok (if d.plain && d.fmt != 0xB then leBytes d.es d.padv
      else if d.fmt = 0xB then leBytes d.unitBytes ((List.range ((d.dim 4).ext)).foldl (fun s k => s + (d.padv % 16) * 16 ^ k) 0)
      else if d.sparse then leBytes d.splen 0
      else d.padRow)
  else match lineFlt rd a.toNat d.unitBytes with
    | some f => .error f
    | none => .ok (rd.bytes a.toNat d.unitBytes)

/-- 64 stored bytes of unit n from byte `o` on: only their lines are read. -/
def Desc.rawPiece (d : Desc) (rd : Rd) (n o : Nat) : Except Flt (List Byte) :=
  let (pad, a) := d.unitAt n
  if pad then (d.rawUnit rd n).map fun bs => (bs.drop o).take 64
  else match lineFlt rd (a.toNat + o) 64 with
    | some f => .error f
    | none => .ok (rd.bytes (a.toNat + o) 64)

/-- Tiles per operand. -/
def Desc.tileCount (d : Desc) : Nat := (d.dim 3).ext / 64 * ((d.dim 4).ext / 64)

/-- A BP or HB tile as it travels through a queue: whole entries (R118). -/
def Desc.tileStream (d : Desc) (rd : Rd) (n : Nat) : Except Flt (List Byte) :=
  let (pad, a) := d.unitAt (n / d.tileCount)
  let empty := leBytes (if d.form = 2 then 512 else 64) 0
  if pad then .ok empty
  else (readTile rd d false a.toNat (n % d.tileCount)).map fun t =>
    if t.count = 0 then empty else t.raw ++ leBytes (roundUp t.raw.length 64 - t.raw.length) 0

/-- Entry k of a tile stream, from tile n on: none past the end. -/
def Desc.tileEntry (d : Desc) (rd : Rd) : Nat → Nat → Nat → Option (Except Flt (List Byte))
  | 0, _, _ => none
  | fuel + 1, n, k =>
    if d.unitCount * d.tileCount ≤ n then none
    else match d.tileStream rd n with
      | .error f => some (.error f)
      | .ok bs => if k < bs.length / 64 then some (.ok ((bs.drop (64 * k)).take 64))
                  else d.tileEntry rd fuel (n + 1) (k - bs.length / 64)

/-- Entry k of the stream that `qfetch` pushes (R118): none past the end. -/
def Desc.entry (d : Desc) (rd : Rd) (k : Nat) : Option (Except Flt (List Byte)) :=
  if d.sparse then d.tileEntry rd (d.unitCount * d.tileCount + 1) 0 k
  else
    let ub := d.unitBytes
    if ub = 0 then none
    else if ub ≤ 64 ∧ 64 % ub = 0 then
      let per := 64 / ub
      if d.unitCount ≤ k * per then none
      else
        let us := (List.range (Min.min per (d.unitCount - k * per))).map fun i => d.rawUnit rd (k * per + i)
        some ((us.foldl (fun (acc : Except Flt (List Byte)) u => acc.bind fun o => u.map fun x => o ++ x) (.ok [])).map (padTo 64))
    else
      let per := ub / 64
      if per = 0 ∨ d.unitCount * per ≤ k then none
      else some (d.rawPiece rd (k / per) (64 * (k % per)))

/-- The writes of entry k that `qstore` pops (R118), with the number of entries the tensor takes where fixed.
BP and HB tiles are placed as they arrive by `tilePlace`. -/
def Desc.entryWrites (d : Desc) (k : Nat) (bs : List Byte) : List Wr :=
  let ub := d.unitBytes
  if ub = 0 then []
  else if ub ≤ 64 ∧ 64 % ub = 0 then
    let per := 64 / ub
    (List.range (Min.min per (d.unitCount - k * per))).filterMap fun i =>
      let (pad, a) := d.unitAt (k * per + i)
      if pad && !d.matpad then none else some (a.toNat, (bs.drop (i * ub)).take ub)
  else
    let per := ub / 64
    let (pad, a) := d.unitAt (k / per)
    if pad && !d.matpad then [] else [(a.toNat + 64 * (k % per), bs)]

/-- Entries of a tensor that is not sparse. -/
def Desc.entries (d : Desc) : Nat := ceilDiv (d.unitCount * d.unitBytes) 64

/-! ### Window checks -/

/-- The scratchpad window of a core: base and size in bytes (Table 3.5). -/
def spwBase (k : Core) : Nat := bits k.spw 20 16 * 0x10000
/-- See `spwBase`. -/
def spwSize (k : Core) : Nat := bits k.spw 37 32 * 0x10000
/-- `SPW.CACHE`. -/
def spwCache (k : Core) : Bool := bit k.spw 0

/-- The fault of a scratchpad access at window offset `off` of `n` bytes (R25, R78). -/
def spadFlt (k : Core) (off : Int) (n : Nat) : Option Flt :=
  let a := BitVec.ofInt 64 off
  if off < 0 ∨ (spwSize k : Int) < off + n ∨ spwSize k = 0 then
    some { cls := 2, sub := 1, addr := a, w1 := BitVec.ofNat 64 n, w2 := 8 }
  else if interlocked k ∧ (0x100000 : Int) < off + n then
    some { cls := 2, sub := 2, addr := a, w1 := BitVec.ofNat 64 n, w2 := 8 }
  else none

/-- The local address of window offset `off` of core c (R71). -/
def spadAddr (s : State) (c : Nat) (off : Nat) : Nat := spadBase + c * 0x400000 + spwBase (coreOf s c) + off

/-- Whether window n of a core covers device `dev` (R79). -/
def winDev (s : State) (k : Core) (n dev : Nat) : Bool :=
  let d := bits (mget 0xFFFF000000000000 k.winBase n) 63 48
  d == dev || (isHere s d && isHere s dev)

/-- Whether window n of a core wholly holds [a, a + len). -/
def winHolds (k : Core) (n : Nat) (a : Int) (len : Nat) : Bool :=
  let b := bits (mget 0xFFFF000000000000 k.winBase n) 47 6 * 64
  let e := bits (mget 0 k.winBound n) 47 6 * 64
  decide ((b : Int) ≤ a ∧ a + len ≤ e)

/-- The fault of an access to another core's scratchpad at the target (R81). -/
def targetFlt (s : State) (ga : W64) (a len : Nat) : Option Flt :=
  let c := (a - spadBase) / 0x400000
  let k := coreOf s c
  let p := (a - spadBase) % 0x400000
  if (ctxOf k).isNone ∨ p < spwBase k ∨ spwBase k + spwSize k < p + len ∨ (interlocked k ∧ spwBase k + 0x100000 < p + len)
      ∨ (spwCache k ∧ 0x100000 < p + len) then
    some { cls := 2, sub := 7, addr := ga, w1 := BitVec.ofNat 64 len, w2 := 8 }
  else none

/-- The fault of a memory access by a unit of core k to [a, a + len) of device `dev` (R13, R14, R79, R81). -/
def memFlt (s : State) (k : Core) (dev : Nat) (a : Int) (len : Nat) (write : Bool) : Option Flt :=
  let ga := BitVec.ofNat 64 (dev * 2 ^ 48) + BitVec.ofInt 64 a
  let f := fun (sub : Nat) (w2 : W64) => some ({ cls := 2, sub := sub, addr := ga, w1 := BitVec.ofNat 64 len, w2 := w2 } : Flt)
  let holding := (List.range 8).filter fun n => winDev s k n dev && winHolds k n a len
  let csr := decide (0x300000000000 < a + len ∧ a < 0x300100000000)
  if !devOk s dev then f 6 noIndex
  else match holding with
    | [] => f 3 noIndex
    | h :: _ =>
      if csr then f 3 noIndex
      else if !(holding.any fun n => bit (mget 0 k.winBound n) (if write then 1 else 0)) then f 4 (BitVec.ofNat 64 h)
      else if isHere s dev then
        if !populatedRange s a.toNat len then f 5 (BitVec.ofNat 64 h)
        else if inSpad a.toNat then targetFlt s ga a.toNat len
        else none
      else none

/-- The fault of a descriptor's bounding range for a unit of core c (R80). -/
def Desc.rangeFlt (d : Desc) (s : State) (c : Nat) (write : Bool) : Option Flt :=
  match d.bounds write with
  | none => none
  | some (a, n) =>
    let k := coreOf s c
    if d.spad then spadFlt k a n else memFlt s k (bits d.base 63 48) a n write

/-- Every fetch check of a descriptor: its image and its range (R80, R106 to R117). -/
def Desc.check (d : Desc) (s : State) (c : Nat) (u : Use) (at_ : W64) : List Flt :=
  (d.rangeFlt s c u.write).toList ++ d.faults u at_

/-- Where a descriptor's tensor lies. -/
inductive Space where
  | spad
  | here
  | far (dev : Nat)
  deriving DecidableEq, Repr

/-- The space of a descriptor. -/
def Desc.space (d : Desc) (s : State) : Space :=
  if d.spad then .spad
  else if isHere s (bits d.base 63 48) then .here else .far (bits d.base 63 48)

/-- The byte that another device holds at an address: the spec gives this device no way to know it before the
response arrives; a unit whose response the table of events does not list takes it as a free value (DESIGN CHOICE, log entry 7). -/
def farByte (s : State) (dev a : Nat) : Byte := Config.remoteByte s.free (dev * 2 ^ 48 + a)

/-- A reader of another device's memory for a unit whose responses the table of events does not list: its bytes are free
values, and whether a line is answered by an error response is one too (R332). DESIGN CHOICE, log entry 7. -/
def farRd (s : State) (dev : Nat) : Rd :=
  { byte := farByte s dev
    bad := fun a n => ((List.range (ceilDiv (a % 64 + n) 64)).map fun i => (dev + 1) * 2 ^ 48 + a / 64 * 64 + 64 * i).find?
      (Config.remoteErr s.free) }

/-- A byte of a core's scratchpad as an agent reads it at the bank: what stood there before another agent's write of this
cycle (R67). `p` is its physical offset. -/
def bankAt (s : State) (c : Nat) (ag : Agent) (p : Nat) : Byte :=
  match (coreOf s c).olds.find? fun o => o.agent != ag && decide (o.off ≤ p ∧ p < o.off + o.bytes.length) with
  | some o => o.bytes.getD (p - o.off) 0
  | none => readByte s (spadBase + c * 0x400000 + p)

/-- A byte of own scratchpad, by window offset, as an agent reads it at the bank. -/
def bankByte (s : State) (c : Nat) (ag : Agent) (off : Nat) : Byte := bankAt s c ag (spwBase (coreOf s c) + off)

/-- A reader of own-scratchpad window offsets of core c for an agent other than its compute engine (R68). -/
def spadRd (s : State) (c : Nat) (ag : Agent := .remote 0) : Rd :=
  { byte := bankByte s c ag, bad := fun _ _ => none }

/-- A byte at a local address as an agent reads it. -/
def mapByte (s : State) (ag : Agent) (a : Nat) : Byte :=
  if inSpad a then bankAt s ((a - spadBase) / 0x400000) ag ((a - spadBase) % 0x400000) else readByte s a

/-- A reader of local addresses. -/
def memRd (s : State) (ag : Agent := .remote 0) : Rd :=
  { byte := mapByte s ag, bad := fun a n => if inSpad a then none else badIn s a n }

/-- A write of an agent at a local address: in a scratchpad, others that read in the same cycle get the bytes from before it
(R67). -/
def mapWrite (s : State) (ag : Agent) (a : Nat) (bs : List Byte) : State :=
  if inSpad a then
    modCore (writeMem s a bs) ((a - spadBase) / 0x400000) fun k =>
      { k with olds := k.olds ++ [⟨ag, (a - spadBase) % 0x400000, readMem s a bs.length⟩] }
  else writeMem s a bs

/-- The reader of a descriptor's tensor. DESIGN CHOICE, log entry 7. -/
def Desc.rd (d : Desc) (s : State) (c : Nat) (ag : Agent := .remote 0) : Rd :=
  match d.space s with
  | .spad => spadRd s c ag
  | .here => memRd s ag
  | .far dev => farRd s dev

/-- Perform writes in a space: window offsets of core c, or local addresses. Writes to another device leave as
frames, which the unit that sends them queues. -/
def applyWr (s : State) (sp : Space) (c : Nat) (ag : Agent) : List Wr → State
  | [] => s
  | (a, bs) :: t =>
    let s1 := match sp with
      | .spad => mapWrite s ag (spadAddr s c a) bs
      | .here => mapWrite s ag a bs
      | .far _ => s
    applyWr s1 sp c ag t

/-- The old element encoding an accumulate-write adds to (R112). -/
def Desc.oldEnc (d : Desc) (s : State) (c : Nat) (ag : Agent := .remote 0) : Nat → Nat := fun a => (d.rd s c ag).num a d.es

end Sys2Proof.Machine
end

