-- ==== Sys2Proof/Machine/Scoreboard.lean ====
section
/-! DEFINITION. The scratchpad's banks and grants (R66 to R74), the range scoreboard (R83 to R87), and what the
compute engine sees of its own scratchpad (R68). -/

namespace Sys2Proof.Machine

open Sys2Proof

/-! ### Banks -/

/-- The bank of the line that holds window offset `off` (R71, R72, R74). -/
def bankOf (k : Core) (off : Nat) : Nat :=
  let seg := nbits off 20 18
  let code := bits k.spw (49 + 2 * seg) (48 + 2 * seg)
  let b := nbits off 10 6
  let b := if code = 0 then b
    else if code = 1 then b ^^^ nbits off 15 11
    else (b ^^^ nbits off 15 11) ^^^ nbits off 20 16
  if spwCache k then b % 16 else b

/-- The bank of the line at a physical offset. -/
def bankOfPhys (k : Core) (p : Nat) : Nat := bankOf k ((p + 0x200000 - spwBase k) % 0x200000)

/-- What a change of `SPW` from `old` brings with it: banks 16 to 31 are zeroed where the cache is given up, and every cache line is
invalid where it is taken (R73). Other bytes stay at their physical offsets. DESIGN CHOICE, log entry 63. -/
def spwChanged (s : State) (c : Nat) (old : W64) : State :=
  let k := coreOf s c
  let lo := spadBase + c * 0x400000
  if bit old 0 && !spwCache k then
    { s with mem := s.mem.filter fun p => !(decide (lo ≤ p.1 ∧ p.1 < lo + 0x200000) && decide (16 ≤ bankOfPhys k (p.1 - lo))) }
  else if !bit old 0 && spwCache k then modCore s c fun k => { k with cache := [], plru := [] }
  else s

/-- The row of a line within its bank: P[20:11], or the row of R74 with the cache. -/
def bankRow (k : Core) (off : Nat) : Nat :=
  let p := spwBase k + off
  if spwCache k then
    let k0 := { k with spw := setBits k.spw 0 0 0 }
    nbits (bankOf k0 off) 4 4 * 512 + nbits p 19 11
  else nbits p 20 11

/-- The lines of an access: window offsets of their first bytes. -/
def linesOf (off n : Nat) : List Nat :=
  if n = 0 then [] else (List.range ((off + n - 1) / 64 - off / 64 + 1)).map fun i => (off / 64 + i) * 64

/-- The ports an access needs. -/
def portsOf (k : Core) (off n : Nat) (write : Bool) : List (Nat × Bool) :=
  (linesOf off n).map fun l => (bankOf k l, write)

/-- The distinct lines of a list of byte spans, as ports. -/
def spanPorts (k : Core) (spans : List (Nat × Nat)) (write : Bool) : List (Nat × Bool) :=
  ((spans.map fun p => linesOf p.1 p.2).flatten.dedup).map fun l => (bankOf k l, write)

/-- Whether an agent has been refused in each of the previous 8 cycles (Table 3.1, rank 2). -/
def aged (k : Core) (now : Nat) (ag : Agent) : Bool :=
  k.refused.any fun r => r.agent == ag && decide (8 ≤ r.run ∧ now ≤ r.cyc + 1)

/-- The place of an agent in the order of Table 3.1, lower first: Movers by number and channel, then remote accesses.
The Herd, which the table does not list, has the rank of the Turn unit. DESIGN CHOICE, log entry 62. -/
def portRank (k : Core) (now : Nat) (ag : Agent) : Nat :=
  match ag with
  | .drain => 0
  | .chain _ => 0
  | .select => 1
  | ag =>
    if aged k now ag then 2
    else match ag with
      | .engine .compute => 3
      | .mover ch => 5 + ch
      | .remote n => if 4096 ≤ n ∧ n < 8192 then 5001 else 5000
      | .engine .fetch => 5001
      | .engine .store => 5002
      | _ => 4

/-- Whether a port is taken in this cycle by another agent that is served before this one; drain and chain-stage accesses
are never refused (R67, R70). -/
def portTaken (k : Core) (now : Nat) (ag : Agent) (p : Nat × Bool) : Bool :=
  portRank k now ag != 0 && k.ports.any fun q =>
    !q.late && q.bank == p.1 && q.write == p.2 && q.agent != ag && decide (portRank k now q.agent ≤ portRank k now ag)

/-- Take ports for this cycle. An agent of a lower rank that had taken one of them holds it in the next cycle instead
(DESIGN CHOICE, log entry 62); the agent is no longer refused. -/
def claim (k : Core) (now : Nat) (ag : Agent) (ps : List (Nat × Bool)) : Core :=
  { k with
    ports := (k.ports.map fun q =>
        if q.agent != ag && ps.any (fun p => p.1 == q.bank && p.2 == q.write) && decide (portRank k now ag < portRank k now q.agent)
        then { q with late := true } else q)
      ++ ps.dedup.map fun p => { bank := p.1, write := p.2, agent := ag }
    refused := if ps.isEmpty then k.refused else k.refused.filter fun r => r.agent != ag }

/-- A request is refused: the run of cycles on end in which its agent was refused grows. -/
def noteRefused (k : Core) (now : Nat) (ag : Agent) : Core :=
  match k.refused.find? fun r => r.agent == ag with
  | none => { k with refused := k.refused ++ [⟨ag, 1, now⟩] }
  | some r =>
    if r.cyc = now then k
    else { k with refused := (k.refused.filter fun q => q.agent != ag) ++ [⟨ag, if r.cyc + 1 = now then r.run + 1 else 1, now⟩] }

/-- A unit asks for bank ports at core c (R67, R70): whether it gets them, and the ports taken or the refusal noted. -/
def askPorts (s : State) (c : Nat) (ag : Agent) (ps : List (Nat × Bool)) : Bool × State :=
  let now := s.clock.cycle
  if ps.any (portTaken (coreOf s c) now ag) then (false, modCore s c fun k => noteRefused k now ag)
  else if ps.isEmpty then (true, s)
  else (true, modCore s c fun k => claim k now ag ps)

/-- A new cycle begins: ports are free but for those that outranked agents take now, and writes of the last cycle are
seen (R67). -/
def freePorts (k : Core) : Core :=
  { k with ports := (k.ports.filter (·.late)).map (fun q => { q with late := false }), olds := [] }

/-- The largest number of lines on one port (R69, R204). -/
def maxOnPort (ps : List (Nat × Bool)) : Nat :=
  ps.foldl (fun m p => Max.max m (ps.filter fun q => q = p).length) 0

/-- The ports that lines of a bundle take in its i-th cycle: the i-th line on each port, in the order of the lines (R69). -/
def portRound (i : Nat) (ps : List (Nat × Bool)) : List (Nat × Bool) :=
  (ps.zipIdx.filter fun (p, j) => ((ps.take j).filter fun q => q = p).length == i).map (·.1)

/-! ### Bytes at the banks (R67) -/

/-- A write of an agent at own scratchpad. -/
def spadWrite (s : State) (c : Nat) (ag : Agent) (off : Nat) (bs : List Byte) : State := mapWrite s ag (spadAddr s c off) bs

/-- The reader of own scratchpad for an agent. -/
def bankRd (s : State) (c : Nat) (ag : Agent) : Rd := spadRd s c ag

/-! ### Ranges -/

/-- Whether a range (offset, length, write) meets bytes [lo, hi) in whole lines, one of the two writing. -/
def meets (r : Nat × Nat × Bool) (lo hi : Nat) (write : Bool) : Bool :=
  r.2.1 != 0 && decide (r.1 / 64 * 64 < hi ∧ lo < roundUp (r.1 + r.2.1) 64) && (r.2.2 || write)

/-- Whether bytes [lo, hi) meet a range of another agent, one of the two writing (R84). -/
def heldBy (k : Core) (ag : Agent) (lo hi : Nat) (write : Bool) : Bool :=
  k.ranges.any fun r => r.agent != ag && decide (lo < r.hi ∧ r.lo < hi) && (r.write || write)

/-- Whether `n` more ranges fit (R86). -/
def roomFor (k : Core) (n : Nat) : Bool := decide (k.ranges.length + n ≤ 64)

/-- Register a range, widened to whole lines (R83). An empty range registers nothing. -/
def register (k : Core) (ag : Agent) (lo n : Nat) (write : Bool) : Core :=
  if n = 0 then k
  else
    let rs := k.ranges ++ [{ agent := ag, lo := lo / 64 * 64, hi := roundUp (lo + n) 64, write := write }]
    { k with ranges := rs, sbHigh := Max.max k.sbHigh rs.length }

/-- Every range of an agent has had its last access: it may retire (R85). -/
def finishRanges (k : Core) (ag : Agent) : Core :=
  { k with ranges := k.ranges.map fun r => if r.agent = ag then { r with done := true } else r }

/-- What an agent wrote is seen by every access after its range has retired (R85). -/
def dropOlds (k : Core) (ag : Agent) : Core := { k with olds := k.olds.filter fun o => o.agent != ag }

/-- Retire every range of an agent (R85). -/
def retireRanges (k : Core) (ag : Agent) : Core := { dropOlds k ag with ranges := k.ranges.filter fun r => r.agent != ag }

/-- Retire each of a list of ranges of an agent once (R85). -/
def retireList (k : Core) (ag : Agent) (rs : List (Nat × Nat × Bool)) : Core :=
  { dropOlds k ag with ranges := rs.foldl (fun l r => l.eraseP fun q =>
      q.agent == ag && q.lo == r.1 / 64 * 64 && q.write == r.2.2 && r.2.1 != 0) k.ranges }

/-- The registrations of other agents that asked before this one did and still wait (R84). -/
def earlier (k : Core) (ag : Agent) : List Waiter := k.waiters.takeWhile fun w => w.agent != ag

/-- Whether a list of ranges (offset, length, write) may be registered now by an agent: room for all of them, no registered
range of another agent in the way, and none that asked for the same bytes before (R84, R86). -/
def canRegister (k : Core) (ag : Agent) (rs : List (Nat × Nat × Bool)) : Bool :=
  let live := rs.filter fun r => r.2.1 != 0
  roomFor k live.length
  && !(live.any fun r => heldBy k ag (r.1 / 64 * 64) (roundUp (r.1 + r.2.1) 64) r.2.2)
  && !((earlier k ag).any fun w => w.rs.any fun q => live.any fun r => meets q (r.1 / 64 * 64) (roundUp (r.1 + r.2.1) 64) r.2.2)

/-- A registration waits in the order in which it asked (R84). -/
def queueUp (k : Core) (ag : Agent) (rs : List (Nat × Nat × Bool)) : Core :=
  if k.waiters.any fun w => w.agent == ag then k else { k with waiters := k.waiters ++ [⟨ag, rs⟩] }

/-- A registration waits no more: it has been made, or its command has ended. -/
def leaveQueue (k : Core) (ag : Agent) : Core := { k with waiters := k.waiters.filter fun w => w.agent != ag }

/-- Register a list of ranges. -/
def registerAll (k : Core) (ag : Agent) (rs : List (Nat × Nat × Bool)) : Core :=
  rs.foldl (fun k r => register k ag r.1 r.2.1 r.2.2) (leaveQueue k ag)

/-- The bounding range of a descriptor in own scratchpad: window offset and length; nothing for others. -/
def Desc.spadRange (d : Desc) (write : Bool) : Nat × Nat :=
  match d.bounds write with
  | some (a, n) => if d.spad then (a.toNat, n) else (0, 0)
  | none => (0, 0)

/-- The core whose scratchpad holds a local address of the global map, and the window offset there (R81). -/
def mapPlace (s : State) (a : Nat) : Nat × Nat :=
  let c := (a - spadBase) / 0x400000
  (c, (a - spadBase) % 0x400000 - spwBase (coreOf s c))

/-- The core and window range that a local address range in the scratchpad map meets. -/
def mapRange (s : State) (a n : Nat) (write : Bool) : List (Nat × Nat × Nat × Bool) :=
  if inSpad a ∧ n ≠ 0 then [((mapPlace s a).1, (mapPlace s a).2, n, write)] else []

/-- The scratchpad ranges of a tensor: own scratchpad of core c, or a core reached through the global map (R83). -/
def tensorRange (s : State) (c : Nat) (d : Desc) (write : Bool) : List (Nat × Nat × Nat × Bool) :=
  match d.bounds write with
  | none => []
  | some (a, n) => match d.space s with
    | .spad => [(c, a.toNat, n, write)]
    | .here => mapRange s a.toNat n write
    | .far _ => []

/-- The ports that an access to a local address needs: those of the core whose scratchpad it lies in, by its swizzle (R81). -/
def mapPorts (s : State) (a n : Nat) (write : Bool) : Nat × List (Nat × Bool) :=
  if inSpad a then ((mapPlace s a).1, portsOf (coreOf s (mapPlace s a).1) (mapPlace s a).2 n write) else (0, [])

/-- The name under which a unit of core c, or of its cluster, works at core t: its own name at its core, and for the Turn
unit in its cluster; else one that tells it from the units there. -/
def agentAt (c : Nat) (ag : Agent) (t : Nat) : Agent :=
  if t = c then ag
  else match ag with
    | .turn => if clusterOf t = clusterOf c then ag else .remote (16 + clusterOf c)
    | .engine .fetch => .remote (1024 + 2 * c)
    | .engine .store => .remote (1025 + 2 * c)
    | ag => ag

/-- The ranges of a list that lie at core t. -/
def rangesAt (rs : List (Nat × Nat × Nat × Bool)) (t : Nat) : List (Nat × Nat × Bool) :=
  (rs.filter fun r => r.1 == t).map (·.2)

/-- The cores at which a list of ranges lies. -/
def rangeCores (rs : List (Nat × Nat × Nat × Bool)) : List Nat := (rs.map (·.1)).dedup

/-- Whether a unit of core c may register ranges at their cores (R84, R86). -/
def canRegisterMany (s : State) (c : Nat) (ag : Agent) (rs : List (Nat × Nat × Nat × Bool)) : Bool :=
  (rangeCores rs).all fun t => canRegister (coreOf s t) (agentAt c ag t) (rangesAt rs t)

/-- A unit of core c registers ranges at their cores. -/
def registerMany (s : State) (c : Nat) (ag : Agent) (rs : List (Nat × Nat × Nat × Bool)) : State :=
  (rangeCores rs).foldl (fun s t => modCore s t fun k => registerAll k (agentAt c ag t) (rangesAt rs t)) s

/-- A unit of core c waits to register ranges at their cores. -/
def queueMany (s : State) (c : Nat) (ag : Agent) (rs : List (Nat × Nat × Nat × Bool)) : State :=
  (rangeCores rs).foldl (fun s t => modCore s t fun k => queueUp k (agentAt c ag t) (rangesAt rs t)) s

/-- Ranges of a unit of core c retire at their cores, and its waiting registrations end. -/
def retireMany (s : State) (c : Nat) (ag : Agent) (rs : List (Nat × Nat × Nat × Bool)) : State :=
  (rangeCores rs).foldl (fun s t => modCore s t fun k => retireList (leaveQueue k (agentAt c ag t)) (agentAt c ag t) (rangesAt rs t)) s

/-- The bank ports that an access of a stream to a space needs, and the core they are at (R20, R67, R81). -/
def spacePorts (s : State) (c : Nat) (sp : Space) (a n : Nat) (write : Bool) : Nat × List (Nat × Bool) :=
  match sp with
  | .spad => (c, portsOf (coreOf s c) a n write)
  | .here => mapPorts s a n write
  | .far _ => (c, [])

/-- Whether an access to local addresses waits for a range that another agent has registered in a scratchpad (R84). -/
def mapHeld (s : State) (ag : Agent) (a n : Nat) (write : Bool) : Bool :=
  (mapRange s a n write).any fun r => heldBy (coreOf s r.1) ag (r.2.1 / 64 * 64) (roundUp (r.2.1 + r.2.2.1) 64) write

/-- An agent gives up the registrations that it waits for, wherever it waits. -/
def leaveAll (s : State) (ag : Agent) : State :=
  ((s.cores.filter fun p => p.2.waiters.any fun w => w.agent == ag).map (·.1)).foldl (fun s c => modCore s c fun k => leaveQueue k ag) s

/-- A unit of core c asks for the bank ports of accesses to a space; all of them are asked for at the core of the first. -/
def askSpace (s : State) (c : Nat) (ag : Agent) (sp : Space) (write : Bool) (as : List (Nat × Nat)) : Bool × State :=
  let ps := as.map fun a => spacePorts s c sp a.1 a.2 write
  match ps with
  | [] => (true, s)
  | (t, _) :: _ => askPorts s t (agentAt c ag t) ((ps.filter fun p => p.1 == t).map (·.2)).flatten

/-! ### The compute engine's own view (R68) -/

/-- A byte of own scratchpad as the compute engine sees it: its latest store that is not yet visible, else memory. DEDUCED, log entry 47. -/
def ownByte (s : State) (c off : Nat) : Byte :=
  let hit := (coreOf s c).stores.foldl (fun (acc : Option Byte) st =>
    if st.off ≤ off ∧ off < st.off + st.bytes.length then some (st.bytes.getD (off - st.off) 0) else acc) none
  match hit with
  | some b => b
  | none => bankByte s c (.engine .compute) off

/-- A reader of own scratchpad as the compute engine sees it. DEDUCED, log entry 47. -/
def ownRd (s : State) (c : Nat) : Rd := { byte := ownByte s c, bad := fun _ _ => none }

/-- Make the oldest store of core c visible to every agent. -/
def showStore (s : State) (c : Nat) : State :=
  match (coreOf s c).stores with
  | [] => s
  | st :: t => modCore (writeMem s (spadAddr s c st.off) st.bytes) c fun k => { k with stores := t }

/-- Whether the oldest store of a core was issued 8 cycles ago or more. -/
def storeDue (s : State) (c : Nat) : Bool :=
  match (coreOf s c).stores with
  | [] => false
  | st :: _ => decide (st.cyc + 8 ≤ s.clock.cycle)

/-- The stores of core c issued 8 cycles ago or more become visible (`fuel` of them at most). -/
def showDueFuel : Nat → State → Nat → State
  | 0, s, _ => s
  | fuel + 1, s, c => if storeDue s c then showDueFuel fuel (showStore s c) c else s

/-- The stores of core c issued 8 cycles ago or more become visible (R68). -/
def showDue (s : State) (c : Nat) : State := showDueFuel (coreOf s c).stores.length s c

/-- `STORE_VISIBLE` (R68): the oldest pending store becomes visible, 8 cycles after its issue and not before. -/
def execStoreVisible (c : CoreId) (s : State) : Out State := .next (if storeDue s c.val then showStore s c.val else s)

end Sys2Proof.Machine
end

