-- ==== Sys2Proof/Machine/Net.lean ====
section
/-! DEFINITION. What every unit shares of the fabric and of synchronisation: commits to local memory with the
accounting of R293, frames put in the transmit queues, counted signals, local signals, folds. -/

namespace Sys2Proof.Machine

open Sys2Proof

/-! ### Commits to memory -/

/-- The first line of a partial-line write that holds an uncorrectable error (R329). -/
def partialBad (s : State) (a n : Nat) : Option Nat :=
  if inSpad a then none
  else s.badLines.find? fun l =>
    decide (l < a + n ∧ a < l + 64) && !decide (a ≤ l ∧ l + 64 ≤ a + n)

/-- The bytes of a source stream that committed here: U rises (R293). -/
def creditStream (s : State) (src stream n : Nat) : State :=
  let key := src * 4096 + stream
  let e := mget {} s.srcs key
  { s with srcs := mset {} s.srcs key { e with uncredited := e.uncredited + n } }

/-- The fault of a write that R329 refuses. -/
def partialFlt (s : State) (l : Nat) : Flt :=
  { cls := 9, sub := 3, addr := BitVec.ofNat 64 (s.fabric.devaddr.toNat * 2 ^ 48 + l) }

/-- Writes that stand one behind the other are one run of bytes. -/
def coalesce : List Wr → List Wr
  | [] => []
  | (a, bs) :: t =>
    match coalesce t with
    | (b, cs) :: r => if a + bs.length = b then (a, bs ++ cs) :: r else (a, bs) :: (b, cs) :: r
    | [] => [(a, bs)]

/-- A run of bytes cut at the 64-byte lines (`fuel` lines at most). -/
def cutLines : Nat → Nat → List Byte → List Wr
  | 0, _, _ => []
  | fuel + 1, a, bs =>
    let n := 64 - a % 64
    if bs.length ≤ n then (if bs.isEmpty then [] else [(a, bs)]) else (a, bs.take n) :: cutLines fuel (a + n) (bs.drop n)

/-- Writes as their lines meet the memory controller: a line that they cover whole is written whole (R329). DEDUCED, log entry 16. -/
def lineWrites (ws : List Wr) : List Wr :=
  ((coalesce ws).map fun w => cutLines (w.2.length / 64 + 2) w.1 w.2).flatten

/-- A partial-line write reads its line first: a correctable error in it is counted, and the line goes back corrected
(R328, R329). -/
def mergeLine (s : State) (a n : Nat) : State :=
  let part := s.softLines.filter fun l => !inSpad a && decide (l < a + n ∧ a < l + 64) && !decide (a ≤ l ∧ l + 64 ≤ a + n)
  let s1 := part.foldl countCorrected s
  { s1 with softLines := s1.softLines.filter fun l => l ∉ part }

/-- Write lines in order, each counted by `tally` where it has committed; the first that R329 refuses ends them. -/
def putLines (ag : Agent) (tally : State → Nat → State) : State → List Wr → State × Option Flt
  | s, [] => (s, none)
  | s, (a, bs) :: t =>
    match partialBad s a bs.length with
    | some l => (s, some (partialFlt s l))
    | none => putLines ag tally (tally (mapWrite (mergeLine s a bs.length) ag a bs) bs.length) t

/-- Commit writes of a stream in this device's memory: they count in the stream (R293). DESIGN CHOICE, log entry 16. -/
def commitFrom (s : State) (src stream : Nat) (ws : List Wr) : State × Option Flt :=
  putLines (.remote (8192 + stream)) (fun s n => creditStream s src stream n) s (lineWrites ws)

/-- Commit bytes of a stream at a local address. -/
def commit (s : State) (src stream a : Nat) (bs : List Byte) : State × Option Flt := commitFrom s src stream [(a, bs)]

/-- Commit writes of a local stream in order. -/
def commitAll (s : State) (stream : Nat) (ws : List Wr) : State × Option Flt := commitFrom s s.fabric.devaddr.toNat stream ws

/-- Store writes of a unit that is no source stream of Table 12.3 in local memory; R329 may refuse one. -/
def storeAll (ag : Agent) (s : State) (ws : List Wr) : State × Option Flt := putLines ag (fun s _ => s) s (lineWrites ws)

/-- The stored units of a tensor: address and length, pads left out. -/
def Desc.spans (d : Desc) : List (Nat × Nat) :=
  (List.range d.unitCount).filterMap fun n =>
    let (pad, a) := d.unitAt n
    if pad then none else some (a.toNat, d.unitBytes)

/-- Reads of spans of this device's memory: the correctable errors in their lines are counted (R328). -/
def noteSpans (s : State) (spans : List (Nat × Nat)) : State :=
  (s.softLines.filter fun l => spans.any fun p => decide (l < p.1 + p.2 ∧ p.1 < l + 64)).foldl countCorrected s

/-- A unit has read a tensor. -/
def noteRead (s : State) (d : Desc) : State :=
  match d.space s with
  | .here => noteSpans s d.spans
  | _ => s

/-- A unit has read `n` bytes at a global address. -/
def noteAt (s : State) (ga : W64) (n : Nat) : State := if isHere s (bits ga 63 48) then noteSpans s [(bits ga 47 0, n)] else s

/-! ### Frames -/

/-- The 256-bit header (Table 15.1). DEDUCED, log entry 8. -/
def frameHeader (f : Frame) : Nat :=
  f.typ.toNat * 2 ^ 252 + f.vc.toNat * 2 ^ 250 + (if f.adp then 2 ^ 249 else 0) + (if f.esc then 2 ^ 248 else 0)
  + f.hops.toNat * 2 ^ 244 + f.len.toNat * 2 ^ 234 + f.tag.toNat * 2 ^ 224 + f.dst.toNat * 2 ^ 208
  + f.src.toNat * 2 ^ 192 + f.stream.toNat * 2 ^ 180 + f.lseq.toNat * 2 ^ 160 + f.skey.toNat * 2 ^ 128
  + f.addr.toNat * 2 ^ 80 + f.aux.toNat * 2 ^ 32 + f.sseq.toNat * 2 ^ 16 + (if f.mcf then 2 ^ 15 else 0)

/-- The CRC-32 over header and padded payload (R340); the header goes lowest byte first (DEDUCED, log entry 8). -/
def frameCrc (f : Frame) : BitVec 32 :=
  crc32 (leBytes 32 (frameHeader f) ++ padTo (roundUp f.len.toNat 32) f.payload)

/-- Credits a frame takes: one per 32 bytes of header, payload and trailer (R343). -/
def frameCredits (f : Frame) : Nat := ceilDiv (40 + roundUp f.len.toNat 32) 32

/-- The channel of a frame type (Table 15.2). -/
def frameVc : Nat → Nat
  | 1 => 0
  | 2 => 0
  | 3 => 1
  | 4 => 1
  | 5 => 1
  | 6 => 2
  | 7 => 2
  | 8 => 2
  | 9 => 0
  | 0xA => 2
  | _ => 3

/-- Whether a type is routed adaptively (Table 15.2). -/
def frameAdp (t : Nat) : Bool := t == 1 || t == 3 || t == 9

/-- A frame of this device, before it takes a port. -/
def newFrame (s : State) (typ dst stream : Nat) (skey : W32) (addr aux : Nat) (payload : List Byte) : Frame :=
  { typ := BitVec.ofNat 4 typ, vc := BitVec.ofNat 2 (frameVc typ), adp := frameAdp typ, dst := BitVec.ofNat 16 dst
    src := s.fabric.devaddr, stream := BitVec.ofNat 12 stream, skey := skey, addr := BitVec.ofNat 48 addr
    aux := BitVec.ofNat 48 aux, len := BitVec.ofNat 10 payload.length, payload := payload }

/-- The routing entry toward a device (R347, Table 15.4). -/
def routeWord (s : State) (dst : BitVec 16) : W64 :=
  if bits dst 15 8 = bits s.fabric.devaddr 15 8 then mget 0 s.fabric.memberRt (bits dst 6 0)
  else mget 0 s.fabric.groupRt (bits dst 14 8)

/-- The source stream of the fabric engine of the port that leads to a device (R342, Table 12.3). DESIGN CHOICE, log entry 16. -/
def engineStream (s : State) (dev : Nat) : Nat := 0xC20 + bits (routeWord s (BitVec.ofNat 16 dev)) 23 20

/-- Put a frame in the transmit queue. -/
def sendFrame (s : State) (f : Frame) : State :=
  { s with fabric := { s.fabric with waiting := s.fabric.waiting ++ [{ frame := f }] } }

/-- Put a request in the transmit queue and note that its response is awaited (R345). -/
def sendRequest (s : State) (ag : Agent) (core : Nat) (f : Frame) : State :=
  let s := sendFrame s f
  { s with fabric := { s.fabric with outst := s.fabric.outst ++ [{ agent := ag, core := core, sent := s.clock.beat, frame := f }] } }

/-- The next write sequence number of a stream toward a device (R351), and the state that has taken it. -/
def takeSseq (s : State) (stream dst : Nat) : BitVec 16 × State :=
  let key := stream * 65536 + dst
  let n := mget 0 s.fabric.sseq key
  (n, { s with fabric := { s.fabric with sseq := mset 0 s.fabric.sseq key (n + 1) } })

/-- Send writes to another device, at most 512 bytes a frame, in SSEQ order. -/
def remoteWrites (s : State) (ag : Agent) (core stream dev : Nat) (skey : W32) (mcf : Bool) : List Wr → State
  | [] => s
  | (a, bs) :: t =>
    let s1 := (chunks 512 bs).zipIdx.foldl (fun s (b, i) =>
      let (n, s) := takeSseq s stream dev
      sendRequest s ag core { newFrame s 1 dev stream skey (a + 512 * i) 0 b with sseq := n, mcf := mcf }) s
    remoteWrites s1 ag core stream dev skey mcf t

/-- Send a read request to another device. -/
def remoteRead (s : State) (ag : Agent) (core stream dev tag : Nat) (skey : W32) (a n : Nat) : State :=
  sendRequest s ag core { newFrame s 2 dev stream skey a n [] with tag := BitVec.ofNat 10 tag }

/-- Key of the context a core holds, or of the releasing one for which its started commands still run (R370, R380); 0 with none. -/
def coreKey (s : State) (c : Nat) : W32 :=
  match ctxOf (coreOf s c), s.releases.find? fun r => r.cores.contains c with
  | some x, _ => ctxKey s x
  | none, some r => ctxKey s r.ctx
  | none, none => 0

/-- A unit acting for core c performs writes in a space: own scratchpad, this device (accounted to `stream` where one
is given), or another device, as frames of the core's key. -/
def unitWrites (s : State) (sp : Space) (c : Nat) (ag : Agent) (stream : Option Nat) (ws : List Wr) : State × Option Flt :=
  match sp with
  | .spad =>
    let s1 := applyWr s .spad c ag ws
    (match stream with
      | some n => creditStream s1 s1.fabric.devaddr.toNat n (ws.foldl (fun a w => a + w.2.length) 0)
      | none => s1, none)
  | .here => match stream with
    | some n => commitAll s n ws
    | none => storeAll ag s ws
  | .far dev => (remoteWrites s ag c (stream.getD (0x200 + c)) dev (coreKey s c) false (coalesce ws), none)

/-! ### Counted signals (R291 to R294) -/

/-- The context and virtual tally named by the local part of a counted signal's address. -/
def signalTarget (a : Nat) : Nat × Nat := ((a - 0x300080000000) / 0x8000, (a - 0x300080000000) % 0x8000 / 8)

/-- The physical tally a counted signal reaches: its range must accept remote signals. -/
def rsigTally (s : State) (x v : Nat) : Option Nat :=
  match ttrFind (fun n => cw s x (0xA0 + 8 * n)) v with
  | some r => if bit r 61 then translateFor (fun n => cw s x (0xA0 + 8 * n)) 0 v else none
  | none => none

/-- Whether a stream entry is there, or may be made: a device holds 8,192 (R295). -/
def streamRoom (s : State) (src stream : Nat) : Bool :=
  decide (s.srcs.length < 8192) || decide (mget {} s.srcs (src * 4096 + stream) ≠ {})

/-- Whether one of this device's own streams may write here (R295). DEDUCED, log entry 15. -/
def ownRoom (s : State) (stream : Nat) : Bool := streamRoom s s.fabric.devaddr.toNat stream

/-- Signals held by this device. -/
def heldCount (s : State) : Nat := s.srcs.foldl (fun a e => a + e.2.held.length) 0

/-- Whether a counted signal of a stream finds room: 32,768 held signals, 8,192 streams (R295). -/
def signalRoom (s : State) (src stream : Nat) : Bool := decide (heldCount s < 32768) && streamRoom s src stream

/-- Accept a counted signal and hold it behind its stream, or refuse it, counting the refusal (R292). DEDUCED, log entry 15. -/
def acceptCounted (s : State) (src stream : Nat) (skey : W32) (a bytes : Nat) (cmd : W64 := 0) (ag : Agent := .remote 0) : State × Bool :=
  let (x, v) := signalTarget a
  if ctxState s x == 2 && (rsigTally s x v).isSome && skey == ctxKey s x then
    let key := src * 4096 + stream
    let e := mget {} s.srcs key
    ({ s with srcs := mset {} s.srcs key { e with held := e.held ++ [⟨x, BitVec.ofNat 12 v, bytes, cmd, ag⟩] } }, true)
  else if ctxState s x == 2 then
    let w := cw s x 0xF8
    (setCw s x 0xF8 (setBits w 31 16 (satAdd 16 (bits w 31 16) 1)), false)
  else (s, false)

/-- Send a counted signal from a stream of this device: accounted here when it names this device (R294), where it finds room;
else it waits in the transmit queue (R295). `cmd` names the bundle or descriptor that it comes from. -/
def countedSignal (s : State) (ag : Agent) (core stream : Nat) (skey : W32) (ga : W64) (bytes : Nat) (cmd : W64 := 0) : State × Bool :=
  let dev := bits ga 63 48
  let a := bits ga 47 0
  if isHere s dev && signalRoom s s.fabric.devaddr.toNat stream then acceptCounted s s.fabric.devaddr.toNat stream skey a bytes cmd ag
  else
    let f := newFrame s 6 (if isHere s dev then s.fabric.devaddr.toNat else dev) stream skey a bytes []
    let s1 := sendFrame s f
    ({ s1 with fabric := { s1.fabric with outst := s1.fabric.outst ++ [{ agent := ag, core := core, sent := s.clock.beat, frame := f, cmd := cmd }] } }, true)

/-! ### Local signals (R284, R286, R287) -/

/-- The overflow record of a signal from bundle `pc` of an engine (R284, R286). -/
def signalRec (s : State) (e : Engine) (pc : Int) (virt : BitVec 12) (phys amount : Nat) : FaultRec :=
  overflowRec s (engKind e) (BitVec.ofInt 64 pc) virt.toNat phys amount

/-- Advance a tally for an engine of core c: at once in its own cluster, over the network otherwise (R287). A tally that
would overflow is a fault found after issue at its source (R41, R284). -/
def signalTally (s : State) (c : Nat) (e : Engine) (pc : Int) (phys amount : Nat) (virt : BitVec 12) : State :=
  if phys / 4096 = clusterOf c then
    if overflows s phys amount then lateFault s c (signalRec s e pc virt phys amount)
    else advance s phys amount
  else { s with localSigs := s.localSigs ++ [{ core := c, eng := e, pc := pc, phys := phys, amount := amount, virt := virt }] }

/-! ### Folds (R296 to R298, R355, R357) -/

/-- Fold slot f of cluster k. -/
def foldOf (s : State) (k f : Nat) : Fold := mget {} s.folds (k * 16 + f)
/-- Replace it. -/
def setFold (s : State) (k f : Nat) (v : Fold) : State := { s with folds := mset {} s.folds (k * 16 + f) v }
/-- `SCOPE` of a definition: 0 not granted, 1 cluster, 2 device, 3 fabric. -/
def foldScope (v : Fold) : Nat := bits v.defn 63 62
/-- Clusters taking part on this device. -/
def foldClusters (k : Nat) (v : Fold) : List Nat :=
  if foldScope v = 1 then [k] else setBitsOf 16 (bits v.defn 47 32)
/-- The cluster that keeps a fabric fold's tree state on this device. -/
def foldHome (k : Nat) (v : Fold) : Nat := (foldClusters k v).headD k

/-- Whether every device-scope member of the fold has arrived. -/
def foldFull (s : State) (k f : Nat) : Bool :=
  (foldClusters k (foldOf s k f)).all fun j =>
    let v := foldOf s j f
    bits v.defn 31 0 == v.arrived.toNat

/-- Word w of group entry g (R355). -/
def groupWord (s : State) (g w : Nat) : W64 := mget 0 s.fabric.groups (g * 4 + w)
/-- The children of group g, in tree order. -/
def groupChildren (s : State) (g : Nat) : List Nat :=
  (List.range (Min.min 8 (bits (groupWord s g 0) 59 56))).map fun k =>
    bits (groupWord s g (1 + k / 4)) (16 * (k % 4) + 15) (16 * (k % 4))

/-- Advance every tally named by the round's arrivals in cluster k, and clear the slot for the next round (R297). A tally that
would overflow keeps its value, and the core that arrived has the fault (R41, R284). -/
def clearRound (s : State) (k f : Nat) : State :=
  let v := foldOf s k f
  let s := v.named.foldl (fun s q =>
    if overflows s q.phys 1 then lateFault s q.core (signalRec s q.eng q.pc q.virt q.phys 1) else advance s q.phys 1) s
  setFold s k f { v with arrived := 0, named := [], rounds := v.rounds + 1, kids := [], sentUp := false }

/-- Complete the round of fold f as seen from cluster k, in every member cluster of this device. -/
def completeRound (s : State) (k f : Nat) : State :=
  (foldClusters k (foldOf s k f)).foldl (fun s j => clearRound s j f) s

/-- Send fold messages of fold f of group g to devices. -/
def foldMessages (s : State) (typ f g : Nat) (devs : List Nat) : State :=
  devs.foldl (fun s d => sendFrame s (newFrame s typ d (engineStream s d) 0 0 (g * 16 + f) [])) s

/-- A fabric fold whose members and children have all arrived sends its arrival to the parent (R357). -/
def foldUp (s : State) (k f : Nat) : State :=
  let h := foldHome k (foldOf s k f)
  let v := foldOf s h f
  let g := bits v.grp 11 0
  let hdr := groupWord s g 0
  if foldScope v = 3 ∧ foldFull s h f ∧ !v.sentUp ∧ bits hdr 55 52 ≠ 0
      ∧ (groupChildren s g).all (fun d => (BitVec.ofNat 16 d) ∈ v.kids) then
    setFold (foldMessages s 7 f g [bits hdr 15 0]) h f { v with sentUp := true }
  else s

/-- Whether the round of fold f completes on this device now: every arrival, and for a fabric fold at the root only. -/
def foldReady (s : State) (k f : Nat) : Bool :=
  let v := foldOf s k f
  let h := foldOf s (foldHome k v) f
  let g := bits v.grp 11 0
  foldScope v != 0 && bits v.defn 31 0 != 0 && foldFull s k f
    && (foldScope v != 3 || (bits (groupWord s g 0) 55 52 == 0
      && (groupChildren s g).all fun d => decide ((BitVec.ofNat 16 d) ∈ h.kids)))

/-- `FOLD_COMPLETE` (R297, R357): the round completes; the root sends completions to its children in tree order. -/
def execFoldComplete (k : ClusterId) (f : Fin 16) (s : State) : Out State :=
  if foldReady s k.val f.val then
    let v := foldOf s k.val f.val
    let g := bits v.grp 11 0
    let s := completeRound s k.val f.val
    .next (if foldScope v = 3 then foldMessages s 8 f.val g (groupChildren s g) else s)
  else .next s

/-- The conditions of R298 and R288 on an arrival of core c. -/
def farrFlts (s : State) (c : Nat) (t : BitVec 12) (f : Nat) (pc : W64) : List Flt :=
  let v := foldOf s (clusterOf c) f
  let bad := foldScope v == 0 || ctxOf (coreOf s c) != some (bits v.defn 61 48)
    || !bit v.defn (c % 32) || v.arrived.getLsbD (c % 32)
  faultIf (translate s c t).isNone { cls := 8, sub := 6, addr := pc, w1 := BitVec.ofNat 64 t.toNat }
  ++ faultIf bad { cls := 8, sub := 9, addr := pc, w1 := BitVec.ofNat 64 f }

/-- Record core c's arrival at fold f from a bundle of engine e, naming tally t (R297). -/
def arrive (s : State) (c : Nat) (e : Engine) (pc : Int) (t : BitVec 12) (f : Nat) : State :=
  let k := clusterOf c
  let v := foldOf s k f
  match translate s c t with
  | none => s
  | some p =>
    let v := { v with arrived := v.arrived ||| BitVec.ofNat 32 (2 ^ (c % 32)), named := v.named ++ [{ core := c, eng := e, pc := pc, phys := p, amount := 1, virt := t }] }
    foldUp (setFold s k f v) k f

end Sys2Proof.Machine
end

