-- ==== Sys2Proof/Machine/Array.lean ====
section
/-! DEFINITION. The matrix array (R123 to R144): tile images, weight loads and the patch merge, passes and their
result rows, the predictor and its selection record, selected passes, accumulator reads and clears. -/

namespace Sys2Proof.Machine

open Sys2Proof

/-! ### Tile images (Tables 5.3 and 5.4) -/

/-- Bytes of a tile image. -/
def tileBytes : Nat := 6720

/-- The header of a tile, as a number. -/
def tileHdr (t : AMap Byte) : Nat := leNat (getBytes t 0 64)
/-- Weight format code. -/
def tileFmt (t : AMap Byte) : Nat := nbits (tileHdr t) 3 0
/-- `S24`. -/
def tileS24 (t : AMap Byte) : Bool := nbits (tileHdr t) 8 8 == 1
/-- `NIN`. -/
def tileNin (t : AMap Byte) : Nat := nbits (tileHdr t) 31 16
/-- `NCOL`. -/
def tileNcol (t : AMap Byte) : Nat := nbits (tileHdr t) 39 32

/-- The pass width of a weight format (Table 5.1); 0 for a format that no mode takes. -/
def passWidth (fmt : Nat) (s24 : Bool) : Nat :=
  if fmt = 1 ∨ fmt = 2 then (if s24 then 64 else 32)
  else if fmt = 8 then (if s24 then 256 else 128)
  else if fmt = 0xB then (if s24 then 0 else 128)
  else if (3 ≤ fmt ∧ fmt ≤ 7) ∨ fmt = 9 ∨ fmt = 0xA then (if s24 then 128 else 64)
  else 0

/-- Metadata word of column c. -/
def tileMeta (t : AMap Byte) (c : Nat) : Nat := leNat (getBytes t (0x1040 + 32 * c) 32)
/-- Index of kept element k of column c within its group. -/
def tileIdx (t : AMap Byte) (c k : Nat) : Nat := nbits (tileMeta t c) (2 * k + 1) (2 * k)
/-- Stored weight k of column c. -/
def tileElem (t : AMap Byte) (c k : Nat) : Nat :=
  packedAt (getBytes t (0x40 + 64 * c) 64) (elemBits (tileFmt t)) k
/-- Scale byte of input block b of column c. -/
def tileScale (t : AMap Byte) (c b : Nat) : Nat := (mget 0 t (0x1840 + 8 * c + b)).toNat

/-- The encoding held at input i of column c, none where a 2:4 tile keeps nothing there. -/
def tileAt (t : AMap Byte) (c i : Nat) : Option Nat :=
  if tileS24 t then
    let g := i / 4
    if tileIdx t c (2 * g) = i % 4 then some (tileElem t c (2 * g))
    else if tileIdx t c (2 * g + 1) = i % 4 then some (tileElem t c (2 * g + 1))
    else none
  else some (tileElem t c i)

/-- Groups of four inputs of a column, the last of them perhaps in part (R97). -/
def tileGroups (t : AMap Byte) : Nat := ceilDiv (tileNin t) 4

/-- The value of the weight at input i of column c, its scale applied; columns from `NCOL` on hold zero weights (Table 5.4). -/
def tileWeight (t : AMap Byte) (c i : Nat) : FV :=
  if tileNcol t ≤ c then .fin false 0 0
  else match tileAt t c i with
  | none => if isMx (tileFmt t) && tileScale t c (i / 32) == 0xFF then .nan false else .fin false 0 0
  | some e => if isMx (tileFmt t) then mxVal (tileFmt t) (tileScale t c (i / 32)) e else elemVal (tileFmt t) e

/-- The load fault of a tile header (Table 5.10, subcode 0x0D). -/
def tileHdrFlt (t : AMap Byte) (addr : W64) : List Flt :=
  let h := tileHdr t
  let w := passWidth (tileFmt t) (tileS24 t)
  let bad := nbits h 511 40 != 0 || nbits h 15 9 != 0 || nbits h 7 4 != 0 || w == 0
    || tileNcol t == 0 || decide (64 < tileNcol t) || tileNin t == 0 || decide (w < tileNin t)
    || (isMx (tileFmt t) && tileNin t % 32 != 0)
  faultIf bad { cls := 0xB, sub := 0xD, addr := addr, w1 := 0, w2 := BitVec.ofNat 64 h }

/-- The load fault of 2:4 metadata whose indices do not ascend (R97), over the columns `cols`. -/
def tileMetaFlt (t : AMap Byte) (cols : List Nat) (addr : W64) : List Flt :=
  if tileS24 t then
    match cols.findSome? fun c => ((List.range (tileGroups t)).find? fun g =>
        decide (tileIdx t c (2 * g + 1) ≤ tileIdx t c (2 * g))).map fun g => c * tileGroups t + g with
    | some q => [{ cls := 0xB, sub := 5, addr := addr, w1 := BitVec.ofNat 64 q }]
    | none => []
  else []

/-! ### The patch merge (R138 to R140) -/

/-- A position of the merge: column, input. -/
abbrev Pos := Nat × Nat

/-- The state of a merge: encodings by position c × 256 + i, kept positions, positions in an override block. -/
structure Merge where
  vals : AMap Nat
  kept : List Nat
  blk  : List Nat
  deriving DecidableEq, Repr

/-- The positions an override record marks, with its values in ascending bit order (Table 5.7). -/
def overrideMarks (r : List Byte) : List (Pos × Nat) :=
  let w := numAt r 0 8
  (setBitsOf 16 (nbits w 63 48)).zipIdx.map fun (b, j) =>
    ((4 * nbits w 3 0 + b / 4, 4 * nbits w 13 8 + b % 4), numAt r (8 + 2 * j) 2)

/-- Column block and input group of an override record. -/
def overrideBlock (r : List Byte) : Nat × Nat := (nbits (numAt r 0 8) 3 0, nbits (numAt r 0 8) 13 8)

/-- Apply an override: its block is replaced whole. -/
def applyOverride (m : Merge) (r : List Byte) : Merge :=
  let (cb, ig) := overrideBlock r
  let pos := (List.range 16).map fun b => (4 * cb + b / 4) * 256 + 4 * ig + b % 4
  let marks := (overrideMarks r).map fun q => (q.1.1 * 256 + q.1.2, q.2)
  { vals := marks.foldl (fun v q => mput q.1 q.2 v) (pos.foldl (fun v p => mdel p v) m.vals)
    kept := m.kept.filter (fun p => p ∉ pos) ++ marks.map (·.1)
    blk := m.blk ++ pos }

/-- Apply a delta (Table 5.8). -/
def applyDelta (m : Merge) (w : Nat) : Merge :=
  let p := nbits w 5 0 * 256 + nbits w 15 8
  { m with vals := mput p (nbits w 31 16) m.vals, kept := m.kept.filter (· ≠ p) ++ [p] }

/-- Bytes of a tile with element k of column c replaced. -/
def setTileElem (t : AMap Byte) (eb c k e : Nat) : AMap Byte :=
  let base := 0x40 + 64 * c
  let old := leNat (getBytes t base 64)
  let new := old - (nbits old (k * eb + eb - 1) (k * eb)) * 2 ^ (k * eb) + (e % 2 ^ eb) * 2 ^ (k * eb)
  setBytes t base (leBytes 64 new)

/-- The override records of a patch segment of `ext` bytes that lie in it, at most V of them (R138). -/
def patchOverrides (seg : List Byte) (ext : Nat) : List (List Byte) :=
  let v := nbits (numAt seg 0 8) 31 16
  (List.range (Min.min v ((ext - 8) / 24))).map fun i => (seg.drop (8 + 24 * i)).take 24

/-- The delta records of a patch segment that lie in it, at most D of them (R138). -/
def patchDeltas (seg : List Byte) (ext : Nat) : List Nat :=
  let h := numAt seg 0 8
  let o := 8 + 24 * nbits h 31 16
  (List.range (Min.min (nbits h 15 0) ((ext - o) / 4))).map fun i => numAt seg (o + 4 * i) 4

/-- Whether every position of an override lies inside the tile (R138). -/
def overrideInside (t : AMap Byte) (r : List Byte) : Bool :=
  decide (4 * (overrideBlock r).1 + 4 ≤ tileNcol t ∧ 4 * (overrideBlock r).2 + 4 ≤ tileNin t)

/-- Whether a delta's position lies inside the tile (R138). -/
def deltaInside (t : AMap Byte) (w : Nat) : Bool := decide (nbits w 15 8 < tileNin t ∧ nbits w 5 0 < tileNcol t)

/-- The load faults of a patch segment's header and of the records that lie inside it (R138), in the words of Table 21.3.
Table 5.7 says that value entries of an override beyond the set bits of its mask are 0 and names no fault: one that is not 0 is taken as a
reserved field that is not 0. DESIGN CHOICE, log entry 65. DEDUCED, log entry 12. -/
def patchFlts (t : AMap Byte) (seg : List Byte) (ext : Nat) (addr : W64) : List Flt :=
  let h := numAt seg 0 8
  let d := nbits h 15 0
  let v := nbits h 31 16
  let oob := fun (v e : Nat) (n : W64) => ({ cls := 5, sub := 1, addr := addr, w1 := BitVec.ofNat 64 v
                                             w2 := BitVec.ofNat 64 e, w3 := n } : Flt)
  let fmt := fun (n : W64) (val : Nat) => ({ cls := 0xB, sub := 0xC, addr := addr, w1 := n, w2 := BitVec.ofNat 64 val } : Flt)
  faultIf (decide (ext < 8 + 24 * v + 4 * d)) (oob (8 + 24 * v + 4 * d) ext noIndex)
  ++ faultIf (decide (384 < d ∨ 16 < v) || nbits h 63 32 != 0 || (v != 0 && !tileS24 t)) (fmt noIndex h)
  ++ ((patchOverrides seg ext).zipIdx.map fun (r, n) =>
      let (cb, ig) := overrideBlock r
      let w := numAt r 0 8
      let used := 2 * (setBitsOf 16 (nbits w 63 48)).length
      let rec_ := BitVec.ofNat 64 n
      (if tileNcol t < 4 * cb + 4 then [oob (4 * cb + 3) (tileNcol t) rec_]
       else faultIf (decide (tileNin t < 4 * ig + 4)) (oob (4 * ig + 3) (tileNin t) rec_))
      ++ faultIf (nbits w 47 14 != 0 || nbits w 7 4 != 0 || (r.drop (8 + used)).any (· != 0)) (fmt rec_ w)).flatten
  ++ ((patchDeltas seg ext).zipIdx.map fun (w, n) =>
      let rec_ := BitVec.ofNat 64 n
      (if tileNin t ≤ nbits w 15 8 then [oob (nbits w 15 8) (tileNin t) rec_]
       else faultIf (decide (tileNcol t ≤ nbits w 5 0)) (oob (nbits w 5 0) (tileNcol t) rec_))
      ++ faultIf (nbits w 7 6 != 0) (fmt rec_ w)).flatten

/-- What the base image of a 2:4 tile keeps: the positions its metadata names, those held non-zero kept (R92, R140). -/
def baseMerge (t : AMap Byte) : Merge :=
  let fmt := tileFmt t
  let held := ((List.range (tileNcol t)).map fun c => (List.range (2 * tileGroups t)).map fun k =>
    (c, 4 * (k / 2) + tileIdx t c k, tileElem t c k)).flatten
  (held.filter fun q => decide (q.2.1 < tileNin t)).foldl (fun m q =>
    let p := q.1 * 256 + q.2.1
    { m with vals := mput p q.2.2 m.vals, kept := if elemZero fmt q.2.2 then m.kept else m.kept ++ [p] }) ⟨[], [], []⟩

/-- The merge of a 2:4 tile with the records that lie inside it, in their order (R139). -/
def mergeOf (t : AMap Byte) (seg : List Byte) (ext : Nat) : Merge :=
  ((patchDeltas seg ext).filter (deltaInside t)).foldl applyDelta
    (((patchOverrides seg ext).filter (overrideInside t)).foldl applyOverride (baseMerge t))

/-- The kept offsets of group g of column c. -/
def keptOf (m : Merge) (c g : Nat) : List Nat := (List.range 4).filter fun j => (c * 256 + 4 * g + j) ∈ m.kept

/-- The groups of a tile: column, group. -/
def groupsOf (t : AMap Byte) : List (Nat × Nat) :=
  ((List.range (tileNcol t)).map fun c => (List.range (tileGroups t)).map fun g => (c, g)).flatten

/-- Whether an override mask has three or more bits in one row or one column of its block (R140). -/
def crowdedMask (r : List Byte) : Bool :=
  let m := nbits (numAt r 0 8) 63 48
  (List.range 4).any fun a =>
    decide (3 ≤ ((List.range 4).filter fun b => m.testBit (4 * a + b)).length)
    || decide (3 ≤ ((List.range 4).filter fun b => m.testBit (4 * b + a)).length)

/-- The density faults of a merge (R140): crowded override masks, and the first group with three or four kept positions,
named by the last delta in it. DEDUCED, log entry 12. -/
def mergeFlts (t : AMap Byte) (seg : List Byte) (ext : Nat) (addr : W64) : List Flt :=
  if !tileS24 t then []
  else
    let m := mergeOf t seg ext
    ((patchOverrides seg ext).zipIdx.filterMap fun (r, n) =>
      if crowdedMask r then
        some ({ cls := 4, sub := 2, addr := addr, w1 := BitVec.ofNat 64 (4 * (overrideBlock r).1)
                w2 := BitVec.ofNat 64 (4 * (overrideBlock r).2), w3 := BitVec.ofNat 64 n
                w4 := BitVec.ofNat 64 (setBitsOf 16 (nbits (numAt r 0 8) 63 48)).length } : Flt)
      else none)
    ++ (match (groupsOf t).find? fun q => decide (3 ≤ (keptOf m q.1 q.2).length) with
      | some (c, g) =>
        let n := ((patchDeltas seg ext).zipIdx.filter fun (w, _) => nbits w 5 0 = c ∧ nbits w 15 8 / 4 = g).getLast?
        [{ cls := 4, sub := 1, addr := addr, w1 := BitVec.ofNat 64 c
           w2 := BitVec.ofNat 64 (match n with | some (w, _) => nbits w 15 8 | none => 4 * g)
           w3 := (match n with | some (_, i) => BitVec.ofNat 64 i | none => noIndex)
           w4 := BitVec.ofNat 64 (keptOf m c g).length }]
      | none => [])

/-- Group g of column c of a tile rebuilt from its kept set, filled under R98 (R140). -/
def rebuildGroup (m : Merge) (t : AMap Byte) (c g : Nat) : AMap Byte :=
  let eb := elemBits (tileFmt t)
  let ks := keptOf m c g
  let fill := fun (o : Nat) => if o = 0 then 1 else 0
  let pr := match ks with
    | [a, b] => (a, b)
    | [a] => (Min.min a (fill a), Max.max a (fill a))
    | _ => (0, 1)
  let val := fun j => if j ∈ ks then mget 0 m.vals (c * 256 + 4 * g + j) else 0
  let t := setTileElem (setTileElem t eb c (2 * g) (val pr.1)) eb c (2 * g + 1) (val pr.2)
  let w := tileMeta t c
  let w := w - nbits w (4 * g + 3) (4 * g) * 2 ^ (4 * g) + (pr.1 + 4 * pr.2) * 2 ^ (4 * g)
  setBytes t (0x1040 + 32 * c) (leBytes 32 w)

/-- Merge a patch segment into a tile (R139, R140); of the faults found, the one of the lowest class (R17).
DEDUCED, log entry 12. -/
def mergePatch (t : AMap Byte) (seg : List Byte) (ext : Nat) (addr : W64) : Except Flt (AMap Byte) :=
  match lowest (patchFlts t seg ext addr ++ mergeFlts t seg ext addr) with
  | some f => .error f
  | none =>
    if tileS24 t then .ok ((groupsOf t).foldl (fun u q => rebuildGroup (mergeOf t seg ext) u q.1 q.2) t)
    else .ok ((patchDeltas seg ext).foldl (fun t w =>
      setTileElem t (elemBits (tileFmt t)) (nbits w 5 0) (nbits w 15 8) (nbits w 31 16)) t)

/-! ### Weight loads (R129 to R131, R144) -/

/-- Whether an ordinary chain of the core is in progress (R277). -/
def chainBusy (k : Core) : Bool := k.chains.any fun ch => !ch.deferred && ch.accepted

/-- A chain leaves its core's queue: its ranges retire and its credit returns (R60, R278). -/
def dropChain (s : State) (c ser : Nat) : State :=
  match (coreOf s c).chains.find? fun ch => ch.serial == ser with
  | none => s
  | some ch =>
    let s := modCore s c fun k =>
      retireList { k with chains := k.chains.filter fun x => x.serial != ser } (.chain (if ch.deferred then 1 else 0)) ch.ranges
    let k := clusterOf c
    let s := { s with turns := mset [] s.turns k ((mget [] s.turns k).filter fun t => t.core != c || t.chain != some ser) }
    giveCredit s c (if ch.deferred then 4 else 1)

/-- Table 5.10's conditions on a plain INT8 descriptor in own scratchpad of `n` bytes in one row (R129, R138, R142). -/
def plainImageFlts (d : Desc) (k : Core) (ext : Option Nat) : List Flt :=
  let one := (List.range 4).all fun i => (d.dim i).pext == 1 && (d.dim i).ext == 1
  let e4 := d.dim 4
  let ok := d.spad && d.fmt == 0xA && d.form == 0 && one && e4.lo + e4.hi == 0
    && (match ext with | some n => e4.ext == n | none => true)
  d.faults {} d.place
  ++ faultIf (d.base.toNat % 64 != 0) { cls := 3, sub := 5, addr := d.place, w1 := 64 }
  ++ faultIf (!ok) { cls := 0xB, sub := 0xA, addr := d.place, w1 := noIndex }
  ++ (match d.bounds false with | some (a, n) => (spadFlt k a n).toList | none => [])

/-- Bytes o to o + n − 1 of a plain tensor of byte elements: each lies where its index puts it, pads are `PADV` (R107, R113). -/
def Desc.rowBytes (d : Desc) (rd : Rd) (o n : Nat) : List Byte :=
  (List.range n).map fun i =>
    let (pad, x) := d.unitAt (o + i)
    if pad then BitVec.ofNat 8 d.padv else rd.byte x.toNat

/-- Registered ranges of a load: image and patch. -/
def loadRanges (own : Bool) (img : Desc) (patch : Option Desc) : List (Nat × Nat × Bool) :=
  (if own then [((img.spadRange false).1, (img.spadRange false).2, false)] else [])
  ++ (match patch with | some p => [((p.spadRange false).1, (p.spadRange false).2, false)] | none => [])

/-- Checks of `wld` and `wld.patch` at issue index n (R36, R129 to R131, R138). DEDUCED, log entry 12. -/
def wldFlts (s : State) (c n : Nat) (d1 : Reg) (img : List Byte) (patch : Option (List Byte)) (t : BitVec 12)
    (pc : W64) : List Flt :=
  let k := coreOf s c
  let cnt := mget 0 k.relayCnt t.toNat + 1
  let relay := t != 0
  let early := match translate s c t with
    | none => false
    | some p => decide (tallyAt s p < cnt) || (match k.relayBuf with
        | [] => true
        | r :: _ => r.tally != t)
  faultIf (!interlocked k && (decide (n < k.shadowUntil) || chainBusy k)) (schedFlt 3 pc)
  ++ (if relay then
        faultIf (translate s c t).isNone { cls := 8, sub := 6, addr := pc, w1 := BitVec.ofNat 64 t.toNat }
        ++ faultIf early { cls := 8, sub := 1, addr := pc, w1 := BitVec.ofNat 64 t.toNat
                           w2 := BitVec.ofNat 64 (((translate s c t).map (tallyAt s)).getD 0), w3 := BitVec.ofNat 64 cnt }
        ++ faultIf (d1 != 0) { cls := 0xB, sub := 0xA, addr := (Desc.of img).place, w1 := noIndex }
      else plainImageFlts (Desc.of img) k (some tileBytes))
  ++ (match patch with | some p => plainImageFlts (Desc.of p) k none | none => [])

/-- Start a load at issue index n: the tile formed, its fault kept for the completion (R131, R144). DEDUCED, log entry 12. -/
def startLoad (s : State) (c n : Nat) (img : List Byte) (patch : Option (List Byte)) (t : BitVec 12) : State :=
  let k := coreOf s c
  let relay := t != 0
  let id := Desc.of img
  let base : AMap Byte := if relay then (match k.relayBuf with | r :: _ => r.tile | [] => [])
    else setBytes [] 0 (id.rowBytes (spadRd s c) 0 tileBytes)
  let addr := if relay then 0 else id.place
  let res : Except Flt (AMap Byte) :=
    match lowest (tileHdrFlt base addr ++ tileMetaFlt base (List.range (tileNcol base)) addr) with
    | some f => .error f
    | none => match patch with
      | none => .ok base
      | some p =>
        let pd := Desc.of p
        let ext := (pd.dim 4).ext
        mergePatch base (pd.rowBytes (spadRd s c) 0 ext) ext pd.place
  let lat := if patch.isSome then 40 else 32
  modCore s c fun k =>
    let k := registerAll k (.load 0) (loadRanges (!relay) id (patch.map Desc.of))
    { k with shadow := (match res with | .ok x => x | .error _ => [])
             shadowOk := (match res with | .ok _ => true | .error _ => false)
             load := some { ready := n + lat, relay := relay, patched := patch.isSome
                            fault := (match res with | .ok _ => none | .error f => some (f.toRec 4)) }
             unswapped := true, shadowUntil := n + lat
             relayCnt := if relay then mset 0 k.relayCnt t.toNat (mget 0 k.relayCnt t.toNat + 1) else k.relayCnt }

/-- A load comes to its end: the relay buffer entry is freed, its ranges end, its fault is delivered (R131, R144). DEDUCED, log entry 12. -/
def finishLoad (s : State) (c : Nat) : State :=
  match (coreOf s c).load with
  | none => s
  | some l =>
    let s := modCore s c fun k =>
      finishRanges { k with load := none, relayBuf := if l.relay then k.relayBuf.drop 1 else k.relayBuf } (.load 0)
    match l.fault with
    | none => s
    | some f => lateFault s c f

/-- A load whose swappable issue has been reached ends before the bundle at that issue is checked. -/
def matureLoad (s : State) (c n : Nat) : State :=
  match (coreOf s c).load with
  | some l => if l.ready ≤ n then finishLoad s c else s
  | none => s

/-- Whether what a core has issued goes on in wall time, the compute engine in scheduled mode issuing nothing (R33, R41). -/
def wallTime (k : Core) : Bool := !interlocked k && (k.ce.run != .running || k.ce.held.isSome)

/-- The time that counts a pass or a drain: cycles for those of a chain and in interlocked mode, else issues (R27, R29, R226). -/
def workTime (s : State) (c : Nat) (chain : Option Nat) : Nat :=
  let k := coreOf s c
  if interlocked k || chain.isSome then s.clock.cycle else k.ce.idx

/-- Whether what is due at time n may happen: the compute engine's time has reached it, or nothing counts it (R28, R33). -/
def dueNow (s : State) (c n : Nat) (chain : Option Nat := none) : Bool :=
  (wallTime (coreOf s c) && chain.isNone) || decide (n ≤ workTime s c chain)

/-- The load of a chain's pass is over 32 cycles after its start: the relay buffer entry that it took is freed (R131, R281). -/
def chainLoadEnd (s : State) (c : Nat) : State :=
  modCore s c fun k => match k.chainLoad with
    | none => k
    | some l =>
      if l.ready ≤ s.clock.cycle then { k with chainLoad := none, relayBuf := if l.relay then k.relayBuf.drop 1 else k.relayBuf }
      else k

/-- `SHADOW_LOAD_COMPLETE` (R131): once the tile is swappable; while the engine waits, in wall time, and the tile's
swappable issue stays what it is. -/
def execShadowLoadComplete (c : CoreId) (s : State) : Out State :=
  let s1 := chainLoadEnd s c.val
  match (coreOf s1 c.val).load with
  | some l => .next (if dueNow s1 c.val l.ready then finishLoad s1 c.val else s1)
  | none => .next s1

/-! ### Passes (R123 to R127, R132 to R137) -/

/-- Whether an activation format may stream against a weight format in the mode of `op` (Table 5.1). -/
def pairOk (op wf af : Nat) : Bool :=
  let fl := fun f => decide (3 ≤ f ∧ f ≤ 7)
  let int := fun f => f == 9 || f == 0xA
  if op = 0x24 ∨ op = 0x25 then (fl wf && fl af) || (int wf && int af)
  else if op = 0x26 then wf == 8 && af == 8
  else if op = 0x27 then (wf == 1 || wf == 2) && af == wf
  else if op = 0x29 then wf == 0xB && af == 0xA
  else (fl wf && fl af) || (int wf && int af) || (wf == 8 && af == 8) || ((wf == 1 || wf == 2) && af == wf)

/-- Whether an activation format stands in Table 5.1 for `op` with some weight format (R133). -/
def actOk (op af : Nat) : Bool := (List.range 16).any fun wf => pairOk op wf af

/-- Whether the mode `op` implies matches the tile's form (R124). -/
def modeOk (op : Nat) (ctl : W64) (s24 : Bool) : Bool :=
  if op = 0x24 then !s24
  else if op = 0x25 then s24
  else if op = 0x26 then s24 == bit ctl 20
  else if op = 0x29 then !s24
  else true

/-- Pass width of an instruction (R133). -/
def opWidth (op : Nat) (ctl : W64) : Nat :=
  if op = 0x24 then 64 else if op = 0x25 then 128 else if op = 0x26 then (if bit ctl 20 then 256 else 128)
  else if op = 0x27 then 32 else 128

/-- The rows an activation descriptor streams. -/
def passRows (d : Desc) : Nat := if d.empty then 0 else (d.dim 3).pext

/-- Whether a control word breaks R137 for instruction `op` with `m` rows. DEDUCED, log entry 12. -/
def badCtl (op m : Nat) (w : W64) : Bool :=
  let pred := op == 0x29
  let sel := op == 0x2A
  let dcols := 64 * (bits w 19 17 + 1)
  bits w 63 56 != 0 || bits w 15 9 != 0
  || (!pred && (bits w 55 32 != 0 || bit w 23 || bits w 19 17 != 0))
  || (!sel && bits w 31 24 != 0)
  || (sel && bit w 22)
  || (op != 0x26 && bit w 20)
  || decide (512 < bits w 8 0 + m)
  || (pred && (bits w 8 0 != 0 || (!bit w 23 && bits w 55 32 != 0) || (bits w 55 48 != 0 && bits w 47 32 != 0)
      || (bit w 23 && decide (dcols < bits w 55 48))))

/-- Conditions of R134 on the activation descriptor (format 0x0A), with its generic checks and its window. DEDUCED, log entry 12. -/
def actFlts (op : Nat) (d : Desc) (k : Core) (nin : Option Nat) (wide : Nat) : List Flt :=
  let one := (List.range 3).all fun i => (d.dim i).ext == 1 && (d.dim i).pext == 1
  let lim := if op = 0x29 ∨ op = 0x2A then 64 else 512
  let e4 := (d.dim 4).pext
  let ok := d.spad && one && decide (passRows d ≤ lim) && d.form == 0
    && (match nin with | some n => e4 == n | none => decide (e4 ≤ wide))
  d.faults {} d.place ++ faultIf (!ok) { cls := 0xB, sub := 0xA, addr := d.place, w1 := noIndex }
  ++ (match d.bounds false with | some (a, n) => (spadFlt k a n).toList | none => [])

/-- Accumulator rows that a pass writes: row r of the pass, and the set. -/
def passAccRow (p : Pass) (r : Nat) : Nat := if p.isPred then 8 * r + p.pcol else p.row0 + r

/-- Whether a pass still has, at issue n, a row of a set among `rows` whose result is not readable (R30). -/
def rowPending (k : Core) (n set : Nat) (rows : Nat → Bool) : Bool :=
  k.passes.any fun p => p.set == set
    && (List.range p.rows).any fun r => rows (passAccRow p r) && decide ((p.chain.isNone ∧ n < p.issue + p.first + r) ∨ p.landed ≤ r)

/-- The issue at which one drain of the program reads row `row` of a set for the last time; 0 where it does not. -/
def drainReadsRow (d : Drain) (set row : Nat) : Nat :=
  if d.chain.isSome ∨ bits d.ctl 9 9 ≠ set ∨ row < bits d.ctl 8 0 ∨ bits d.ctl 8 0 + bits d.ctl 19 10 < row then 0
  else match d.reads.getD (row - bits d.ctl 8 0) none with
    | some b => d.issue + b
    | none => 0

/-- The last issue at which any drain in progress reads row `row` of a set. -/
def drainReads (k : Core) (set row : Nat) : Nat := k.drains.foldl (fun m d => Max.max m (drainReadsRow d set row)) 0

/-- Whether a deferred chain holds one of the rows (R224, R229). -/
def deferredHolds (k : Core) (set : Nat) (rows : Nat → Bool) : Bool :=
  k.chains.any fun ch => ch.deferred && ch.accepted && bits (wordAt ch.blk 8) 16 16 == set
    && (List.range 64).any fun r => rows (bits (wordAt ch.blk 8) 8 0 + r)

/-- The lowest of some rows whose result is on its way. -/
def pendingRow (k : Core) (n set : Nat) (rows : Nat → Bool) : W64 := rowWord fun q => rows q && rowPending k n set (· == q)

/-- The lowest of some rows that a deferred chain holds. -/
def deferredRow (k : Core) (set : Nat) (rows : Nat → Bool) : W64 := rowWord fun q => rows q && deferredHolds k set (· == q)

/-- The accumulator set that a chain of core c names: in its block as fetched, before that in its block as it stands
(Table 11.11). -/
def chainSet (s : State) (c : Nat) (ch : Chain) : Nat :=
  bits (if ch.accepted then wordAt ch.blk 8 else BitVec.ofNat 64 ((spadRd s c).num (bits ch.ctl 52 42 * 1024 + 8) 8)) 16 16

/-- Whether a set is that of an ordinary chain that the program has issued and not yet waited for (R37, R277). -/
def chainUses (s : State) (c set : Nat) : Bool :=
  let k := coreOf s c
  (k.chains.any fun ch => !ch.deferred && chainSet s c ch == set) || k.unwaited.any fun u => u.set == set

/-- A `twait` of the compute engine on tally t has released: the chains complete by then that name t have been waited for
(R37). -/
def waitedChains (k : Core) (t : BitVec 12) : Core := { k with unwaited := k.unwaited.filter fun u => u.tally != t }

/-- The tile a pass will use: the loaded tile where it swaps one in, else the active one; with its header or not. -/
def passTile (k : Core) (swap : Bool) : AMap Byte × Bool :=
  if swap then (k.shadow, k.shadowOk) else (k.active, k.hasTile)

/-- Checks of an array pass at issue index n (R124, R127, R132 to R137, R142, R149, R197, R277). -/
def passFlts (s : State) (c n op : Nat) (img : List Byte) (ctl : W64) (pc : W64) : List Flt :=
  let k := coreOf s c
  let d := Desc.of img
  let m := passRows d
  let swap := bit ctl 22
  let (tile, hdr) := passTile k swap
  let set := bits ctl 16 16
  let rowOf := fun r => if op = 0x29 then 8 * r + bits ctl 19 17 else bits ctl 8 0 + r
  let isRow := fun q => (List.range m).any fun r => q == rowOf r
  let lands := fun r => decide (n + 96 + r < drainReads k set (rowOf r))
  let busy := decide (n < k.arrayUntil) || k.isect.isSome || chainBusy k
    || (swap && decide (n < k.shadowUntil))
  faultIf (!interlocked k && busy) (schedFlt 3 pc)
  ++ faultIf (badCtl op m ctl) (schedFlt 0xB pc)
  ++ faultIf (!interlocked k && (List.range m).any lands)
       (schedFlt 0xD pc (rowWord fun q => (List.range m).any fun r => q == rowOf r && lands r))
  ++ faultIf (deferredHolds k set isRow) (schedFlt 0xF pc (deferredRow k set isRow))
  ++ faultIf (k.voided && !(swap && k.unswapped)) (schedFlt 0x10 pc)
  ++ actFlts op d k (if hdr then some (tileNin tile) else none) (opWidth op ctl)
  ++ faultIf (if hdr then !(pairOk op (tileFmt tile) d.fmt && modeOk op ctl (tileS24 tile)) else !actOk op d.fmt)
       { cls := 0xB, sub := 0xB, addr := d.place, w1 := noIndex, w2 := BitVec.ofNat 64 d.fmt }

/-- Count a pass or isect of a set (R211): `INIT` 1 sets K to 1, `INIT` 0 adds 1 up to 4,097. -/
def countPass (k : Core) (set : Nat) (init : Bool) : Core :=
  { k with passCount := mset 0 k.passCount set (if init then 1 else Min.min 4097 (mget 0 k.passCount set + 1)) }

/-- Swap the shadow pair into the active pair (R132). A swap before any load since acquisition leaves the active tile
without a header, so that the checks of R133 go on. DESIGN CHOICE, log entry 65. -/
def swapTile (k : Core) : Core :=
  { k with active := k.shadow, hasTile := k.shadowOk, unswapped := false, voided := k.voided && !k.unswapped }

/-- A row of an activation or a weight matrix as values: MX rows carry their scales. -/
def actRow (d : Desc) (rd : Rd) (r : Nat) : List FV :=
  let e4 := (d.dim 4).pext
  let res := if d.plain then ((List.range e4).map fun i => d.unitVals rd false (r * e4 + i)).flatten
    else d.unitVals rd false r
  (splitFault res).1

/-- Read the activation rows of every pass that the bundle at issue n brings to the array (R134). -/
def readRows (s : State) (c n : Nat) : State :=
  modCore s c fun k => { k with passes := k.passes.map fun p =>
    if p.chain.isNone ∧ p.readRows.length < p.rows ∧ p.issue + p.first - 96 + p.readRows.length ≤ n then
      let d := Desc.of p.act
      let e4 := (d.dim 4).pext
      let r := p.readRows.length
      let raw := if d.plain then (List.range e4).map fun i =>
            let (pad, a) := d.unitAt (r * e4 + i)
            if pad then d.padv % 2 ^ elemBits d.fmt else (ownRd s c).num a.toNat d.es
        else
          let (pad, a) := d.unitAt r
          ((if pad then d.padRow else (ownRd s c).bytes a.toNat d.unitBytes).map BitVec.toNat)
      { p with readRows := p.readRows ++ [raw] }
    else p }

/-- The values of a row that a pass has read. -/
def rowValues (d : Desc) (raw : List Nat) : List FV :=
  if d.plain then raw.map (elemVal d.fmt)
  else (splitFault (d.rowVals (raw.map fun b => BitVec.ofNat 8 b))).1

/-- The exact sum of products of R125: an infinite or NaN product makes it NaN. -/
def sumExact (ps : List FV) : FV :=
  ps.foldl (fun a p => if p.isFin then a.add p else .nan false) (.fin false 0 0)

/-- The exact dot product of R125: every input of the row is multiplied, one that a 2:4 tile does not keep by +0, so that an infinite or NaN
activation there gives NaN, where Table 5.1 has the cell take only the inputs its metadata names. DESIGN CHOICE, log entry 65. -/
def dotExact (ws xs : List FV) : FV := sumExact (List.zipWith FV.mul ws xs)

/-- The contribution of a row to column c, rounded once to FP32 (R125). -/
def contribution (p : Pass) (row : List FV) (c : Nat) : W32 :=
  let ws := if p.hasHdr then (List.range row.length).map fun i => tileWeight p.tile c i
    else row.map fun _ => FV.fin false 0 0
  match dotExact ws row with
  | .fin _ 0 _ => 0
  | v => rnd32 v

/-- The integer score of a predictor row and column (R141). -/
def score (p : Pass) (row : List FV) (c : Nat) : W32 :=
  let ws := if p.hasHdr then (List.range row.length).map fun i => tileWeight p.tile c i
    else row.map fun _ => FV.fin false 0 0
  match dotExact ws row with
  | .fin s m e => BitVec.ofInt 32 (alignedInt s m e 0)
  | _ => 0

/-- The columns of a row that R142 selects among `d`, from their scores. DEDUCED, log entry 12. -/
def selectCols (selk thr d : Nat) (sc : Nat → Int) : List Nat :=
  if selk = 0 then (List.range d).filter fun j => decide (thr * 256 ≤ (sc j).natAbs)
  else (List.range d).filter fun j =>
    decide (((List.range d).filter fun i =>
      decide ((sc j).natAbs < (sc i).natAbs ∨ ((sc i).natAbs = (sc j).natAbs ∧ i < j))).length < selk)

/-- The selection record (Table 5.9). -/
def selectionRecord (k : Core) (w : SelWrite) : List Byte :=
  let d := 64 * (w.pcol + 1)
  let rows := (List.range w.rows).map fun r =>
    selectCols w.selk w.thr d fun j => (accAt k w.set (8 * r + j / 64) (j % 64)).toInt
  let union := (List.range d).filter fun j => rows.any fun l => j ∈ l
  ((List.range 64).map fun r =>
    leBytes 64 ((rows.getD r []).foldl (fun a j => a + 2 ^ j) 0)).flatten
  ++ leBytes 2 union.length ++ leBytes 62 0
  ++ padTo 1024 (union.map fun j => leBytes 2 j).flatten

/-- The last row of a pass has landed: the selection made on it takes its scores (R142). -/
def takeScores (k : Core) (p : Pass) : Core :=
  if p.landed < p.rows then k
  else { k with selWrites := k.selWrites.map fun w =>
    if w.issue = p.issue ∧ p.isPred ∧ w.bytes.isEmpty then { w with bytes := selectionRecord k w } else w }

/-- Land the next row of a pass whose row has been read (R126, R127, R141 to R143). -/
def landRow (k : Core) (p : Pass) : Core × Pass :=
  let r := p.landed
  let row := rowValues (Desc.of p.act) (p.readRows.getD r [])
  let ar := passAccRow p r
  let vals := (List.range 64).map fun c =>
    let old := accAt k p.set ar c
    if p.isPred then (if p.init then score p row c else old + score p row c)
    else
      let on := p.op != 0x2A || (p.masks.getD r 0).testBit c
      if !on then (if p.init then 0 else old)
      else if p.init then contribution p row c
      else f32Add old (contribution p row c)
  let q := { p with landed := r + 1 }
  (takeScores { k with acc := setAccRow k.acc p.set ar 0 vals } q, q)

/-- Land, oldest pass first, every read row that is due. -/
def landRowsFuel (due : Pass → Bool) : Nat → Core → List Pass → Core × List Pass
  | 0, k, ps => (k, ps)
  | _, k, [] => (k, [])
  | fuel + 1, k, p :: ps =>
    if p.landed < p.readRows.length ∧ due p then
      let (k, p) := landRow k p
      landRowsFuel due fuel k (p :: ps)
    else
      let (k, rest) := landRowsFuel due fuel k ps
      (k, p :: rest)

/-- Rows readable at issue n, and rows of chains readable in this cycle, have landed; passes whose last row is readable leave
the list (R127). -/
def landRows (k : Core) (n cyc : Nat) : Core :=
  let at_ := fun (p : Pass) => if p.chain.isSome then cyc else n
  let (k, ps) := landRowsFuel (fun p => decide (p.issue + p.first + p.landed ≤ at_ p))
    (k.passes.foldl (fun a p => a + p.rows + 1) 1) k k.passes
  { k with passes := ps.filter fun p => !decide (p.landed = p.rows ∧ (p.chain.isSome ∨ p.issue + p.first + p.rows ≤ n + 1)) }

/-- `PASS_ROW_RESULT` (R127): the oldest row on its way is rounded and written, once it is due. A row not yet read is
read now when the compute engine no longer issues (R41). -/
def execPassRowResult (c : CoreId) (s : State) : Out State :=
  let k := coreOf s c.val
  let s := if k.ce.run != .running then readRows s c.val (k.passes.foldl (fun a p => Max.max a (p.issue + p.first + p.rows)) 0) else s
  let k := coreOf s c.val
  match k.passes.find? fun p => p.landed < p.readRows.length with
  | none => .next s
  | some p =>
    if !dueNow s c.val (p.issue + p.first + p.landed) p.chain then .next s
    else
      let (k, q) := landRow k p
      let ps := k.passes.map fun x => if x = p then q else x
      .next (setCore s c.val { k with passes := ps.filter fun x => (x.chain.isNone && k.ce.run == .running) || decide (x.landed < x.rows) })

/-- Ranges of a selection record (R142). -/
def selRange (d2 : Desc) : List (Nat × Nat × Bool) := [((d2.spadRange true).1, (d2.spadRange true).2, true)]

/-- Start a pass issued at n (R126, R127, R132, R136, R141, R142). -/
def startPass (s : State) (c n op : Nat) (img : List Byte) (sel : Option (List Byte)) (ctl : W64) : State :=
  let d := Desc.of img
  let m := passRows d
  let set := bits ctl 16 16
  let s := modCore s c fun k =>
    let k := if bit ctl 22 then swapTile k else k
    let k := countPass k set (bit ctl 21)
    let p : Pass := { op := op, issue := n, rows := m, row0 := bits ctl 8 0, set := set, init := bit ctl 21
                      pcol := bits ctl 19 17, isPred := op == 0x29, tile := k.active
                      hasHdr := k.hasTile, act := img }
    { k with arrayUntil := n + Max.max m 1, passes := if m = 0 then k.passes else k.passes ++ [p] }
  match sel with
  | none => s
  | some d2 =>
    let sd := Desc.of d2
    modCore s c fun k =>
      let k := registerAll k .select (selRange sd)
      let w : SelWrite := { d2 := d2, rows := m, pcol := bits ctl 19 17, selk := bits ctl 55 48, thr := bits ctl 47 32, set := set
                            issue := n, ready := n + m + 111 }
      { k with selWrites := k.selWrites ++ [if m = 0 then { w with bytes := selectionRecord k w } else w] }

/-- The bytes of a selection record with the window offset of each run of them that lies together. -/
def recordRuns (d : Desc) (bs : List Byte) : List (Nat × List Byte) :=
  if (d.dim 4).stride = 1 then [((d.unitAt 0).2.toNat, bs)] else bs.zipIdx.map fun q => ((d.unitAt q.2).2.toNat, [q.1])

/-- `PRED_SELECTION_WRITE` (R142): from issue n + M + 111 on the record of the oldest selection is written, unless a write of
a better rank has one of its banks in this cycle; its range retires. -/
def execPredSelectionWrite (c : CoreId) (s : State) : Out State :=
  match (coreOf s c.val).selWrites with
  | [] => .next s
  | w :: t =>
    if w.bytes.isEmpty || !dueNow s c.val w.ready then .next s
    else
      let d := Desc.of w.d2
      let runs := recordRuns d w.bytes
      let r := askPorts s c.val .select (runs.map fun q => portsOf (coreOf s c.val) q.1 q.2.length true).flatten
      if !r.1 then .next r.2
      else
        let s1 := runs.foldl (fun s q => spadWrite s c.val .select q.1 q.2) r.2
        .next (modCore s1 c.val fun k => { (retireList k .select (selRange d)) with selWrites := t })

/-! ### Selected passes (R143) -/

/-- Checks of the record descriptor d2 of `mma.pred` and `mma.sel`, and of the weight images of `mma.sel`. -/
def recordFlts (d : Desc) (k : Core) : List Flt := plainImageFlts d k (some 5184)

/-- See `recordFlts`. -/
def imagesFlts (d : Desc) (k : Core) : List Flt :=
  let one := (List.range 3).all fun i => (d.dim i).pext == 1 && (d.dim i).ext == 1
  let e3 := d.dim 3
  let e4 := d.dim 4
  let ok := d.spad && d.fmt == 0xA && d.form == 0 && one && e4.ext == tileBytes && e4.lo + e4.hi + e3.lo + e3.hi == 0
    && e4.stride == 1 && e3.stride == 6720 && decide (1 ≤ e3.ext ∧ e3.ext ≤ 8)
  d.faults {} d.place
  ++ faultIf (d.base.toNat % 64 != 0) { cls := 3, sub := 5, addr := d.place, w1 := 64 }
  ++ faultIf (!ok) { cls := 0xB, sub := 0xA, addr := d.place, w1 := noIndex }
  ++ (match d.bounds false with | some (a, n) => (spadFlt k a n).toList | none => [])

/-- Weight image j of an image descriptor. -/
def imageAt (s : State) (c : Nat) (d : Desc) (j : Nat) : AMap Byte :=
  setBytes [] 0 ((spadRd s c).bytes (d.base.toNat % 2 ^ 48 + tileBytes * j) tileBytes)

/-- Checks of `mma.sel` at issue (R134, R137, R143). -/
def selFlts (s : State) (c n : Nat) (img rec wimg : List Byte) (ctl pc : W64) : List Flt :=
  let k := coreOf s c
  let d := Desc.of img
  let w := Desc.of wimg
  let m := passRows d
  let t0 := imageAt s c w 0
  let same := (List.range ((w.dim 3).ext - 1)).all fun j =>
    getBytes (imageAt s c w (j + 1)) 0 64 == getBytes t0 0 64
  let busy := decide (n < k.arrayUntil ∨ n < k.shadowUntil) || k.isect.isSome || chainBusy k
  let lands := fun r => decide (n + 128 + r < drainReads k (bits ctl 16 16) (bits ctl 8 0 + r))
  let isRow := fun q => decide (bits ctl 8 0 ≤ q ∧ q < bits ctl 8 0 + m)
  faultIf (!interlocked k && busy) (schedFlt 3 pc)
  ++ faultIf (badCtl 0x2A m ctl) (schedFlt 0xB pc)
  ++ faultIf (!interlocked k && (List.range m).any lands) (schedFlt 0xD pc (rowWord fun q => isRow q && lands (q - bits ctl 8 0)))
  ++ faultIf (deferredHolds k (bits ctl 16 16) isRow) (schedFlt 0xF pc (deferredRow k (bits ctl 16 16) isRow))
  ++ recordFlts (Desc.of rec) k ++ imagesFlts w k
  ++ actFlts 0x2A d k (some (tileNin t0)) 0
  ++ faultIf (!same || !pairOk 0x2A (tileFmt t0) d.fmt) { cls := 0xB, sub := 0xB, addr := d.place, w1 := noIndex, w2 := BitVec.ofNat 64 d.fmt }

/-- The gather of R143: the tile of the union's columns of group g, or the operand bound fault of Table 6.4. -/
def gatherTile (s : State) (c : Nat) (rec w : Desc) (g : Nat) : Except Flt (AMap Byte × List Nat) :=
  let num := fun (o : Nat) => leNat (rec.rowBytes (spadRd s c) o 2)
  let u := num 4096
  let dom := 64 * (w.dim 3).ext
  let ent := fun i => num (4160 + 2 * i)
  let bad := fun (v e i : Nat) => Except.error ({ cls := 5, sub := 5, addr := rec.place, w1 := BitVec.ofNat 64 v
                                                  w2 := BitVec.ofNat 64 e, w3 := BitVec.ofNat 64 i } : Flt)
  if 512 < u then bad u 512 0
  else
    let cols := (List.range (Min.min 64 (u - 64 * g))).map fun i => ent (64 * g + i)
    match cols.zipIdx.find? fun q => decide (dom ≤ q.1) with
    | some (v, i) => bad v dom (64 * g + i)
    | none =>
      let t0 := imageAt s c w 0
      match lowest (tileHdrFlt t0 w.place) with
      | some f => .error f
      | none =>
        let hdr := setBytes [] 0 (leBytes 64 (tileHdr t0 - tileNcol t0 * 2 ^ 32 + 64 * 2 ^ 32))
        let t := cols.zipIdx.foldl (fun t (j, col) =>
          let src := imageAt s c w (j / 64)
          let q := j % 64
          if tileNcol src ≤ q then t
          else setBytes (setBytes (setBytes t (0x40 + 64 * col) (getBytes src (0x40 + 64 * q) 64))
            (0x1040 + 32 * col) (getBytes src (0x1040 + 32 * q) 32))
            (0x1840 + 8 * col) (getBytes src (0x1840 + 8 * q) 8)) hdr
        let present := (List.range cols.length).filter fun i => decide (cols.getD i 0 % 64 < tileNcol t0)
        match lowest (tileMetaFlt t present w.place) with
        | some f => .error f
        | none => .ok (t, cols)

/-- Start `mma.sel` at n: gather, swap in, stream (R143). A fault of the gather leaves the shadow pair zero and
stops the core as R144 states. -/
def startSel (s : State) (c n : Nat) (img rec wimg : List Byte) (ctl : W64) : State :=
  let d := Desc.of img
  let rd := Desc.of rec
  let m := passRows d
  let set := bits ctl 16 16
  match gatherTile s c rd (Desc.of wimg) (bits ctl 26 24) with
  | .error f =>
    lateFault (modCore s c fun k => { k with shadow := [], shadowOk := false, load := none, unswapped := false }) c (f.toRec 4)
  | .ok (t, cols) =>
    let masks := (List.range m).map fun r =>
      let row := leNat (rd.rowBytes (spadRd s c) (64 * r) 64)
      cols.zipIdx.foldl (fun a (j, col) => if row.testBit j then a + 2 ^ col else a) 0
    modCore s c fun k =>
      let k := countPass k set (bit ctl 21)
      let p : Pass := { op := 0x2A, issue := n, rows := m, row0 := bits ctl 8 0, set := set, init := bit ctl 21
                        masks := masks, first := 128, tile := t, hasHdr := true, act := img }
      let wd := Desc.of wimg
      let k := finishRanges (registerAll k (.load 1) [((wd.spadRange false).1, (wd.spadRange false).2, false)]) (.load 1)
      { k with active := t, shadow := t, hasTile := true, shadowOk := true, load := none, unswapped := false, voided := false
               arrayUntil := n + 32 + m, shadowUntil := n + 32 + m
               passes := if m = 0 then k.passes else k.passes ++ [p] }

/-! ### Accumulator reads and clears -/

/-- Checks of `accrd` of rows x to x + 3 (R30, R37, R150, Table 2.8). -/
def accrdFlts (s : State) (c n set : Nat) (x pc : W64) : List Flt :=
  let k := coreOf s c
  let r := x.toNat
  let isRow := fun q => decide (r ≤ q ∧ q < r + 4)
  let held := match k.isect with | some i => bits i.ctl 16 16 == set | none => false
  faultIf (!interlocked k && rowPending k n set isRow) (schedFlt 1 pc (pendingRow k n set isRow))
  ++ faultIf (chainUses s c set) (schedFlt 6 pc x)
  ++ faultIf (r % 4 != 0 || decide (508 < r)) (schedFlt 7 pc x)
  ++ faultIf held (schedFlt 0xC pc x)
  ++ faultIf (deferredHolds k set isRow) (schedFlt 0xF pc (deferredRow k set isRow))

/-- The 256 lanes of four accumulator rows. -/
def accrdLanes (k : Core) (set r : Nat) : List (Nat × W32) :=
  (List.range 256).map fun i => (i, accAt k set (r + i / 64) (i % 64))

/-- Checks of `accclr` (R30, R150, R197). -/
def accclrFlts (s : State) (c n set : Nat) (pc : W64) : List Flt :=
  let k := coreOf s c
  let held := match k.isect with | some i => bits i.ctl 16 16 == set | none => false
  faultIf (!interlocked k && rowPending k n set fun _ => true) (schedFlt 2 pc (pendingRow k n set fun _ => true))
  ++ faultIf (chainUses s c set) (schedFlt 6 pc)
  ++ faultIf held (schedFlt 0xC pc)
  ++ faultIf (deferredHolds k set fun _ => true) (schedFlt 0xF pc (deferredRow k set fun _ => true))
  ++ faultIf (!interlocked k && (List.range 512).any fun r => decide (n < drainReads k set r))
       (schedFlt 0xD pc (rowWord fun r => decide (n < drainReads k set r)))

/-- Zero an accumulator set and its pass count (R196, R211). -/
def clearSet (k : Core) (set : Nat) : Core :=
  { k with acc := k.acc.filter fun p => p.1 / 32768 != set, passCount := mset 0 k.passCount set 0 }

end Sys2Proof.Machine
end

