-- ==== Sys2Proof/Machine/Isect.lean ====
section
/-! DEFINITION. The intersect front-end (R145 to R163): the checks at issue, the count, walk and merge stages of a
round with stealing and the pool, and completion. -/

namespace Sys2Proof.Machine

open Sys2Proof

/-- Whether the value formats form a pair of R147. -/
def isectPair (a b : Nat) : Bool :=
  let f8 := fun x => x == 3 || x == 4
  (f8 a && f8 b) || (a == 1 && b == 1) || (a == 2 && b == 2) || (a == 0xA && b == 0xA)

/-- Whether an operand descriptor meets R146, its `EXT4` being `e4`. -/
def isectOperand (d : Desc) (e4 : Nat) : Bool :=
  let one := (List.range 3).all fun i => (d.dim i).ext == 1 && (d.dim i).pext == 1
  d.spad && d.sparse && one && (d.dim 3).ext == 64 && (d.dim 4).ext == e4 && e4 % 64 == 0 && decide (64 ≤ e4 ∧ e4 ≤ 65536)

/-- Ranges an isect registers (R151). -/
def isectRanges (a b : Desc) : List (Nat × Nat × Bool) :=
  [((a.spadRange false).1, (a.spadRange false).2, false), ((b.spadRange false).1, (b.spadRange false).2, false)]

/-- The words in which a record of an isect names the operand, the tile offset and the round (R163, Table 21.3). -/
def isectWords (op off round : Nat) (f : Flt) : Flt :=
  if f.cls = 5 ∨ f.cls = 0xB then { f with w3 := BitVec.ofNat 64 (op * 2 ^ 56 + off), w4 := BitVec.ofNat 64 round } else f

/-- The checks of an operand's descriptor; an operand bound record names the operand (R163). -/
def isectDescFlts (op : Nat) (d : Desc) : List Flt :=
  (d.faults {} d.place).map fun f => if f.cls = 5 then isectWords op 0 0 f else f

/-- Checks of `mma.isect` at issue index n (R146 to R149, R161, R162, R166, R197, R277, R288). -/
def isectFlts (s : State) (c n : Nat) (ia ib : List Byte) (ctl pc : W64) : List Flt :=
  let k := coreOf s c
  let a := Desc.of ia
  let b := Desc.of ib
  let row0 := bits ctl 8 0
  let set := bits ctl 16 16
  let busy := decide (n < k.arrayUntil) || k.isect.isSome || chainBusy k
  let inRange := fun q => decide (row0 ≤ q ∧ q < row0 + 64)
  let drained := fun q => k.drains.any fun dr =>
    dr.chain.isNone && bits dr.ctl 9 9 == set && decide (bits dr.ctl 8 0 ≤ q ∧ q ≤ bits dr.ctl 8 0 + bits dr.ctl 19 10)
      && decide (n < dr.issue + dr.costs.foldl (· + ·) 0)
  let win := fun (d : Desc) => match d.bounds false with
    | some (o, len) => if d.spad then (spadFlt k o len).toList else []
    | none => []
  faultIf (rowPending k n set inRange) (schedFlt 2 pc (pendingRow k n set inRange))
  ++ faultIf (!interlocked k && busy) (schedFlt 3 pc)
  ++ faultIf (bits ctl 35 22 != 0 || bits ctl 20 17 != 0 || bits ctl 15 9 != 0 || bits ctl 63 52 == 0 || decide (448 < row0))
       (schedFlt 0xB pc)
  ++ faultIf ((List.range 64).any fun r => drained (row0 + r)) (schedFlt 0xD pc (rowWord fun q => inRange q && drained q))
  ++ faultIf (deferredHolds k set inRange) (schedFlt 0xF pc (deferredRow k set inRange))
  ++ win a ++ win b
  ++ faultIf (translate s c (BitVec.ofNat 12 (bits ctl 63 52))).isNone
       { cls := 8, sub := 6, addr := pc, w1 := BitVec.ofNat 64 (bits ctl 63 52) }
  ++ isectDescFlts 1 a ++ isectDescFlts 2 b
  ++ faultIf (!(isectOperand a (a.dim 4).ext && isectOperand b (a.dim 4).ext)) { cls := 0xB, sub := 0xA, addr := (if isectOperand a (a.dim 4).ext then b else a).place, w1 := noIndex }
  ++ faultIf (!isectPair a.fmt b.fmt) { cls := 0xB, sub := 0xB, addr := b.place, w1 := noIndex, w2 := BitVec.ofNat 64 b.fmt }

/-- Start an isect at issue n. DEDUCED, log entry 14. -/
def startIsect (s : State) (c n : Nat) (ia ib : List Byte) (ctl : W64) : State :=
  let a := Desc.of ia
  modCore s c fun k =>
    let k := registerAll k .isect (isectRanges a (Desc.of ib))
    let k := countPass k (bits ctl 16 16) (bit ctl 21)
    { k with isect := some { a := ia, b := ib, ctl := ctl, issue := n, kt := (a.dim 4).ext / 64 } }

/-- A tile as 64 rows of 64 places, each the encoding stored there or none. -/
def tileMap (t : Tile) : List (List (Option Nat)) :=
  (List.range 64).map fun i => (List.range 64).map fun j =>
    ((List.zip t.pos t.vals).find? fun q => q.1 == 64 * i + j).map (·.2)

/-- The matches of row i of A's map with row j of Bᵀ's map (R154). -/
def matchCount (ma mb : List (List (Option Nat))) (i j : Nat) : Nat :=
  (List.range 64).countP fun k => ((ma.getD i []).getD k none).isSome && ((mb.getD j []).getD k none).isSome

/-- The listed segments of row i (R155). -/
def rowSegments (ma mb : List (List (Option Nat))) (i : Nat) : List Segment :=
  (List.range 8).filterMap fun sg =>
    let m := ((List.range 8).map fun j => matchCount ma mb i (8 * sg + j)).foldl (· + ·) 0
    if m = 0 then none else some ⟨i, 8 * sg, 8, 1 + ceilDiv m 8⟩

/-- The column segments of row i (R158). -/
def columnSegments (ma mb : List (List (Option Nat))) (i : Nat) : List Segment :=
  (List.range 64).filterMap fun j =>
    let m := matchCount ma mb i j
    if m = 0 then none else some ⟨i, j, 1, 1 + ceilDiv m 8⟩

/-- Replace the isect of a core. -/
def putIsect (s : State) (c : Nat) (x : Isect) : State := modCore s c fun k => { k with isect := some x }

/-- Whether every round that was counted has been merged. -/
def Isect.idle (x : Isect) : Bool := x.next.isNone && x.cur.isNone && x.outs.isEmpty

/-- An isect leaves its core: its ranges end (R150, R163). -/
def dropIsect (s : State) (c : Nat) : State := modCore s c fun k => finishRanges { k with isect := none } .isect

/-- The count stage of a round meets a fault: the record is delivered, the rounds before it go on, and with none of them
left the isect ends (R163). -/
def isectFault (s : State) (c : Nat) (x : Isect) (f : Flt) : State :=
  let t := if x.idle then dropIsect s c else putIsect s c { x with failed := true }
  reportStopped s t (lateFault t c (f.toRec 4)) (ctxOf (coreOf s c))

/-- The bytes of own scratchpad that the count stage of a round reads of one operand: its table entry, its tile. -/
def countSpans (d : Desc) (round : Nat) (t : Except Flt Tile) (off : Nat) : List (Nat × Nat) :=
  let base := d.base.toNat % 2 ^ 48
  (base + 8 * round, 8) :: match t with
    | .ok t => if t.count = 0 then [] else [(base + off, t.raw.length)]
    | .error _ => []

/-- Count the next round: the operands' tiles read and their words counted, unless a bank refuses them; a stream fault names
the operand and the round (R151, R154, R160, R163). -/
def countStage (s : State) (c : Nat) (x : Isect) : State :=
  let a := Desc.of x.a
  let b := Desc.of x.b
  let rd := bankRd s c .isect
  let n := x.counted
  let tile := fun (d : Desc) => readTile rd d false (d.base.toNat % 2 ^ 48) n
  let offset := fun (d : Desc) => nbits (rd.num (d.base.toNat % 2 ^ 48 + 8 * n) 8) 47 0
  let named := fun (op : Nat) (d : Desc) (f : Flt) => isectWords op (offset d) n f
  let spans := countSpans a n (tile a) (offset a) ++ countSpans b n (tile b) (offset b)
  let r := askPorts s c .isect (spanPorts (coreOf s c) spans false)
  let s := r.2
  if !r.1 then s
  else match tile a, tile b with
  | .error f, .error g =>
    match lowest [named 1 a f, named 2 b g] with
    | some h => isectFault s c x h
    | none => s
  | .error f, _ => isectFault s c x (named 1 a f)
  | _, .error f => isectFault s c x (named 2 b f)
  | .ok ta, .ok tb =>
    let ma := tileMap ta
    let mb := tileMap tb
    let rows := (List.range 64).map (rowSegments ma mb)
    let splt := bits x.ctl 51 36
    let heavy := fun (l : List Segment) => splt != 0 && decide (splt < l.foldl (fun w q => w + q.cost) 0)
    putIsect s c { x with counted := n + 1
                          next := some { round := n, mapA := ma, mapB := mb
                                         own := rows.map fun l => if heavy l then [] else l
                                         pool := (rows.zipIdx.map fun (l, i) => if heavy l then columnSegments ma mb i else []).flatten } }

/-- Whether the count stage of the next round may run: the walk of the round before it has begun (R159). -/
def Isect.mayCount (x : Isect) : Bool := !x.failed && x.next.isNone && decide (x.counted < x.kt)

/-- `ISECT_COUNT_STAGE` (R154, R159, R160, R163). DEDUCED, log entry 14. -/
def execIsectCountStage (c : CoreId) (s : State) : Out State :=
  match (coreOf s c.val).isect with
  | some x => .next (if x.mayCount then countStage s c.val x else s)
  | none => .next s

/-- The contribution of element (i, j) in the round: the exact sum over its matches, rounded once (R152). -/
def isectSum (fa fb : Nat) (x : IsectRound) (i j : Nat) : W32 :=
  let prods := (List.range 64).filterMap fun k =>
    match ((x.mapA.getD i []).getD k none), ((x.mapB.getD j []).getD k none) with
    | some a, some b => some ((elemVal fa a).mul (elemVal fb b))
    | _, _ => none
  match sumExact prods with
  | .fin _ 0 _ => 0
  | v => rnd32 v

/-- A lane runs a segment: it forms the segment's contributions and is busy for `cost` cycles (R156, R157). -/
def runSegment (fa fb : Nat) (x : IsectRound) (lane : Nat) (g : Segment) (cost : Nat) : IsectRound :=
  { x with busy := x.busy ++ [(lane, x.walk + cost, g)]
           contrib := (List.range g.cols).foldl (fun m d => mset 0 m (g.row * 64 + g.col + d) (isectSum fa fb x g.row (g.col + d))) x.contrib }

/-- Whether a lane is free. -/
def laneFree (x : IsectRound) (l : Nat) : Bool := !(x.busy.any fun q => q.1 == l)

/-- Owners choose in ascending lane (R156). -/
def ownersChoose (fa fb : Nat) (x : IsectRound) : IsectRound :=
  (List.range 64).foldl (fun x l =>
    match x.own.getD l [] with
    | g :: t => if laneFree x l then runSegment fa fb { x with own := x.own.set l t } l g g.cost else x
    | [] => x) x

/-- The neighbours a thief asks, in order. -/
def neighbours (l : Nat) : List Nat :=
  (if 1 ≤ l then [l - 1] else []) ++ (if l + 1 ≤ 63 then [l + 1] else [])
  ++ (if 2 ≤ l then [l - 2] else []) ++ (if l + 2 ≤ 63 then [l + 2] else [])

/-- Thieves choose in ascending lane: the far end of a neighbour's list, else the pool (R156). -/
def thievesChoose (fa fb : Nat) (x : IsectRound) : IsectRound :=
  (List.range 64).foldl (fun x l =>
    if !laneFree x l then x
    else match (neighbours l).find? fun q => !(x.own.getD q []).isEmpty with
      | some q =>
        match (x.own.getD q []).getLast? with
        | some g => runSegment fa fb { x with own := x.own.set q (x.own.getD q []).dropLast } l g (g.cost + 1)
        | none => x
      | none =>
        match x.pool with
        | g :: t => runSegment fa fb { x with pool := t } l g (g.cost + 1)
        | [] => x) x

/-- One choice of the walk of a round, and the walk cycle moved to the next end of a segment. -/
def walkRound (fa fb : Nat) (x : IsectRound) : IsectRound :=
  let x := { x with busy := x.busy.filter fun q => decide (x.walk < q.2.1) }
  let x := thievesChoose fa fb (ownersChoose fa fb x)
  match x.busy with
  | [] => x
  | q :: t => { x with walk := t.foldl (fun m r => Min.min m r.2.1) q.2.1 }

/-- A choice of the round in its walk; with nothing left on any lane the walk ends and the round waits for its merge. -/
def walkStep (x : Isect) (r : IsectRound) : Isect :=
  let q := walkRound (Desc.of x.a).fmt (Desc.of x.b).fmt r
  if q.busy.isEmpty then { x with cur := none, outs := x.outs ++ [q] } else { x with cur := some q }

/-- The walk goes on; with none in progress that of the counted round begins, one of the two round buffers being free
(R156, R159). -/
def walkChoice (x : Isect) : Isect :=
  match x.cur with
  | some r => walkStep x r
  | none =>
    match x.next with
    | some r => if x.outs.length ≤ 1 then walkStep { x with next := none } r else x
    | none => x

/-- `ISECT_WALK_CHOICE` (R156, R158). DEDUCED, log entry 14. -/
def execIsectWalkChoice (c : CoreId) (s : State) : Out State :=
  match (coreOf s c.val).isect with
  | some x => .next (putIsect s c.val (walkChoice x))
  | none => .next s

/-- The accumulator with the contributions of a round merged (R153). -/
def mergeAcc (k : Core) (ctl : W64) (r : IsectRound) : AMap W32 :=
  let set := bits ctl 16 16
  let row0 := bits ctl 8 0
  (List.range 64).foldl (fun m i =>
    setAccRow m set (row0 + i) 0 ((List.range 64).map fun j =>
      let v := mget 0 r.contrib (i * 64 + j)
      if r.round = 0 ∧ bit ctl 21 then v else f32Add (accAt k set (row0 + i) j) v)) k.acc

/-- Merge the oldest walked round; a failed isect ends with the last of its rounds (R153, R163). -/
def mergeRound (s : State) (c : Nat) (x : Isect) : State :=
  match x.outs with
  | [] => s
  | r :: t =>
    let y := { x with outs := t, merged := x.merged + 1 }
    let s1 := modCore s c fun k => { k with acc := mergeAcc k x.ctl r, isect := some y }
    if y.failed && y.idle then
      let s2 := dropIsect s1 c
      reportStopped s1 s2 s2 (ctxOf (coreOf s1 c))
    else s1

/-- `ISECT_MERGE` (R153). DEDUCED, log entry 14. -/
def execIsectMerge (c : CoreId) (s : State) : Out State :=
  match (coreOf s c.val).isect with
  | some x => .next (mergeRound s c.val x)
  | none => .next s

/-- Completion: `DONE` advances, the rows become readable, the ranges end, and a stopped core reports (R150). -/
def finishIsect (s : State) (c : Nat) (x : Isect) : State :=
  let t := dropIsect s c
  reportStopped s t (completeTally t c 4 (BitVec.ofNat 12 (bits x.ctl 63 52))) (ctxOf (coreOf s c))

/-- `ISECT_DONE` (R150). -/
def execIsectDone (c : CoreId) (s : State) : Out State :=
  match (coreOf s c.val).isect with
  | some x => .next (if x.kt ≤ x.merged then finishIsect s c.val x else s)
  | none => .next s

end Sys2Proof.Machine
end

