-- ==== Sys2Proof/Machine/Drain.lean ====
section
/-! DEFINITION. The drain (R196 to R213): the checks at issue, the slots, the element stages, statistics, scores,
selection, spill and resume, and completion. -/

namespace Sys2Proof.Machine

open Sys2Proof

/-! ### The control word (Table 8.1) and the parameter block (Table 8.2) -/

/-- `POFF` × 1,024. -/
def dPar (w : W64) : Nat := bits w 63 53 * 1024
/-- `ACT`. -/
def dAct (w : W64) : Nat := bits w 48 46
/-- `DER`. -/
def dDer (w : W64) : Bool := bit w 45
/-- `SCB`. -/
def dScb (w : W64) : Bool := bit w 44
/-- `STAT`. -/
def dStat (w : W64) : Nat := bits w 43 41
/-- `TOPK`. -/
def dTopk (w : W64) : Nat := bits w 40 38
/-- `TBLK`. -/
def dTblk (w : W64) : Bool := bit w 37
/-- `SEL`. -/
def dSel (w : W64) : Nat := bits w 36 35
/-- `SPM`. -/
def dSpm (w : W64) : Nat := bits w 34 33
/-- `SPN`. -/
def dSpn (w : W64) : Nat := bits w 32 20
/-- R, the rows drained. -/
def dRows (w : W64) : Nat := bits w 19 10 + 1
/-- `ACC`. -/
def dSet (w : W64) : Nat := bits w 9 9
/-- `ROW0`. -/
def dRow0 (w : W64) : Nat := bits w 8 0
/-- Whether the drain reads its parameter block. -/
def dUsesPar (w : W64) : Bool := dScb w || dStat w != 0 || dTopk w != 0 || dSpm w != 0 || dSel w == 2
/-- Whether it is a spill. -/
def dSpill (w : W64) : Bool := dSpm w == 1 || dSpm w == 2
/-- The stage count S (R200). -/
def dStages (w : W64) : Nat :=
  if dSpill w then 2
  else 1 + (if dSpm w = 3 then 1 else 0) + (if dScb w then 1 else 0) + (if dAct w ≠ 0 then 1 else 0)
/-- Whether d1 and d2 are required (R202). -/
def dNeeds1 (w : W64) : Bool := dSel w != 3
/-- See `dNeeds1`. -/
def dNeeds2 (w : W64) : Bool := dDer w || dSel w == 1 || dSel w == 2

/-- Window offset of the spill buffer. -/
def pbSpill (p : List Byte) : Nat := bits (wordAt p 0x200) 20 0
/-- Window offset of the statistics record. -/
def pbStat (p : List Byte) : Nat := bits (wordAt p 0x208) 20 0
/-- `SFIRST`. -/
def pbFirst (p : List Byte) : Bool := bit (wordAt p 0x208) 63
/-- `SCOPE`. -/
def pbScope (p : List Byte) : Bool := bit (wordAt p 0x208) 62
/-- Window offset of the score list. -/
def pbTopk (p : List Byte) : Nat := bits (wordAt p 0x210) 20 0
/-- POS of drained element (r, c), exactly (R209). -/
def pbPos (p : List Byte) (r c : Nat) : Int :=
  (bits (wordAt p 0x218) 31 0 : Nat) + r * signed 32 (bits (wordAt p 0x220) 63 32) + c * signed 32 (bits (wordAt p 0x220) 31 0)
/-- `LBASE`. -/
def pbLbase (p : List Byte) : Nat := 64 * bits (wordAt p 0x228) 1 0

/-- Score blocks of a drain (R209). -/
def dBlocks (w : W64) : Nat := if dTblk w then dRows w else dRows w / 4 * 16

/-- The ranges a drain uses (R205): d2 and the parameter block read; d1, spill buffer, statistics, scores written. -/
def drainSpans (w : W64) (d1 d2 par : List Byte) : List (Int × Nat × Bool) :=
  let tensor := fun (i : List Byte) (write : Bool) =>
    match (Desc.of i).bounds write with
    | some (a, n) => if (Desc.of i).spad then [(a, n, write)] else []
    | none => []
  (if dNeeds2 w then tensor d2 false else [])
  ++ (if dUsesPar w then [(Int.ofNat (dPar w), 576, false)] else [])
  ++ (if dNeeds1 w then tensor d1 true else [])
  ++ (if dSpm w ≠ 0 then [(Int.ofNat (pbSpill par), 512 * dRows w, true)] else [])
  ++ (if dStat w ≠ 0 then [(Int.ofNat (pbStat par), if pbScope par then 16 else 16 * dRows w, true)] else [])
  ++ (if dTopk w ≠ 0 then [(Int.ofNat (pbTopk par), 8 * dTopk w * dBlocks w, true)] else [])

/-- The ranges a drain registers (R205). -/
def drainRanges (w : W64) (d1 d2 par : List Byte) : List (Nat × Nat × Bool) :=
  (drainSpans w d1 d2 par).map fun r => (r.1.toNat, r.2)

/-- Whether the control word breaks Table 8.1. -/
def badDrainCtl (w : W64) : Bool :=
  bits w 52 49 != 0 || decide (5 < dAct w) || (dDer w && (dAct w == 0 || dSel w == 1 || dSel w == 2)) || decide (4 < dStat w)
  || (dSpill w && (dSel w != 3 || dAct w != 0 || dDer w || dScb w || dStat w != 0 || dTopk w != 0))
  || (if dSpm w = 0 then dSpn w != 0 else dSpn w == 0 || decide (4096 < dSpn w))
  || (!dUsesPar w && bits w 63 53 != 0)
  || (dTopk w != 0 && !dTblk w && dRows w % 4 != 0)
  || decide (512 < dRow0 w + dRows w)

/-- Whether the parameter block breaks R199. -/
def badDrainPar (w : W64) (p : List Byte) : Bool :=
  (dSpm w != 0 && bits (wordAt p 0x200) 63 21 != 0)
  || (dStat w != 0 && bits (wordAt p 0x208) 61 21 != 0)
  || (dTopk w != 0 && (bits (wordAt p 0x210) 63 21 != 0 || bits (wordAt p 0x218) 63 32 != 0))
  || (dSel w == 2 && bits (wordAt p 0x228) 63 2 != 0)
  || (p.drop 0x230).any (· != 0)
  || (dSel w == 2 && dStat w != 0 && !pbScope p)

/-- The number of elements that d1 takes, and the entries of a list (Table 8.4). -/
def drainCount (w : W64) (d2 : List Byte) : Nat :=
  if dSel w = 0 then 64 * dRows w
  else if dSel w = 1 then 32 * dRows w
  else if dSel w = 2 then ((Desc.of d2).dim 4).ext / 2
  else 0

/-- Whether no dimension of a descriptor has pads. -/
def noPads (d : Desc) : Bool := d.dims.all fun x => x.lo + x.hi == 0

/-- Whether d1 meets R202 and R203. -/
def drainDest (w : W64) (i1 i2 : List Byte) : Bool :=
  let d1 := Desc.of i1
  !dNeeds1 w || (d1.spad && noPads d1 && (d1.dims.foldl (fun a x => a * x.ext) 1) == drainCount w i2
    && (d1.form != 1 || dSel w == 0))

/-- Whether d2 meets R202 and R203. -/
def drainList (w : W64) (i2 : List Byte) : Bool :=
  let d2 := Desc.of i2
  let row := (List.range 4).all fun i => (d2.dim i).ext == 1
  !dNeeds2 w || (d2.spad && noPads d2 && d2.form == 0
    && (if dDer w then decide (d2.fmt ≤ 4) && (d2.dims.foldl (fun a x => a * x.ext) 1) == 64 * dRows w
        else if dSel w = 1 then d2.fmt == 0xA && row && (d2.dim 4).ext == 8 * dRows w
        else d2.fmt == 0xA && row && (d2.dim 4).ext % 2 == 0 && decide (2 ≤ (d2.dim 4).ext ∧ (d2.dim 4).ext ≤ 65536)))

/-- Checks of `drain` at issue index n (R126, R197 to R199, R202, R203, R209, R211, Table 8.8). -/
def drainFlts (s : State) (c n : Nat) (i1 i2 : List Byte) (f1 f2 : Reg) (w : W64) (t : BitVec 12) (chain : Bool) (pc : W64) :
    List Flt :=
  let k := coreOf s c
  let par := if dUsesPar w then (spadRd s c .drain).bytes (dPar w) 576 else []
  let inRange := fun q => decide (dRow0 w ≤ q ∧ q < dRow0 w + dRows w)
  let held := match k.isect with | some i => bits i.ctl 16 16 == dSet w | none => false
  let corner := ([(0, 0), (dRows w - 1, 0), (0, 63), (dRows w - 1, 63)].map fun q => pbPos par q.1 q.2).filter fun p =>
    decide (p < 0 ∨ (2 ^ 32 : Int) ≤ p)
  let offs := (if dSpm w ≠ 0 then [pbSpill par] else []) ++ (if dStat w ≠ 0 then [pbStat par] else [])
    ++ (if dTopk w ≠ 0 then [pbTopk par] else [])
  let win := (drainSpans w i1 i2 par).filterMap fun r => if r.2.1 = 0 then none else spadFlt k r.1 r.2.1
  faultIf (!interlocked k && rowPending k n (dSet w) inRange) (schedFlt 2 pc (pendingRow k n (dSet w) inRange))
  ++ faultIf (!interlocked k && (decide (n < k.drainUntil) || (!chain && chainBusy k))) (schedFlt 3 pc)
  ++ faultIf (!chain && ((!dNeeds1 w && f1 != 0) || (!dNeeds2 w && f2 != 0))) (schedFlt 7 pc)
  ++ faultIf (badDrainCtl w || (dUsesPar w && badDrainPar w par)) (schedFlt 0xB pc)
  ++ faultIf held (schedFlt 0xC pc)
  ++ faultIf (!chain && dSpm w != 0 && dSpn w != mget 0 k.passCount (dSet w)) (schedFlt 0xE pc)
  ++ faultIf (!chain && deferredHolds k (dSet w) inRange) (schedFlt 0xF pc (deferredRow k (dSet w) inRange))
  ++ win
  ++ faultIf (offs.any fun o => o % 64 != 0) { cls := 3, sub := 5, addr := BitVec.ofNat 64 (dPar w), w1 := 64 }
  ++ faultIf (dTopk w != 0 && !corner.isEmpty)
       { cls := 5, sub := 7, addr := BitVec.ofNat 64 (pbTopk par), w1 := BitVec.ofInt 64 (corner.headD 0), w2 := 0x100000000, w3 := noIndex }
  ++ faultIf (!chain && (translate s c t).isNone) { cls := 8, sub := 6, addr := pc, w1 := BitVec.ofNat 64 t.toNat }
  ++ (if dNeeds1 w then (Desc.of i1).faults { write := true } (Desc.of i1).place else [])
  ++ (if dNeeds2 w then (Desc.of i2).faults {} (Desc.of i2).place else [])
  ++ faultIf (!drainDest w i1 i2) { cls := 0xB, sub := 0xA, addr := (Desc.of i1).place, w1 := noIndex }
  ++ faultIf (!drainList w i2) { cls := 0xB, sub := 0xA, addr := (Desc.of i2).place, w1 := noIndex }

/-! ### Slots and their costs (R204) -/

/-- The bytes that hold element e of a tensor: offset and length. -/
def Desc.elemSpan (d : Desc) (e : Nat) : List (Nat × Nat) :=
  let e4 := (d.dim 4).ext
  if d.plain then [((d.unitAt e).2.toNat, d.es)]
  else
    let a := (d.unitAt (e / e4)).2.toNat
    let i := e % e4
    let eb := elemBits d.fmt
    if isMx d.fmt then
      let s24 := d.form == 1
      let sb := saggarBytes d.fmt s24
      let cb := sb / 8
      let blk := (cb - 8) / 4
      let cell := a + i / 1024 * sb + i / 128 % 8 * cb
      [(cell, 8), (cell + 8 + i / 32 % 4 * blk, blk)]
    else
      let st := a + i / 512 * stripBytes d.fmt
      [(st + i % 512 / 4 * (2 * eb / 8), 2 * eb / 8), (st + 256 * (eb / 8) + i % 512 / 8, 1)]

/-- Slots of a drain. -/
def drainSlots (w : W64) (d2 : List Byte) : Nat :=
  if dSel w = 2 then ceilDiv (drainCount w d2) 8 + (if dTopk w ≠ 0 then dRows w else 0) else dRows w

/-- Score blocks that row r completes. -/
def blocksAt (w : W64) (r : Nat) : List Nat :=
  if dTopk w = 0 then []
  else if dTblk w then [r]
  else if r % 4 = 3 then (List.range 16).map fun b => 16 * (r / 4) + b else []

/-- The list slots of a drain with `SEL` 2 (R204). -/
def listSlots (w : W64) (d2 : List Byte) : Nat := if dSel w = 2 then ceilDiv (drainCount w d2) 8 else 0

/-- The bytes of d1 that slot j writes. -/
def slotDest (w : W64) (d1 : Desc) (i2 : List Byte) (j : Nat) : List (Nat × Nat) :=
  if dSel w = 0 then ((List.range 64).map fun e => d1.elemSpan (64 * j + e)).flatten
  else if dSel w = 1 then ((List.range 32).map fun e => d1.elemSpan (32 * j + e)).flatten
  else if dSel w = 2 ∧ j < listSlots w i2 then
    ((List.range (Min.min 8 (drainCount w i2 - 8 * j))).map fun e => d1.elemSpan (8 * j + e)).flatten
  else []

/-- The bytes that slot j reads and those it writes in own scratchpad (R204). -/
def slotSpans (w : W64) (i1 i2 par : List Byte) (j : Nat) : List (Nat × Nat) × List (Nat × Nat) :=
  let d1 := Desc.of i1
  let d2 := Desc.of i2
  let nl := listSlots w i2
  let isRow := decide (nl ≤ j)
  let r := j - nl
  let rd : List (Nat × Nat) :=
    (if j = 0 ∧ dUsesPar w then [(dPar w, 576)] else [])
    ++ (if j = 0 ∧ dStat w ≠ 0 ∧ pbScope par ∧ !pbFirst par then [(pbStat par, 16)] else [])
    ++ (if dSel w = 2 ∧ !isRow then ((List.range 16).map fun b => d2.elemSpan (16 * j + b)).flatten
        else if dDer w then ((List.range 64).map fun e => d2.elemSpan (64 * r + e)).flatten
        else if dSel w = 1 then ((List.range 8).map fun b => d2.elemSpan (8 * r + b)).flatten else [])
    ++ (if d1.accw then slotDest w d1 i2 j else [])
    ++ (if isRow ∧ (dSpm w = 1 ∨ dSpm w = 3) then [(pbSpill par + 512 * r, 512)] else [])
    ++ (if isRow ∧ dStat w ≠ 0 ∧ !pbScope par ∧ !pbFirst par then [(pbStat par + 16 * r, 16)] else [])
  let wr : List (Nat × Nat) :=
    slotDest w d1 i2 j
    ++ (if isRow ∧ dSpill w then [(pbSpill par + 512 * r, 512)] else [])
    ++ (if isRow ∧ dStat w ≠ 0 ∧ !pbScope par then [(pbStat par + 16 * r, 16)] else [])
    ++ (if isRow then (blocksAt w r).map fun b => (pbTopk par + 8 * dTopk w * b, 8 * dTopk w) else [])
    ++ (if j = 0 ∧ dStat w ≠ 0 ∧ pbScope par then [(pbStat par, 16)] else [])
  (rd, wr)

/-- P_j: the issues slot j takes. -/
def slotCost (k : Core) (w : W64) (i1 i2 par : List Byte) (j : Nat) : Nat :=
  let r := slotSpans w i1 i2 par j
  Max.max 1 (Max.max (maxOnPort (spanPorts k r.1 false)) (maxOnPort (spanPorts k r.2 true)))

/-- Whether a chain number names a deferred chain of the core. -/
def deferredChain (k : Core) (chain : Option Nat) : Bool := k.chains.any fun ch => ch.deferred && some ch.serial == chain

/-- List entry j with `SEL` 2: row and column where in range (Table 7.6, R202). -/
def listEntry (s : State) (c : Nat) (i2 par : List Byte) (j : Nat) : Option (Nat × Nat) :=
  let e := leNat ((Desc.of i2).rowBytes (spadRd s c .drain) (2 * j) 2)
  let inp := nbits e 15 8
  let lb := pbLbase par
  if lb ≤ inp ∧ inp < lb + 64 then some (nbits e 5 0, inp - lb) else none

/-- The beginning of the last slot that reads each row, counted from the drain's issue: its row slot, or with a list and no
scores the last list slot that names it (R197, R204). -/
def lastReads (s : State) (c : Nat) (w : W64) (i2 par : List Byte) (costs : List Nat) : List (Option Nat) :=
  let start := fun (j : Nat) => (costs.take j).foldl (· + ·) 0
  let names := (List.range (if dSel w = 2 ∧ dTopk w = 0 then drainCount w i2 else 0)).filterMap fun j =>
    (listEntry s c i2 par j).map fun q => (q.1, j / 8)
  (List.range (dRows w)).map fun r =>
    if dSel w = 2 ∧ dTopk w = 0 then ((names.filter fun q => q.1 == r).getLast?).map fun q => start q.2
    else some (start (listSlots w i2 + r))

/-- Start a drain at time n. The ranges of a chain's drain are the chain's own, registered at its acceptance; the drain unit
is held for the program only by its own drains (R197, R229). -/
def startDrain (s : State) (c n : Nat) (i1 i2 : List Byte) (w : W64) (t : BitVec 12) (chain : Option Nat) : State :=
  let par := if dUsesPar w then (spadRd s c .drain).bytes (dPar w) 576 else []
  modCore s c fun k =>
    let rs := if chain.isSome then [] else drainRanges w i1 i2 par
    let costs := (List.range (drainSlots w i2)).map (slotCost k w i1 i2 par)
    let k := registerAll k .drain rs
    let k := if dSpill w ∧ !deferredChain k chain then { k with passCount := mset 0 k.passCount (dSet w) 0 } else k
    { k with drainUntil := if chain.isSome then k.drainUntil else n + costs.foldl (· + ·) 0
             drains := k.drains ++ [{ ctl := w, d1 := i1, d2 := i2, par := par, tally := t, issue := n, costs := costs
                                      reads := lastReads s c w i2 par costs, ranges := rs, chain := chain }] }

/-! ### Element stages (R200, R201) -/

/-- Buffer value (r, c) of the spill buffer. -/
def spillAt (s : State) (c : Nat) (par : List Byte) (r col : Nat) : W64 :=
  BitVec.ofNat 64 ((spadRd s c .drain).num (pbSpill par + 512 * r + 8 * col) 8)

/-- Element (r, col) after stages 1 to 3. -/
def drainElem (s : State) (c : Nat) (d : Drain) (r col : Nat) : W32 :=
  let w := d.ctl
  let x := accAt (coreOf s c) (dSet w) (dRow0 w + r) col
  let x := if dSpm w = 3 then rnd32 ((f64 (spillAt s c d.par r col)).add (f32 x)) else x
  let x := if dScb w then
      f32Fma x (BitVec.ofNat 32 (numAt d.par (4 * col) 4)) (BitVec.ofNat 32 (numAt d.par (0x100 + 4 * col) 4))
    else x
  if dAct w = 0 then x
  else if dDer w then
    let d2 := Desc.of d.d2
    let e := (spadRd s c .drain).num (d2.unitAt (64 * r + col)).2.toNat d2.es
    actDer (dAct w) x (rnd32 (elemVal d2.fmt e))
  else actVal (dAct w) x

/-! ### Statistics (R206 to R208) -/

/-- The exact sum of values, rounded once; empty sums are +0. -/
def sumOnce (l : List FV) : W32 := rnd32 (l.foldl FV.add (.fin false 0 0))

/-- The entry's count, saturating. -/
def satCount (n : Nat) : Nat := Min.min 0xFFFFFFFF n

/-- Mean and M2 of elements in order (R207). -/
def welford (l : List W32) : Nat × W32 × W32 :=
  l.foldl (fun (acc : Nat × W32 × W32) x =>
    let n := acc.1 + 1
    let d := f32Sub x acc.2.1
    let mu := f32Add acc.2.1 (rnd32 ((f32 d).div (FV.ofInt n)))
    (n, mu, f32Add acc.2.2 (f32Mul d (f32Sub x mu)))) (0, 0, 0)

/-- Merge (nb, mub, m2b) into the entry (na, mua, m2a) (R208). -/
def mergeMean (a b : Nat × W32 × W32) : Nat × W32 × W32 :=
  if b.1 = 0 then a
  else if a.1 = 0 then b
  else
    let n := a.1 + b.1
    let d := f32Sub b.2.1 a.2.1
    let mu := f32Add a.2.1 (f32Mul d (rnd32 ((FV.ofInt b.1).div (FV.ofInt n))))
    let q := rnd32 (((FV.ofInt a.1).mul (FV.ofInt b.1)).div (FV.ofInt n))
    (n, mu, f32Add (f32Add a.2.2 b.2.2) (f32Mul (f32Mul d d) q))

/-- The 16 bytes of an entry (Table 8.6). -/
def entryBytes (e : Nat × W32 × W32) : List Byte :=
  leBytes 4 (satCount e.1) ++ leBytes 4 0 ++ leBytes 4 e.2.1.toNat ++ leBytes 4 e.2.2.toNat

/-- The entry of a drain over elements `l`, merged into `old` unless `SFIRST`. -/
def statEntry (w : W64) (first : Bool) (old : List Byte) (l : List W32) : List Byte :=
  let o : Nat × W32 × W32 := (numAt old 0 4, BitVec.ofNat 32 (numAt old 8 4), BitVec.ofNat 32 (numAt old 12 4))
  if dStat w = 4 then
    let e := welford l
    entryBytes (if first then e else mergeMean o e)
  else
    let sm := if dStat w = 2 then 0 else sumOnce (l.map f32)
    let q := if dStat w = 1 then 0 else sumOnce (l.map fun x => (f32 x).mul (f32 x))
    if first then entryBytes (l.length, sm, q)
    else entryBytes (o.1 + l.length, f32Add o.2.1 sm, f32Add o.2.2 q)

/-! ### Scores (R174, R183, R209) -/

/-- A score record. -/
def scoreRec (mag pos : Nat) : List Byte := leBytes 4 pos ++ leBytes 4 mag

/-- Whether score a ranks before score b (R183): larger magnitude bits, ties by ascending POS. -/
def ranksBefore (a b : Nat × Nat) : Bool :=
  decide (b.1 % 2 ^ 31 < a.1 % 2 ^ 31 ∨ (a.1 % 2 ^ 31 = b.1 % 2 ^ 31 ∧ a.2 < b.2))

/-- Insert into a ranked list. -/
def rankInsert (x : Nat × Nat) : List (Nat × Nat) → List (Nat × Nat)
  | [] => [x]
  | y :: t => if ranksBefore x y then x :: y :: t else y :: rankInsert x t

/-- Rank by magnitude. -/
def rankAll (l : List (Nat × Nat)) : List (Nat × Nat) := l.foldl (fun a x => rankInsert x a) []

/-- The records of block β of a drain from its scored elements (magnitude, POS). -/
def blockRecords (w : W64) (par : List Byte) (scored : List (List (Nat × W32))) (b : Nat) : List Byte :=
  let (rows, cols) := if dTblk w then ([b], (List.range 64)) else
    ((List.range 4).map fun i => 4 * (b / 16) + i, (List.range 4).map fun i => 4 * (b % 16) + i)
  let els := (rows.map fun r => (scored.getD r []).filterMap fun q =>
    if q.1 ∈ cols then some (q.2.toNat % 2 ^ 31, (pbPos par r q.1).toNat) else none).flatten
  let best := (rankAll els).take (dTopk w)
  let pad := (0, (pbPos par (rows.headD 0) (cols.headD 0)).toNat)
  (((best ++ List.replicate (dTopk w - best.length) pad)).map fun q => scoreRec q.1 q.2).flatten

/-! ### Slots -/

/-- The selection word of row r with `SEL` 1. -/
def selectWord (s : State) (c : Nat) (d : Drain) (r : Nat) : Nat :=
  leNat ((List.range 8).map fun b => (spadRd s c .drain).byte ((Desc.of d.d2).unitAt (8 * r + b)).2.toNat)

/-- The columns that the first n indices of a selection word name. -/
def wordCols (word n : Nat) : List Nat := (List.range n).map fun k => 4 * (k / 2) + nbits word (2 * k + 1) (2 * k)

/-- Selected columns of row r with `SEL` 1; where an index pair does not ascend, its fault and the columns before it. -/
def selectedCols (s : State) (c : Nat) (d : Drain) (r : Nat) : Except (Flt × List Nat) (List Nat) :=
  let word := selectWord s c d r
  let idx := fun k => nbits word (2 * k + 1) (2 * k)
  match (List.range 16).find? fun g => decide (idx (2 * g + 1) ≤ idx (2 * g)) with
  | some g => .error ({ cls := 0xB, sub := 5, addr := (Desc.of d.d2).place, w1 := BitVec.ofNat 64 (64 * r + 4 * g), w2 := BitVec.ofNat 64 word },
      wordCols word (2 * g))
  | none => .ok (wordCols word 32)

/-- The density fault that 64 more elements of a 2:4 d1 meet, if any (R164). -/
def densityOf (d : Desc) (vs : List W32) (first : Nat) : Option Flt :=
  if d.form ≠ 1 then none
  else
    let bad := (chunks 32 vs).zipIdx.filterMap fun (b, i) =>
      let fv := b.map f32
      let es := if isMx d.fmt then mxElems d.fmt (mxScale d.fmt fv) fv else fv.map (elemEnc d.fmt)
      match compress24 d.fmt es with
      | .error (g, n) => some (densityFlt d.place (first + 32 * i + 4 * g) n)
      | .ok _ => none
    bad.head?

/-- The groups of elements in which d1 is written, first index and length: lines of plain elements, saggars, strips (R213). -/
def Desc.groups (d : Desc) (n : Nat) : List (Nat × Nat) :=
  let e4 := (d.dim 4).ext
  if d.plain then
    let per := 64 / Max.max 1 d.es
    (List.range (ceilDiv n per)).map fun g => (g * per, Min.min per (n - g * per))
  else
    let per := if isMx d.fmt then 1024 else 512
    ((List.range d.unitCount).map fun r => (List.range (ceilDiv e4 per)).map fun g =>
      (r * e4 + g * per, Min.min per (e4 - g * per))).flatten

/-- The writes of one group from its elements (none: left unchanged, R203), and the running sums of an accumulate-write. -/
def groupWrites (s : State) (c : Nat) (d : Desc) (acc : AMap W32) (g : Nat × Nat) (els : List (Option W32)) : AMap W32 × List Wr :=
  let some_ := els.zipIdx.filterMap fun q => q.1.map fun x => (x, g.1 + q.2)
  if d.plain then
    let put := some_.map fun q => ((d.unitAt q.2).2.toNat, f32 q.1)
    if d.accw then
      let m := put.foldl (fun m p => accStep d (d.oldEnc s c .drain) m p.1 p.2) acc
      (m, (put.map (·.1)).dedup.map fun a => (a, leBytes d.es (elemEnc d.fmt (f32 (mget 0 m a)))))
    else (acc, put.map fun p => (p.1, leBytes d.es (elemEnc d.fmt p.2)))
  else if some_.isEmpty then (acc, [])
  else
    let e4 := (d.dim 4).ext
    let per := if isMx d.fmt then 1024 else 512
    let ub := if isMx d.fmt then saggarBytes d.fmt (d.form == 1) else stripBytes d.fmt
    let old := if some_.length = els.length then [] else (splitFault (d.vals (spadRd s c .drain))).1
    let xs := els.zipIdx.map fun q => match q.1 with | some x => f32 x | none => old.getD (g.1 + q.2) (.fin false 0 0)
    match encodeGroup d xs g.1 with
    | .ok bs => (acc, [((d.unitAt (g.1 / e4)).2.toNat + g.1 % e4 / per * ub, bs)])
    | .error _ => (acc, [])

/-- The beginning of slot j of a drain. -/
def slotStart (d : Drain) (j : Nat) : Nat := d.issue + (d.costs.take j).foldl (· + ·) 0

/-- The groups of d1 that are whole now go on their way: they are written 6S after the slot began (Table 8.5).
DEDUCED, log entry 13. -/
def sendGroups (s : State) (c : Nat) (d : Drain) : Drain :=
  if dSel d.ctl = 3 then d
  else
    let d1 := Desc.of d.d1
    let gs := ((d1.groups (drainCount d.ctl d.d2)).drop d.groups).takeWhile fun g => decide (g.1 + g.2 ≤ d.formed.length)
    let r := gs.foldl (fun (a : AMap W32 × List Wr) g =>
      let q := groupWrites s c d1 a.1 g ((d.formed.drop g.1).take g.2)
      (q.1, a.2 ++ q.2)) (d.acc, [])
    { d with groups := d.groups + gs.length, acc := r.1
             out := d.out ++ [(slotStart d d.slot + 6 * dStages d.ctl, r.2)] }

/-- Writes of a drain at own scratchpad: their ports are never refused (Table 3.1). -/
def drainPut (s : State) (c : Nat) (ws : List Wr) : State :=
  let s := modCore s c fun k => claim k s.clock.cycle .drain (ws.map fun w => portsOf k w.1 w.2.length true).flatten
  ws.foldl (fun s w => spadWrite s c .drain w.1 w.2) s

/-- Put a drain in the place of another. -/
def putDrain (s : State) (c : Nat) (old new : Drain) : State :=
  modCore s c fun k => { k with drains := k.drains.map fun x => if x = old then new else x }

/-- The writes of a drain that are due by time t reach d1. -/
def flushDrain (s : State) (c : Nat) (d : Drain) (t : Nat) : State × Drain :=
  let due := (d.out.filter fun o => decide (o.1 ≤ t)).map (·.2)
  let d' := { d with out := d.out.filter fun o => !decide (o.1 ≤ t) }
  (putDrain (drainPut s c due.flatten) c d d', d')

/-- Every write of a drain that is on its way reaches d1. -/
def flushAll (s : State) (c : Nat) (d : Drain) : State := drainPut s c (d.out.map (·.2)).flatten

/-- A drain meets a stream fault: whole units of d1 before the faulting element are written, its ranges end, the core stops
(R213). `old` is the drain as it stands in the core, `d` with the elements formed before the fault. -/
def drainFault (s : State) (c : Nat) (old d : Drain) (f : Flt) : State :=
  let s := flushAll s c (sendGroups s c d)
  let s := modCore s c fun k => retireList { k with drains := k.drains.filter fun x => x != old } .drain d.ranges
  let s := match d.chain with
    | some ser => dropChain s c ser
    | none => s
  lateFault s c (f.toRec 5)

/-- A row slot: elements formed, spill, statistics, scores, selection (R200 to R210). -/
def rowSlot (s : State) (c : Nat) (d : Drain) (r : Nat) : State :=
  let w := d.ctl
  if dSpill w then
    let k := coreOf s c
    let bytes := ((List.range 64).map fun col =>
      let x := f32 (accAt k (dSet w) (dRow0 w + r) col)
      leBytes 8 (rnd64 (if dSpm w = 2 then x else (f64 (spillAt s c d.par r col)).add x)).toNat).flatten
    let s := drainPut s c [(pbSpill d.par + 512 * r, bytes)]
    let s := modCore s c fun k => { k with acc := setAccRow k.acc (dSet w) (dRow0 w + r) 0 (List.replicate 64 0) }
    putDrain s c d { d with slot := d.slot + 1 }
  else
    let xs := (List.range 64).map fun col => drainElem s c d r col
    let sel : Except (Flt × List Nat) (List Nat) :=
      if dSel w = 1 then selectedCols s c d r
      else if dSel w = 2 then .ok ((d.picked.filter fun q => q.1 == r).map (·.2))
      else .ok (List.range 64)
    match sel with
    | .error (f, pre) => drainFault s c d { d with formed := d.formed ++ pre.map fun q => some (xs.getD q 0) } f
    | .ok cols =>
      let chosen := if dSel w = 0 ∨ dSel w = 1 then cols.map fun q => xs.getD q 0 else []
      match densityOf (Desc.of d.d1) chosen d.formed.length with
      | some f => drainFault s c d { d with formed := d.formed ++ (chosen.take (f.w1.toNat - d.formed.length)).map some } f
      | none =>
        let stats := if dSel w = 2 then [] else if dSel w = 1 then chosen else xs
        let scored := if dSel w = 0 ∨ dSel w = 3 then xs.zipIdx.map fun q => (q.2, q.1)
          else (xs.zipIdx.filter fun q => q.2 ∉ cols).map fun q => (q.2, q.1)
        let d' := sendGroups s c { d with formed := d.formed ++ chosen.map some }
        let d' := { d' with slot := d.slot + 1
                            scored := d.scored ++ [scored]
                            stat := if pbScope d.par ∧ dStat w ≠ 0 then d.stat ++ stats else d.stat }
        let s := if dStat w ≠ 0 ∧ !pbScope d.par then
            let a := pbStat d.par + 16 * r
            drainPut s c [(a, statEntry w (pbFirst d.par) ((spadRd s c .drain).bytes a 16) stats)]
          else s
        let s := drainPut s c ((blocksAt w r).map fun b => (pbTopk d.par + 8 * dTopk w * b, blockRecords w d.par d'.scored b))
        putDrain s c d d'

/-- A list slot with `SEL` 2: eight entries (R202, R206). -/
def listSlot (s : State) (c : Nat) (d : Drain) (j : Nat) : State :=
  let w := d.ctl
  let n := drainCount w d.d2
  let ents := (List.range (Min.min 8 (n - 8 * j))).map fun e => listEntry s c d.d2 d.par (8 * j + e)
  let form := fun (l : List (Option (Nat × Nat))) => l.map fun q => q.map fun p => drainElem s c d p.1 p.2
  match ents.zipIdx.findSome? fun q => match q.1 with
      | some p => if dRows w ≤ p.1 then some (p, q.2) else none
      | none => none with
  | some (p, e) =>
    drainFault s c d { d with formed := d.formed ++ form (ents.take e) }
      { cls := 5, sub := 8, addr := (Desc.of d.d2).place, w1 := BitVec.ofNat 64 p.1, w2 := BitVec.ofNat 64 (dRows w)
        w3 := BitVec.ofNat 64 (8 * j + e) }
  | none =>
    let vals := form ents
    let d' := sendGroups s c { d with formed := d.formed ++ vals }
    putDrain s c d { d' with slot := d.slot + 1, picked := d.picked ++ ents.filterMap id
                             stat := if dStat w ≠ 0 then d.stat ++ vals.filterMap id else d.stat }

/-- Run the next slot of a drain (R204): what is due by its beginning is written first. -/
def runSlot (s : State) (c : Nat) (d0 : Drain) : State :=
  let (s, d) := flushDrain s c d0 (slotStart d0 d0.slot)
  let s := modCore s c fun k => claim k s.clock.cycle .drain (spanPorts k (slotSpans d.ctl d.d1 d.d2 d.par d.slot).1 false)
  let nl := listSlots d.ctl d.d2
  if d.slot < nl then listSlot s c d d.slot else rowSlot s c d (d.slot - nl)

/-- The next drain with a slot to run. DEDUCED, log entry 13. -/
def nextDrain (k : Core) : Option Drain := k.drains.find? fun d => decide (d.slot < d.costs.length)

/-- `DRAIN_SLOT` (R204): the next slot, once it begins. DEDUCED, log entry 13. -/
def execDrainSlot (c : CoreId) (s : State) : Out State :=
  match nextDrain (coreOf s c.val) with
  | some d => .next (if dueNow s c.val (slotStart d d.slot) d.chain then runSlot s c.val d else s)
  | none => .next s

/-- The issue or cycle of a drain's completion: C of Table 8.5. -/
def drainEnd (d : Drain) : Nat := slotStart d d.costs.length + 6 * dStages d.ctl + 12

/-- Complete a drain whose slots are done: `SCOPE` 1 entry, ranges, tally (R204, R205). -/
def finishDrain (s : State) (c : Nat) (d : Drain) : State :=
  let s := flushAll s c d
  let s := if dStat d.ctl ≠ 0 ∧ pbScope d.par then
      drainPut s c [(pbStat d.par, statEntry d.ctl (pbFirst d.par) ((spadRd s c .drain).bytes (pbStat d.par) 16) d.stat)]
    else s
  let s := modCore s c fun k => retireList { k with drains := k.drains.filter fun x => x != d } .drain d.ranges
  match d.chain with
  | none => completeTally s c 5 d.tally
  | some ser => 
    let upd := fun (ch : Chain) =>
      if ch.serial ≠ ser then ch
      else if dSpill d.ctl then { ch with draining := false, sinceSpill := 0, spilled := true }
      else { ch with draining := false, drained := true }
    modCore s c fun k => { k with chains := k.chains.map upd }

/-- `DRAIN_COMPLETE` (R204): the oldest drain, its slots done, at C. -/
def execDrainComplete (c : CoreId) (s : State) : Out State :=
  match (coreOf s c.val).drains.head? with
  | some d => .next (if d.costs.length ≤ d.slot ∧ dueNow s c.val (drainEnd d) d.chain then finishDrain s c.val d else s)
  | none => .next s

/-- Whether the next slot of a drain begins by time t, or by this cycle for the drain of a chain. -/
def slotDue (s : State) (d : Drain) (t : Nat) : Bool :=
  decide (slotStart d d.slot ≤ if d.chain.isSome then s.clock.cycle else t)

/-- Run every slot that begins by issue t, and complete the drains whose C is past (Table 8.5): the bundle at t finds them
done. -/
def drainDue : Nat → State → Nat → Nat → State
  | 0, s, _, _ => s
  | fuel + 1, s, c, t =>
    match nextDrain (coreOf s c) with
    | some d => if slotDue s d t then drainDue fuel (runSlot s c d) c t else s
    | none =>
      match (coreOf s c).drains.head? with
      | some d => if drainEnd d ≤ (if d.chain.isSome then s.clock.cycle else t) then drainDue fuel (finishDrain s c d) c t else s
      | none => s

end Sys2Proof.Machine
end

