-- ==== Sys2Proof/Machine/Turn.lean ====
section
/-! DEFINITION. The Turn unit of a cluster (R119 to R122): its queue, the checks made when it fetches a command, the
permutation and conversion, and completion. -/

namespace Sys2Proof.Machine

open Sys2Proof

/-- `PERM`0 to `PERM`4 of a Turn control word (Table 4.9). -/
def turnPerm (w : W64) : List Nat := (List.range 5).map fun k => bits w (3 * k + 2) (3 * k)

/-- Whether the control word is a permutation of 0 to 4 whose extents match (R119). -/
def turnFits (w : W64) (src dst : Desc) : Bool :=
  let p := turnPerm w
  (List.range 5).all (fun k => k ∈ p)
    && (List.range 5).all fun k => (dst.dim k).pext == (src.dim (p.getD k 0)).pext

/-- The checks of a Turn command when the unit fetches it (R80, R91, R106 to R116, R119, R288). A reserved bit of the control
word that is not 0 is reported with the subcode of a control word that does not fit: Table 4.11 names that subcode for the permutation and the
extents alone. DESIGN CHOICE, log entry 65. -/
def turnFlts (s : State) (c : Nat) (i1 i2 : List Byte) (w : W64) (t : BitVec 12) : List Flt :=
  let src := Desc.of i1
  let dst := Desc.of i2
  src.check s c {} src.place ++ dst.check s c { write := true } dst.place
  ++ faultIf (translate s c t).isNone { cls := 8, sub := 6, addr := dst.place, w1 := BitVec.ofNat 64 t.toNat }
  ++ faultIf (bits w 63 15 != 0 || !turnFits w src dst) { cls := 0xB, sub := 7, addr := dst.place, w1 := noIndex, w2 := w }

/-- Position in a linear order of index `ix` over padded extents. -/
def linearOf (ds : List Dim) (ix : List Nat) : Nat :=
  (List.zip ds ix).foldl (fun a p => a * p.1.pext + p.2) 0

/-- Indices (counted from the first pad) of linear position n over padded extents, outermost first. -/
def digitsOf : List Dim → Nat → List Nat
  | [], _ => []
  | _ :: t, n =>
    let inner := t.foldl (fun a y => a * y.pext) 1
    n / inner :: digitsOf t (n % inner)

/-- The source position that feeds destination position n. -/
def turnSource (w : W64) (src dst : Desc) (n : Nat) : Nat :=
  let ix := digitsOf dst.dims n
  let p := turnPerm w
  linearOf src.dims ((List.range 5).map fun k => ix.getD (p.idxOf k) 0)

/-- The elements of the destination in its canonical order, converted through their exact values: an MX element times
its scale is first an FP32 value (R120). -/
def turnElems (s : State) (c : Nat) (w : W64) (src dst : Desc) : List ElemRes :=
  let vs := src.vals (src.rd s c .turn)
  (List.range dst.elemCount).map fun n =>
    let r := vs.getD (turnSource w src dst n) (.ok (.fin false 0 0))
    if isMx src.fmt then r.map fun v => f32 (rnd32 v) else r

/-- The scratchpad ranges of a Turn, in own scratchpad or in another core's (R83). -/
def turnRanges (s : State) (c : Nat) (src dst : Desc) : List (Nat × Nat × Nat × Bool) :=
  tensorRange s c src false ++ tensorRange s c dst true

/-- Convert the tensor of one image into another (R120, R121): the writes before a fault of the stream stay. -/
def turnRun (s : State) (c : Nat) (ag : Agent) (i1 i2 : List Byte) (w : W64) : State × Option Flt :=
  let src := Desc.of i1
  let dst := Desc.of i2
  if dst.empty || src.empty then (s, none)
  else
    let r := dst.writes (dst.oldEnc s c ag) (turnElems s c w src dst)
    match unitWrites (noteRead (nextFree s) src) (dst.space s) c ag none r.1 with
    | (s1, some f) => (s1, some f)
    | (s1, none) => (s1, r.2)

/-- The queue of cluster k's Turn unit. -/
def turnsOf (s : State) (k : Nat) : List TurnCmd := mget [] s.turns k
/-- Replace it. -/
def setTurns (s : State) (k : Nat) (l : List TurnCmd) : State := { s with turns := mset [] s.turns k l }

/-- The ranges of a Turn command retire at their cores (R85). -/
def turnEnd (s : State) (t : TurnCmd) : State := retireMany s t.core .turn (turnRanges s t.core (Desc.of t.d1) (Desc.of t.d2))

/-- A Turn command ends on a fault: credit returned, one record, tally not advanced (R121). DESIGN CHOICE, log entry 16. -/
def turnFail (s : State) (t : TurnCmd) (f : Flt) : State :=
  unitFault (giveCredit (turnEnd s t) t.core 0) t.core 7 0 f

/-- The bank ports of a Turn's tensors: refused, its stream is held and asks again in the next cycle (R67, R70). -/
def turnPorts (s : State) (c : Nat) (src dst : Desc) : Bool × State :=
  let span := fun (d : Desc) (w : Bool) => match d.bounds w with
    | some (a, n) => [(a.toNat, n)]
    | none => []
  match askSpace s c .turn (src.space s) false (span src false) with
  | (false, s) => (false, s)
  | (true, s) => askSpace s c .turn (dst.space s) true (span dst true)

/-- The Turn unit takes the command at the head of its queue, a chain's Turn stage waiting for its own event there (R276), when its ranges can be registered and its bank ports are granted
(R70, R83, R84, R121). A failed command leaves the queue and the next is looked at (`fuel` commands at most). -/
def turnServiceFuel : Nat → State → Nat → State
  | 0, s, _ => s
  | fuel + 1, s, k =>
    match turnsOf s k with
    | [] => s
    | t :: rest =>
      if t.ready || t.chain.isSome then s
      else
        match lowest (turnFlts s t.core t.d1 t.d2 t.ctl t.tally) with
        | some f => turnServiceFuel fuel (turnFail (setTurns s k rest) t f) k
        | none =>
          let rs := turnRanges s t.core (Desc.of t.d1) (Desc.of t.d2)
          if t.held || canRegisterMany s t.core .turn rs then
            let s := if t.held then s else registerMany s t.core .turn rs
            match turnPorts s t.core (Desc.of t.d1) (Desc.of t.d2) with
            | (false, s) => setTurns s k ({ t with held := true } :: rest)
            | (true, s) =>
              match turnRun s t.core .turn t.d1 t.d2 t.ctl with
              | (s, some f) => turnServiceFuel fuel (turnFail (setTurns s k rest) t f) k
              | (s, none) => setTurns s k ({ t with ready := true } :: rest)
          else queueMany s t.core .turn rs

/-- Serve the Turn unit of cluster k. -/
def turnService (s : State) (k : Nat) : State := turnServiceFuel ((turnsOf s k).length + 1) s k

/-- A core's Turn command reaches the unit's queue (R60). -/
def turnIssue (s : State) (c : Nat) (i1 i2 : List Byte) (w : W64) (t : BitVec 12) : State :=
  let s := modCore s c fun k => takeCredit k 0
  let k := clusterOf c
  turnService (setTurns s k (turnsOf s k ++ [{ core := c, d1 := i1, d2 := i2, ctl := w, tally := t }])) k

/-- Whether a core's unit still awaits a response from another device. -/
def awaiting (s : State) (c : Nat) (ag : Agent) : Bool := s.fabric.outst.any fun o => o.core == c && o.agent == ag

/-- `TURN_COMPLETE` (R121): after its last write has committed the command at the head advances its tally and returns
its credit; the unit takes the next. -/
def execTurnComplete (k : ClusterId) (s : State) : Out State :=
  match turnsOf s k.val with
  | t :: rest =>
    if t.ready && !awaiting s t.core .turn then
      let s := turnEnd (setTurns s k.val rest) t
      let s := giveCredit (completeTally s t.core 7 t.tally) t.core 0
      .next (turnService s k.val)
    else .next s
  | [] => .next s

end Sys2Proof.Machine
end

