-- ==== Sys2Proof/Machine/Chain.lean ====
section
/-! DEFINITION. Chains (R37, R275 to R279) and deferred chains with their pieces (R224 to R230): acceptance, the
stages, the tile images built from weight tensors, and completion. -/

namespace Sys2Proof.Machine

open Sys2Proof

/-! ### Tile images from weight tensors (R279) -/

/-- A descriptor image in own scratchpad at window offset `base`: rows of columns, `rowBytes` apart. DEDUCED, log entry 21. -/
def stageImage (fmt form base rows cols rowBytes : Nat) : List Byte :=
  let d := Desc.of (leBytes 8 0 ++ leBytes 8 (fmt * 2 ^ 60 + form * 2 ^ 58))
  padTo 128 (leBytes 8 (0xFFFF * 2 ^ 48 + base) ++ leBytes 8 (fmt * 2 ^ 60 + form * 2 ^ 58 + 2 ^ 53)
    ++ leBytes 24 0 ++ leBytes 8 rowBytes ++ leBytes 8 (if d.plain then d.es else 0)
    ++ leBytes 8 1 ++ leBytes 8 1 ++ leBytes 8 1 ++ leBytes 8 rows ++ leBytes 8 cols)

/-- Whether a source is already tile images: a plain INT8 descriptor with `EXT4` 6,720. -/
def isImages (d : Desc) : Bool := d.plain && d.fmt == 0xA && (d.dim 4).ext == tileBytes && (d.dim 4).pext == tileBytes

/-- Image j of such a source: index j of the dimensions above the innermost, its bytes where their indices put them, a pad
index as `PADV` throughout (R107, R113, R279); or the uncorrectable line met. -/
def sourceImage (d : Desc) (rd : Rd) (j : Nat) : Except Flt (List Byte) :=
  let at_ := fun (i : Nat) => d.unitAt (j * tileBytes + i)
  if (at_ 0).1 || (d.dim 4).stride != 1 then
    match (List.range tileBytes).findSome? fun i => if (at_ i).1 then none else lineFlt rd (at_ i).2.toNat 1 with
    | some f => .error f
    | none => .ok (d.rowBytes rd (j * tileBytes) tileBytes)
  else match lineFlt rd (at_ 0).2.toNat tileBytes with
    | some f => .error f
    | none => .ok (rd.bytes (at_ 0).2.toNat tileBytes)

/-- The dimensions of a source after a Turn with control word `w` (none: as they are). -/
def turnedDims (d : Desc) (w : Option W64) : List Dim :=
  match w with
  | none => d.dims
  | some w => (turnPerm w).map fun k => d.dim k

/-- Whether the dimensions describe one weight tile of the format: columns and inputs within the pass width. -/
def isTileShape (d : Desc) (ds : List Dim) : Bool :=
  let x := fun k => (ds.getD k ⟨0, 0, 0, 0⟩)
  (List.range 3).all (fun k => (x k).ext == 1 && (x k).pext == 1)
    && decide (1 ≤ (x 3).pext ∧ (x 3).pext ≤ 64) && decide (1 ≤ (x 4).pext ∧ (x 4).pext ≤ passWidth d.fmt (d.form == 1))
    && (!isMx d.fmt || (x 4).pext % 32 == 0) && (d.form != 1 || (x 4).pext % 4 == 0)

/-- Build a tile image from the values of a weight tile, column by column (R279): scales per column over 32 inputs,
strict compression (R120, R164). -/
def buildTile (fmt : Nat) (s24 : Bool) (ncol nin : Nat) (base : W64) (vs : List FV) : Except Flt (AMap Byte) :=
  let eb := elemBits fmt
  let hdr := fmt + (if s24 then 2 ^ 8 else 0) + nin * 2 ^ 16 + ncol * 2 ^ 32
  (List.range ncol).foldl (fun (acc : Except Flt (AMap Byte)) c =>
    acc.bind fun t =>
      let col := (vs.drop (c * nin)).take nin
      let blocks := chunks 32 col
      let es := if isMx fmt then (blocks.map fun b => mxElems fmt (mxScale fmt b) b).flatten else col.map (elemEnc fmt)
      let scales : List Byte := if isMx fmt then blocks.map fun b => BitVec.ofNat 8 (mxScale fmt b) else []
      let put := fun (kept ix : List Nat) =>
        setBytes (setBytes (setBytes t (0x40 + 64 * c) (packElems eb kept)) (0x1040 + 32 * c) (packIdx ix))
          (0x1840 + 8 * c) scales
      if s24 then
        match compress24 fmt es with
        | .ok (kept, ix) => .ok (put kept ix)
        | .error (g, n) => .error (densityFlt base (c * nin + 4 * g) n)
      else .ok (put es [])) (.ok (setBytes [] 0 (leBytes 64 hdr)))

/-! ### The chain block (Table 11.11) -/

/-- Word of the block at byte offset `o`. -/
def cbWord (ch : Chain) (o : Nat) : W64 := wordAt ch.blk o
/-- `AOP`. -/
def cbAop (ch : Chain) : Nat := bits (cbWord ch 0) 63 56
/-- `RTAL`. -/
def cbRtal (ch : Chain) : BitVec 12 := BitVec.ofNat 12 (bits (cbWord ch 0) 47 36)
/-- `SPN`. -/
def cbSpn (ch : Chain) : Nat := bits (cbWord ch 0) 12 0
/-- Rows M of every pass. -/
def cbRows (ch : Chain) : Nat := dRows (cbWord ch 0x10)
/-- Window offset of the slot of pass p in the weight staging. -/
def cbWst (ch : Chain) (p : Nat) : Nat := bits (cbWord ch 0x18) 20 0 + p % 2 * tileBytes
/-- Activation slot size. -/
def cbAsize (ch : Chain) : Nat := bits (cbWord ch 0x20) 52 32
/-- Window offset of the activation slot of pass p. -/
def cbAst (ch : Chain) (p : Nat) : Nat := bits (cbWord ch 0x20) 20 0 + p % 2 * cbAsize ch
/-- Window offset of the output staging. -/
def cbOst (ch : Chain) : Nat := bits (cbWord ch 0x28) 20 0
/-- The Turn control word of an operand, where it is turned. -/
def cbTurn (ch : Chain) (o : Nat) : Option W64 :=
  if bit (cbWord ch o) 63 then some (BitVec.ofNat 64 (bits (cbWord ch o) 14 0)) else none
/-- Passes of a chain. -/
def chPasses (ch : Chain) : Nat := bits ch.ctl 41 30 + 1

/-- A descriptor with `BASE` advanced by p steps. -/
def stepped (d : Desc) (step : W64) (p : Nat) : Desc :=
  { d with base := setBits d.base 47 0 (((bits d.base 47 0 : Nat) + p * signed 48 (bits step 47 0)) % 2 ^ 48).toNat }

/-- The weight source of pass p. -/
def chWeights (ch : Chain) (p : Nat) : Desc := stepped (Desc.of ch.d1) (cbWord ch 0x40) p
/-- The activation source of pass p. -/
def chActs (ch : Chain) (p : Nat) : Desc := stepped (Desc.of ch.d2) (cbWord ch 0x48) p

/-- Inputs and row bytes of the staged activation block. -/
def chNin (ch : Chain) : Nat := ((turnedDims (Desc.of ch.d2) (cbTurn ch 0x38)).getD 4 ⟨0, 0, 0, 0⟩).pext
/-- See `chNin`: rows are packed as R118 packs them, each on a 64-byte boundary. -/
def chRowBytes (ch : Chain) : Nat :=
  let d := Desc.of ch.d2
  if isMx d.fmt then ceilDiv (chNin ch) 1024 * saggarBytes d.fmt false else roundUp (chNin ch * d.es) 64

/-- The image of the staged activation block of pass p. -/
def chActImage (ch : Chain) (p : Nat) : List Byte :=
  stageImage (Desc.of ch.d2).fmt 0 (cbAst ch p) (cbRows ch) (chNin ch) (chRowBytes ch)

/-- The image of the output staging: d3's format, packed; the elements as FP32 where d3 adds, and where d3 is in 2:4 form,
which the store stage compresses (R164; DEDUCED, log entry 21). -/
def chOutImage (ch : Chain) : List Byte :=
  let d := Desc.of ch.d3
  let n := drainCount (cbWord ch 0x10) ch.aux
  if d.accw || d.form == 1 then stageImage 0 0 (cbOst ch) 1 n (4 * n)
  else if d.sparse || d.plain then stageImage d.fmt 0 (cbOst ch) 1 n (n * d.es)
  else stageImage d.fmt d.form (cbOst ch) (n / Max.max 1 (d.dim 4).ext) (d.dim 4).ext d.unitBytes

/-- The final drain's control word: `SPM` 3 once the chain has spilled, with the passes since (R276). -/
def chDrainCtl (ch : Chain) : W64 :=
  let w := cbWord ch 0x10
  if ch.spilled then setBits (setBits w 34 33 3) 32 20 ch.sinceSpill else w

/-- A spill's control word: `SPM` 2 the first time and 1 after (R276). -/
def chSpillCtl (ch : Chain) : W64 :=
  let w := cbWord ch 0x10
  let base := bits w 63 53 * 2 ^ 53 + 3 * 2 ^ 35 + bits w 19 0
  setBits (setBits (BitVec.ofNat 64 base) 34 33 (if ch.spilled then 1 else 2)) 32 20 ch.sinceSpill

/-- Whether the block's words break Table 11.11. DEDUCED, log entry 17. -/
def badChainBlock (ch : Chain) : Bool :=
  let w := cbWord ch
  let d := w 0x10
  let m := cbRows ch
  let off := fun (o hi : Nat) => bits (w o) 63 hi != 0 || bits (w o) 20 0 % 64 != 0
  let turn := fun (o : Nat) => bits (w o) 62 15 != 0
    || (bit (w o) 63 && !(List.range 5).all fun k => k ∈ turnPerm (w o)) || (!bit (w o) 63 && bits (w o) 14 0 != 0)
  decide (cbAop ch < 0x24 ∨ 0x27 < cbAop ch) || bits (w 0) 55 48 != 0 || bits (w 0) 35 13 != 0 || decide (4096 < cbSpn ch)
  || badCtl (cbAop ch) m (w 8) || !bit (w 8) 22
  || badDrainCtl d || dSet d != bits (w 8) 16 16 || dRow0 d != bits (w 8) 8 0 || dSpm d != 0
  || (ch.deferred && decide (64 < m))
  || off 0x18 21 || bits (w 0x20) 63 53 != 0 || bits (w 0x20) 31 21 != 0 || bits (w 0x20) 20 0 % 64 != 0 || cbAsize ch % 64 != 0
  || off 0x28 21 || turn 0x30 || turn 0x38 || bits (w 0x40) 63 48 != 0 || bits (w 0x48) 63 48 != 0
  || bits (w 0x50) 62 21 != 0 || bits (w 0x50) 20 0 % 64 != 0 || bit (w 0x50) 63 != dNeeds2 d
  || (ch.blk.drop 0x58).any (· != 0)

/-- Whether the chain's descriptors break R275 and R276. -/
def badChainDescs (ch : Chain) : Bool :=
  let d1 := Desc.of ch.d1
  let d2 := Desc.of ch.d2
  let d3 := Desc.of ch.d3
  let w := cbWord ch 0x10
  let ds := turnedDims d2 (cbTurn ch 0x38)
  let x := fun k => (ds.getD k ⟨0, 0, 0, 0⟩)
  let wds := turnedDims d1 (cbTurn ch 0x30)
  let wOk := cbRtal ch != 0 || ((cbTurn ch 0x30).isNone && isImages d1)
    || (isTileShape d1 wds && (wds.getD 4 ⟨0, 0, 0, 0⟩).pext == chNin ch)
  let n := drainCount w ch.aux
  let aOk := (List.range 3).all (fun k => (x k).ext == 1 && (x k).pext == 1) && (x 3).pext == cbRows ch && d2.form == 0
    && decide (chRowBytes ch * cbRows ch ≤ cbAsize ch) && (!isMx d2.fmt || (x 4).pext % 32 == 0)
  let oOk := if dNeeds1 w then
      d3.elemCount == n && (d3.plain || d3.sparse || (decide (0 < (d3.dim 4).ext) && n % (d3.dim 4).ext == 0))
    else ch.d3reg == 0
  !(wOk && aOk && oOk)

/-- The control word of a chain's drain as far as its ranges go: a chain that spills has a spill buffer. -/
def chRangeCtl (ch : Chain) : W64 := if cbSpn ch = 0 then cbWord ch 0x10 else setBits (cbWord ch 0x10) 34 33 3

/-- The parameter block of a chain's drain, as it stands. -/
def chPar (s : State) (c : Nat) (ch : Chain) : List Byte :=
  if dUsesPar (chRangeCtl ch) then (spadRd s c).bytes (dPar (cbWord ch 0x10)) 576 else []

/-- The scratchpad ranges of a chain: its staging, its operands and output in own scratchpad, and those of its drain (R205,
R229). -/
def chainRanges (s : State) (c : Nat) (ch : Chain) : List (Nat × Nat × Bool) :=
  let all := fun (f : Nat → Desc) (write : Bool) =>
    let d := f 0
    if d.spad then (List.range (chPasses ch)).map fun p => (((f p).spadRange write).1, ((f p).spadRange write).2, write) else []
  let hull := fun (l : List (Nat × Nat × Bool)) =>
    match l with
    | [] => []
    | r :: t =>
      let lo := t.foldl (fun a q => Min.min a q.1) r.1
      let hi := t.foldl (fun a q => Max.max a (q.1 + q.2.1)) (r.1 + r.2.1)
      [(lo, hi - lo, r.2.2)]
  (if cbRtal ch = 0 then (cbWst ch 0, 2 * tileBytes, true) :: hull (all (chWeights ch) false) else [])
  ++ (cbAst ch 0, 2 * cbAsize ch, true) :: hull (all (chActs ch) false)
  ++ drainRanges (chRangeCtl ch) (chOutImage ch) ch.aux (chPar s c ch)
  ++ (if dNeeds1 (cbWord ch 0x10) then [(((Desc.of ch.d3).spadRange true).1, ((Desc.of ch.d3).spadRange true).2, true)] else [])

/-- Every offset of a chain block with the bytes that it names there: all lie in the window (R275). -/
def chainOffsets (ch : Chain) : List (Nat × Nat) :=
  [(cbWst ch 0, if cbRtal ch = 0 then 2 * tileBytes else 64), (cbAst ch 0, Max.max 64 (2 * cbAsize ch)),
   (cbOst ch, if dNeeds1 (cbWord ch 0x10) then ((Desc.of (chOutImage ch)).spadRange true).2 else 64),
   (bits (cbWord ch 0x50) 20 0, if bit (cbWord ch 0x50) 63 then 128 else 64)]

/-- The conditions found when a chain is accepted (R275, R276, R288). DEDUCED, log entry 17. -/
def chainFlts (s : State) (c : Nat) (ch : Chain) : List Flt :=
  let k := coreOf s c
  let at_ := BitVec.ofNat 64 (bits ch.ctl 52 42 * 1024)
  match spadFlt k (bits ch.ctl 52 42 * 1024 : Nat) 128 with
  | some f => [f]
  | none =>
    let w := cbWord ch 0x10
    let tal := fun (t : BitVec 12) => faultIf (translate s c t).isNone { cls := 8, sub := 6, addr := at_, w1 := BitVec.ofNat 64 t.toNat }
    ((chainOffsets ch).filterMap fun r => spadFlt k (Int.ofNat r.1) r.2)
    ++ ((drainSpans (chRangeCtl ch) (chOutImage ch) ch.aux (chPar s c ch)).filterMap fun r =>
      if r.2.1 = 0 then none else spadFlt k r.1 r.2.1)
    ++ (if cbRtal ch = 0 then (chWeights ch 0).check s c {} at_ else tal (cbRtal ch))
    ++ (chActs ch 0).check s c {} at_
    ++ (if dNeeds1 w then (Desc.of ch.d3).check s c { write := true } at_ else [])
    ++ (if dNeeds2 w then (Desc.of ch.aux).faults {} at_ else [])
    ++ tal ch.tally
    ++ faultIf (badChainBlock ch || badChainDescs ch || !drainList w ch.aux) { cls := 0xB, sub := 0x10, addr := at_, w1 := noIndex }

/-- A fault ends a chain: its credit returns, its tally does not advance, the core stops (R278). DESIGN CHOICE, log entry 16. -/
def chainFail (s : State) (c ukind : Nat) (ch : Chain) (f : Flt) : State :=
  unitFault (dropChain s c ch.serial) c ukind (BitVec.ofNat 64 (bits ch.ctl 52 42 * 1024)) f

/-- The state of R144 that an image which cannot be built or loaded leaves: the shadow pair is zero. -/
def noShadow (s : State) (c : Nat) : State := modCore s c fun k => { k with shadow := [], shadowOk := false, unswapped := false }

/-- A weight image of a chain cannot be built or loaded (R144, R278). -/
def chainLoadFail (s : State) (c ukind : Nat) (ch : Chain) (f : Flt) : State := chainFail (noShadow s c) c ukind ch f

/-- Replace a chain of a core. -/
def putChain (s : State) (c : Nat) (ch : Chain) : State :=
  modCore s c fun k => { k with chains := k.chains.map fun x => if x.serial = ch.serial then ch else x }

/-- Read a chain's block and the image its `CB_DAUX` names. -/
def readBlock (s : State) (c : Nat) (ch : Chain) : Chain :=
  let rd := spadRd s c
  let ch := { ch with blk := rd.bytes (bits ch.ctl 52 42 * 1024) 128 }
  { ch with aux := if bit (cbWord ch 0x50) 63 then rd.bytes (bits (cbWord ch 0x50) 20 0) 128 else [] }

/-- Whether a queued chain may be accepted now: ordinary chains one at a time, deferred chains in order (R224, R277). -/
def mayAccept (k : Core) (ch : Chain) : Bool :=
  !ch.accepted && (k.chains.takeWhile fun x => x.serial != ch.serial).all fun x =>
    if ch.deferred then !x.deferred || x.accepted else x.deferred

/-- Accept the queued chains that can be: block and descriptors checked, ranges registered (`fuel` at most). -/
def chainServiceFuel : Nat → State → Nat → State
  | 0, s, _ => s
  | fuel + 1, s, c =>
    match (coreOf s c).chains.find? (mayAccept (coreOf s c)) with
    | none => s
    | some ch =>
      let ch := readBlock s c ch
      match lowest (chainFlts s c ch) with
      | some f => chainServiceFuel fuel (chainFail s c 6 ch f) c
      | none =>
        let rs := chainRanges s c ch
        let ag := Agent.chain (if ch.deferred then 1 else 0)
        if canRegister (coreOf s c) ag rs then
          let s := modCore s c fun k => registerAll k ag rs
          chainServiceFuel fuel (putChain s c { ch with accepted := true, ranges := rs }) c
        else modCore s c fun k => queueUp k ag rs

/-- Serve a core's chain queue. -/
def chainService (s : State) (c : Nat) : State := chainServiceFuel ((coreOf s c).chains.length + 1) s c

/-- A chain command reaches its core's chain queue. -/
def chainIssue (s : State) (c : Nat) (i1 i2 i3 : List Byte) (d3reg : Nat) (ctl : W64) (t : BitVec 12) : State :=
  let s := modCore s c fun k =>
    let k := takeCredit k (if bit ctl 63 then 4 else 1)
    { k with chainSer := k.chainSer + 1
             chains := k.chains ++ [{ deferred := bit ctl 63, d1 := i1, d2 := i2, d3 := i3, d3reg := d3reg, ctl := ctl
                                      tally := t, serial := k.chainSer }] }
  chainService s c

/-- Chain number k of a core, where accepted. -/
def chainAt (s : State) (c k : Nat) : Option Chain :=
  match (coreOf s c).chains[k]? with
  | some ch => if ch.accepted then some ch else none
  | none => none

/-! ### The stages (R276) -/

/-- The name under which the fetch stage of a chain asks for bank ports: it has the rank of the fetch engine (R20, R276). -/
def chainFetchAg (c : Nat) (ch : Chain) : Agent := .remote (4096 + 2 * c + if ch.deferred then 1 else 0)

/-- The elements of a source as FP32 encodings in canonical order, up to the first that cannot be decoded, with its fault; an
uncorrectable line ends the fetch itself. -/
def elemWords (s : State) (c : Nat) (d : Desc) : Except Flt (List Nat × Option FaultRec) :=
  match splitFault (d.vals (d.rd s c)) with
  | (vs, some f) => if f.cls = 9 then .error f else .ok (vs.map fun v => (rnd32 v).toNat, some (f.toRec 6))
  | (vs, none) => .ok (vs.map fun v => (rnd32 v).toNat, none)

/-- The rows of an activation source as they are staged without a Turn. -/
def rowBytesOf (s : State) (c : Nat) (d : Desc) (rowBytes : Nat) : Except Flt (List Nat) :=
  let rd := d.rd s c
  let ne := (d.dim 4).pext
  let rows := d.unitCount / (if d.plain then Max.max 1 ne else 1)
  (List.range rows).foldl (fun (acc : Except Flt (List Nat)) r =>
    acc.bind fun o =>
      let row : Except Flt (List Byte) :=
        if d.plain then
          (List.range ne).foldl (fun (a : Except Flt (List Byte)) i => a.bind fun x => (d.rawUnit rd (r * ne + i)).map fun b => x ++ b) (.ok [])
        else d.rawUnit rd r
      row.map fun b => o ++ (padTo rowBytes b).map BitVec.toNat) (.ok [])

/-- Whether a chain's operands go through the Turn unit. -/
def chainTurns (ch : Chain) : Bool := (cbTurn ch 0x30).isSome || (cbTurn ch 0x38).isSome

/-- Whether the fetch stage may read the operands of its next pass: the pass two before it has read its slots (R276). -/
def mayFetch (s : State) (c : Nat) (ch : Chain) : Bool :=
  decide (ch.fetched < chPasses ch ∧ ch.fetched < ch.passed + 2)
    && (decide (ch.fetched ≤ ch.passed) || decide ((coreOf s c).chainArray ≤ s.clock.cycle))

/-- The operands of a pass as they are fetched: the weights (bytes of an image, or elements with what could not be decoded)
and the activations. -/
def fetchOperands (s : State) (c : Nat) (ch : Chain) (w a : Desc) : Except Flt ((List Nat × Option FaultRec) × List Nat) :=
  let wr : Except Flt (List Nat × Option FaultRec) :=
    if cbRtal ch ≠ 0 then .ok ([], none)
    else if (cbTurn ch 0x30).isNone && isImages w then
      (sourceImage w (w.rd s c) 0).map fun bs => (bs.map BitVec.toNat, none)
    else elemWords s c w
  let ar : Except Flt (List Nat) :=
    if (cbTurn ch 0x38).isSome then
      match elemWords s c a with
      | .ok (xs, _) => .ok xs
      | .error f => .error f
    else rowBytesOf s c a (chRowBytes ch)
  wr.bind fun x => ar.map fun y => (x, y)

/-- The fetch stage reads pass p's operands: its bank ports have the rank of the fetch engine; turned operands take their
place in the queue of the cluster's Turn unit (R276). DEDUCED, log entry 17. -/
def chainFetch (s : State) (c : Nat) (ch : Chain) : State :=
  if !mayFetch s c ch then s
  else
    let p := ch.fetched
    let w := chWeights ch p
    let a := chActs ch p
    let at_ := BitVec.ofNat 64 (bits ch.ctl 52 42 * 1024)
    match lowest ((if cbRtal ch = 0 then w.check s c {} at_ else []) ++ a.check s c {} at_) with
    | some f => chainFail s c 6 ch f
    | none =>
      let ask := fun (s : State) (d : Desc) => match d.bounds false with
        | some (o, n) => askSpace s c (chainFetchAg c ch) (d.space s) false [(o.toNat, n)]
        | none => (true, s)
      let r := if cbRtal ch = 0 then ask s w else (true, s)
      let r := if r.1 then ask r.2 a else r
      if !r.1 then r.2
      else match fetchOperands r.2 c ch w a with
        | .error f => chainFail r.2 c 6 ch f
        | .ok (wr, ar) =>
          let s := noteRead (if cbRtal ch = 0 then noteRead (nextFree r.2) w else nextFree r.2) a
          let s := putChain s c { ch with fetched := p + 1, wRaw := mset [] ch.wRaw p wr.1, aRaw := mset [] ch.aRaw p ar
                                          bad := mset none ch.bad p wr.2 }
          if chainTurns ch then
            setTurns s (clusterOf c) (turnsOf s (clusterOf c)
              ++ [{ core := c, d1 := [], d2 := [], ctl := 0, tally := 0, chain := some ch.serial }])
          else s

/-- `CHAIN_FETCH_STAGE` (R276). -/
def execChainFetchStage (c : CoreId) (k : Nat) (s : State) : Out State :=
  match chainAt s c.val k with
  | some ch => .next (chainFetch s c.val ch)
  | none => .next s

/-- Elements in canonical order of the permuted tensor. -/
def permuteWords (d : Desc) (w : W64) (xs : List Nat) : List Nat :=
  let dst := { d with dims := turnedDims d (some w) }
  (List.range dst.elemCount).map fun n => xs.getD (turnSource w d dst n) 0

/-- The image that the weights of pass p make: the columns held by the first `n` elements of the turned tensor. -/
def weightImage (ch : Chain) (p : Nat) (xs : List Nat) (n : Nat) : Except Flt (AMap Byte) :=
  let w := chWeights ch p
  let x := fun k => ((turnedDims w (cbTurn ch 0x30)).getD k ⟨0, 0, 0, 0⟩).pext
  buildTile w.fmt (w.form == 1) (Min.min (x 3) n) (x 4) w.place (xs.map fun e => f32 (BitVec.ofNat 32 e))

/-- The Turn stage meets weights that it cannot decode: the lines of the slot that hold the image columns before the faulting
element are written, the rest of the slot is left as it was (R121, R278; DESIGN CHOICE, log entry 21). -/
def chainTurnFail (s : State) (c : Nat) (ch : Chain) (w : W64) (r : FaultRec) : State :=
  let p := ch.turned
  let xs := mget [] ch.wRaw p
  let src := Desc.of ch.d1
  let dst := { src with dims := turnedDims src (some w) }
  let whole := ((List.range dst.elemCount).takeWhile fun n => decide (turnSource w src dst n < xs.length)).length / Max.max 1 (chNin ch)
  let s := match weightImage ch p (permuteWords src w xs) whole with
    | .ok t => (List.range whole).foldl (fun s k =>
        spadWrite s c (.chain (if ch.deferred then 1 else 0)) (cbWst ch p + 0x40 + 64 * k) (getBytes t (0x40 + 64 * k) 64)) s
    | .error _ => s
  lateFault (dropChain s c ch.serial) c r

/-- The Turn stage permutes the operands of the next pass, when its turn in the queue of the cluster's Turn unit has come; the
unit then takes its next command (R276). -/
def chainTurn (s : State) (c : Nat) (ch : Chain) : State :=
  let p := ch.turned
  let k := clusterOf c
  match turnsOf s k with
  | [] => s
  | t :: rest =>
    if t.core ≠ c ∨ t.chain ≠ some ch.serial ∨ ch.fetched ≤ p then s
    else match mget none ch.bad p, cbTurn ch 0x30 with
      | some r, some w => turnService (chainTurnFail s c ch w r) k
      | _, _ =>
        let wr := match cbTurn ch 0x30 with
          | some w => permuteWords (Desc.of ch.d1) w (mget [] ch.wRaw p)
          | none => mget [] ch.wRaw p
        let ar := match cbTurn ch 0x38 with
          | some w => permuteWords (Desc.of ch.d2) w (mget [] ch.aRaw p)
          | none => mget [] ch.aRaw p
        turnService (setTurns (putChain s c { ch with turned := p + 1, wRaw := mset [] ch.wRaw p wr, aRaw := mset [] ch.aRaw p ar }) k rest) k

/-- `CHAIN_TURN_STAGE` (R276). DEDUCED, log entry 17. -/
def execChainTurnStage (c : CoreId) (k : Nat) (s : State) : Out State :=
  match chainAt s c.val k with
  | some ch => .next (chainTurn s c.val ch)
  | none => .next s

/-- The staged rows of an activation block from its turned elements. -/
def encodeRows (ch : Chain) (xs : List Nat) : Except Flt (List Byte) :=
  let d := Desc.of ch.d2
  let nin := chNin ch
  let rd := { d with form := 0, dims := (d.dims.take 4) ++ [⟨0, nin, 0, 0⟩] }
  (chunks (Max.max 1 nin) (xs.map fun x => f32 (BitVec.ofNat 32 x))).foldl (fun (acc : Except Flt (List Byte)) row =>
    acc.bind fun o =>
      if isMx d.fmt then
        (chunks 1024 row).foldl (fun (a : Except Flt (List Byte)) g => a.bind fun x => (encodeGroup rd g 0).map fun b => x ++ b) (.ok o)
      else .ok (o ++ padTo (chRowBytes ch) ((row.map fun v => leBytes d.es (elemEnc d.fmt v)).flatten))) (.ok [])

/-- The build stage forms the tile image and stages it and the activation block of the next pass; weights that cannot be
decoded or compressed leave the state of R144 (R276, R278, R279). -/
def chainBuild (s : State) (c : Nat) (ch : Chain) : State :=
  let p := ch.built
  let ag := Agent.chain (if ch.deferred then 1 else 0)
  if p < ch.fetched ∧ (!chainTurns ch || p < ch.turned) then
    let w := chWeights ch p
    let xs := mget [] ch.wRaw p
    let img : Except Flt (AMap Byte) :=
      if cbRtal ch ≠ 0 then .ok []
      else if (cbTurn ch 0x30).isNone && isImages w then .ok (setBytes [] 0 (xs.map fun b => BitVec.ofNat 8 b))
      else weightImage ch p xs 64
    let ys := mget [] ch.aRaw p
    let rows : Except Flt (List Byte) := if (cbTurn ch 0x38).isSome then encodeRows ch ys else .ok (ys.map fun b => BitVec.ofNat 8 b)
    match mget none ch.bad p, img, rows with
    | some r, _, _ => lateFault (dropChain (noShadow s c) c ch.serial) c r
    | _, .error f, _ => chainLoadFail s c 6 ch f
    | _, _, .error f => chainFail s c 6 ch f
    | none, .ok t, .ok rows =>
      let ws := (if cbRtal ch = 0 then [(cbWst ch p, getBytes t 0 tileBytes)] else []) ++ [(cbAst ch p, rows)]
      let s := modCore s c fun k => claim k s.clock.cycle ag (ws.map fun w => portsOf k w.1 w.2.length true).flatten
      let s := ws.foldl (fun s w => spadWrite s c ag w.1 w.2) s
      putChain s c { ch with built := p + 1, turned := Max.max ch.turned (p + 1), wRaw := mset [] ch.wRaw p []
                             aRaw := mset [] ch.aRaw p [], images := mset [] ch.images p t }
  else s

/-- `CHAIN_IMAGE_BUILD` (R279). -/
def execChainImageBuild (c : CoreId) (k : Nat) (s : State) : Out State :=
  match chainAt s c.val k with
  | some ch => .next (chainBuild s c.val ch)
  | none => .next s

/-- Whether every pass of a chain has landed. -/
def chainLanded (k : Core) (ch : Chain) : Bool := !k.passes.any fun p => p.chain == some ch.serial

/-- Whether the array and the shadow load unit are free for a chain's load and pass: the last one has swapped its tile in, and
the program's own passes have read their rows (R131, R276). -/
def arrayFree (s : State) (c : Nat) : Bool :=
  let k := coreOf s c
  k.isect.isNone && k.load.isNone && k.chainLoad.isNone && decide (k.chainSwap ≤ s.clock.cycle)
    && k.passes.all fun p => p.chain.isSome || decide (p.rows ≤ p.readRows.length)

/-- The relay image that a chain's pass loads, and whether R130 is broken: none, another tally's, or too early. -/
def chainRelay (s : State) (c : Nat) (ch : Chain) : AMap Byte × Bool :=
  let k := coreOf s c
  let t := cbRtal ch
  match k.relayBuf with
  | [] => ([], true)
  | r :: _ => (r.tile, r.tally != t || match translate s c t with
    | some q => decide (tallyAt s q < mget 0 k.relayCnt t.toNat + 1)
    | none => true)

/-- The rows of a pass's activation block in its staging slot. -/
def stagedRows (s : State) (c : Nat) (ch : Chain) : List (List Nat) :=
  let rd := spadRd s c (.chain (if ch.deferred then 1 else 0))
  let d := Desc.of (chActImage ch ch.passed)
  let base := cbAst ch ch.passed
  (List.range (cbRows ch)).map fun r =>
    if d.plain then (List.range (chNin ch)).map fun i => rd.num (base + r * chRowBytes ch + i * d.es) d.es
    else (rd.bytes (base + r * chRowBytes ch) (chRowBytes ch)).map BitVec.toNat

/-- Load, swap and issue the next pass (R276): the load takes 32 cycles, the pass begins no earlier than the end of it and M
cycles after the pass before it. -/
def chainStartPass (s : State) (c : Nat) (ch : Chain) (tile : AMap Byte) (w : W64) : State :=
  let rtal := cbRtal ch
  let begin_ := Max.max (s.clock.cycle + 32) (coreOf s c).chainArray
  let pass : Pass := { op := cbAop ch, issue := begin_, rows := cbRows ch, row0 := bits w 8 0, set := bits w 16 16
                       init := bit w 21, tile := tile, hasHdr := true, act := chActImage ch ch.passed
                       readRows := stagedRows s c ch, chain := some ch.serial }
  let s := modCore s c fun k =>
    let k := if ch.deferred then k else countPass k (bits w 16 16) (bit w 21)
    { k with active := tile, shadow := tile, hasTile := true, shadowOk := true, unswapped := false
             passes := k.passes ++ [pass], chainSwap := begin_, chainArray := begin_ + cbRows ch
             chainLoad := some ⟨s.clock.cycle + 32, rtal != 0⟩
             relayCnt := if rtal = 0 then k.relayCnt else mset 0 k.relayCnt rtal.toNat (mget 0 k.relayCnt rtal.toNat + 1) }
  putChain s c { ch with passed := ch.passed + 1, sinceSpill := ch.sinceSpill + 1, images := mset [] ch.images ch.passed [] }

/-- The next pass of a chain, where its operands are staged and the units are free (R130, R276, R278). -/
def chainPassNow (s : State) (c : Nat) (ch : Chain) : State :=
  let k := coreOf s c
  let p := ch.passed
  let w := setBits (cbWord ch 8) 21 21 (if p = 0 ∧ bit (cbWord ch 8) 21 then 1 else 0)
  let rtal := cbRtal ch
  if !(p < ch.built) || ch.draining || !arrayFree s c then s
  else if rtal != 0 && (chainRelay s c ch).2 then
    chainLoadFail s c 4 ch { cls := 8, sub := 1, w1 := BitVec.ofNat 64 rtal.toNat
                             w2 := BitVec.ofNat 64 (((translate s c rtal).map (tallyAt s)).getD 0)
                             w3 := BitVec.ofNat 64 (mget 0 k.relayCnt rtal.toNat + 1) }
  else
    let tile := if rtal = 0 then mget [] ch.images p else (chainRelay s c ch).1
    let d := Desc.of (chActImage ch p)
    let base := if rtal = 0 then BitVec.ofNat 64 (cbWst ch p) else 0
    match lowest (tileHdrFlt tile base ++ tileMetaFlt tile (List.range (tileNcol tile)) base
        ++ faultIf (tileNin tile != chNin ch) { cls := 0xB, sub := 0x10, addr := base, w1 := noIndex, w2 := BitVec.ofNat 64 (tileNin tile) }
        ++ faultIf (!(pairOk (cbAop ch) (tileFmt tile) d.fmt && modeOk (cbAop ch) w (tileS24 tile)))
          { cls := 0xB, sub := 0xB, addr := base, w1 := noIndex, w2 := BitVec.ofNat 64 d.fmt }) with
    | some f => chainLoadFail s c 4 ch f
    | none => chainStartPass s c ch tile w

/-- Whether the chain's next piece is a spill: `SPN` passes since the last and more to come. DEDUCED, log entry 17. -/
def spillDue (ch : Chain) : Bool :=
  decide (cbSpn ch ≠ 0 ∧ ch.sinceSpill = cbSpn ch ∧ ch.passed < chPasses ch) && !ch.draining

/-- Start a drain of a chain with a control word, once its rows have landed and the drain unit is free. -/
def chainDrainStart (s : State) (c : Nat) (ch : Chain) (w : W64) : State :=
  let k := coreOf s c
  let d1 := chOutImage ch
  if chainLanded k ch && k.drains.isEmpty then
    match lowest ((drainFlts s c s.clock.cycle d1 ch.aux 0 0 w ch.tally true 0).filter fun f => f.cls != 1 || f.sub == 0xB) with
    | some f => chainFail s c 5 ch f
    | none => startDrain (putChain s c { ch with draining := true }) c s.clock.cycle d1 ch.aux w ch.tally (some ch.serial)
  else s

/-- `CHAIN_PASS` (R276): an ordinary chain spills when it is due, else issues its next pass. DEDUCED, log entry 17. -/
def execChainPass (c : CoreId) (k : Nat) (s : State) : Out State :=
  match chainAt s c.val k with
  | some ch =>
    .next (if ch.deferred then s
      else if spillDue ch then chainDrainStart s c.val ch (chSpillCtl ch)
      else chainPassNow s c.val ch)
  | none => .next s

/-- Whether the last pass of a chain has issued and its drain has not started. -/
def drainReady (ch : Chain) : Bool := decide (ch.passed = chPasses ch) && !ch.draining && !ch.drained

/-- `CHAIN_DRAIN_STAGE` (R276). -/
def execChainDrainStage (c : CoreId) (k : Nat) (s : State) : Out State :=
  match chainAt s c.val k with
  | some ch => .next (if !ch.deferred && drainReady ch then chainDrainStart s c.val ch (chDrainCtl ch) else s)
  | none => .next s

/-- The bank ports of the store stage's writes in own scratchpad; they are never refused (Table 3.1). -/
def storePorts (s : State) (c : Nat) (k : Core) (d : Desc) (ws : List Wr) : List (Nat × Bool) :=
  match d.space s with
  | .spad => (ws.map fun w => portsOf k w.1 w.2.length true).flatten
  | .here => (ws.filterMap fun w => if (mapPorts s w.1 w.2.length true).1 = c then some (mapPorts s w.1 w.2.length true).2 else none).flatten
  | .far _ => []

/-- The store stage writes the staged output to d3 in canonical order; the chain ends when its writes have committed:
its tally advances, its ranges retire, its credit returns, and the next queued chain is looked at (R37, R276). -/
def chainStore (s : State) (c : Nat) (ch : Chain) : State :=
  if !ch.drained then s
  else
    let ag := Agent.chain (if ch.deferred then 1 else 0)
    let r : State × Option Flt :=
      if ch.stored || !dNeeds1 (cbWord ch 0x10) then (s, none)
      else
        let src := Desc.of (chOutImage ch)
        let dst := Desc.of ch.d3
        let wr := dst.writes (dst.oldEnc s c ag) (src.vals (spadRd s c ag))
        let s := modCore s c fun k => claim k s.clock.cycle ag (storePorts s c k dst wr.1)
        match unitWrites s (dst.space s) c ag none wr.1 with
        | (s, some f) => (s, some f)
        | (s, none) => (s, wr.2)
    match r with
    | (s, some f) => chainFail s c 6 ch f
    | (s, none) =>
      if awaiting s c ag then putChain s c { ch with stored := true }
      else
        let s := if ch.deferred then s else modCore s c fun k => { k with unwaited := k.unwaited ++ [⟨bits (cbWord ch 8) 16 16, ch.tally⟩] }
        chainService (dropChain (completeTally s c 6 ch.tally) c ch.serial) c

/-- `CHAIN_STORE_STAGE` (R276). -/
def execChainStoreStage (c : CoreId) (k : Nat) (s : State) : Out State :=
  match chainAt s c.val k with
  | some ch => .next (chainStore s c.val ch)
  | none => .next s

/-! ### Pieces of deferred chains (R224 to R230) -/

/-- The target of a held yielding wait, and its tally. -/
def yieldWait (k : Core) : Option (BitVec 12 × W64) :=
  match k.ce.held with
  | some h =>
    if h.cause = .tally true then
      (h.bundle.filterMap fun st => match st.effect with | .twait t x => some (t, x) | _ => none).head?
    else none
  | none => none

/-- Whether a wait's tally has reached its target (R285). -/
def tallyMet (s : State) (c : Nat) (t : BitVec 12) (target : W64) : Bool :=
  match translate s c t with
  | some p => decide (target.toNat ≤ tallyAt s p)
  | none => false

/-- Whether pieces may start: the compute engine is held at a yielding wait whose condition does not hold, or has
executed `stop` (R226). -/
def piecesMayStart (s : State) (c : Nat) : Bool :=
  let k := coreOf s c
  !k.faulted && (k.ce.run == .stopped || (match yieldWait k with
    | some (t, x) => !tallyMet s c t (BitVec.ofNat 64 (bits x 62 0))
    | none => false))

/-- Whether a piece holds the shadow load unit, the array or the drain unit (R227). -/
def pieceRuns (s : State) (c : Nat) : Bool :=
  let k := coreOf s c
  k.drains.any (fun d => deferredChain k d.chain)
    || (!chainBusy k && (k.chainLoad.isSome || decide (s.clock.cycle < k.chainArray)))

/-- Whether a deferred chain has a pass piece ready: operands staged, array and shadow load unit free (R226). -/
def passPieceReady (s : State) (c : Nat) (ch : Chain) : Bool :=
  ch.deferred && ch.accepted && decide (ch.passed < ch.built) && !ch.draining && !spillDue ch && arrayFree s c

/-- Whether a deferred chain has a drain or spill piece ready: its rows landed, the drain unit free (R226). -/
def drainPieceReady (k : Core) (ch : Chain) : Bool :=
  ch.deferred && ch.accepted && (drainReady ch || spillDue ch) && chainLanded k ch && k.drains.isEmpty

/-- The oldest deferred chain that has a piece ready, where pieces may start. -/
def nextPiece (s : State) (c : Nat) : Option Chain :=
  let k := coreOf s c
  if piecesMayStart s c && !chainBusy k then k.chains.find? fun ch => passPieceReady s c ch || drainPieceReady k ch else none

/-- `DEFERRED_PASS_PIECE` (R226): the next piece is a shadow load and pass. -/
def execDeferredPassPiece (c : CoreId) (s : State) : Out State :=
  match nextPiece s c.val with
  | some ch => .next (if passPieceReady s c.val ch then chainPassNow s c.val ch else s)
  | none => .next s

/-- `DEFERRED_DRAIN_PIECE` (R226): the next piece is a drain or spill. -/
def execDeferredDrainPiece (c : CoreId) (s : State) : Out State :=
  match nextPiece s c.val with
  | some ch =>
    .next (if drainPieceReady (coreOf s c.val) ch then
        chainDrainStart s c.val ch (if drainReady ch then chDrainCtl ch else chSpillCtl ch)
      else s)
  | none => .next s

end Sys2Proof.Machine
end

