-- ==== Sys2Proof/Machine/Mover.lean ====
section
/-! DEFINITION. Mover channels (R260 to R274): the instructions, rings, descriptor fetch, requests, commits,
completion, abort and the status record; the weight relay (R280, R281). -/

namespace Sys2Proof.Machine

open Sys2Proof

/-! ### Channels -/

/-- Channel g = 128 × cluster + ch. -/
def chanOf (s : State) (g : Nat) : Chan := mget {} s.chans g
/-- Replace it. -/
def setChan (s : State) (g : Nat) (h : Chan) : State := { s with chans := mset {} s.chans g h }
/-- Apply a change to it. -/
def modChan (s : State) (g : Nat) (f : Chan → Chan) : State := setChan s g (f (chanOf s g))
/-- The context of a channel, where it is granted (Table 11.3). -/
def chanCtx (h : Chan) : Option Nat := if bit h.own 31 then some (bits h.own 45 32) else none
/-- The core that owns channel g. -/
def chanCore (s : State) (g : Nat) : Nat := g / 128 * 32 + bits (chanOf s g).own 4 0
/-- The source stream of a channel (Table 12.3). -/
def chanStream (g : Nat) : Nat := 0x400 + g
/-- Whether the channel is idle, aborted or faulted (R261). -/
def chanFree (h : Chan) : Bool := h.st == 0 || h.st == 5 || h.st == 6
/-- Whether a channel is one of Mover 3, the DDR5-tier Mover (R265). -/
def ddrTier (g : Nat) : Bool := g % 128 / 32 == 3
/-- `SKEY` of a channel's context. -/
def chanKey (s : State) (g : Nat) : W32 := match chanCtx (chanOf s g) with | some x => ctxKey s x | none => 0

/-- The window fault of a `mov.` instruction whose xa names no channel granted to the core (R260). -/
def movFlts (s : State) (c : Nat) (xa : W64) : List Flt :=
  let h := chanOf s (clusterOf c * 128 + bits xa 6 0)
  let ok := bits xa 63 7 == 0 && bit h.own 31 && bits h.own 4 0 == c % 32 && ctxOf (coreOf s c) == some (bits h.own 45 32)
  faultIf (!ok) { cls := 2, sub := 9, addr := xa, w2 := noIndex }

/-! ### Fields of a descriptor (Table 11.4) -/

/-- `MD_NEXT`. -/
def mdNext (m : List Byte) : W64 := wordAt m 0
/-- Control word at 0x08. -/
def mdCtl (m : List Byte) : W64 := wordAt m 8
/-- `KIND`. -/
def mdKind (m : List Byte) : Nat := bits (mdCtl m) 63 60
/-- `MD_SRC`. -/
def mdSrc (m : List Byte) : W64 := wordAt m 0x10
/-- `MD_DST`. -/
def mdDst (m : List Byte) : W64 := wordAt m 0x18
/-- `MD_AUX`. -/
def mdAux (m : List Byte) : W64 := wordAt m 0x20
/-- `MD_RSIG`. -/
def mdRsig (m : List Byte) : W64 := wordAt m 0x28

/-- The list of a gather or scatter: its address and element count. -/
def sgList (m : List Byte) : W64 × Nat := (if mdKind m = 1 then mdSrc m else mdDst m, bits (mdAux m) 31 0)

/-- The contiguous side of a gather or scatter: the global address of its first byte. -/
def sgSide (m : List Byte) : W64 := if mdKind m = 1 then mdDst m else mdSrc m

/-- A reader of a global address for channel g: this device's memory, or what the other device has answered (R262). -/
def chanRd (s : State) (g : Nat) (ga : W64) : Rd :=
  if isHere s (bits ga 63 48) then memRd s (.mover g)
  else { byte := fun a => (mget none (chanOf s g).got (bits ga 63 48 * 2 ^ 48 + a)).getD 0, bad := fun _ _ => none }

/-- The bytes at a global address, as channel g reads them. -/
def chanBytes (s : State) (g : Nat) (ga : W64) (n : Nat) : List Byte := (chanRd s g ga).bytes (bits ga 47 0) n

/-- Bytes [a, a + n) as requests: at most 512 bytes each, none across a 512-byte boundary (R273). -/
def cutReads (a n : Nat) : List (Nat × Nat) :=
  if n = 0 then []
  else (List.range ((a + n - 1) / 512 - a / 512 + 1)).map fun i =>
    let lo := Max.max a ((a / 512 + i) * 512)
    (lo, Min.min (a + n) ((a / 512 + i + 1) * 512) - lo)

/-- Whether channel g has every byte of a range of another device; of this device's memory it has all. -/
def chanHas (s : State) (g : Nat) (ga : W64) (n : Nat) : Bool :=
  isHere s (bits ga 63 48)
    || (List.range n).all fun i => (mget none (chanOf s g).got (bits ga 63 48 * 2 ^ 48 + bits ga 47 0 + i)).isSome

/-- The requests for ranges of other devices that channel g has not been answered. -/
def chanMiss (s : State) (g : Nat) (ps : List (W64 × Nat)) : List (Nat × Nat × Nat) :=
  (ps.map fun p => (cutReads (bits p.1 47 0) p.2).filterMap fun r =>
    let dev := bits p.1 63 48
    if chanHas s g (BitVec.ofNat 64 (dev * 2 ^ 48 + r.1)) r.2 then none else some (dev, r.1, r.2)).flatten

/-- Channel g asks for ranges of memory that it needs before it goes on: at most 64 requests to other devices at a time (R273),
the bank ports of a scratchpad here (R67), behind the ranges registered there (R84). Whether it has them all. -/
def chanAsk (s : State) (g : Nat) (ps : List (W64 × Nat)) : Bool × State :=
  let here := (ps.filter fun p => isHere s (bits p.1 63 48)).map fun p => (bits p.1 47 0, p.2)
  match chanMiss s g ps with
  | [] =>
    if here.any fun p => mapHeld s (.mover g) p.1 p.2 false then (false, s)
    else
      let r := askSpace s (chanCore s g) (.mover g) .here false (here.filter fun p => inSpad p.1)
      (r.1, if r.1 then noteSpans r.2 here else r.2)
  | ms =>
    if s.fabric.outst.any fun o => o.agent == .mover g && o.frame.typ == 2 then (false, s)
    else (false, (ms.take 64).foldl (fun s r =>
      remoteRead s (.mover g) (chanCore s g) (chanStream g) r.1 0 (chanKey s g) r.2.1 r.2.2) s)

/-- A reader of a global address for a unit whose responses the table of events does not list: this device's memory, or free
values (DESIGN CHOICE, log entry 7). -/
def globalRd (s : State) (ga : W64) : Rd :=
  if isHere s (bits ga 63 48) then memRd s else farRd s (bits ga 63 48)

/-- The bytes at a global address. -/
def globalBytes (s : State) (ga : W64) (n : Nat) : List Byte := (globalRd s ga).bytes (bits ga 47 0) n

/-- Entry i of a scatter/gather list: its 16 bytes. -/
def sgEntry (s : State) (g : Nat) (m : List Byte) (i : Nat) : List Byte :=
  let (a, _) := sgList m
  (chanRd s g a).bytes (bits a 47 0 + 16 * i) 16

/-- The bytes that a scatter/gather list names. -/
def sgTotal (s : State) (g : Nat) (m : List Byte) : Nat :=
  (List.range (sgList m).2).foldl (fun a i => a + numAt (sgEntry s g m i) 8 4) 0

/-- The bytes of a descriptor's whole stream. -/
def chanTotal (s : State) (g : Nat) (h : Chan) : Nat :=
  match h.desc with
  | none => 0
  | some m =>
    if mdKind m = 0 then (Desc.of h.src).unitCount * (Desc.of h.src).unitBytes
    else if mdKind m = 3 then 0
    else sgTotal s g m

/-- The relay of a cluster. -/
def relayOf (s : State) (k : Nat) : Relay := mget {} s.relays k
/-- Replace it. -/
def setRelay (s : State) (k : Nat) (r : Relay) : State := { s with relays := mset {} s.relays k r }

/-- How many images a relay source yields, one for each index of the dimensions above the innermost; none where it is no source
of R279. -/
def relayCount (d : Desc) : Option Nat :=
  if isImages d then some (d.unitCount / tileBytes) else if isTileShape d d.dims then some 1 else none

/-! ### Ending -/

/-- The Mover status record (Table 11.7). DEDUCED, log entry 18. -/
def chanStatus (s : State) (g : Nat) : List Byte :=
  let h := chanOf s g
  let m := h.desc.getD []
  let f := h.fault.getD { cls := 0, sub := 0, ukind := 0 }
  let sg := h.desc.isSome && (mdKind m == 1 || mdKind m == 2)
  leBytes 1 0x0C ++ leBytes 1 h.cause ++ leBytes 1 f.cls ++ leBytes 1 f.sub ++ leBytes 2 (g % 128) ++ leBytes 2 (g / 128)
    ++ leBytes 8 h.head.toNat ++ leBytes 8 h.bytes ++ leBytes 8 (chanTotal s g h - h.bytes)
    ++ leBytes 8 (if sg then h.elems else 0)
    ++ leBytes 8 (if h.desc.isSome then (mdNext m).toNat else if h.head = 0 then 0 else numAt (chanBytes s g h.head 8) 0 8)
    ++ leBytes 8 s.clock.beat ++ leBytes 8 0

/-- Retire every range a channel has registered (R85), and give up those it waits for. -/
def chanRetire (s : State) (g : Nat) : State :=
  modChan (retireMany (leaveAll s (.mover g)) (chanCore s g) (.mover g) (chanOf s g).ranges) g fun h => { h with ranges := [] }

/-- A channel stops: its status record is written to `CH_SADDR` and delivered, and `ST` becomes 5, or 6 where a fault
ended it; then the fault's own record is delivered (R271, R272). -/
def stopChan (s : State) (g : Nat) : State :=
  let h := chanOf s g
  let rec_ := chanStatus s g
  let dev := bits h.saddr 63 48
  let a := bits h.saddr 47 0
  let s := match memFlt s (coreOf s (chanCore s g)) dev a 64 true with
    | some _ => s
    | none => if isHere s dev then (commit s s.fabric.devaddr.toNat (chanStream g) a rec_).1
      else remoteWrites s (.mover g) (chanCore s g) (chanStream g) dev (chanKey s g) false [(a, rec_)]
  let s := report s (some (g / 128)) (match h.fault with
    | some f => .fault f
    | none => .raw rec_)
  let rl := relayOf s (g / 128)
  let s := if rl.serving = some g ∧ rl.toEnter.isEmpty then setRelay s (g / 128) { rl with serving := none } else s
  modChan (chanRetire s g) g fun h =>
    { h with st := if h.cause = 3 then 6 else 5, desc := none, entry := none, reqs := [], fault := none, acc := [], got := []
             unit := 0, off := 0, contig := 0, bytes := 0, elems := 0, wrote := [] }

/-- The fault record of a channel (Table 21.2). -/
def chanRec (s : State) (g : Nat) (f : Flt) : FaultRec :=
  let h := chanOf s g
  { f.toRec 8 with unit := g % 128, clus := g / 128, beat := beatW s, ctx := chanCtx h }

/-- Whether a channel has issued requests that have not completed (R266, R271). -/
def chanBusy (s : State) (g : Nat) : Bool :=
  !(chanOf s g).reqs.isEmpty || s.fabric.outst.any fun o => o.agent == .mover g

/-- Stop at once where nothing issued is left to complete. -/
def stopIfDone (s : State) (g : Nat) : State := if chanBusy s g then s else stopChan s g

/-- A fault ends a channel as an abort does (R272); an uncorrectable line is counted (R331). -/
def chanFault (s : State) (g : Nat) (f : Flt) : State :=
  let h := chanOf s g
  let x := chanCtx h
  let s := if f.cls = 9 then countErr s f x else s
  let r := chanRec s g f
  let r := if f.cls = 9 then { r with addr := errLine s f, w1 := h.head, flags := if x.isSome then 2 else 0 } else r
  stopIfDone (setChan s g { chanOf s g with st := 4, cause := 3, fault := some r }) g

/-- Abort a channel with a cause (R271): a running channel stops after the requests issued, a paused one at once. -/
def abortChan (s : State) (g cause : Nat) : State :=
  let h := chanOf s g
  if h.st = 1 then
    let s := setChan s g { h with st := 4, cause := cause }
    if h.desc.isNone then stopIfDone s g else s
  else if h.st = 2 ∨ h.st = 3 then
    stopChan (setChan s g { h with st := 4, cause := cause }) g
  else s

/-- `MOVER_STOP` (R271, R272): once the issued requests have completed, the channel stops. A descriptor whose last
request was already issued completes first. -/
def chanMayStop (s : State) (g : Nat) : Bool :=
  let h := chanOf s g
  let whole := h.cause != 3 && (match h.desc with
    | some m => if mdKind m = 0 then decide ((Desc.of h.src).unitCount ≤ h.unit) else
        if mdKind m = 3 then decide ((relayCount (Desc.of h.src)).getD 0 ≤ h.unit) else decide ((sgList m).2 ≤ h.unit)
    | none => false)
  h.st == 4 && !chanBusy s g && !whole

/-- See `chanMayStop`. -/
def execMoverStop (k : ClusterId) (ch : Fin 128) (s : State) : Out State :=
  let g := k.val * 128 + ch.val
  .next (if chanMayStop s g then stopChan s g else s)

/-- `MC_ABORT` (R271). -/
def execMcAbort (k : ClusterId) (ch : Fin 128) (s : State) : Out State := .next (abortChan s (k.val * 128 + ch.val) 4)

/-! ### Rings (R269, R270) -/

/-- Whether a ring block breaks Table 11.5. DEDUCED, log entry 23. -/
def badRing (b : List Byte) : Bool :=
  let w := wordAt b 0
  let cap := bits w 31 0
  let start := numAt b 12 4
  let stop := numAt b 8 4
  bits w 38 32 != 0 || cap == 0 || decide (start ≤ stop) || decide (cap < start) || (b.drop 0x10).any (· != 0)

/-- The level of a ring bound to channel g, or none where the fill is out of range (R270). -/
def ringLevel (s : State) (g : Nat) (b : List Byte) : Option Nat :=
  let w := wordAt b 0
  let x := (chanCtx (chanOf s g)).getD 0
  let val := fun (t : Nat) => match translateCtx s x (chanCore s g) (BitVec.ofNat 12 t) with
    | some p => tallyAt s p
    | none => 0
  let p := val (bits w 63 52)
  let q := val (bits w 51 40)
  let cap := bits w 31 0
  if p < q ∨ cap < p - q then none
  else some (if bit w 39 then cap - (p - q) else p - q)

/-- `RING_RESUME` (R270). -/
def ringResume (s : State) (g : Nat) : State :=
  let h := chanOf s g
  match h.ring with
  | some b =>
    if h.st ≠ 2 then s
    else match ringLevel s g b with
    | none => chanFault s g { cls := 8, sub := 2, addr := h.head, w1 := BitVec.ofNat 64 (bits (wordAt b 0) 63 52) }
    | some l => if numAt b 12 4 ≤ l then setChan s g { h with st := 1 } else s
  | none => s

/-- See `ringResume`. -/
def execRingResume (k : ClusterId) (ch : Fin 128) (s : State) : Out State := .next (ringResume s (k.val * 128 + ch.val))

/-- Whether [a, a + n) of this device meets its DDR5 range, or that range of another device. -/
def touchesDdr (a : Int) (n : Nat) : Bool := decide (a < ddrBase + 6 * pairRegion ∧ (ddrBase : Int) < a + n)

/-- The check of R265 on a range: DDR5 only through Mover 3. -/
def tierFlt (g : Nat) (ga : W64) (a : Int) (n : Nat) : List Flt :=
  faultIf (!ddrTier g && n != 0 && touchesDdr a n) { cls := 2, sub := 0xB, addr := ga, w1 := BitVec.ofNat 64 n, w2 := noIndex }

/-- The effect of `mov.ring` (R269): unbind, or read and bind the ring block. A fault is the channel's, which stays
unbound (DEDUCED, log entry 23); an uncorrectable line is counted (R331). -/
def bindRing (s : State) (g : Nat) (xb : W64) : State :=
  let h := chanOf s g
  if xb = 0 then setChan s g { h with ring := none }
  else
    let rd := globalRd s xb
    let b := rd.bytes (bits xb 47 0) 64
    let rg := (memFlt s (coreOf s (chanCore s g)) (bits xb 63 48) (bits xb 47 0) 64 false).toList ++ tierFlt g xb (bits xb 47 0 : Nat) 64
    let ln := if rg.isEmpty then (lineFlt rd (bits xb 47 0) 64).toList else []
    let fs := rg ++ faultIf (bits xb 5 0 != 0) { cls := 3, sub := 6, addr := xb, w1 := 64 } ++ ln
      ++ faultIf (rg.isEmpty && ln.isEmpty && badRing b) { cls := 0xB, sub := 0xF, addr := xb, w1 := noIndex }
    let s := nextFree (if rg.isEmpty && isHere s (bits xb 63 48) then noteSpans s [(bits xb 47 0, 64)] else s)
    match lowest fs with
    | some f =>
      let s := if f.cls = 9 then countErr s f (chanCtx h) else s
      let r := chanRec s g f
      report (setChan s g { h with ring := none }) (some (g / 128)) (.fault (if f.cls = 9 then { r with addr := errLine s f } else r))
    | none => setChan s g { h with ring := some b }

/-- The effect of `mov.go` (R261, R268, R270). -/
def goChan (s : State) (g : Nat) (xb : W64) : State :=
  let h := chanOf s g
  setChan s g { h with st := if h.ring.isSome then 2 else 1, head := xb, pace := 0, desc := none, cause := 0, fault := none, got := [] }

/-! ### Descriptor fetch (R262 to R265) -/

/-- The faults of the place of `n` bytes that a descriptor names at global address `ga`, on a boundary of `al` bytes. -/
def mdPlaceFlts (s : State) (g : Nat) (ga : W64) (n al sub : Nat) : List Flt :=
  (memFlt s (coreOf s (chanCore s g)) (bits ga 63 48) (bits ga 47 0) n false).toList ++ tierFlt g ga (bits ga 47 0 : Nat) n
  ++ faultIf (ga.toNat % al != 0) { cls := 3, sub := sub, addr := ga, w1 := BitVec.ofNat 64 al }

/-- The faults of a tensor descriptor image's place. -/
def mdImagePlace (s : State) (g : Nat) (ga : W64) : List Flt := mdPlaceFlts s g ga 128 64 4

/-- The place of the tile tables of a BP or HB source that a DDR5-tier channel reads (R117). -/
def mdTables (s : State) (g : Nat) (img : List Byte) : List (W64 × Nat) :=
  let d := Desc.of img
  if ddrTier g && d.sparse && !d.spad && (d.check s (chanCore s g) { priv := true } 0).isEmpty then
    d.spans.map fun p => (BitVec.ofNat 64 (bits d.base 63 48 * 2 ^ 48 + p.1), d.tableBytes)
  else []

/-- The first tile-table offset that is no multiple of 64 (R117), or a table's uncorrectable line. -/
def tableFlts (s : State) (g : Nat) (img : List Byte) : List Flt :=
  ((mdTables s g img).findSome? fun p =>
    let rd := chanRd s g p.1
    match lineFlt rd (bits p.1 47 0) p.2 with
    | some f => some f
    | none => (List.range (p.2 / 8)).findSome? fun t =>
      let off := nbits (rd.num (bits p.1 47 0 + 8 * t) 8) 47 0
      if off % 64 = 0 then none
      else some ({ cls := 3, sub := 2, addr := BitVec.ofNat 64 (p.1.toNat + off), w1 := 64 } : Flt)).toList

/-- The checks of a tensor image that a descriptor names, at global address `ga`. -/
def mdImageFlts (s : State) (g : Nat) (ga : W64) (img : List Byte) (write : Bool) : List Flt :=
  let c := chanCore s g
  let d := Desc.of img
  match mdImagePlace s g ga ++ (lineFlt (chanRd s g ga) (bits ga 47 0) 128).toList with
  | [] =>
    d.check s c { write := write, priv := ddrTier g } ga
    ++ (if d.spad then [] else match d.bounds write with | some (a, n) => tierFlt g d.base a n | none => [])
    ++ (if write then [] else tableFlts s g img)
  | fs => fs

/-- Whether a copy's two descriptors disagree (R263). -/
def copyMismatch (s : State) (a b : Desc) : Bool :=
  a.fmt != b.fmt || a.form != b.form || a.unitCount != b.unitCount
  || (a.sparse && a.splen != b.splen) || (!a.plain && !a.sparse && (a.dim 4).ext != (b.dim 4).ext)
  || (b.accw && (match b.space s with | .far _ => true | _ => false))

/-- Whether a descriptor's reserved and fixed fields break Table 11.4. -/
def badMd (s : State) (g : Nat) (m : List Byte) : Bool :=
  let w := mdCtl m
  let k := mdKind m
  let other := chanOf s (g / 128 * 128 + bits w 43 37)
  decide (3 < k) || bits w 36 32 != 0 || (bit w 57 && bits w 31 0 == 0)
  || (bit w 56 && (!bit other.own 31 || bits other.own 45 32 != bits (chanOf s g).own 45 32))
  || ((k == 1 || k == 2) && (bits (mdAux m) 63 32 != 0 || bits (mdAux m) 31 0 == 0))
  || (k == 3 && (bits (mdAux m) 51 32 != 0 || mdDst m != 0)) || (k == 0 && mdAux m != 0)
  || (m.drop 0x30).any (· != 0)

/-- The receivers of a relay descriptor that are absent or in another context (R280). -/
def badReceiver (s : State) (g : Nat) (m : List Byte) : Bool :=
  (setBitsOf 32 (bits (mdAux m) 31 0)).any fun q =>
    let c := g / 128 * 32 + q
    !goodCore s c || ctxOf (coreOf s c) != chanCtx (chanOf s g)

/-- The conditions of a descriptor at its fetch (R80, R106 to R117, R262 to R265, R280, R288). DEDUCED, log entry 18. -/
def mdFlts (s : State) (g : Nat) (ga : W64) (m : List Byte) : List Flt :=
  let k := mdKind m
  let c := chanCore s g
  let x := (chanCtx (chanOf s g)).getD 0
  let t := BitVec.ofNat 12 (bits (mdCtl m) 55 44)
  let rs := mdRsig m
  let si := chanBytes s g (mdSrc m) 128
  let di := chanBytes s g (mdDst m) 128
  let lst := sgList m
  let rt := BitVec.ofNat 12 (bits (mdAux m) 63 52)
  faultIf (badMd s g m) { cls := 0xB, sub := 0xF, addr := ga, w1 := noIndex }
  ++ faultIf (bit (mdCtl m) 57 && (translateCtx s x c t).isNone) { cls := 8, sub := 6, addr := ga, w1 := BitVec.ofNat 64 t.toNat }
  ++ faultIf (rs != 0 && !devOk s (bits rs 63 48)) { cls := 2, sub := 6, addr := rs, w1 := 8, w2 := noIndex }
  ++ faultIf (rs != 0 && (decide (bits rs 47 0 < 0x300080000000 ∨ 0x30009FFFFFF8 < bits rs 47 0) || bits rs 2 0 != 0))
       { cls := 8, sub := 0xA, addr := ga, w1 := rs }
  ++ (if k = 0 then
        mdImageFlts s g (mdSrc m) si false ++ mdImageFlts s g (mdDst m) di true
        ++ faultIf (copyMismatch s (Desc.of si) (Desc.of di)) { cls := 0xB, sub := 0xE, addr := ga, w1 := noIndex }
      else if k = 3 then
        mdImageFlts s g (mdSrc m) si false
        ++ faultIf (badReceiver s g m) { cls := 2, sub := 0xA, addr := ga, w2 := noIndex }
        ++ faultIf (translateCtx s x c rt).isNone { cls := 8, sub := 6, addr := ga, w1 := BitVec.ofNat 64 rt.toNat }
        ++ faultIf (relayCount (Desc.of si)).isNone { cls := 0xB, sub := 0xF, addr := mdSrc m, w1 := noIndex }
      else
        let ps := mdPlaceFlts s g lst.1 (16 * lst.2) 16 6
        ps ++ (if ps.isEmpty then (lineFlt (chanRd s g lst.1) (bits lst.1 47 0) (16 * lst.2)).toList else [])
        ++ (if ps.isEmpty && (lineFlt (chanRd s g lst.1) (bits lst.1 47 0) (16 * lst.2)).isNone then
              let o := sgSide m
              let n := sgTotal s g m
              (memFlt s (coreOf s c) (bits o 63 48) (bits o 47 0) n (k == 1)).toList ++ tierFlt g o (bits o 47 0 : Nat) n
              ++ faultIf (ddrTier g && bits o 5 0 != 0) { cls := 3, sub := 2, addr := o, w1 := 64 }
            else []))

/-- What the channel reads before it checks a descriptor: the tensor images or the list, where their places are right. -/
def mdReads (s : State) (g : Nat) (m : List Byte) : List (W64 × Nat) :=
  let lst := sgList m
  (if (mdKind m = 0 ∨ mdKind m = 3) ∧ (mdImagePlace s g (mdSrc m)).isEmpty then [(mdSrc m, 128)] else [])
  ++ (if mdKind m = 0 ∧ (mdImagePlace s g (mdDst m)).isEmpty then [(mdDst m, 128)] else [])
  ++ (if (mdKind m = 1 ∨ mdKind m = 2) ∧ (mdPlaceFlts s g lst.1 (16 * lst.2) 16 6).isEmpty then [(lst.1, 16 * lst.2)] else [])

/-- The scratchpad ranges that a descriptor registers when it is fetched: those of its tensors, or the contiguous side of a
gather or scatter (R83); none where it is unfenced (R87). -/
def mdRanges (s : State) (g : Nat) (m : List Byte) : List (Nat × Nat × Nat × Bool) :=
  let c := chanCore s g
  if bit (mdCtl m) 59 then []
  else if mdKind m = 0 ∨ mdKind m = 3 then
    tensorRange s c (Desc.of (chanBytes s g (mdSrc m) 128)) false
      ++ (if mdKind m = 0 then tensorRange s c (Desc.of (chanBytes s g (mdDst m) 128)) true else [])
  else if isHere s (bits (sgSide m) 63 48) then mapRange s (bits (sgSide m) 47 0) (sgTotal s g m) (mdKind m == 1)
  else []

/-- The descriptor is read and checked whole, and its ranges are registered; while something it needs is not there the channel
waits (R84, R86). DEDUCED, log entry 18. -/
def chanLoadDesc (s : State) (g : Nat) (m : List Byte) : State :=
  let h := chanOf s g
  let tensor := mdKind m == 0 || mdKind m == 3
  match lowest (mdFlts s g h.head m) with
  | some f => chanFault s g f
  | none =>
    let src := if tensor then chanBytes s g (mdSrc m) 128 else []
    let dst := if mdKind m = 0 then chanBytes s g (mdDst m) 128 else []
    let rs := mdRanges s g m
    if !canRegisterMany s (chanCore s g) (.mover g) rs then queueMany s (chanCore s g) (.mover g) rs
    else
      setChan (registerMany s (chanCore s g) (.mover g) rs) g
        { h with desc := some m, src := src, dst := dst, ranges := rs, entry := none, unit := 0, off := 0, contig := 0, bytes := 0
                 elems := 0, wrote := [], acc := [], got := if tensor then [] else h.got
                 st := if bit (mdCtl m) 58 then 3 else 1 }

/-- The channel fetches the descriptor at its head: a bound channel pauses first where its level is at or below
`STOP`; what the descriptor names is read before it is checked. DEDUCED, log entry 18. -/
def chanFetch (s : State) (g : Nat) : State :=
  let h := chanOf s g
  if h.st ≠ 1 ∨ h.desc.isSome then s
  else
    let ga := h.head
    match h.ring.map fun b => ringLevel s g b with
    | some none => chanFault s g { cls := 8, sub := 2, addr := ga, w1 := BitVec.ofNat 64 (bits (wordAt (h.ring.getD []) 0) 63 52) }
    | lv =>
      if (match lv with | some (some l) => decide (l ≤ numAt (h.ring.getD []) 8 4) | _ => false) then setChan s g { h with st := 2 }
      else
        match lowest (mdPlaceFlts s g ga 64 64 6) with
        | some f => chanFault s g f
        | none =>
          match chanAsk s g [(ga, 64)] with
          | (false, s) => s
          | (true, s) =>
            match lineFlt (chanRd s g ga) (bits ga 47 0) 64 with
            | some f => chanFault s g f
            | none =>
              let m := chanBytes s g ga 64
              match chanAsk s g (mdReads s g m) with
              | (false, s) => s
              | (true, s) =>
                match chanAsk s g (if mdKind m = 0 ∨ mdKind m = 3 then mdTables s g (chanBytes s g (mdSrc m) 128) else []) with
                | (false, s) => s
                | (true, s) => chanLoadDesc s g m

/-- `MOVER_DESCRIPTOR_FETCH` (R262). -/
def execMoverDescriptorFetch (k : ClusterId) (ch : Fin 128) (s : State) : Out State := .next (chanFetch s (k.val * 128 + ch.val))

/-- `MOVER_PACE_TAKE` (R268). -/
def execMoverPaceTake (k : ClusterId) (ch : Fin 128) (s : State) : Out State :=
  let g := k.val * 128 + ch.val
  let h := chanOf s g
  .next (if h.st = 3 ∧ 1 ≤ h.pace then setChan s g { h with st := 1, pace := h.pace - 1 } else s)

/-! ### Requests and commits (R266, R273) -/

/-- The units a copy request covers from (u, o) on: contiguous in the source up to `room` bytes. -/
def copyUnits (src : Desc) (ub : Nat) : Nat → Nat → Nat → Nat → Int → List (Nat × Nat × Nat)
  | 0, _, _, _, _ => []
  | fuel + 1, u, o, room, next =>
    if room = 0 ∨ src.unitCount ≤ u then []
    else
      let (pad, a) := src.unitAt u
      if pad ∨ a + o ≠ next then []
      else
        let len := Min.min room (ub - o)
        (u, o, len) :: (if o + len = ub then copyUnits src ub fuel (u + 1) 0 (room - len) (next + len) else [])

/-- Where a unit's bytes from offset o go. -/
def unitDest (dst : Desc) (u o : Nat) : Option Nat :=
  let (pad, a) := dst.unitAt u
  if pad && !dst.matpad then none else some (a.toNat + o)

/-- The fault of a read or write of this device's memory that is no longer there, or whose scratchpad has lost its context or
window since the descriptor was checked (R13, R81). -/
def accessFlt (s : State) (g : Nat) (sp : Space) (a n : Nat) (write : Bool) : Option Flt :=
  match sp with
  | .here => (memFlt s (coreOf s (chanCore s g)) s.fabric.devaddr.toNat a n write).filter fun f => f.sub == 5 || f.sub == 7
  | _ => none

/-- Issue one request: here the bytes are read at once, through the bank ports of a scratchpad (R67, R70), from another device
they come in a response (R273). `h1` is the channel with the request counted, `reqs` those before it. -/
def readRequest (s : State) (g : Nat) (sp : Space) (a n : Nat) (h1 : Chan) (reqs : List MoverReq) (req : MoverReq) : State :=
  let c := chanCore s g
  match sp with
  | .far dev => remoteRead (setChan s g { h1 with reqs := reqs ++ [req] }) (.mover g) c (chanStream g) dev req.tag (chanKey s g) a n
  | sp =>
    match accessFlt s g sp a n false with
    | some f => chanFault s g f
    | none =>
      match askSpace s c (.mover g) sp false [(a, n)] with
      | (false, s) => s
      | (true, s) =>
        let rd : Rd := match sp with | .spad => spadRd s c (.mover g) | _ => memRd s (.mover g)
        match lineFlt rd a n with
        | some f => chanFault s g f
        | none =>
          let s := match sp with | .here => noteSoft s a n | _ => s
          setChan s g { h1 with reqs := reqs ++ [{ req with data := some (rd.bytes a n) }] }

/-- A copy issues its next request. -/
def copyRequest (s : State) (g : Nat) (h : Chan) : State :=
  let c := chanCore s g
  let src := Desc.of h.src
  let dst := Desc.of h.dst
  let ub := src.unitBytes
  let ddev := match dst.space s with | .spad => none | .here => some 0xFFFF | .far d => some d
  if src.unitCount ≤ h.unit ∨ ub = 0 then s
  else
    let (pad, a) := src.unitAt h.unit
    let units := if pad then [(h.unit, h.off, Min.min 512 (ub - h.off))]
      else copyUnits src ub 512 h.unit h.off (512 - (a.toNat + h.off) % 512) (a + h.off)
    let n := units.foldl (fun t u => t + u.2.2) 0
    let last := units.getLastD (h.unit, h.off, 0)
    let ended := decide (last.2.1 + last.2.2 = ub)
    let req : MoverReq := { dev := ddev, pieces := units.map fun u => ⟨unitDest dst u.1 u.2.1, u.2.2⟩, tag := h.nreq % 1024 }
    let h1 := { h with nreq := h.nreq + 1, unit := if ended then last.1 + 1 else last.1
                       off := if ended then 0 else last.2.1 + last.2.2 }
    if pad then
      match src.rawUnit (src.rd s c (.mover g)) h.unit with
      | .ok bs => setChan s g { h1 with reqs := h.reqs ++ [{ req with data := some ((bs.drop h.off).take n) }] }
      | .error f => chanFault s g f
    else readRequest s g (src.space s) (a.toNat + h.off) n h1 h.reqs req

/-- The conditions on one element of a scatter or gather list and on the part of the other side that pairs with it. -/
def elemFlts (s : State) (g : Nat) (h : Chan) (m : List Byte) (e : List Byte) : List Flt :=
  let c := chanCore s g
  let k := coreOf s c
  let ga := wordAt e 0
  let len := numAt e 8 4
  let other := sgSide m + BitVec.ofNat 64 h.contig
  let gather := mdKind m == 1
  let rng := fun (a : W64) (write : Bool) =>
    (memFlt s k (bits a 63 48) (bits a 47 0) len write).toList ++ tierFlt g a (bits a 47 0 : Nat) len
  rng ga (!gather) ++ rng other gather
  ++ faultIf (ddrTier g && (bits ga 5 0 != 0 || len % 64 != 0 || bits other 5 0 != 0)) { cls := 3, sub := 2, addr := ga, w1 := 64 }
  ++ faultIf (len == 0 || numAt e 12 4 != 0) { cls := 0xB, sub := 0xF, addr := ga, w1 := BitVec.ofNat 64 h.unit }

/-- The space of a global address. -/
def spaceAt (s : State) (ga : W64) : Space := if isHere s (bits ga 63 48) then .here else .far (bits ga 63 48)

/-- An element of a gather or scatter begins: its entry is read and checked, its range registered (R264). -/
def sgBegin (s : State) (g : Nat) (h : Chan) (m : List Byte) : State :=
  let gather := mdKind m == 1
  let at_ := (sgList m).1 + BitVec.ofNat 64 (16 * h.unit)
  match chanAsk s g [(at_, 16)] with
  | (false, s) => s
  | (true, s) =>
    let e := sgEntry s g m h.unit
    match lineFlt (chanRd s g at_) (bits at_ 47 0) 16 with
    | some f => chanFault s g f
    | none =>
      match lowest (elemFlts s g h m e) with
      | some f => chanFault s g f
      | none =>
        let ga := wordAt e 0
        let len := numAt e 8 4
        let rs := if !bit (mdCtl m) 59 && isHere s (bits ga 63 48) then mapRange s (bits ga 47 0) len (!gather) else []
        if !canRegisterMany s (chanCore s g) (.mover g) rs then queueMany s (chanCore s g) (.mover g) rs
        else
          setChan (registerMany s (chanCore s g) (.mover g) rs) g { h with entry := some (ga, len), off := 0, ranges := h.ranges ++ rs }

/-- A gather or scatter issues its next request: the element's entry is read and checked before its first access. DEDUCED, log entry 18. -/
def sgRequest (s : State) (g : Nat) (h : Chan) (m : List Byte) : State :=
  let gather := mdKind m == 1
  if (sgList m).2 ≤ h.unit then s
  else match h.entry with
  | none => sgBegin s g h m
  | some (ga, len) =>
    let other := sgSide m + BitVec.ofNat 64 h.contig
    let src := if gather then ga else other
    let dst := if gather then other else ga
    let a := bits src 47 0 + h.off
    let n := Min.min (512 - a % 512) (len - h.off)
    let ends := decide (h.off + n = len)
    let req : MoverReq := { dev := some (if isHere s (bits dst 63 48) then 0xFFFF else bits dst 63 48)
                            pieces := [⟨some (bits dst 47 0 + h.off), n⟩], tag := h.nreq % 1024, ends := ends }
    let h1 := { h with nreq := h.nreq + 1, off := h.off + n, unit := if ends then h.unit + 1 else h.unit
                       entry := if ends then none else h.entry, contig := if ends then h.contig + len else h.contig }
    readRequest s g (spaceAt s src) a n h1 h.reqs req

/-- The requests that read image n of a relay source: the units it is made of, one run after another (R273, R279). -/
def relayReads (d : Desc) (n : Nat) : List (Nat × Nat) :=
  let per := if isImages d then tileBytes else d.unitCount
  let spans := (List.range per).filterMap fun i =>
    let (pad, a) := d.unitAt (n * per + i)
    if pad then none else some (a.toNat, d.unitBytes)
  let runs := spans.foldr (fun p (l : List (Nat × Nat)) =>
    match l with
    | (b, m) :: r => if p.1 + p.2 = b then (p.1, p.2 + m) :: r else p :: (b, m) :: r
    | [] => [p]) []
  (runs.map fun p => cutReads p.1 p.2).flatten

/-- The image that the bytes read make (R279). -/
def relayBuild (s : State) (g : Nat) (d : Desc) (n : Nat) : Except Flt (AMap Byte) :=
  let rd : Rd := { byte := fun a => (mget none (chanOf s g).got a).getD 0, bad := fun _ _ => none }
  if isImages d then (sourceImage d rd n).map fun bs => setBytes [] 0 bs
  else match splitFault (d.vals rd (ddrTier g)) with
    | (_, some f) => .error f
    | (vs, none) => buildTile d.fmt (d.form == 1) (d.dim 3).pext (d.dim 4).pext d.place (vs.map fun v => f32 (rnd32 v))

/-- The requests at the head whose data is there give it to the image; whether all of an image's data is there then. -/
def relayTake (s : State) (g : Nat) : State :=
  let h := chanOf s g
  let done := h.reqs.takeWhile fun q => q.data.isSome
  let got := done.foldl (fun m q => match q.pieces, q.data with
    | p :: _, some bs => bs.zipIdx.foldl (fun m (b, i) => mput (p.dest.getD 0 + i) (some b) m) m
    | _, _ => m) h.got
  setChan s g { h with reqs := h.reqs.drop done.length, got := got }

/-- An image whose bytes have all been read enters the relay's queue, or its fault ends the channel (R279, R280). -/
def relayImageDone (s0 : State) (g : Nat) : State :=
  let s := relayTake s0 g
  let h := chanOf s g
  let d := Desc.of h.src
  let k := g / 128
  let r := relayOf s k
  match h.desc with
  | none => s
  | some m =>
    if mdKind m ≠ 3 ∨ !h.reqs.isEmpty ∨ h.off < (relayReads d h.unit).length ∨ (relayCount d).getD 0 ≤ h.unit then s
    else match relayBuild s g d h.unit with
    | .error f => chanFault (setRelay s k { r with serving := if r.serving = some g then none else r.serving }) g f
    | .ok t =>
      let im : RelayImage := { tile := t, tally := BitVec.ofNat 12 (bits (mdAux m) 63 52), mask := BitVec.ofNat 32 (bits (mdAux m) 31 0), chan := g }
      setChan (setRelay s k { r with toEnter := r.toEnter ++ [im] }) g { h with unit := h.unit + 1, off := 0, got := [] }

/-- A relay descriptor reads on, once the relay serves it: the next request of its next image (R273, R279 to R281). -/
def relayRequest (s : State) (g : Nat) (h : Chan) : State :=
  let k := g / 128
  let d := Desc.of h.src
  let r := relayOf s k
  if (relayCount d).getD 0 ≤ h.unit || !(r.serving.isNone || r.serving == some g) then s
  else
    let s := setRelay s k { r with serving := some g }
    match (relayReads d h.unit)[h.off]? with
    | none => relayImageDone s g
    | some (a, n) =>
      let req : MoverReq := { dev := none, pieces := [⟨some a, n⟩], tag := h.nreq % 1024 }
      relayImageDone (readRequest s g (d.space s) a n { h with nreq := h.nreq + 1, off := h.off + 1 } h.reqs req) g

/-- Requests of a channel that hold a tag: those whose writes have not left yet (R273). -/
def tagsHeld (h : Chan) : Nat := (h.reqs.filter fun q => q.acks.isNone).length

/-- `MOVER_READ_REQUEST` (R273): the channel issues its next request when a tag is free. -/
def execMoverReadRequest (k : ClusterId) (ch : Fin 128) (s : State) : Out State :=
  let g := k.val * 128 + ch.val
  let h := chanOf s g
  match h.desc with
  | none => .next s
  | some m =>
    if h.st ≠ 1 ∨ 64 ≤ tagsHeld h then .next s
    else .next (if mdKind m = 0 then copyRequest s g h else if mdKind m = 3 then relayRequest s g h else sgRequest s g h m)

/-- The writes of a request's pieces. -/
def pieceWrites : List MoverPiece → List Byte → List Wr
  | [], _ => []
  | p :: t, bs =>
    let rest := pieceWrites t (bs.drop p.len)
    match p.dest with
    | some a => (a, bs.take p.len) :: rest
    | none => rest

/-- The additions of an accumulate-write: running FP32 sums, each address then written with its rounded sum (R112). -/
def accWrites (s : State) (c : Nat) (d : Desc) (acc : AMap W32) : List MoverPiece → List Byte → AMap W32 × List Wr
  | [], _ => (acc, [])
  | p :: t, bs =>
    match p.dest with
    | none => accWrites s c d acc t (bs.drop p.len)
    | some a =>
      let es := chunks d.es (bs.take p.len)
      let (acc, ws) := es.zipIdx.foldl (fun (x : AMap W32 × List Wr) (e, i) =>
        let addr := a + i * d.es
        let acc := accStep d (d.oldEnc s c) x.1 addr (elemVal d.fmt (leNat e))
        (acc, x.2 ++ [(addr, leBytes d.es (elemEnc d.fmt (f32 (mget 0 acc addr))))])) (acc, [])
      let (acc, rest) := accWrites s c d acc t (bs.drop p.len)
      (acc, ws ++ rest)

/-- The requests at the head whose writes another device has acknowledged have committed (R266). -/
def chanSettle (s : State) (g : Nat) : State :=
  let h := chanOf s g
  let done := h.reqs.takeWhile fun q => q.acks == some 0
  setChan s g { h with reqs := h.reqs.drop done.length, bytes := done.foldl (fun a q => a + (q.data.getD []).length) h.bytes
                       elems := h.elems + (done.filter (·.ends)).length }

/-- Another device acknowledges a write of the channel: the oldest request that awaits one (R266). -/
def chanAck (s : State) (g : Nat) : State :=
  let h := chanOf s g
  let i := h.reqs.findIdx fun q => match q.acks with | some n => decide (0 < n) | none => false
  match h.reqs[i]? with
  | some q => chanSettle (setChan s g { h with reqs := h.reqs.set i { q with acks := q.acks.map (· - 1) } }) g
  | none => s

/-- Send a request's writes to another device: they count as committed when they have been acknowledged (R266). -/
def commitFar (s : State) (g dv i : Nat) (q : MoverReq) (ws : List Wr) : State :=
  let ls := coalesce ws
  let n := ls.foldl (fun a w => a + ceilDiv w.2.length 512) 0
  let h := chanOf s g
  let s := remoteWrites s (.mover g) (chanCore s g) (chanStream g) dv (chanKey s g) false ls
  chanSettle (setChan s g { h with reqs := h.reqs.set i { q with acks := some n } }) g

/-- Perform a request's writes here: own scratchpad, or memory with the accounting of the channel's stream (R293). -/
def commitHere (s : State) (g : Nat) (own : Bool) (ws : List Wr) : State × Option Flt :=
  if own then
    (creditStream (applyWr s .spad (chanCore s g) (.mover g) ws) s.fabric.devaddr.toNat (chanStream g)
      (ws.foldl (fun a w => a + w.2.length) 0), none)
  else putLines (.mover g) (fun s n => creditStream s s.fabric.devaddr.toNat (chanStream g) n) s (lineWrites ws)

/-- The oldest request whose writes have not left, its data present, commits: here through the bank ports of a scratchpad
(R67, R87), and only once every request before it has committed; what has left for the same other device commits there in
order (R266, R351). A write that R329 refuses, or whose memory is gone, ends the channel and nothing after it commits.
DEDUCED, log entry 18. -/
def chanCommit (s : State) (g : Nat) : State :=
  let h := chanOf s g
  let i := h.reqs.findIdx fun q => q.acks.isNone
  match h.reqs[i]? with
  | none => s
  | some q =>
    match q.data with
    | none => s
    | some bs =>
      let c := chanCore s g
      let d := Desc.of h.dst
      let adds := !h.dst.isEmpty && d.accw
      let (acc, ws) := if adds then accWrites s c d h.acc q.pieces bs else (h.acc, pieceWrites q.pieces bs)
      let sp : Space := match q.dev with | none => .spad | some 0xFFFF => .here | some dv => .far dv
      let spans := ws.map fun w => (w.1, w.2.length)
      if ((h.reqs.take i).any fun p => p.dev != q.dev) || !ownRoom s (chanStream g) then s
      else if (h.desc.map mdKind) == some 3 then s
      else match spans.findSome? fun p => accessFlt s g sp p.1 p.2 true with
      | some f => chanFault (setChan s g { h with reqs := [] }) g f
      | none =>
        match askSpace s c (.mover g) sp true spans with
        | (false, s) => s
        | (true, s) =>
          let n := ws.foldl (fun a w => a + w.2.length) 0
          let dv := q.dev.getD 0xFFFF
          let note := fun (h : Chan) => { h with acc := acc, wrote := mset 0 h.wrote dv (mget 0 h.wrote dv + n) }
          match sp with
          | .far dv => modChan (commitFar s g dv i q ws) g note
          | sp =>
            match commitHere s g (sp == .spad) ws with
            | (s, some f) => chanFault (setChan s g { h with reqs := [] }) g f
            | (s, none) => modChan s g fun h =>
              note { h with reqs := h.reqs.eraseIdx i, bytes := h.bytes + bs.length, elems := if q.ends then h.elems + 1 else h.elems }

/-- `MOVER_WRITE_COMMIT` (R266): see `chanCommit`. -/
def execMoverWriteCommit (k : ClusterId) (ch : Fin 128) (s : State) : Out State := .next (chanCommit s (k.val * 128 + ch.val))

/-! ### Completion (R267) -/

/-- Whether a relay descriptor's images have all passed their receivers. DEDUCED, log entry 18. -/
def relayDone (s : State) (g : Nat) : Bool :=
  let r := relayOf s (g / 128)
  !(r.toEnter.any fun i => i.chan == g) && !(r.ring.any fun i => i.chan == g)

/-- Whether the descriptor in progress has issued and completed everything. -/
def chanWhole (s : State) (g : Nat) (h : Chan) (m : List Byte) : Bool :=
  h.st != 3 && !chanBusy s g && (if mdKind m = 0 then
      decide ((Desc.of h.src).unitCount ≤ h.unit) || (Desc.of h.src).unitBytes == 0
    else if mdKind m = 3 then decide ((relayCount (Desc.of h.src)).getD 0 ≤ h.unit) && relayDone s g
    else decide ((sgList m).2 ≤ h.unit))

/-- Advance `ETAL` for channel g: at once in its own cluster, as a local signal elsewhere (R267, R287); none where the
tally would pass its range (R284). -/
def chanSignal (s : State) (g : Nat) (m : List Byte) : Except Flt State :=
  let x := (chanCtx (chanOf s g)).getD 0
  let c := chanCore s g
  let t := BitVec.ofNat 12 (bits (mdCtl m) 55 44)
  let n := bits (mdCtl m) 31 0
  match translateCtx s x c t with
  | none => .error { cls := 8, sub := 6, addr := (chanOf s g).head, w1 := BitVec.ofNat 64 t.toNat }
  | some p =>
    if p / 4096 = g / 128 then
      if overflows s p n then
        .error { cls := 8, sub := 5, addr := (chanOf s g).head, w1 := BitVec.ofNat 64 t.toNat
                 w2 := BitVec.ofNat 64 (tallyAt s p), w3 := BitVec.ofNat 64 n }
      else .ok (advance s p n)
    else .ok { s with localSigs := s.localSigs ++ [{ core := c, eng := .fetch, pc := 0, chan := some g, phys := p, amount := n, virt := t }] }

/-- The events of a completed descriptor, in order; a fault among them ends the channel (R267, R268). -/
def chanEvents (s : State) (g : Nat) (h : Chan) (m : List Byte) : Except (State × Flt) State :=
  let w := mdCtl m
  let r1 : Except (State × Flt) State := if bit w 57 then
      match chanSignal s g m with | .ok s => .ok s | .error f => .error (s, f)
    else .ok s
  r1.bind fun s =>
    let rs := mdRsig m
    let dv := bits rs 63 48
    let n := mget 0 h.wrote (if isHere s dv then 0xFFFF else dv)
    let r := if rs ≠ 0 then countedSignal s (.mover g) (chanCore s g) (chanStream g) (chanKey s g) rs n h.head else (s, true)
    let s := r.1
    if !r.2 then .error (s, { cls := 8, sub := 8, addr := h.head, w1 := BitVec.ofNat 64 (bits rs 14 3) })
    else if bit w 56 then
      let o := g / 128 * 128 + bits w 43 37
      let p := chanOf s o
      if 0xFFFFFFFF ≤ p.pace then
        .error (s, { cls := 8, sub := 3, addr := h.head, w1 := BitVec.ofNat 64 (bits w 43 37), w2 := BitVec.ofNat 64 p.pace, w3 := 1 })
      else .ok (setChan s o { p with pace := p.pace + 1 })
    else .ok s

/-- A channel completes its descriptor: events, then the next descriptor or idle (R267). -/
def chanComplete (s : State) (g : Nat) : State :=
  let h := chanOf s g
  match h.desc with
  | none => s
  | some m =>
    if !(h.st == 1 || (h.st == 4 && h.cause != 3)) || !chanWhole s g h m then s
    else
      let s := chanRetire s g
      let done := fun (h : Chan) => { h with desc := none, head := mdNext m, unit := 0, off := 0, contig := 0, bytes := 0
                                             elems := 0, wrote := [], acc := [], src := [], dst := [], entry := none, got := [] }
      match chanEvents s g (chanOf s g) m with
      | .error (s, f) => chanFault (modChan s g done) g f
      | .ok s =>
        let s := modChan s g done
        if h.st = 4 then stopIfDone s g
        else if mdNext m = 0 then modChan s g fun h => { h with st := 0 } else s

/-- `MOVER_DESCRIPTOR_COMPLETE` (R267). -/
def execMoverDescriptorComplete (k : ClusterId) (ch : Fin 128) (s : State) : Out State := .next (chanComplete s (k.val * 128 + ch.val))

/-- `LOCAL_SIGNAL_ARRIVE` (R287): the i-th local signal takes effect; one that would pass the range is a fault of its
source, an engine or a Mover channel (R284, R272). -/
def execLocalSignalArrive (i : Nat) (s : State) : Out State :=
  match s.localSigs[i]? with
  | none => .next s
  | some q =>
    let s := { s with localSigs := s.localSigs.eraseIdx i }
    if !overflows s q.phys q.amount then .next (advance s q.phys q.amount)
    else match q.chan with
    | none => .next (lateFault s q.core (signalRec s q.eng q.pc q.virt q.phys q.amount))
    | some g =>
      let f : Flt := { cls := 8, sub := 5, addr := (chanOf s g).head, w1 := BitVec.ofNat 64 q.virt.toNat
                       w2 := BitVec.ofNat 64 (tallyAt s q.phys), w3 := BitVec.ofNat 64 q.amount }
      .next (if chanFree (chanOf s g) then report s (some (g / 128)) (.fault (chanRec s g f)) else chanFault s g f)

/-! ### Held counted signals act (R293) -/

/-- The fault of a counted signal of this device whose tally would pass its range, at its source (R284): the core of an engine's
stream, or the Mover channel. DEDUCED, log entry 15. -/
def sourceFault (s : State) (stream : Nat) (h : HeldSig) (p : Nat) : State :=
  if 0x400 ≤ stream ∧ stream < 0xC00 then
    let g := stream - 0x400
    let f : Flt := { cls := 8, sub := 5, addr := h.cmd, w1 := BitVec.ofNat 64 h.t.toNat, w2 := BitVec.ofNat 64 (tallyAt s p), w3 := 1 }
    if chanFree (chanOf s g) then report s (some (g / 128)) (.fault (chanRec s g f)) else chanFault s g f
  else
    let c := stream % 0x200
    lateFault s c (overflowRec s (match h.agent with | .engine e => engKind e | _ => 3) h.cmd h.t.toNat p 1)

/-- Act the oldest held signal of a stream once U covers it (R293); a tally that would overflow keeps its value, and the source
has the fault (R284): a source of this device at once, for another device the MC is told. DEDUCED, log entry 15. -/
def actHeld (s : State) (src stream : Nat) : State :=
  let key := src * 4096 + stream
  let e := mget {} s.srcs key
  match e.held with
  | [] => s
  | h :: t =>
    if e.uncredited < h.bytes then s
    else
      let s := { s with srcs := mset {} s.srcs key { uncredited := e.uncredited - h.bytes, held := t } }
      match rsigTally s h.ctx h.t.toNat with
      | none => s
      | some p =>
        if !overflows s p 1 then advance s p 1
        else if src = s.fabric.devaddr.toNat then sourceFault s stream h p
        else report s none (.fault { (overflowRec s 0x0D 0 h.t.toNat p 1) with beat := beatW s, ctx := some h.ctx })

/-- `COUNTED_SIGNAL_ACT` (R293). -/
def execCountedSignalAct (src : BitVec 16) (stream : BitVec 12) (s : State) : Out State :=
  .next (actHeld s src.toNat stream.toNat)

/-! ### The relay (R280, R281) -/

/-- `RELAY_IMAGE_ENTER` (R280): the next image enters once the one before it has reached core 0. -/
def execRelayImageEnter (k : ClusterId) (s : State) : Out State :=
  let r := relayOf s k.val
  match r.toEnter with
  | [] => .next s
  | im :: rest =>
    let free := match r.ring.getLast? with | some x => decide (1 ≤ x.pos) | none => true
    if !free then .next s
    else
      let g := im.chan
      let h := chanOf s g
      let all := h.desc.isNone || decide ((relayCount (Desc.of h.src)).getD 0 ≤ h.unit)
      .next (setRelay s k.val { toEnter := rest, ring := r.ring ++ [im]
                                serving := if rest.isEmpty && all then none else r.serving })

/-- `RELAY_HOP` (R280, R281): image i reaches the next core, and a receiver buffers it and advances its relay tally.
It waits behind the image ahead of it and at a receiver whose buffer is full. -/
def execRelayHop (k : ClusterId) (i : Nat) (s : State) : Out State :=
  let r := relayOf s k.val
  match r.ring[i]? with
  | none => .next s
  | some im =>
    let c := k.val * 32 + im.pos
    let ahead := match (if i = 0 then none else r.ring[i - 1]?) with | some x => decide (im.pos + 2 ≤ x.pos) | none => true
    let takes := im.mask.getLsbD im.pos && ctxOf (coreOf s c) == chanCtx (chanOf s im.chan) && goodCore s c
    if !ahead || (takes && decide (2 ≤ (coreOf s c).relayBuf.length)) then .next s
    else
      let s := if takes then
          completeTally (modCore s c fun q => { q with relayBuf := q.relayBuf ++ [im] }) c 8 im.tally
        else s
      let im' := { im with pos := im.pos + 1 }
      .next (setRelay s k.val { r with ring := if im.pos + 1 = 32 then r.ring.eraseIdx i else r.ring.set i im' })

end Sys2Proof.Machine
end

