-- ==== Sys2Proof/Machine/Herd.lean ====
section
/-! DEFINITION. The Herd unit (R301 to R320): routing, packing, live pairs, dispatch and capacity, finalisation,
return, combine and cancellation. -/

namespace Sys2Proof.Machine

open Sys2Proof

/-! ### The block and its fields (Tables 13.2, 13.3) -/

/-- `SERIAL`. -/
def hbSerial (b : List Byte) : Nat := bits (wordAt b 0) 63 52
/-- `HALF`. -/
def hbHalf (b : List Byte) : Bool := bit (wordAt b 0) 51
/-- k. -/
def hbK (b : List Byte) : Nat := bits (wordAt b 0) 50 48 + 1
/-- E. -/
def hbE (b : List Byte) : Nat := bits (wordAt b 0) 47 40 + 1
/-- `GATE`. -/
def hbGate (b : List Byte) : Nat := bits (wordAt b 0) 39 38
/-- `OFMT`. -/
def hbOfmt (b : List Byte) : Nat := bits (wordAt b 0) 37 34
/-- T. -/
def hbT (b : List Byte) : Nat := bits (wordAt b 0) 31 16 + 1
/-- RW, bytes of a dispatched row. -/
def hbRw (b : List Byte) : Nat := bits (wordAt b 8) 31 16 * 64
/-- OW, bytes of a returned row. -/
def hbOw (b : List Byte) : Nat := bits (wordAt b 8) 15 0 * 64
/-- `CF`. -/
def hbCf (b : List Byte) : Nat := bits (wordAt b 0x10) 63 48
/-- `NTOK`. -/
def hbNtok (b : List Byte) : Nat := bits (wordAt b 0x10) 31 0
/-- `RTAL`. -/
def hbRtal (b : List Byte) : BitVec 12 := BitVec.ofNat 12 (bits (wordAt b 0x20) 63 52)
/-- `NSRC`. -/
def hbNsrc (b : List Byte) : Nat := bits (wordAt b 0x20) 12 0

/-- The Herd unit of cluster k. -/
def herdOf (s : State) (k : Nat) : Herd := mget {} s.herds k
/-- Replace it. -/
def setHerd (s : State) (k : Nat) (h : Herd) : State := { s with herds := mset {} s.herds k h }
/-- Apply a change to it. -/
def modHerd (s : State) (k : Nat) (f : Herd → Herd) : State := setHerd s k (f (herdOf s k))
/-- The source stream of a Herd unit (Table 12.3). -/
def herdStream (k : Nat) : Nat := 0xC10 + k

/-- The live pair (serial, half) at cluster k. -/
def pairAt (s : State) (k serial : Nat) (half : Bool) : Option HerdPair :=
  ((herdOf s k).pairs.filterMap id).find? fun p => p.serial == serial && p.half == half
/-- Replace a live pair by a changed one, or by nothing. -/
def setPair (s : State) (k serial : Nat) (half : Bool) (q : Option HerdPair) : State :=
  modHerd s k fun h => { h with pairs := h.pairs.map fun p => match p with
    | some x => if x.serial = serial ∧ x.half = half then q else p
    | none => none }

/-- A token tag (Table 13.5). -/
def herdTag (b : List Byte) (dev cl slot rank : Nat) : W64 :=
  BitVec.ofNat 64 (hbSerial b * 2 ^ 52 + (if hbHalf b then 2 ^ 51 else 0) + dev * 2 ^ 35 + cl * 2 ^ 31 + slot * 2 ^ 15 + rank * 2 ^ 12)

/-! ### Checks at fetch (R302, R303) -/

/-- The Herd commands: 0 route, 1 pack, 2 open, 3 dispatch, 4 return, 5 cancel, 6 comb. -/
abbrev HerdOp := Nat

/-- The arrays a command reads or writes: address, length, write (lengths rounded up to 64, R303); a return reads the map and the
source list. DEDUCED, log entry 19. -/
def herdArrays (op : HerdOp) (b : List Byte) : List (W64 × Nat × Bool) :=
  let w := wordAt b
  let tk := hbT b * hbK b
  let r := fun n => roundUp n 64
  if op = 0 then [(w 0x30, 64 * hbT b, true)]
  else if op = 1 then [(w 0x30, 64 * hbT b, false), (w 0x38, tk * hbRw b, true), (w 0x40, r (tk * 8), true), (w 0x48, r (hbE b * 8), true)]
  else if op = 2 then [(w 0x18, r (4 * hbNsrc b), false), (w 0x28, 64 * hbE b, false), (w 0x50, tk * hbOw b, true)
                       , (w 0x58, r tk, true), (w 0x60, r (hbE b * 16), true)]
  else if op = 3 then [(w 0x28, 64 * hbE b, false), (w 0x30, 64 * hbT b, false), (w 0x38, tk * hbRw b, false)
                       , (w 0x40, r (tk * 8), false), (w 0x48, r (hbE b * 8), false)]
  else if op = 4 then [(w 0x18, r (4 * hbNsrc b), false), (w 0x28, 64 * hbE b, false)]
  else if op = 6 then [(w 0x28, 64 * hbE b, false), (w 0x30, 64 * hbT b, false), (w 0x50, tk * hbOw b, false), (w 0x58, r tk, false)]
  else []

/-- Whether the block fields that a command uses break Table 13.3. -/
def badHerdBlock (op : HerdOp) (b : List Byte) : Bool :=
  let w := wordAt b
  let rows := bits (w 8) 63 32 != 0
  let rwu := bits (w 8) 31 16
  let owu := bits (w 8) 15 0
  bits (w 0) 33 32 != 0 || bits (w 0) 15 0 != 0 || (op != 5 && decide (hbE b < hbK b))
  || (op == 6 && (hbGate b == 3 || decide (2 < hbOfmt b)))
  || ((op == 1 || op == 2 || op == 3) && (rows || rwu == 0 || decide (1024 < rwu)))
  || ((op == 2 || op == 4 || op == 6) && (rows || owu == 0 || decide (1024 < owu)))
  || (op == 2 && (hbCf b == 0 || bits (w 0x10) 47 32 != 0 || hbNtok b == 0))
  || ((op == 2 || op == 4) && (bits (w 0x20) 51 13 != 0 || hbNsrc b == 0 || decide (4096 < hbNsrc b)))
  || (b.drop 0x68).any (· != 0)

/-- The tensor of a Herd command without its pads: T rows (R304, R305, R315). -/
def herdTensor (img : List Byte) : Desc :=
  let d := Desc.of img
  { d with dims := d.dims.map fun x => { x with lo := 0, hi := 0 } }

/-- The stored units of one row of a Herd command's tensor. -/
def herdRowUnits (d : Desc) : Nat := d.unitCount / Max.max 1 (d.dim 3).ext

/-- Whether d1 meets R304, R305 or R315, which name the extents themselves. -/
def herdTensorOk (op : HerdOp) (d : Desc) (b : List Byte) : Bool :=
  let shape := d.plain && (List.range 3).all (fun i => (d.dim i).ext == 1) && (d.dim 3).ext == hbT b
  if op = 0 then shape && (d.fmt == 0 || d.fmt == 1) && (d.dim 4).ext == hbE b
  else if op = 1 then shape && herdRowUnits d * d.unitBytes == hbRw b
  else if op = 6 then shape && decide (d.fmt ≤ 2) && (d.dim 4).ext * (elemBits (hbOfmt b) / 8) == hbOw b
  else true

/-- Every check of a Herd command when the unit fetches it (R302, R303, R308, R309, R313, R315, R288). -/
def herdFlts (s : State) (c : Nat) (op : HerdOp) (d1 : List Byte) (ctl : W64) (t : BitVec 12) : List Flt :=
  let k := coreOf s c
  let off := bits ctl 20 0
  let at_ := BitVec.ofNat 64 off
  match spadFlt k (off : Nat) 192 with
  | some f => [f]
  | none =>
    let b := (spadRd s c).bytes off 128
    let d := Desc.of d1
    let bad := badHerdBlock op b
    let arrays := herdArrays op b
    let pair := pairAt s (clusterOf c) (hbSerial b) (hbHalf b)
    let own := match pair with | some p => some p.ctx == ctxOf k | none => false
    let full := ((herdOf s (clusterOf c)).pairs.filter fun p => p.isNone).isEmpty
    let slot := (herdOf s (clusterOf c)).pairs.findIdx fun p => match p with
      | some p => p.serial == hbSerial b && p.half == hbHalf b
      | none => false
    let queue := if op = 2 then pair.isSome || full
      else if op = 3 ∨ op = 6 then !own
      else if op = 4 then !own || !(pair.map (·.final)).getD false
      else false
    (arrays.filterMap fun a => memFlt s k (bits a.1 63 48) (bits a.1 47 0) a.2.1 a.2.2)
    ++ faultIf (off % 64 != 0) { cls := 3, sub := 7, addr := at_, w1 := 64 }
    ++ (arrays.map fun a => faultIf (bits a.1 5 0 != 0) { cls := 3, sub := 7, addr := a.1, w1 := 64 }).flatten
    ++ faultIf queue { cls := 7, sub := 7, addr := at_, w1 := if slot < 4 then BitVec.ofNat 64 slot else noIndex }
    ++ faultIf (translate s c t).isNone { cls := 8, sub := 6, addr := at_, w1 := BitVec.ofNat 64 t.toNat }
    ++ faultIf (op == 2 && (translate s c (hbRtal b)).isNone) { cls := 8, sub := 6, addr := at_, w1 := BitVec.ofNat 64 (hbRtal b).toNat }
    ++ (if op = 0 ∨ op = 1 ∨ op = 6 then d.check s c { write := op == 6 } at_ else [])
    ++ faultIf (bits ctl 63 24 != 0 || bits ctl 21 21 != 0 || (bits ctl 23 22 != 0 && (op == 0 || op == 1 || op == 6))
        || bad || ((op == 0 || op == 1 || op == 6) && !herdTensorOk op (herdTensor d1) b)) { cls := 0xB, sub := 0x11, addr := at_, w1 := noIndex }

/-- A Herd command ends on a fault: credit returned, one record, no tally; the core does not stop (R320). -/
def herdFault (s : State) (c : Nat) (off : Nat) (f : Flt) : State :=
  let s := giveCredit (nextFree s) c 2
  let x := ctxOf (coreOf s c)
  let r := coreRec s c (f.toRec 9)
  if f.cls = 9 then
    let s := countErr s f x
    report s (some (clusterOf c)) (.fault { r with addr := errLine s f, w1 := BitVec.ofNat 64 off, flags := if x.isSome then 2 else 0 })
  else report s (some (clusterOf c)) (.fault r)

/-- The space of a global address for a unit of this device. -/
def globalSpace (s : State) (ga : W64) : Space := if isHere s (bits ga 63 48) then .here else .far (bits ga 63 48)

/-- Writes of a Herd unit for its command `id` (0: none) at a global address. -/
def herdWrite (s : State) (c id : Nat) (ga : W64) (bs : List Byte) : State × Option Flt :=
  unitWrites s (globalSpace s ga) c (.herd id) (some (herdStream (clusterOf c))) [(bits ga 47 0, bs)]

/-- Perform several writes, the first fault ending them. -/
def herdWrites (s : State) (c id : Nat) : List (W64 × List Byte) → State × Option Flt
  | [] => (s, none)
  | (ga, bs) :: t => match herdWrite s c id ga bs with
    | (s, none) => herdWrites s c id t
    | r => r

/-- The first line in ranges of global memory that cannot be corrected (R331). -/
def globalBad (s : State) (l : List (W64 × Nat)) : Option Flt := l.findSome? fun p => lineFlt (globalRd s p.1) (bits p.1 47 0) p.2

/-! ### Route and pack (R304, R305) -/

/-- Whether logit a of expert i ranks before logit b of expert j. -/
def logitBefore (a b : W32 × Nat) : Bool := f32Lt b.1 a.1 || (!f32Lt a.1 b.1 && decide (a.2 < b.2))

/-- Insert by rank. -/
def logitInsert (x : W32 × Nat) : List (W32 × Nat) → List (W32 × Nat)
  | [] => [x]
  | y :: t => if logitBefore x y then x :: y :: t else y :: logitInsert x t

/-- The k best experts of a token's logits. -/
def topChoices (k : Nat) (l : List W32) : List (W32 × Nat) :=
  ((l.zipIdx).foldl (fun a x => logitInsert x a) []).take k

/-- The 64-byte route record of a token's choices (Table 13.4). -/
def routeRecord (ch : List (W32 × Nat)) : List Byte :=
  padTo 64 ((ch.map fun q => leBytes 4 q.2 ++ leBytes 4 q.1.toNat).flatten)

/-- Route every token; the records before a NaN logit or an uncorrectable line are written. -/
def herdRouteRun (s : State) (c off id : Nat) (b d1 : List Byte) : State × Option Flt :=
  let d := herdTensor d1
  let vs := d.vals (d.rd s c)
  let e := hbE b
  let recs : List (Except Flt (List Byte)) := (List.range (hbT b)).map fun tok =>
    match splitFault ((vs.drop (tok * e)).take e) with
    | (_, some f) => Except.error f
    | (l, none) =>
      if l.any FV.isNan then .error ({ cls := 0xB, sub := 0x12, addr := BitVec.ofNat 64 off, w1 := BitVec.ofNat 64 tok } : Flt)
      else .ok (routeRecord (topChoices (hbK b) (l.map rnd32)))
  let good := recs.takeWhile fun r => match r with | .ok _ => true | .error _ => false
  let out := (good.map fun r => match r with | .ok x => x | .error _ => []).flatten
  match (if out.isEmpty then (s, none) else herdWrite s c id (wordAt b 0x30) out) with
  | (s, some f) => (s, some f)
  | (s, none) => (s, match recs[good.length]? with
    | some (Except.error f) => some f
    | _ => none)

/-- A token's choices read from its route record, checked (R304). -/
def readRoute (s : State) (b : List Byte) (tok : Nat) : Except Flt (List (W32 × Nat)) :=
  let ga := wordAt b 0x30
  let rd := globalRd s ga
  let a := bits ga 47 0 + 64 * tok
  match lineFlt rd a 64 with
  | some f => .error f
  | none =>
    let ents := (List.range (hbK b)).map fun r => (BitVec.ofNat 32 (rd.num (a + 8 * r + 4) 4), rd.num (a + 8 * r) 1)
    match ents.zipIdx.find? fun (q, i) => decide (hbE b ≤ q.2) || (ents.take i).any fun p => p.2 == q.2 with
    | some (q, i) => .error { cls := 5, sub := 9, addr := ga, w1 := BitVec.ofNat 64 q.2
                              w2 := BitVec.ofNat 64 (hbE b), w3 := BitVec.ofNat 64 (tok * 8 + i) }
    | none => .ok ents

/-- The choices of every token, or the first fault. -/
def readRoutes (s : State) (b : List Byte) : Except Flt (List (List (W32 × Nat))) :=
  (List.range (hbT b)).foldl (fun (acc : Except Flt (List (List (W32 × Nat)))) tok =>
    acc.bind fun o => (readRoute s b tok).map fun r => o ++ [r]) (.ok [])

/-- Count, prefix-sum and pack (R305). -/
def herdPackRun (s : State) (c id : Nat) (b d1 : List Byte) : State × Option Flt :=
  let d := herdTensor d1
  let ne := herdRowUnits d
  match readRoutes s b with
  | .error f => (s, some f)
  | .ok routes =>
    let choices := (List.range (hbE b)).map fun e =>
      (routes.zipIdx.map fun (r, tok) => (r.zipIdx.filter fun (q, _) => q.2 == e).map fun (_, rank) => (tok, rank)).flatten
    let table := (choices.foldl (fun (acc : List Byte × Nat) l =>
      (acc.1 ++ leBytes 4 l.length ++ leBytes 4 acc.2, acc.2 + l.length)) ([], 0)).1
    let order := choices.flatten
    let row := fun (tok : Nat) =>
      (List.range ne).foldl (fun (a : Except Flt (List Byte)) i => a.bind fun x => (d.rawUnit (d.rd s c) (tok * ne + i)).map fun y => x ++ y) (.ok [])
    let rows := order.foldl (fun (a : Except Flt (List Byte)) q => a.bind fun x => (row q.1).map fun y => x ++ y) (.ok [])
    let dev := s.fabric.devaddr.toNat
    let tags := (order.map fun q => leBytes 8 (herdTag b dev (clusterOf c) q.1 q.2).toNat).flatten
    match rows with
    | .error f => (s, some f)
    | .ok rows =>
      herdWrites s c id [(wordAt b 0x48, padTo (roundUp (hbE b * 8) 64) table), (wordAt b 0x38, rows)
                      , (wordAt b 0x40, padTo (roundUp (hbT b * hbK b * 8) 64) tags)]

/-! ### The exchange group (R307, R308) -/

/-- Entry e of the expert map. -/
def mapEntry (s : State) (b : List Byte) (e : Nat) : List Byte :=
  let ga := wordAt b 0x28
  (globalRd s ga).bytes (bits ga 47 0 + 64 * e) 64
/-- The home of an entry, as device × 16 + cluster, this device under its own address. -/
def entryHome (s : State) (m : List Byte) : Nat :=
  let d := numAt m 6 2
  (if isHere s d then s.fabric.devaddr.toNat else d) * 16 + bits (wordAt m 0) 35 32
/-- `RROWS`. -/
def entryRows (m : List Byte) : Nat := bits (wordAt m 0) 31 16

/-- This device's cluster k, as device × 16 + cluster. -/
def placeOf (s : State) (k : Nat) : Nat := s.fabric.devaddr.toNat * 16 + k

/-- Capacity C (R308). -/
def herdCap (b : List Byte) : Nat := ceilDiv (hbCf b * hbNtok b * hbK b) (hbE b * 4096)

/-- The sources of a block's list. -/
def sourceList (s : State) (b : List Byte) : List Nat :=
  let ga := wordAt b 0x18
  (List.range (hbNsrc b)).map fun i =>
    let w := (globalRd s ga).num (bits ga 47 0 + 4 * i) 4
    let d := nbits w 31 16
    (if isHere s d then s.fabric.devaddr.toNat else d) * 16 + nbits w 3 0

/-- The distinct homes of a block's map, ascending. -/
def homeList (s : State) (b : List Byte) : List Nat :=
  sortBy (fun a b => decide (a ≤ b)) (((List.range (hbE b)).map fun e => entryHome s (mapEntry s b e)).dedup)

/-- The conditions of an open on the entries of the experts homed here (R307, R308). -/
def openFlts (s : State) (c off : Nat) (b : List Byte) : List Flt :=
  let k := coreOf s c
  let at_ := BitVec.ofNat 64 off
  ((List.range (hbE b)).map fun e =>
    let m := mapEntry s b e
    if entryHome s m != placeOf s (clusterOf c) then []
    else
      let n := entryRows m
      let bufs : List (W64 × Nat × Bool) := [(wordAt m 8, n * hbRw b, true), (wordAt m 0x10, n * hbRw b, true)
        , (wordAt m 0x18, roundUp (n * 8) 64, true), (wordAt m 0x20, n * hbOw b, false)]
      (bufs.filterMap fun q => memFlt s k (bits q.1 63 48) (bits q.1 47 0) q.2.1 q.2.2)
      ++ (bufs.map fun q => faultIf (bits q.1 5 0 != 0) { cls := 3, sub := 7, addr := q.1, w1 := 64 }).flatten
      ++ faultIf (bits (wordAt m 0) 47 36 != 0 || bits (wordAt m 0) 15 0 != 0 || n == 0 || (m.drop 0x28).any (· != 0)
          || bufs.any fun q => !isHere s (bits q.1 63 48)) { cls := 0xB, sub := 0x11, addr := at_, w1 := BitVec.ofNat 64 e }
      ++ faultIf (decide (n < herdCap b)) { cls := 0xB, sub := 0x13, addr := at_, w1 := BitVec.ofNat 64 e, w2 := BitVec.ofNat 64 (herdCap b) }).flatten

/-- Make the block's pair live (R308). DEDUCED, log entry 19. -/
def herdOpenRun (s : State) (c off id : Nat) (b : List Byte) : State × Option Flt :=
  match lowest ((globalBad s [(wordAt b 0x28, 64 * hbE b), (wordAt b 0x18, 4 * hbNsrc b)]).toList ++ openFlts s c off b) with
  | some f => (s, some f)
  | none =>
    let k := clusterOf c
    let experts := (List.range (hbE b)).foldl (fun (m : AMap (Option HerdExpert)) e =>
      let en := mapEntry s b e
      if entryHome s en == placeOf s k then mput e (some { entry := en, cap := herdCap b }) m else m) []
    match herdWrite s c id (wordAt b 0x58) (List.replicate (roundUp (hbT b * hbK b) 64) 0) with
    | (s, some f) => (s, some f)
    | (s, none) =>
      let p : HerdPair := { serial := hbSerial b, half := hbHalf b, ctx := (ctxOf (coreOf s c)).getD 0, core := c, blk := b
                            sources := sourceList s b, experts := experts }
      let put := fun (h : Herd) => match h.pairs.findIdx? (·.isNone) with
        | some i => { h with pairs := h.pairs.set i (some p) }
        | none => h
      (modHerd s k put, none)

/-! ### Messages -/

/-- Payload bytes of a row part in a frame (DESIGN CHOICE, log entry 24). -/
def herdPartBytes : Nat := 480

/-- Send one message: on this device through `herdMsgs`, to another as frames (DESIGN CHOICE, log entry 24). -/
def herdSend (s : State) (k id : Nat) (c : Nat) (dev : Nat) (m : HerdMsg) : State :=
  if dev == s.fabric.devaddr.toNat then { s with herdMsgs := s.herdMsgs ++ [{ m with cmd := some id }] }
  else
    let back := m.kind / 2
    let addr := m.cluster + 16 * back
    let hdr := leBytes 8 m.tag.toNat ++ leBytes 4 m.score.toNat ++ leBytes 1 m.expert ++ leBytes 3 0
    if m.kind % 2 = 0 then
      (chunks herdPartBytes m.row).zipIdx.foldl (fun s (bs, i) =>
        sendRequest s (.herd (id + 1)) c (newFrame s 9 dev (herdStream k) m.skey (addr + 256 * i) m.row.length (hdr ++ bs))) s
    else sendRequest s (.herd (id + 1)) c (newFrame s 0xA dev (herdStream k) m.skey addr m.count hdr)

/-- Dispatch (R309): per home in ascending order its rows in packed order, then its count message. -/
def herdDispatchRun (s : State) (c id : Nat) (b : List Byte) : State × Option Flt :=
  let k := clusterOf c
  let g := fun (o : Nat) => globalRd s (wordAt b o)
  let a := fun (o : Nat) => bits (wordAt b o) 47 0
  let key := coreKey s c
  let here := s.fabric.devaddr.toNat
  let experts := List.range (hbE b)
  let count := fun e => (g 0x48).num (a 0x48 + 8 * e) 4
  let prefix_ := fun e => (g 0x48).num (a 0x48 + 8 * e + 4) 4
  match globalBad s ((herdArrays 3 b).map fun r => (r.1, r.2.1)) with
  | some f => (s, some f)
  | none =>
    ((homeList s b).foldl (fun s home =>
      let mine := experts.filter fun e => entryHome s (mapEntry s b e) == home
      let places := (mine.map fun e => (List.range (Min.min (count e) (hbT b * hbK b))).map fun i => (e, prefix_ e + i)).flatten
      let base : HerdMsg := { kind := 0, cluster := home % 16, skey := key, srcDev := here, srcCl := k, tag := herdTag b here k 0 0 }
      let s := places.foldl (fun s (e, q) =>
        let tag := BitVec.ofNat 64 ((g 0x40).num (a 0x40 + 8 * q) 8)
        let score := (g 0x30).num (a 0x30 + 64 * bits tag 30 15 + 8 * bits tag 14 12 + 4) 4
        herdSend s k id c (home / 16) { base with tag := tag, score := BitVec.ofNat 32 score, expert := e
                                                  row := (g 0x38).bytes (a 0x38 + q * hbRw b) (hbRw b) }) s
      herdSend s k id c (home / 16) { base with kind := 1, count := places.length }) s, none)

/-- Return (R313): every kept row of the hosted experts to the source its tag names, then the done messages. -/
def herdReturnRun (s : State) (c id : Nat) (p : HerdPair) : State × Option Flt :=
  let k := clusterOf c
  let here := s.fabric.devaddr.toNat
  let key := coreKey s c
  let rows := (p.experts.map fun (_, x) => match x with
    | none => []
    | some x => (List.range x.kept.length).map fun j =>
      let ta := bits (wordAt x.entry 0x18) 47 0 + 8 * j
      let oa := bits (wordAt x.entry 0x20) 47 0 + j * hbOw p.blk
      (ta, BitVec.ofNat 64 ((memRd s).num ta 8), oa)).flatten
  let spans := (rows.map fun r => [(r.1, 8), (r.2.2, hbOw p.blk)]).flatten
  match spans.findSome? fun r => lineFlt (memRd s) r.1 r.2 with
  | some f => (s, some f)
  | none =>
    let s := noteSpans s spans
    let place := fun (t : W64) => bits t 50 35 * 16 + bits t 34 31
    let base : HerdMsg := { kind := 2, cluster := 0, skey := key, srcDev := here, srcCl := k, tag := herdTag p.blk here k 0 0 }
    let s := rows.foldl (fun s r =>
      let t := r.2.1
      herdSend s k id c (bits t 50 35) { base with cluster := bits t 34 31, tag := t, row := readMem s r.2.2 (hbOw p.blk) }) s
    (p.sources.foldl (fun s q =>
      herdSend s k id c (q / 16) { base with kind := 3, cluster := q % 16, count := (rows.filter fun r => place r.2.1 == q).length }) s, none)

/-- Whether a fetched command of a unit belongs to a pair: an open, dispatch, return or combine. -/
def ofPair (serial : Nat) (half : Bool) (q : HerdCmd) : Bool :=
  q.fetched && decide (2 ≤ q.op) && q.op != 5 && hbSerial q.blk == serial && hbHalf q.blk == half

/-- Cancel a pair (R316): it is no longer live, and its commands that still wait end, without advancing their tallies. DEDUCED, log entry 19. -/
def cancelPair (s : State) (k serial : Nat) (half : Bool) : State :=
  let s := setPair s k serial half none
  let waits := (herdOf s k).cmds.filter (ofPair serial half)
  let s := modHerd s k fun h => { h with cmds := h.cmds.filter fun q => !ofPair serial half q }
  waits.foldl (fun s q => giveCredit s q.core 2) s

/-! ### The unit and its commands (R301) -/

/-- Whether every write and message of a command whose work is done has committed. -/
def herdCommitted (s : State) (k : Nat) (q : HerdCmd) : Bool :=
  q.words.isSome && !(s.herdMsgs.any fun m => m.srcCl == k && m.cmd == some q.id)
    && !(s.fabric.outst.any fun o => clusterOf o.core == k && o.agent == .herd (q.id + 1))

/-- A command completes where its result area can be written now, behind the ranges registered there and at the bank ports: the
result, its tally, its credit; a combine closes its pair (R67, R84, R301, R303, R315). DESIGN CHOICE, log entry 62. -/
def herdDone (s : State) (k : Nat) (q : HerdCmd) : State :=
  let c := q.core
  let ag : Agent := .herd (q.id + 1)
  let at_ := q.off + 0x80
  if heldBy (coreOf s c) ag (at_ / 64 * 64) (roundUp (at_ + 64) 64) true || !ownRoom s (herdStream k) then s
  else match askPorts s c ag (portsOf (coreOf s c) at_ 64 true) with
  | (false, s) => s
  | (true, s) =>
    let s := spadWrite s c ag at_ (padTo 64 (((q.words.getD []).map (leBytes 8)).flatten))
    let s := creditStream s s.fabric.devaddr.toNat (herdStream k) 64
    let s := modHerd s k fun h => { h with cmds := h.cmds.filter fun x => x.id != q.id }
    let s := if q.op = 6 then setPair s k (hbSerial q.blk) (hbHalf q.blk) none else s
    giveCredit (nextFree (completeTally s c 9 q.tally)) c 2

/-- The commands of cluster k's unit whose writes and messages have all committed complete (R301). -/
def settleSends (s : State) (k : Nat) : State :=
  ((herdOf s k).cmds.filter (herdCommitted s k)).foldl (fun s q => herdDone s k q) s

/-- The ranges of scratchpads that a command reads or writes through the global map, and those of its tensor: place, length, write. -/
def herdSpans (s : State) (q : HerdCmd) (b : List Byte) : List (Nat × Nat × Bool) :=
  (herdArrays q.op b).filterMap fun r => if isHere s (bits r.1 63 48) ∧ inSpad (bits r.1 47 0) then some (bits r.1 47 0, r.2.1, r.2.2) else none

/-- Whether the unit may take a command now: no range registered in a scratchpad stands before an access of it (R84), and it gets
the bank ports (R67). DESIGN CHOICE, log entry 62. -/
def herdTake (s : State) (k : Nat) (q : HerdCmd) : Bool × State :=
  let c := q.core
  let ag : Agent := .herd (q.id + 1)
  let far : Agent := .remote (8192 + herdStream k)
  if (spadFlt (coreOf s c) (q.off : Nat) 192).isSome then (true, s)
  else if heldBy (coreOf s c) ag (q.off / 64 * 64) (roundUp (q.off + 128) 64) false then (false, s)
  else match askPorts s c ag (portsOf (coreOf s c) q.off 128 false) with
  | (false, s) => (false, s)
  | (true, s) =>
    if !(herdFlts s c q.op q.d1 q.ctl q.tally).isEmpty then (true, s)
    else
      let sps := herdSpans s q ((spadRd s c ag).bytes q.off 128)
      let d := herdTensor q.d1
      let reads := q.op = 0 ∨ q.op = 1
      let held := (sps.any fun r => mapHeld s far r.1 r.2.1 r.2.2)
        || (decide reads && (tensorRange s c d false).any fun r => heldBy (coreOf s r.1) ag (r.2.1 / 64 * 64) (roundUp (r.2.1 + r.2.2.1) 64) false)
      if held || !ownRoom s (herdStream k) then (false, s)
      else match askSpace s c far .here true ((sps.filter (·.2.2)).map fun r => (r.1, r.2.1)) with
      | (false, s) => (false, s)
      | (true, s) => match askSpace s c far .here false ((sps.filter (!·.2.2)).map fun r => (r.1, r.2.1)) with
        | (false, s) => (false, s)
        | (true, s) => if reads then askSpace s c ag (d.space s) false d.spans else (true, s)

/-- The work of a command that the unit takes: its checks, then what it does; what is left to commit it waits for (R301 to R316). -/
def herdRun (s : State) (k : Nat) (q : HerdCmd) : State :=
  let c := q.core
  let off := q.off
  let drop := fun (s : State) => modHerd s k fun h => { h with cmds := h.cmds.filter fun x => x.id != q.id }
  match lowest (herdFlts s c q.op q.d1 q.ctl q.tally) with
  | some f => herdFault (drop s) c off f
  | none =>
    let b := (spadRd s c (.herd (q.id + 1))).bytes off 128
    let q := { q with blk := b, fetched := true }
    let put := fun (s : State) (q : HerdCmd) => modHerd s k fun h => { h with cmds := h.cmds.map fun x => if x.id = q.id then q else x }
    let id := q.id + 1
    let s := ((herdArrays q.op b).filter fun r => !r.2.2).foldl (fun s r => noteAt s r.1 r.2.1) s
    let s := if q.op = 0 ∨ q.op = 1 then noteRead s (herdTensor q.d1) else s
    let fin := fun (r : State × Option Flt) (ws : List Nat) =>
      match r with
      | (s, some f) => herdFault (drop s) c off f
      | (s, none) => settleSends (put (nextFree s) { q with words := some ws }) k
    if q.op = 0 then fin (herdRouteRun s c off id b q.d1) [hbT b * hbK b]
    else if q.op = 1 then fin (herdPackRun s c id b q.d1) [hbT b * hbK b]
    else if q.op = 2 then fin (herdOpenRun s c off id b) []
    else if q.op = 3 then fin (herdDispatchRun s c q.id b) []
    else if q.op = 4 then
      match pairAt s k (hbSerial b) (hbHalf b) with
      | some p => fin (herdReturnRun s c q.id p) []
      | none => fin (s, none) []
    else if q.op = 5 then
      match pairAt s k (hbSerial b) (hbHalf b) with
      | some p => fin ((if some p.ctx == ctxOf (coreOf s c) then cancelPair s k (hbSerial b) (hbHalf b) else s), none) []
      | none => fin (s, none) []
    else match globalBad s [(wordAt b 0x28, 64 * hbE b)] with
      | some f => herdFault (drop s) c off f
      | none => put s { q with homes := homeList s b }

/-- The unit of cluster k takes its commands in order (`fuel` of them at most); one that it cannot take yet holds the rest. -/
def herdServiceFuel : Nat → State → Nat → State
  | 0, s, _ => s
  | fuel + 1, s, k =>
    match (herdOf s k).cmds.find? fun q => !q.fetched with
    | none => s
    | some q => match herdTake s k q with
      | (false, s) => s
      | (true, s) => herdServiceFuel fuel (herdRun s k q) k

/-- The unit of cluster k goes on: commands are taken, and those that have committed complete. -/
def herdService (s : State) (k : Nat) : State := settleSends (herdServiceFuel (herdOf s k).cmds.length s k) k

/-- A Herd command leaves its core for the unit of its cluster (R301). -/
def herdIssue (s : State) (c : Nat) (op : HerdOp) (d1 : List Byte) (ctl : W64) (t : BitVec 12) : State :=
  let s := modCore s c fun k => takeCredit k 2
  let k := clusterOf c
  let cmd : HerdCmd := { id := (herdOf s k).serial, core := c, ctx := ctxOf (coreOf s c), op := op, ctl := ctl, off := bits ctl 20 0
                         tally := t, d1 := d1 }
  herdService (modHerd s k fun h => { h with serial := h.serial + 1, cmds := h.cmds ++ [cmd] }) k

/-! ### At the home (R309 to R312) -/

/-- Whether kept row a stands before b (R310). -/
def herdBefore (a b : HerdKept) : Bool :=
  let f := fun (x : HerdKept) => (bits x.tag 14 12, bits x.tag 30 15 * 2 ^ 20 + bits x.tag 50 35 * 16 + bits x.tag 34 31)
  decide ((f a).1 < (f b).1) || ((f a).1 == (f b).1
    && (f32Lt b.score a.score || (!f32Lt a.score b.score && decide ((f a).2 < (f b).2))))

/-- Insert in priority order. -/
def keptInsert (x : HerdKept) : List HerdKept → List HerdKept
  | [] => [x]
  | y :: t => if herdBefore x y then x :: y :: t else y :: keptInsert x t

/-- Keep, evict for or drop an arrival (R311): the expert's new state and the staging place written, if any. -/
def keepArrival (x : HerdExpert) (tag : W64) (score : W32) : HerdExpert × Option Nat :=
  let x := { x with demand := x.demand + 1 }
  let d0 := fun (t : W64) => if bits t 14 12 = 0 then 1 else 0
  if x.kept.length < x.cap then
    ({ x with kept := keptInsert ⟨tag, score, x.kept.length⟩ x.kept }, some x.kept.length)
  else match x.kept.getLast? with
    | none => ({ x with drop0 := x.drop0 + d0 tag }, none)
    | some w =>
      if herdBefore ⟨tag, score, 0⟩ w then
        ({ x with kept := keptInsert ⟨tag, score, w.pos⟩ x.kept.dropLast, drop0 := x.drop0 + d0 w.tag }, some w.pos)
      else ({ x with drop0 := x.drop0 + d0 tag }, none)

/-- The context held in cluster k whose key is `key`: the owner of a message to a pair that is not live. -/
def ctxByKey (s : State) (k : Nat) (key : W32) : Option Nat :=
  ((List.range 32).filterMap fun q => ctxOf (coreOf s (k * 32 + q))).find? fun x => ctxKey s x == key

/-- Add to a saturating per-tenant counter field. -/
def bumpCtx (s : State) (x : Option Nat) (off hi lo n : Nat) : State :=
  match x with
  | none => s
  | some x => let w := cw s x off; setCw s x off (setBits w hi lo (satAdd (hi + 1 - lo) (bits w hi lo) n))

/-- A refused dispatch message is counted (R309, Table 16.5). -/
def herdRefuse (s : State) (k : Nat) (x : Option Nat) : State :=
  bumpCtx (modHerd s k fun h => { h with refused := satAdd 32 h.refused 1 }) x 0xF8 47 32 1

/-- A dispatched row acts at its home: the state, and whether it was accepted (R309, R311). -/
def homeRow (s : State) (m : HerdMsg) : State × Bool :=
  let k := m.cluster
  let serial := bits m.tag 63 52
  let half := bit m.tag 51
  let src := m.srcDev * 16 + m.srcCl
  match pairAt s k serial half with
  | none => (herdRefuse s k (ctxByKey s k m.skey), false)
  | some p =>
    match mget none p.experts m.expert with
    | none => (herdRefuse s k (some p.ctx), false)
    | some x =>
      if m.skey != ctxKey s p.ctx || !(src ∈ p.sources) || src ∈ p.counts || p.final then (herdRefuse s k (some p.ctx), false)
      else
        let (x, place) := keepArrival x m.tag m.score
        let s := match place with
          | none => creditStream s m.srcDev (herdStream m.srcCl) m.row.length
          | some q => (commit s m.srcDev (herdStream m.srcCl) (bits (wordAt x.entry 8) 47 0 + q * hbRw p.blk) m.row).1
        (setPair s k serial half (some { p with experts := mput m.expert (some x) p.experts
                                                rowsFrom := mset 0 p.rowsFrom src (mget 0 p.rowsFrom src + 1) }), true)

/-- A count message acts at its home (R309): refused where the rows received differ from it. -/
def homeCount (s : State) (m : HerdMsg) : State × Bool :=
  let k := m.cluster
  let src := m.srcDev * 16 + m.srcCl
  match pairAt s k (bits m.tag 63 52) (bit m.tag 51) with
  | none => (herdRefuse s k (ctxByKey s k m.skey), false)
  | some p =>
    if m.skey != ctxKey s p.ctx || !(src ∈ p.sources) || src ∈ p.counts || mget 0 p.rowsFrom src != m.count then
      (herdRefuse s k (some p.ctx), false)
    else (setPair s k p.serial p.half (some { p with counts := p.counts ++ [src] }), true)

/-- The fault of a return or done message that R314 refuses at the source. -/
def returnFlt (s : State) (p : HerdPair) (m : HerdMsg) : FaultRec :=
  { cls := 0xA, sub := 0x21, ukind := 9, w1 := noIndex
    w3 := BitVec.ofNat 64 (m.srcDev * 2 ^ 16 + s.fabric.devaddr.toNat)
    w4 := BitVec.ofNat 64 (p.serial * 2 + (if p.half then 1 else 0)) }

/-- A returned row acts at its source (R314). -/
def sourceRow (s : State) (m : HerdMsg) : State × Bool :=
  let k := m.cluster
  let home := m.srcDev * 16 + m.srcCl
  let slot := bits m.tag 30 15
  let rank := bits m.tag 14 12
  match pairAt s k (bits m.tag 63 52) (bit m.tag 51) with
  | none => (bumpCtx (modHerd s k fun h => { h with stale := satAdd 32 h.stale 1 }) (ctxByKey s k m.skey) 0xF8 63 48 1, true)
  | some p =>
    let b := p.blk
    let i := slot * hbK b + rank
    let mapA := wordAt b 0x58 + BitVec.ofNat 64 i
    let rowA := wordAt b 0x50 + BitVec.ofNat 64 (i * hbOw b)
    let tell := fun (s : State) (r : FaultRec) => report s (some k) (.fault (coreRec s p.core r))
    if m.skey != ctxKey s p.ctx then (s, false)
    else if hbT b ≤ slot ∨ hbK b ≤ rank ∨ (globalRd s mapA).byte (bits mapA 47 0) = 1 then (tell s (returnFlt s p m), true)
    else
      let r := if isHere s (bits rowA 63 48) then commit s m.srcDev (herdStream m.srcCl) (bits rowA 47 0) m.row
        else herdWrite s p.core 0 rowA m.row
      let r := match r with
        | (s, none) => herdWrite s p.core 0 mapA [1]
        | r => r
      match r with
      | (s, some f) => (tell (countErr s f (some p.ctx)) { f.toRec 9 with addr := errLine s f }, true)
      | (s, none) =>
        (setPair s k p.serial p.half (some { p with retFrom := mset 0 p.retFrom home (mget 0 p.retFrom home + 1) }), true)

/-- A done message acts at its source (R313, R314). -/
def sourceDone (s : State) (m : HerdMsg) : State × Bool :=
  let k := m.cluster
  let home := m.srcDev * 16 + m.srcCl
  match pairAt s k (bits m.tag 63 52) (bit m.tag 51) with
  | none => (s, true)
  | some p =>
    if m.skey != ctxKey s p.ctx then (s, false)
    else if mget 0 p.retFrom home != m.count then
(report s (some k) (.fault (coreRec s p.core (returnFlt s p m))), true)
    else (setPair s k p.serial p.half (some { p with dones := p.dones ++ [home] }), true)

/-- The sender of a message learns whether it was accepted: a refused one ends its command with subcode 0x20. -/
def herdAnswer (s : State) (m : HerdMsg) (ok : Bool) : State :=
  match m.cmd with
  | none =>
    match m.frame with
    | none => s
    | some f =>
      let r := newFrame s (if ok then 4 else 5) f.src.toNat f.stream.toNat f.skey f.addr.toNat (if ok then 0 else 8) []
      sendFrame s { r with tag := f.tag, sseq := f.sseq }
  | some id =>
    if ok then settleSends s m.srcCl
    else
      match (herdOf s m.srcCl).cmds.find? fun q => q.id == id with
      | none => s
      | some q =>
        let s := modHerd s m.srcCl fun h => { h with cmds := h.cmds.filter fun x => x.id != id }
        herdFault s q.core q.off { cls := 0xA, sub := 0x20, w1 := noIndex, w2 := 8
                                   w3 := BitVec.ofNat 64 (s.fabric.devaddr.toNat * 2 ^ 16 + s.fabric.devaddr.toNat)
                                   w4 := BitVec.ofNat 64 (hbSerial q.blk * 2 + (if hbHalf q.blk then 1 else 0)) }

/-- Whether a row of the same exchange as count or done message m is still on its way. -/
def rowsBefore (s : State) (m : HerdMsg) : Bool :=
  s.herdMsgs.any fun r => r.kind + 1 == m.kind && r.cluster == m.cluster && r.srcDev == m.srcDev && r.srcCl == m.srcCl
    && bits r.tag 63 51 == bits m.tag 63 51

/-- Whether a count or done message from another device still waits for the rows it announces (R293). -/
def rowsMissing (s : State) (m : HerdMsg) : Bool :=
  m.frame.isSome && (match pairAt s m.cluster (bits m.tag 63 52) (bit m.tag 51) with
    | none => false
    | some p => decide (mget 0 (if m.kind = 1 then p.rowsFrom else p.retFrom) (m.srcDev * 16 + m.srcCl) < m.count))

/-- Let message i act where it is of the kind given and may act now. DEDUCED, log entry 19. -/
def herdAct (s : State) (i kind : Nat) (act : State → HerdMsg → State × Bool) : State :=
  match s.herdMsgs[i]? with
  | none => s
  | some m =>
    if m.kind ≠ kind || (kind % 2 == 1 && (rowsBefore s m || rowsMissing s m))
        || (kind % 2 == 0 && (!streamRoom s m.srcDev (herdStream m.srcCl) || !ownRoom s (herdStream m.cluster))) then s
    else
      let (s, ok) := act { s with herdMsgs := s.herdMsgs.eraseIdx i } m
      herdAnswer s m ok

/-- `HERD_ROW_ARRIVAL` (R311). -/
def execHerdRowArrival (i : Nat) (s : State) : Out State := .next (herdAct s i 0 homeRow)
/-- `HERD_COUNT_MESSAGE` (R309). -/
def execHerdCountMessage (i : Nat) (s : State) : Out State := .next (herdAct s i 1 homeCount)
/-- `HERD_RETURN_ARRIVAL` (R314). -/
def execHerdReturnArrival (i : Nat) (s : State) : Out State := .next (herdAct s i 2 sourceRow)
/-- `HERD_DONE_MESSAGE` (R313). -/
def execHerdDoneMessage (i : Nat) (s : State) : Out State := .next (herdAct s i 3 sourceDone)

/-- Kept rows in the order of finalisation: ascending tag bits 50 to 15 (R312). -/
def finalOrder (l : List HerdKept) : List HerdKept :=
  sortBy (fun a b => decide (bits a.tag 50 15 ≤ bits b.tag 50 15)) l

/-- The writes that finalise one expert: rows to `INP`, tags to `TAGL`, its statistics entry (R312, R303). -/
def finaliseWrites (s : State) (p : HerdPair) (e : Nat) (x : HerdExpert) : List (W64 × List Byte) :=
  let rw_ := hbRw p.blk
  let order := finalOrder x.kept
  let n := entryRows x.entry
  let stat := leBytes 4 x.demand ++ leBytes 4 x.kept.length ++ leBytes 4 x.cap ++ leBytes 4 x.drop0
  [(wordAt x.entry 0x10, (order.map fun q => readMem s (bits (wordAt x.entry 8) 47 0 + q.pos * rw_) rw_).flatten)
    , (wordAt x.entry 0x18, (order.map fun q => leBytes 8 q.tag.toNat).flatten)
    , (wordAt x.entry 0x18 + BitVec.ofNat 64 (8 * n), List.replicate (roundUp (8 * n) 64 - 8 * n) 0)
    , (wordAt p.blk 0x60 + BitVec.ofNat 64 (16 * e), stat)].filter fun w => !w.2.isEmpty

/-- The staged rows that an expert's finalisation reads. -/
def stagedSpans (p : HerdPair) (x : HerdExpert) : List (Nat × Nat) :=
  x.kept.map fun q => (bits (wordAt x.entry 8) 47 0 + q.pos * hbRw p.blk, hbRw p.blk)

/-- Finalise experts in ascending number; the first fault ends it (R312, R331). -/
def finaliseAll (s : State) (p : HerdPair) : List (Nat × HerdExpert) → State × Option Flt
  | [] => (s, none)
  | (e, x) :: t =>
    match (stagedSpans p x).findSome? fun r => lineFlt (memRd s) r.1 r.2 with
    | some f => (s, some f)
    | none => match herdWrites (noteSpans s (stagedSpans p x)) p.core 0 (finaliseWrites s p e x) with
      | (s, none) => finaliseAll s p t
      | r => r

/-- What a finalisation counts and signals (R312). -/
def finaliseDone (s : State) (k : Nat) (p : HerdPair) (xs : List (Nat × HerdExpert)) : State :=
  let kept := xs.foldl (fun n q => n + q.2.kept.length) 0
  let drop := xs.foldl (fun n q => n + (q.2.demand - q.2.kept.length)) 0
  let s := modHerd s k fun h => { h with kept := satAdd 32 h.kept kept, dropped := satAdd 32 h.dropped drop }
  let s := bumpCtx (bumpCtx s (some p.ctx) 0xF0 31 0 kept) (some p.ctx) 0xF0 63 32 drop
  let sort := fun (x : HerdExpert) => { x with kept := finalOrder x.kept }
  let s := setPair s k p.serial p.half (some { p with final := true, experts := p.experts.map fun (e, x) => (e, x.map sort) })
  completeTally s p.core 9 (hbRtal p.blk)

/-- `HERD_FINALISE` (R312): the counts of all sources have acted. A line that cannot be corrected ends it: no tally advances, and
the pair stays live (R331, R320). DEDUCED, log entry 19. -/
def execHerdFinalise (k : ClusterId) (serial : BitVec 12) (half : Bool) (s : State) : Out State :=
  match pairAt s k.val serial.toNat half with
  | none => .next s
  | some p =>
    if p.final || p.broken || p.experts.isEmpty || !(p.sources.all fun q => q ∈ p.counts) || !ownRoom s (herdStream k.val) then .next s
    else
      let xs := p.experts.filterMap fun (e, x) => x.map fun y => (e, y)
      let e := hbE p.blk
      let pad := List.replicate (roundUp (16 * e) 64 - 16 * e) (0 : Byte)
      let r := match finaliseAll s p xs with
        | (s, none) => if pad.isEmpty then (s, none) else herdWrite s p.core 0 (wordAt p.blk 0x60 + BitVec.ofNat 64 (16 * e)) pad
        | r => r
      match r with
      | (s, none) => .next (finaliseDone s k.val p xs)
      | (s, some f) =>
        let s := countErr (setPair s k.val p.serial p.half (some { p with broken := true })) f (some p.ctx)
        .next (report s (some k.val) (.fault (coreRec s p.core { f.toRec 9 with addr := errLine s f })))

/-! ### Combine (R315) -/

/-- The gate weights of a token's choices. -/
def gateWeights (gate : Nat) (scores : List W32) : List W32 :=
  if gate = 0 then scores.map fun _ => one32
  else if gate = 2 then scores
  else
    let s0 := scores.headD 0
    let es := scores.map fun x => exp32 (f32Sub x s0)
    let sum := (es.drop 1).foldl f32Add (es.headD 0)
    es.map fun e => f32Div e sum

/-- Σ g_r × y_r over the returned choices, each product and addition rounded, from the first product. -/
def gatedSum : List (W32 × W32) → W32
  | [] => 0
  | (g, y) :: t => t.foldl (fun a q => f32Add a (f32Mul q.1 q.2)) (f32Mul g y)

/-- Combine every token's returned rows into d1; the rows before a fault are written. -/
def herdCombineRun (s : State) (q : HerdCmd) : State × Option Flt × Nat :=
  let b := q.blk
  let d := herdTensor q.d1
  let ob := elemBits (hbOfmt b) / 8
  let ne := hbOw b / Max.max 1 ob
  let ra := bits (wordAt b 0x50) 47 0
  let ma := bits (wordAt b 0x58) 47 0
  let rr := globalRd s (wordAt b 0x50)
  let rm := globalRd s (wordAt b 0x58)
  let rows := (List.range (hbT b)).map fun tok =>
    match readRoute s b tok with
    | .error f => List.replicate ne (Except.error f : ElemRes)
    | .ok ch =>
      let gs := gateWeights (hbGate b) (ch.map (·.1))
      let live := (List.range (hbK b)).filter fun r => rm.byte (ma + tok * hbK b + r) == 1
      let badRow := (lineFlt rm (ma + tok * hbK b) (hbK b)).toList ++ live.filterMap fun r => lineFlt rr (ra + (tok * hbK b + r) * hbOw b) (hbOw b)
      match badRow with
      | f :: _ => List.replicate ne (.error f)
      | [] => (List.range ne).map fun i => .ok (f32 (gatedSum (live.map fun r =>
          (gs.getD r 0, rnd32 (elemVal (hbOfmt b) (rr.num (ra + (tok * hbK b + r) * hbOw b + i * ob) ob))))))
  let returned := ((List.range (hbT b * hbK b)).filter fun i => rm.byte (ma + i) == 1).length
  let w := d.writes (d.oldEnc s q.core) rows.flatten
  match unitWrites s (d.space s) q.core (.herd (q.id + 1)) (some (herdStream (clusterOf q.core))) w.1 with
  | (s, some f) => (s, some f, returned)
  | (s, none) => (s, w.2, returned)

/-- Whether the unit can write a combine's tensor now: no range in the way (R84), and the bank ports (R67). -/
def combineTake (s : State) (q : HerdCmd) : Bool × State :=
  let c := q.core
  let d := herdTensor q.d1
  let ag : Agent := .herd (q.id + 1)
  if !ownRoom s (herdStream (clusterOf c))
      || (tensorRange s c d true).any fun r => heldBy (coreOf s r.1) ag (r.2.1 / 64 * 64) (roundUp (r.2.1 + r.2.2.1) 64) true
  then (false, s)
  else askSpace s c ag (d.space s) true d.spans

/-- `HERD_COMBINE` (R315): the first waiting `herd.comb` whose homes are all done combines; it closes its pair when its writes
have committed. -/
def execHerdCombine (k : ClusterId) (s : State) : Out State :=
  let ready := fun (q : HerdCmd) => q.fetched && q.op == 6 && q.words.isNone && (match pairAt s k.val (hbSerial q.blk) (hbHalf q.blk) with
    | some p => q.homes.all fun h => h ∈ p.dones
    | none => false)
  match (herdOf s k.val).cmds.find? ready with
  | none => .next s
  | some q =>
    match combineTake s q with
    | (false, s) => .next s
    | (true, s) =>
      let s := ((herdArrays 6 q.blk).filter fun r => !r.2.2).foldl (fun s r => noteAt s r.1 r.2.1) s
      match herdCombineRun s q with
      | (s, some f, _) => .next (herdFault (modHerd s k.val fun h => { h with cmds := h.cmds.filter fun x => x.id != q.id }) q.core q.off f)
      | (s, none, n) =>
        let tk := hbT q.blk * hbK q.blk
        .next (settleSends (modHerd (nextFree s) k.val fun h => { h with cmds := h.cmds.map fun x =>
          if x.id = q.id then { x with words := some [0, tk, n, tk - n] } else x }) k.val)

end Sys2Proof.Machine
end

