-- ==== Sys2Proof/Machine/Serial.lean ====
section
/-! DEFINITION. The step serial of a context (R376, R378) and what its advance brings about: the secure point of a
round (R394), the step digest and the replica gate (R400), and which Kiln commands wait at fetch for them. -/

namespace Sys2Proof.Machine

open Sys2Proof

/-! ### The plan (Table 17.5) -/

/-- Whether a reserved field of entry i of the plan at local address `a` is not 0 (Table 17.5). -/
def planReserved (s : State) (a i : Nat) : Bool :=
  let b := readMem s (a + 32 * i) 32
  bits (wordAt b 0) 63 48 != 0 || bits (wordAt b 8) 63 48 != 0 || bits (wordAt b 0x10) 47 32 != 0 || wordAt b 0x18 != 0

/-- Entry i of the plan at local address `a`. -/
def planEntry (s : State) (a i : Nat) : Region :=
  let b := readMem s (a + 32 * i) 32
  let w := wordAt b 0x10
  { regSrc := bits (wordAt b 0) 47 0, regLen := bits (wordAt b 8) 47 0, ctx := bits w 63 50, devWide := bit w 49
    isDig := bit w 48, regId := bits w 31 0 }

/-- The regions of `SEC_PLAN`. -/
def planRegions (s : State) : List Region :=
  (List.range (bits s.secure.plan 63 48)).map fun i => planEntry s (bits s.secure.plan 47 0) i

/-- The descriptor of context x as words (Table 16.1). -/
def descWords (s : State) (x : Nat) : List W64 := (List.range 32).map fun i => cw s x (8 * i)

/-! ### Secure points (R394) -/

/-- Context x reaches its secure point: its regions may be copied, or are dropped when `DISC` is 1; an immediate point
finds tensors at two serials when `NDONE` is not 0. -/
def securePoint (s : State) (x : Nat) (immediate : Bool) : State :=
  match s.secure.round with
  | none => s
  | some r =>
    let waits := fun (g : Region) => g.ctx == x && !g.devWide && !g.ready && !g.dropped
    if r.regions.any waits then
      let disc := ctxDisc s x
      let regions := r.regions.map fun g =>
        if waits g then (if disc then { g with dropped := true } else { g with ready := true }) else g
      let r := { r with regions := regions, partly := r.partly || disc
                        mixed := r.mixed || (immediate && bits (cw s x 0xE0) 63 48 != 0)
                        descs := if disc then r.descs else r.descs ++ [(x, descWords s x)] }
      { s with secure := { s.secure with round := some r } }
    else s

/-! ### The step digest (R400) -/

/-- Bytes 0 to 39 of every digest cell of a context's `DIG` regions, in plan order. -/
def digCells (s : State) (x : Nat) : List Byte :=
  (((planRegions s).filter fun g => g.isDig && g.ctx == x).map fun g =>
    ((List.range (g.regLen / 64)).map fun i => readMem s (g.regSrc + 64 * i) 40).flatten).flatten

/-- The step digest D of context x for the step `serial` just ended. -/
def stepDigest (s : State) (x serial : Nat) : List Byte :=
  digest32 (leBytes 4 (bits (cw s x 0) 31 0) ++ leBytes 6 serial ++ leBytes 6 0 ++ digCells s x)

/-- `REPL.EN` and `REPL.GROUP`. -/
def replOn (s : State) : Bool := bit s.secure.repl 63
/-- See `replOn`. -/
def replGroup (s : State) : Nat := bits s.secure.repl 11 0

/-- This device's rank in its replica group, and whether it is the root of the tree (Table 15.6). -/
def replRank (s : State) : Nat := bits (groupWord s (replGroup s) 0) 31 16
/-- See `replRank`. -/
def replRoot (s : State) : Bool := bits (groupWord s (replGroup s) 0) 55 52 == 0

/-- The gate of context x, where a verdict is awaited. -/
def gateOf (s : State) (x : Nat) : Option Gate := mget none s.gates x
/-- Replace it. -/
def setGate (s : State) (x : Nat) (g : Option Gate) : State := { s with gates := mset none s.gates x g }

/-- Form D at a serial advance of a live context and close the gate (R400); a member that is not the root sends it up the tree (R401). -/
def closeGate (s : State) (x serial : Nat) : State :=
  if replOn s && ctxState s x == 2 && (planRegions s).any (fun g => g.isDig && g.ctx == x) then
    let d := stepDigest s x serial
    let own := (replRank s, d)
    let all := own :: ((s.secure.early.filter fun e => e.1 == x).map (·.2))
    let s := { s with secure := { s.secure with early := s.secure.early.filter fun e => e.1 != x } }
    setGate s x (some { digest := d, serial := serial, from_ := if replRoot s then all else [], sentUp := if replRoot s then [] else all })
  else s

/-! ### The serial (R376, R378) -/

/-- The serial of context x advances: counts cleared, a discarded step counted and reported, the secure point taken,
the step digest formed. DEDUCED, log entry 20. -/
def serialAdvance (s : State) (x : Nat) : State :=
  let ended := ctxStep s x
  let disc := ctxDisc s x
  let s := setCw s x 8 (setBits (cw s x 8) 63 48 0)
  let s := setCw s x 0xE0 (BitVec.ofNat 64 ((ended + 1) % 2 ^ 48))
  let s := if disc then
      let s := setCw s x 0xF8 (setBits (cw s x 0xF8) 15 0 (satAdd 16 (bits (cw s x 0xF8) 15 0) 1))
      reportMC s (statusRec s 5 (leBytes 6 0 ++ leBytes 8 ended) (some x))
    else s
  closeGate (securePoint s x false) x ended

/-- A `kiln.step` of context x completed: `NDONE` rises, and at `NTENS` the serial advances (R247, R376). -/
def stepDone (s : State) (x : Nat) : State :=
  let n := bits (cw s x 0xE0) 63 48 + 1
  if n = bits (cw s x 0xE8) 63 48 then serialAdvance s x
  else setCw s x 0xE0 (setBits (cw s x 0xE0) 63 48 n)

/-- Whether an update naming serial `step` may be accepted (R376). -/
def stepAccepted (s : State) (x step : Nat) : Bool :=
  step == ctxStep s x && decide (bits (cw s x 8) 63 48 < bits (cw s x 0xE8) 63 48)

/-- Count an accepted update, or take it back. -/
def countAccepted (s : State) (x : Nat) (up : Bool) : State :=
  let n := bits (cw s x 8) 63 48
  setCw s x 8 (setBits (cw s x 8) 63 48 (if up then n + 1 else n - 1))

/-! ### Waiting at fetch (R394, R400) -/

/-- Whether writes of context x to these ranges wait at fetch: a region past its secure point and not yet read, or a
verdict awaited. -/
def waitsAtFetch (s : State) (x : Nat) (ws : List (Nat × Nat)) : Bool :=
  let meets := fun (g : Region) => ws.any fun w => decide (g.regSrc < w.1 + w.2 ∧ w.1 < g.regSrc + g.regLen)
  let copying := match s.secure.round with
    | some r => r.regions.any fun g => (g.ctx == x && !g.devWide) && g.ready && !g.copied && !g.dropped && meets g
    | none => false
  copying || ((gateOf s x).isSome && (planRegions s).any fun g => g.ctx == x && meets g)

end Sys2Proof.Machine
end

