-- ==== Sys2Proof/Machine/Fire.lean ====
section
/-! DEFINITION. Mask headers, base block records, tenant tiles (R170 to R173), and the firing of working copies from
the masters through the mask (R248 to R251). -/

namespace Sys2Proof.Machine

open Sys2Proof

/-! ### Addresses and reads of a Kiln -/

/-- The local part of a global address. -/
def loc (ga : W64) : Nat := bits ga 47 0
/-- One name for each address, however this device is named in it (R14). -/
def canonGa (s : State) (ga : W64) : Nat := (if isHere s (bits ga 63 48) then 0xFFFF else bits ga 63 48) * 2 ^ 48 + loc ga
/-- The uncorrectable error that a read of `n` bytes at a global address meets. -/
def gaErr (s : State) (ga : W64) (n : Nat) : List Flt := ((globalRd s ga).bad (loc ga) n).toList.map lineErr
/-- A Kiln has read the arrays named: corrected errors in their lines are counted (R328). -/
def noteArrays (s : State) (l : List (W64 × Nat)) : State := l.foldl (fun s a => noteAt s a.1 a.2) s

/-! ### The mask header (Tables 7.1 to 7.3) -/

/-- `KIND`: 0 base, 1 tenant. -/
def mhKind (h : List Byte) : Nat := bits (wordAt h 0) 63 62
/-- Whether the tensor is a tenant delta. -/
def mhTenant (h : List Byte) : Bool := mhKind h == 1
/-- Inputs per patch tile. -/
def mhTin (h : List Byte) : Nat := 64 * 2 ^ bits (wordAt h 0) 61 60
/-- `NOUT`. -/
def mhNout (h : List Byte) : Nat := bits (wordAt h 0) 47 24
/-- `NIN`. -/
def mhNin (h : List Byte) : Nat := bits (wordAt h 0) 23 0
/-- `VUNIT`. -/
def mhVunit (h : List Byte) : Nat := bits (wordAt h 8) 63 48
/-- `VACC`. -/
def mhVacc (h : List Byte) : Nat := bits (wordAt h 8) 47 32
/-- `VGROW`. -/
def mhVgrow (h : List Byte) : Nat := bits (wordAt h 8) 1 0
/-- `MH_LAST`. -/
def mhLast (h : List Byte) : Nat := bits (wordAt h 0x10) 47 0
/-- `MH_USTEP`. -/
def mhUstep (h : List Byte) : Nat := bits (wordAt h 0x18) 47 0
/-- `CCNT`. -/
def mhCcnt (h : List Byte) : Nat := bits (wordAt h 0x48) 63 32
/-- `CMAX`. -/
def mhCmax (h : List Byte) : Nat := bits (wordAt h 0x48) 31 0
/-- `DCNT`. -/
def mhDcnt (h : List Byte) : Nat := bits (wordAt h 0x50) 63 32
/-- `DMAX`. -/
def mhDmax (h : List Byte) : Nat := bits (wordAt h 0x50) 31 0
/-- `OVCNT`. -/
def mhOvcnt (h : List Byte) : Nat := bits (wordAt h 0x58) 47 32
/-- `OVMAX`. -/
def mhOvmax (h : List Byte) : Nat := bits (wordAt h 0x58) 15 0
/-- Block records of a base tensor. -/
def mhBlocks (h : List Byte) : Nat := mhNout h / 4 * (mhNin h / 4)
/-- Tiles of a tenant delta. -/
def mhTiles (h : List Byte) : Nat := mhNout h / 64 * (mhNin h / mhTin h)

/-- Whether a header breaks R170 or Table 7.2. A tenant header whose `NIN` is no multiple of its `TIN`, which would leave part of a tile, breaks
it too, though Table 7.2 asks for a multiple of 64 alone. DESIGN CHOICE, log entry 65. -/
def badHeader (h : List Byte) : Bool :=
  let w := wordAt h
  let base := [0x28, 0x38, 0x50, 0x58, 0x60]
  decide (2 ≤ mhKind h) || bits (w 0) 59 48 != 0
  || (mhTenant h && (bits (w 0) 61 60 == 3 || mhNin h % mhTin h != 0))
  || (mhKind h == 0 && (bits (w 0) 61 60 != 0 || base.any fun o => w o != 0))
  || mhNout h % 64 != 0 || mhNin h % 64 != 0 || decide (2 ^ 32 < mhNout h * mhNin h)
  || bits (w 8) 31 2 != 0 || bits (w 0x10) 63 48 != 0 || bits (w 0x18) 63 48 != 0
  || bits (w 0x58) 63 48 != 0 || bits (w 0x58) 31 16 != 0 || w 0x70 != 0 || w 0x78 != 0

/-- A Kiln rule fault (class 0x10): the index and the score record it names; the block and the header are filled in
when it is recorded. -/
def ruleFlt (sub : Nat) (w2 : W64 := noIndex) (w3 : W64 := noIndex) : Flt := { cls := 0x10, sub := sub, w2 := w2, w3 := w3 }

/-! ### Kept sets (R167 to R171) -/

/-- Whether three or more positions lie in one row or one column of a block. -/
def crowded (m : Nat) : Bool :=
  (List.range 4).any fun a =>
    decide (3 ≤ ((List.range 4).filter fun b => m.testBit (4 * a + b)).length)
    || decide (3 ≤ ((List.range 4).filter fun b => m.testBit (4 * b + a)).length)

/-- Velvet counter of position u of a base record. -/
def recVel (r u : Nat) : Nat := nbits r (17 + 2 * u) (16 + 2 * u)

/-- Whether a base record is invalid (R171). -/
def badRecord (r : Nat) : Bool :=
  nbits r 63 48 != 0 || (List.range 16).any fun u => recVel r u != 0 && !r.testBit u

/-- The fault of the base record of block `i` (R168, R171). -/
def recordFlt (h : List Byte) (i r : Nat) : Option Flt :=
  if crowded (nbits r 15 0) then
    some { cls := 4, sub := 4, addr := wordAt h 0x20, w1 := BitVec.ofNat 64 i, w3 := noIndex
           w4 := BitVec.ofNat 64 (setBitsOf 16 r).length }
  else if badRecord r then some (ruleFlt 0x23 (BitVec.ofNat 64 i))
  else none

/-- The base record of block i, as stored. -/
def blockRec (s : State) (h : List Byte) (i : Nat) : Nat := leNat (readMem s (loc (wordAt h 0x20) + 8 * i) 8)

/-- The block of position (o, i), and its bit. -/
def blockOf (h : List Byte) (o i : Nat) : Nat := o / 4 * (mhNin h / 4) + i / 4
/-- See `blockOf`. -/
def blockBit (o i : Nat) : Nat := 4 * (o % 4) + i % 4

/-- Whether a base tensor keeps (o, i). -/
def keepAt (s : State) (h : List Byte) (o i : Nat) : Bool := (blockRec s h (blockOf h o i)).testBit (blockBit o i)

/-- The master at index k of the master array. -/
def masterAt (s : State) (h : List Byte) (k : Nat) : W32 := BitVec.ofNat 32 (leNat (readMem s (loc (wordAt h 0x30) + 4 * k) 4))

/-- The fired value of a base position (R249), or the fault met reading it. -/
def firedAt (s : State) (h : List Byte) (o i : Nat) : ElemRes :=
  let rd := memRd s
  match lineFlt rd (loc (wordAt h 0x20) + 8 * blockOf h o i) 8 with
  | some f => .error f
  | none =>
    match recordFlt h (blockOf h o i) (blockRec s h (blockOf h o i)) with
    | some f => .error f
    | none =>
    if keepAt s h o i then
      match lineFlt rd (loc (wordAt h 0x30) + 4 * (o * mhNin h + i)) 4 with
      | some f => .error f
      | none => .ok (f32 (masterAt s h (o * mhNin h + i)))
    else .ok (.fin false 0 0)

/-- The two kept positions of a group of four, filled under R98. -/
def keptPair (keep : Nat → Bool) : Nat × Nat :=
  match (List.range 4).filter keep with
  | [] => (0, 1)
  | [a] => if a = 0 then (0, 1) else (0, a)
  | a :: b :: _ => (a, b)

/-! ### Tenant tiles (R172, R173) -/

/-- A delta entry in absolute coordinates: output, input, velvet, its index (its master's). -/
structure TEnt where
  o   : Nat
  i   : Nat
  vel : Nat
  k   : Nat
  deriving DecidableEq, Repr

/-- An override in absolute block coordinates. -/
structure TOvr where
  p    : Nat
  q    : Nat
  mask : Nat
  deriving DecidableEq, Repr

/-- A tile of a tenant delta. -/
structure TTile where
  d  : Nat
  v  : Nat
  ofirst : Nat
  efirst : Nat
  ents : List TEnt
  ovrs : List TOvr
  deriving DecidableEq, Repr

/-- Tile t of a tenant delta, as stored. -/
def tenantTile (s : State) (h : List Byte) (t : Nat) : TTile :=
  let w := leNat (readMem s (loc (wordAt h 0x20) + 8 * t) 8)
  let cols := mhNin h / mhTin h
  let r := t / cols
  let c := t % cols
  let d := nbits w 63 55
  let v := nbits w 54 50
  let ef := nbits w 31 0
  let of := nbits w 47 32
  { d := d, v := v, ofirst := of, efirst := ef
    ents := (List.range d).map fun j =>
      let e := leNat (readMem s (loc (wordAt h 0x28) + 2 * (ef + j)) 2)
      { o := 64 * r + nbits e 5 0, i := c * mhTin h + nbits e 15 8, vel := nbits e 7 6, k := ef + j }
    ovrs := (List.range v).map fun j =>
      let e := leNat (readMem s (loc (wordAt h 0x38) + 8 * (of + j)) 8)
      { p := 16 * r + nbits e 3 0, q := c * mhTin h / 4 + nbits e 13 8, mask := nbits e 63 48 } }

/-- Every tile of a tenant delta, in directory order. -/
def tenantTiles (s : State) (h : List Byte) : List TTile := (List.range (mhTiles h)).map (tenantTile s h)

/-- The base row-form image of tile t. -/
def baseImage (s : State) (h : List Byte) (t : Nat) : AMap Byte :=
  setBytes [] 0 (globalBytes s (wordAt h 0x60 + BitVec.ofNat 64 (tileBytes * t)) tileBytes)

/-- Whether an image keeps (column, input): held non-zero by a 2:4 image; a dense image keeps every position. -/
def imageKeeps (t : AMap Byte) (c i : Nat) : Bool :=
  if tileS24 t then (match tileAt t c i with | some e => !elemZero (tileFmt t) e | none => false) else true

/-- Whether (o, i) is active in a tenant tile whose base image is `img` (R172). -/
def tenantActive (h : List Byte) (img : AMap Byte) (t : TTile) (o i : Nat) : Bool :=
  match t.ovrs.find? fun v => v.p == o / 4 && v.q == i / 4 with
  | some v => v.mask.testBit (blockBit o i)
  | none => imageKeeps img (o % 64) (i % mhTin h)

/-- Whether a list of numbers is strictly rising. -/
def rising : List Nat → Bool
  | a :: b :: t => decide (a < b) && rising (b :: t)
  | _ => true

/-- The sort key of an entry and of an override (R173). -/
def TEnt.key (h : List Byte) (e : TEnt) : Nat := e.o % 64 * 256 + e.i % mhTin h
/-- See `TEnt.key`. -/
def TOvr.key (h : List Byte) (v : TOvr) : Nat := v.p % 16 * 64 + v.q % (mhTin h / 4)

/-- The faults of tile t of a tenant delta whose earlier tiles hold `e0` entries and `o0` overrides (R168, R173). Entries and
overrides that lie within their arrays are checked even where the tile breaks another rule (R17). Reserved bits of a stored override are not
checked, and a `DCNT` or `OVCNT` above the sum of the tiles' counts passes. DESIGN CHOICE, log entry 65. -/
def tileScan (s : State) (h : List Byte) (t e0 o0 : Nat) : List Flt :=
  let x := tenantTile s h t
  let bound := fun (v ext : Nat) => ({ cls := 5, sub := 6, addr := wordAt h 0x20, w1 := BitVec.ofNat 64 v
                                       w2 := BitVec.ofNat 64 ext, w3 := BitVec.ofNat 64 t } : Flt)
  let inE := decide (x.efirst + x.d ≤ mhDcnt h)
  let inO := decide (x.ofirst + x.v ≤ mhOvcnt h)
  let wide := (List.range x.d).any fun j => decide (mhTin h ≤ nbits (leNat (readMem s (loc (wordAt h 0x28) + 2 * (x.efirst + j)) 2)) 15 8)
  let tall := (List.range x.v).any fun j => decide (mhTin h / 4 ≤ nbits (leNat (readMem s (loc (wordAt h 0x38) + 8 * (x.ofirst + j)) 8)) 13 8)
  let img := baseImage s h t
  (if inO then x.ovrs.zipIdx.filterMap fun vj => if crowded vj.1.mask then
      some { cls := 4, sub := 4, addr := wordAt h 0x38, w1 := BitVec.ofNat 64 (x.ofirst + vj.2), w3 := noIndex
             w4 := BitVec.ofNat 64 (setBitsOf 16 vj.1.mask).length } else none
    else [bound (x.ofirst + x.v) (mhOvcnt h)])
  ++ faultIf (!inE) (bound (x.efirst + x.d) (mhDcnt h))
  ++ faultIf (decide (384 < x.d ∨ 16 < x.v) || x.efirst != e0 || x.ofirst != o0
      || (inE && (wide || !rising (x.ents.map (TEnt.key h))))
      || (inO && (tall || !rising (x.ovrs.map (TOvr.key h))))
      || (inE && inO && !(x.ents.all fun e => tenantActive h img x e.o e.i))) (ruleFlt 0x23 (BitVec.ofNat 64 t))

/-- The arrays that a scan of a tenant delta reads: global address and length. -/
def scanArrays (h : List Byte) : List (W64 × Nat) :=
  [(wordAt h 0x20, 8 * mhTiles h), (wordAt h 0x28, 2 * mhDcnt h), (wordAt h 0x38, 8 * mhOvcnt h), (wordAt h 0x60, tileBytes * mhTiles h)]

/-- Every line that a scan of a tenant delta reads holds no uncorrectable error. -/
def tenantLines (s : State) (h : List Byte) : List Flt := ((scanArrays h).map fun a => gaErr s a.1 a.2).flatten

/-- A count of entries above the capacity of its array: no index applies (R466). -/
def countFlt (ga : W64) (count cap : Nat) : List Flt :=
  faultIf (decide (cap < count)) { cls := 5, sub := 6, addr := ga, w1 := BitVec.ofNat 64 count, w2 := BitVec.ofNat 64 cap, w3 := noIndex }

/-- The faults of the scan of a tenant delta's directory, entries and overrides: all of them are found, and the lowest class is
recorded (R17). -/
def tenantScan (s : State) (h : List Byte) : List Flt :=
  match countFlt (wordAt h 0x28) (mhDcnt h) (mhDmax h) ++ countFlt (wordAt h 0x38) (mhOvcnt h) (mhOvmax h) with
  | f :: t => f :: t
  | [] =>
    match tenantLines s h with
    | f :: _ => [f]
    | [] =>
      ((List.range (mhTiles h)).foldl (fun (acc : List Flt × Nat × Nat) t =>
        let x := tenantTile s h t
        (acc.1 ++ (lowest (tileScan s h t acc.2.1 acc.2.2)).toList, acc.2.1 + x.d, acc.2.2 + x.v)) ([], 0, 0)).1

/-! ### The firing block (Tables 10.7 to 10.9) -/

/-- `NCOPY`. -/
def fbCopies (fb : List Byte) : Nat := bits (wordAt fb 0) 59 56
/-- `SFMT`: moments in BF16. -/
def fbBf (fb : List Byte) : Bool := bits (wordAt fb 0) 55 54 == 1
/-- Bytes of a moment. -/
def fbStateBytes (fb : List Byte) : Nat := if fbBf fb then 2 else 4
/-- `SKSC`. -/
def fbSksc (fb : List Byte) : W32 := BitVec.ofNat 32 (bits (wordAt fb 0) 31 0)
/-- Word o of copy entry k. -/
def cpWord (fb : List Byte) (k o : Nat) : W64 := wordAt fb (0x20 + 32 * k + o)
/-- `CKIND`. -/
def cpKind (fb : List Byte) (k : Nat) : Nat := bits (cpWord fb k 0) 63 60
/-- `CFMT`. -/
def cpFmt (fb : List Byte) (k : Nat) : Nat := bits (cpWord fb k 0) 59 56
/-- The pass width Wp of a copy. -/
def cpWidth (fb : List Byte) (k : Nat) : Nat := if cpKind fb k = 4 then 128 else passWidth (cpFmt fb k) true

/-- Whether copy entry k breaks R248 for a header. -/
def badCopy (h fb : List Byte) (k : Nat) : Bool :=
  let kind := cpKind fb k
  let col := kind == 1 || kind == 3 || kind == 6
  let n := if col then mhNout h else mhNin h
  let wp := cpWidth fb k
  decide (6 < kind) || bits (cpWord fb k 0) 55 0 != 0 || cpWord fb k 0x18 != 0
  || (mhTenant h != decide (5 ≤ kind))
  || (kind == 4) != (cpFmt fb k == 0xB) || wp == 0 || n % wp != 0
  || (decide (5 ≤ kind) && wp != mhTin h)
  || (kind == 6) != (cpWord fb k 0x10 != 0)

/-- The copy entry, if any, that breaks R248: an invalid one below `NCOPY`, else a non-zero one from `NCOPY` upward. -/
def badEntry (h fb : List Byte) : Option Nat :=
  match (List.range (Min.min 6 (fbCopies fb))).find? (badCopy h fb) with
  | some k => some k
  | none => (List.range 6).find? fun k => decide (fbCopies fb ≤ k) && ((fb.drop (0x20 + 32 * k)).take 32).any (· != 0)

/-- The fault of an invalid firing block (R248), which names the copy entry where one applies (R259). `copies`: whether
`NCOPY` and the copy entries are checked; `rule` the rule whose state words are, where it keeps state. -/
def firingFlt (h fb : List Byte) (copies : Bool) (rule : Option Nat) : Option Flt :=
  let state := match rule with
    | some 3 => wordAt fb 8 == 0
    | some 4 => wordAt fb 8 == 0 || wordAt fb 0x10 == 0
    | _ => false
  if decide (2 ≤ bits (wordAt fb 0) 55 54) || state
    || (copies && (bits (wordAt fb 0) 63 60 != 0 || bits (wordAt fb 0) 53 32 != 0 || wordAt fb 0x18 != 0 || decide (6 < fbCopies fb)
      || (mhKind h == 0 && decide (32768 < mhNin h)))) then some (ruleFlt 8)
  else if copies then (badEntry h fb).map fun k => ruleFlt 8 (BitVec.ofNat 64 k)
  else none

/-- Elements of a storage unit of a 2:4 tensor copy, its size, and the stride of a row of n elements. -/
def groupLen (fmt : Nat) : Nat := if isMx fmt then 1024 else 512
/-- See `groupLen`. -/
def groupBytes (fmt : Nat) : Nat := if isMx fmt then saggarBytes fmt true else stripBytes fmt
/-- See `groupLen`. -/
def rowStride (fmt n : Nat) : Nat := roundUp (ceilDiv n (groupLen fmt) * groupBytes fmt) 64

/-- Bytes of a patch slot. -/
def slotBytes : Nat := 1984

/-- Bytes that copy k spans at `CDST`. -/
def copyBytes (h fb : List Byte) (k : Nat) : Nat :=
  let wp := cpWidth fb k
  let fmt := cpFmt fb k
  match cpKind fb k with
  | 1 => mhNin h / 64 * (mhNout h / wp) * tileBytes
  | 2 => mhNout h * rowStride fmt (mhNin h)
  | 3 => mhNin h * rowStride fmt (mhNout h)
  | 5 => mhNout h / 64 * (mhNin h / wp) * slotBytes
  | 6 => mhNin h / 64 * (mhNout h / wp) * slotBytes
  | _ => mhNout h / 64 * (mhNin h / wp) * tileBytes

/-! ### Storage units of copies -/

/-- A storage unit: its copy, its row and column among the copy's units, the last output it covers, and whether it
ends a tile or a row (for `RES_TILES`). -/
structure FireUnit where
  copy : Nat
  row  : Nat
  col  : Nat
  last : Nat
  ends : Bool
  deriving DecidableEq, Repr

/-- The storage units of copy k, in order. -/
def copyUnitsOf (h fb : List Byte) (k : Nat) : List FireUnit :=
  let wp := cpWidth fb k
  let kind := cpKind fb k
  let nout := mhNout h
  let nin := mhNin h
  let grid := fun (rows cols : Nat) (last : Nat → Nat → Nat) (ends : Nat → Bool) =>
    ((List.range rows).map fun r => (List.range cols).map fun c =>
      ({ copy := k, row := r, col := c, last := last r c, ends := ends c } : FireUnit)).flatten
  let gl := groupLen (cpFmt fb k)
  if kind = 1 ∨ kind = 6 then grid (nin / 64) (nout / wp) (fun _ c => (c + 1) * wp - 1) (fun _ => true)
  else if kind = 2 then grid nout (ceilDiv nin gl) (fun r _ => r) (fun c => c + 1 == ceilDiv nin gl)
  else if kind = 3 then grid nin (ceilDiv nout gl) (fun _ c => Min.min nout ((c + 1) * gl) - 1) (fun c => c + 1 == ceilDiv nout gl)
  else grid (nout / 64) (nin / wp) (fun r _ => 64 * r + 63) (fun _ => true)

/-- The position of element j of line l of a storage unit (a tile's column, or the one line of a tensor's unit). -/
def unitPos (fb : List Byte) (u : FireUnit) (l j : Nat) : Nat × Nat :=
  let wp := cpWidth fb u.copy
  let gl := groupLen (cpFmt fb u.copy)
  match cpKind fb u.copy with
  | 1 => (u.col * wp + j, 64 * u.row + l)
  | 6 => (u.col * wp + j, 64 * u.row + l)
  | 2 => (u.row, u.col * gl + j)
  | 3 => (u.col * gl + j, u.row)
  | _ => (64 * u.row + l, u.col * wp + j)

/-- Whether a storage unit holds position (o, i). -/
def unitHas (fb : List Byte) (u : FireUnit) (o i : Nat) : Bool :=
  let wp := cpWidth fb u.copy
  let gl := groupLen (cpFmt fb u.copy)
  match cpKind fb u.copy with
  | 1 => i / 64 == u.row && o / wp == u.col
  | 6 => i / 64 == u.row && o / wp == u.col
  | 2 => o == u.row && i / gl == u.col
  | 3 => i == u.row && o / gl == u.col
  | _ => o / 64 == u.row && i / wp == u.col

/-- Where a storage unit is written. -/
def unitDst (h fb : List Byte) (u : FireUnit) : W64 :=
  let wp := cpWidth fb u.copy
  let fmt := cpFmt fb u.copy
  let off := match cpKind fb u.copy with
    | 1 => (u.row * (mhNout h / wp) + u.col) * tileBytes
    | 2 => u.row * rowStride fmt (mhNin h) + u.col * groupBytes fmt
    | 3 => u.row * rowStride fmt (mhNout h) + u.col * groupBytes fmt
    | 5 => (u.row * (mhNin h / wp) + u.col) * slotBytes
    | 6 => (u.row * (mhNout h / wp) + u.col) * slotBytes
    | _ => (u.row * (mhNin h / wp) + u.col) * tileBytes
  cpWord fb u.copy 8 + BitVec.ofNat 64 off

/-! ### The bytes of a storage unit (R249) -/

/-- The kept elements of a line and their indices, through the mask and not through the values. -/
def keptLine (es : List Nat) (keep : Nat → Bool) : List Nat × List Nat :=
  let prs := (List.range (es.length / 4)).map fun g => (g, keptPair fun j => keep (4 * g + j))
  ((prs.map fun p => [es.getD (4 * p.1 + p.2.1) 0, es.getD (4 * p.1 + p.2.2) 0]).flatten,
   (prs.map fun p => [p.2.1, p.2.2]).flatten)

/-- A 2:4 tile image of 64 columns (Tables 5.3, 5.4), scales per column over 32 inputs. -/
def maskTile (fmt nin : Nat) (vals : List (List FV)) (keep : Nat → Nat → Bool) : AMap Byte :=
  let hdr := fmt + 2 ^ 8 + nin * 2 ^ 16 + 64 * 2 ^ 32
  vals.zipIdx.foldl (fun t (col, c) =>
    let blocks := chunks 32 col
    let es := if isMx fmt then (blocks.map fun b => mxElems fmt (mxScale fmt b) b).flatten else col.map (elemEnc fmt)
    let scales : List Byte := if isMx fmt then blocks.map fun b => BitVec.ofNat 8 (mxScale fmt b) else []
    let kx := keptLine es (keep c)
    setBytes (setBytes (setBytes t (0x40 + 64 * c) (packElems (elemBits fmt) kx.1)) (0x1040 + 32 * c) (packIdx kx.2))
      (0x1840 + 8 * c) scales) (setBytes [] 0 (leBytes 64 hdr))

/-- A sketch element: r32(w × `SKSC`) rounded to an integer and saturated to −8 to 7, a NaN 0. -/
def sketchElem (sksc : W32) (v : FV) : Nat := elemEnc 0xB (f32 (rnd32 (v.mul (f32 sksc))))

/-- A sketch tile image: INT4, dense, 128 inputs. -/
def sketchTile (sksc : W32) (vals : List (List FV)) : AMap Byte :=
  let hdr := 0xB + 128 * 2 ^ 16 + 64 * 2 ^ 32
  vals.zipIdx.foldl (fun t (col, c) => setBytes t (0x40 + 64 * c) (packElems 4 (col.map (sketchElem sksc))))
    (setBytes [] 0 (leBytes 64 hdr))

/-- A saggar or strip of a 2:4 tensor copy; positions beyond the row are zero elements (R101). -/
def maskGroup (fmt : Nat) (vs : List FV) (keep : Nat → Bool) : List Byte :=
  let eb := elemBits fmt
  let n := groupLen fmt
  let vs := vs ++ List.replicate (n - vs.length) (FV.fin false 0 0)
  if isMx fmt then
    ((chunks 128 vs).zipIdx.map fun ((cell : List FV), (ci : Nat)) =>
      let blocks := chunks 32 cell
      (blocks.map fun b => BitVec.ofNat 8 (mxScale fmt b)) ++ leBytes 4 0
      ++ (blocks.zipIdx.map fun ((b : List FV), (bi : Nat)) =>
          let kx := keptLine (mxElems fmt (mxScale fmt b) b) fun j => keep (128 * ci + 32 * bi + j)
          packElems eb kx.1 ++ packIdx kx.2).flatten).flatten
  else
    let kx := keptLine (vs.map (elemEnc fmt)) keep
    packElems eb kx.1 ++ packIdx kx.2

/-- The bytes of a storage unit of a base copy, or the uncorrectable error met. -/
def baseUnit (s : State) (h fb : List Byte) (u : FireUnit) : Except Flt (List Byte) :=
  let kind := cpKind fb u.copy
  let fmt := cpFmt fb u.copy
  let tile := kind == 0 || kind == 1 || kind == 4
  let lines := if tile then 64 else 1
  let len := if tile then cpWidth fb u.copy
    else Min.min (groupLen fmt) ((if kind = 2 then mhNin h else mhNout h) - u.col * groupLen fmt)
  let res := (List.range lines).map fun l => (List.range len).map fun j =>
    let p := unitPos fb u l j
    firedAt s h p.1 p.2
  match splitFault res.flatten with
  | (_, some f) => .error f
  | (vs, none) =>
    let rows := chunks len vs
    let keep := fun (l j : Nat) => decide (j < len) && (let p := unitPos fb u l j; keepAt s h p.1 p.2)
    .ok (if kind = 4 then getBytes (sketchTile (fbSksc fb) rows) 0 tileBytes
      else if tile then getBytes (maskTile fmt len rows keep) 0 tileBytes
      else maskGroup fmt (rows.headD []) (keep 0))

/-! ### Patch segments (R250) -/

/-- A value that the spec leaves open, at a place of the work in progress (DESIGN CHOICE, log entries 4 and 22). DESIGN CHOICE, log entry 4. DESIGN CHOICE, log entry 22. -/
def freeElem (s : State) (at_ nb : Nat) : Nat := (Config.freeAt s.free at_).toNat % 2 ^ nb

/-- `VALUE` of a delta: r32(base + master) under the block's scale (R120); a NaN under a scale is left open. DESIGN CHOICE, log entry 22. -/
def deltaValue (s : State) (fmt : Nat) (img : AMap Byte) (c i : Nat) (master : W32) : Nat :=
  let v := f32 (rnd32 ((tileWeight img c i).add (f32 master)))
  if isMx fmt then
    if v.isNan then freeElem s (c * 256 + i) (elemBits fmt)
    else mxEnc fmt v ((tileScale img c (i / 32) : Nat) - 127)
  else elemEnc fmt v

/-- A 4 × 4 block's bits with rows and columns exchanged. -/
def transposeMask (m : Nat) : Nat :=
  (List.range 16).foldl (fun a u => if m.testBit u then a + 2 ^ (4 * (u % 4) + u / 4) else a) 0

/-- The entries and overrides of a tenant's storage unit, in the unit's own order, with columns and inputs as the
segment names them: (column, input, master index) and (column block, input group, mask). -/
def unitRecords (s : State) (h fb : List Byte) (u : FireUnit) : List (Nat × Nat × Nat) × List (Nat × Nat × Nat) :=
  let wp := cpWidth fb u.copy
  if cpKind fb u.copy = 5 then
    let x := tenantTile s h (u.row * (mhNin h / wp) + u.col)
    (x.ents.map fun e => (e.o % 64, e.i % wp, e.k), x.ovrs.map fun v => (v.p % 16, v.q % (wp / 4), v.mask))
  else
    let ts := tenantTiles s h
    let es := ((ts.map (·.ents)).flatten.filter fun e => unitHas fb u e.o e.i).map fun e => (e.i % 64, e.o % wp, e.k)
    let vs := ((ts.map (·.ovrs)).flatten.filter fun v => unitHas fb u (4 * v.p) (4 * v.q)).map fun v =>
      (v.q % 16, v.p % (wp / 4), transposeMask v.mask)
    (sortBy (fun (a b : Nat × Nat × Nat) => decide (a.1 * 256 + a.2.1 ≤ b.1 * 256 + b.2.1)) es,
     sortBy (fun (a b : Nat × Nat × Nat) => decide (a.1 * 64 + a.2.1 ≤ b.1 * 64 + b.2.1)) vs)

/-- The image that a patch unit takes its base values from. -/
def unitImage (h fb : List Byte) (u : FireUnit) : W64 :=
  let wp := cpWidth fb u.copy
  if cpKind fb u.copy = 5 then wordAt h 0x60 + BitVec.ofNat 64 ((u.row * (mhNin h / wp) + u.col) * tileBytes)
  else cpWord fb u.copy 0x10 + BitVec.ofNat 64 ((u.row * (mhNout h / wp) + u.col) * tileBytes)

/-- The bytes of a patch segment in its slot (R138, R250). DESIGN CHOICE, log entry 22. -/
def patchUnit (s : State) (h fb : List Byte) (u : FireUnit) : Except Flt (List Byte) :=
  let ga := unitImage h fb u
  let rd := globalRd s ga
  match lineFlt rd (loc ga) tileBytes with
  | some f => .error f
  | none =>
    let img := setBytes [] 0 (rd.bytes (loc ga) tileBytes)
    let fmt := cpFmt fb u.copy
    let rv := unitRecords s h fb u
    let bad := rv.1.findSome? fun e => lineFlt (memRd s) (loc (wordAt h 0x30) + 4 * e.2.2) 4
    match bad with
    | some f => .error f
    | none =>
      let ovr := rv.2.map fun (cb, ig, m) =>
        leBytes 8 (m * 2 ^ 48 + ig * 2 ^ 8 + cb)
        ++ padTo 16 ((setBitsOf 16 m).map fun b =>
            let c := 4 * cb + b / 4
            let i := 4 * ig + b % 4
            leBytes 2 (if imageKeeps img c i then (tileAt img c i).getD 0 else 0)).flatten
      let del := rv.1.map fun (c, i, k) => leBytes 4 (deltaValue s fmt img c i (masterAt s h k) * 2 ^ 16 + i * 2 ^ 8 + c)
      .ok (padTo slotBytes (leBytes 8 (rv.1.length + rv.2.length * 2 ^ 16) ++ ovr.flatten ++ del.flatten))

/-- A column patch tile over capacity: more than 384 entries or 16 overrides (R250). -/
def overCapacity (s : State) (h fb : List Byte) : List Flt :=
  if mhTenant h then
    (((List.range (fbCopies fb)).filter fun k => cpKind fb k = 6).map fun k =>
      ((copyUnitsOf h fb k).zipIdx.filterMap fun (u, n) =>
        let rv := unitRecords s h fb u
        if 384 < rv.1.length ∨ 16 < rv.2.length then
          some (ruleFlt 9 (BitVec.ofNat 64 n)) else none)).flatten
  else []

/-! ### Firing -/

/-- Writes of Kiln n acting for core c at a global address, as its source stream (Table 12.3). -/
def kilnWrite (s : State) (n c : Nat) (ga : W64) (bs : List Byte) : State × Option Flt :=
  unitWrites s (if isHere s (bits ga 63 48) then .here else .far (bits ga 63 48)) c .kiln (some (0xC00 + n)) [(loc ga, bs)]

/-- Fire storage units in order; the first fault ends it. Answers the tiles, rows and segments fired. -/
def fireAll (s : State) (n c : Nat) (h fb : List Byte) : List FireUnit → State × Option Flt × Nat
  | [] => (s, none, 0)
  | u :: t =>
    match (if mhTenant h then patchUnit s h fb u else baseUnit s h fb u) with
    | .error f => (s, some f, 0)
    | .ok bs =>
      match kilnWrite s n c (unitDst h fb u) bs with
      | (s, some f) => (s, some f, 0)
      | (s, none) =>
        let r := fireAll (nextFree s) n c h fb t
        (r.1, r.2.1, r.2.2 + (if u.ends then 1 else 0))

/-- The firing block of a header. -/
def firingBlock (s : State) (h : List Byte) : Option (List Byte) :=
  if wordAt h 0x68 = 0 then none else some (globalBytes s (wordAt h 0x68) 256)

/-- The storage units of the copies of a selection (0 selects all). -/
def selectedUnits (h fb : List Byte) (csel : Nat) : List FireUnit :=
  (((List.range (Min.min 6 (fbCopies fb))).filter fun k => csel == 0 || csel.testBit k).map (copyUnitsOf h fb)).flatten

/-- Outputs of a band (R251). -/
def bandLen (h : List Byte) : Nat := if mhTenant h then mhTin h else 256

/-- The bands wholly written once the outputs below `o` are. -/
def bandsDone (h : List Byte) (o : Nat) : Nat := if mhNout h ≤ o then ceilDiv (mhNout h) (bandLen h) else o / bandLen h

/-- Fire the units of bands `lo` up to `hi` (R251): a unit belongs to the band of its last output. -/
def fireBands (s : State) (n c : Nat) (h fb : List Byte) (lo hi : Nat) : State × Option Flt × Nat :=
  fireAll s n c h fb ((selectedUnits h fb 0).filter fun u => decide (lo ≤ u.last / bandLen h ∧ u.last / bandLen h < hi))

end Sys2Proof.Machine
end

