-- ==== Sys2Proof/Machine/Mask.lean ====
section
/-! DEFINITION. The mask engine (R167 to R195): the checks of a mask command at fetch, pass 1 (velvet ageing, cast,
grow, fold, reselection), the commit of the header, and pass 2. -/

namespace Sys2Proof.Machine

open Sys2Proof

/-! ### The command block (Tables 7.7, 7.8) -/

/-- `MODE`. -/
def mcMode (b : List Byte) : Nat := bits (wordAt b 0) 55 48
/-- `STEP`. -/
def mcStep (b : List Byte) : Nat := bits (wordAt b 0) 47 0
/-- `COUNT`. -/
def mcCount (b : List Byte) : Nat := bits (wordAt b 0x10) 31 0
/-- `LAMBDA`. -/
def mcLambda (b : List Byte) : W32 := BitVec.ofNat 32 (bits (wordAt b 0x18) 63 32)
/-- `PB`: `DECAY` or `THR`. -/
def mcPb (b : List Byte) : W32 := BitVec.ofNat 32 (bits (wordAt b 0x18) 31 0)
/-- Score records in the list of a fold. -/
def mcSrcn (b : List Byte) : Nat := bits (wordAt b 0x28) 31 0
/-- First block and count of a base reselection (R192). -/
def mcBlk0 (b : List Byte) : Nat := bits (wordAt b 0x30) 63 32
/-- See `mcBlk0`. -/
def mcNblk (b : List Byte) : Nat := bits (wordAt b 0x30) 31 0

/-- Whether a mask command changes the mask: cast, grow with `MODE` 0, reselection (R176). -/
def mcChanges (op mode : Nat) : Bool := op == 4 || op == 6 || (op == 5 && mode == 0)

/-- Whether the mode is one of Table 7.8. -/
def mcModeOk (op mode : Nat) : Bool :=
  (op == 4 && decide (mode ≤ 1)) || (op == 5 && decide (mode ≤ 2)) || (op == 6 && mode == 0)

/-- The destinations a command requires (Table 7.8), by offset of their words. -/
def mcNeeds (op mode : Nat) (tenant : Bool) : List Nat :=
  if op = 5 ∧ mode = 1 then [0x58]
  else if op = 5 ∧ mode = 2 then []
  else (if tenant then [0x38, 0x40, 0x48] else [0x38])
    ++ (if op = 6 ∧ tenant then [0x50] else []) ++ (if op = 5 ∨ op = 6 then [0x58] else [])

/-- The capacity in bytes of the destination or array at a word of the block (R178). -/
def mcCap (h : List Byte) (o : Nat) : Nat :=
  if o = 0x38 then (if mhTenant h then 8 * mhTiles h else 8 * mhBlocks h)
  else if o = 0x40 then 2 * mhDmax h
  else if o = 0x48 then 4 * mhDmax h
  else if o = 0x50 then 8 * mhOvmax h
  else 8 * mhCmax h

/-- The arrays a header names: word offset and length. -/
def mhArrays (h : List Byte) : List (Nat × Nat) :=
  [(0x20, mcCap h 0x38), (0x30, if mhTenant h then 4 * mhDmax h else 4 * (mhNout h * mhNin h)), (0x40, 8 * mhCmax h)]
  ++ (if mhTenant h then [(0x28, 2 * mhDmax h), (0x38, 8 * mhOvmax h), (0x60, tileBytes * mhTiles h)] else [])

/-! ### Checks at fetch (R178, R179) -/

/-- The checks on an address that a Kiln command reads, writes or both: windows, alignment to 64 bytes, and, where it must,
memory of the Kiln (R80, R117, R177, R237). -/
def kilnAddr (s : State) (c n sub : Nat) (served : Bool) (ga : W64) (len : Nat) (reads writes : Bool) : List Flt :=
  let at_ := fun w => (memFlt s (coreOf s c) (bits ga 63 48) (loc ga) len w).toList
  (if reads then at_ false else []) ++ (if writes then at_ true else [])
  ++ faultIf (bits ga 5 0 != 0) { cls := 3, sub := 2, addr := ga, w1 := 64 }
  ++ faultIf (served && !(isHere s (bits ga 63 48) && servedBy s n (loc ga) len)) (ruleFlt sub)

/-- An array that a header names: the offset of its word, its length, whether it must be the Kiln's, whether it is written. -/
structure HeadArr where
  off    : Nat
  len    : Nat
  served : Bool := true
  writes : Bool := false
  deriving DecidableEq, Repr

/-- The checks of the arrays of a header. Where the header is invalid its lengths say nothing, and only the addresses are
checked (R17). -/
def headArrFlts (s : State) (c n sub : Nat) (h : List Byte) (arrs : List HeadArr) : List Flt :=
  (arrs.map fun a => kilnAddr s c n sub a.served (wordAt h a.off) (if badHeader h then 1 else a.len) true a.writes).flatten

/-- The address checks of a firing block's copies and their sources; a copy entry that breaks R248 has no length. -/
def firingAddrs (s : State) (c n : Nat) (h fb : List Byte) : List Flt :=
  ((List.range (Min.min 6 (fbCopies fb))).map fun k =>
    let bad := badHeader h || badCopy h fb k
    kilnAddr s c n 6 false (cpWord fb k 8) (if bad then 1 else copyBytes h fb k) false true
    ++ (if cpKind fb k = 6 then
          kilnAddr s c n 6 false (cpWord fb k 0x10) (if bad then 1 else mhNin h / 64 * (mhNout h / cpWidth fb k) * tileBytes) true false
        else [])).flatten

/-- The checks of the firing block that a header names (R248), with what is checked in the block once it can be read. -/
def firingFlts (s : State) (c n sub : Nat) (h : List Byte) (copies : Bool) (rule : Option Nat) (more : List Byte → List Flt) : List Flt :=
  match firingBlock s h with
  | none => faultIf (rule == some 3 || rule == some 4) (ruleFlt 8)
  | some f =>
    match kilnAddr s c n sub false (wordAt h 0x68) 256 true false ++ gaErr s (wordAt h 0x68) 256 with
    | [] => (firingFlt h f copies rule).toList ++ (if copies then firingAddrs s c n h f else []) ++ more f
    | fs => fs

/-- Whether two byte ranges meet. -/
def rangesMeet (a b : Nat × Nat) : Bool := decide (a.1 < b.1 + b.2 ∧ b.1 < a.1 + a.2)

/-- Whether some range meets another or a source. -/
def anyOverlap (srcs : List (Nat × Nat)) : List (Nat × Nat) → Bool
  | [] => false
  | d :: t => srcs.any (rangesMeet d) || t.any (rangesMeet d) || anyOverlap srcs t

/-- Whether an FP32 parameter is finite and not below 0. -/
def okParam (w : W32) : Bool := f32IsFin w && (!(f32 w).neg || (f32 w).isZero)

/-- The words of a mask command's block that may name a destination. -/
def dstWords : List Nat := [0x38, 0x40, 0x48, 0x50, 0x58]

/-- The score list of a fold: address and length. -/
def mcList (op : Nat) (b : List Byte) : List (W64 × Nat) :=
  if op = 5 ∧ mcMode b = 1 ∧ mcSrcn b ≠ 0 then [(wordAt b 0x20, 8 * mcSrcn b)] else []

/-- The checks of a mask command's block that need no header, and of the addresses in it; `need` gives the capacity of a
destination that the command requires (R178, R184, R190). -/
def maskBlockFlts (s : State) (c n op : Nat) (b : List Byte) (need : Nat → Option Nat) : List Flt :=
  let mode := mcMode b
  faultIf (!mcModeOk op mode || bits (wordAt b 0) 63 56 != 0 || bits (wordAt b 0x10) 63 32 != 0 || bits (wordAt b 0x28) 63 32 != 0
      || (b.drop 0x60).any (· != 0)) (ruleFlt 0x20)
  ++ faultIf ((op == 5 && mode == 1 && !okParam (mcPb b)) || (op == 6 && !okParam (mcLambda b))
      || (op == 4 && mode == 1 && (f32IsNan (mcPb b) || ((f32 (mcPb b)).neg && !(f32 (mcPb b)).isZero)))) (ruleFlt 0x25)
  ++ ((dstWords.filter fun o => wordAt b o != 0).map fun o =>
        kilnAddr s c n 0x26 (need o).isSome (wordAt b o) ((need o).getD 1) false true).flatten
  ++ ((mcList op b).map fun l => kilnAddr s c n 0x26 false l.1 l.2 true false).flatten

/-- Every check of a mask command at fetch that needs its header (R177 to R179, R192). DEDUCED, log entry 20. -/
def maskFlts (s : State) (c n op : Nat) (b h : List Byte) : List Flt :=
  let mode := mcMode b
  let ok := mcModeOk op mode
  let chg := mcChanges op mode
  let needs := mcNeeds op mode (mhTenant h)
  let grows := !mhTenant h && chg && op != 4
  let header := badHeader h || mhVunit h == 0 || decide (mhVunit h ≤ mhVacc h) || mhCmax h == 0
    || (op == 6 && mhTenant h && !badHeader h
      && (List.range (mhTiles h)).any fun t => !tileS24 (setBytes [] 0 (globalBytes s (wordAt h 0x60 + BitVec.ofNat 64 (tileBytes * t)) 64)))
  let blocks := mhBlocks h
  let outs := (needs.filter fun o => wordAt b o != 0).map fun o => (canonGa s (wordAt b o), mcCap h o)
  let srcs := (canonGa s (wordAt b 8), 128) :: ((mhArrays h).map fun a => (canonGa s (wordAt h a.1), a.2))
    ++ (mcList op b).map fun l => (canonGa s l.1, l.2)
  faultIf (ok && ((dstWords.any fun o => o ∉ needs && wordAt b o != 0)
      || (op == 6 && mhKind h == 0 && (decide (blocks ≤ mcBlk0 b) || (mcNblk b != 0 && decide (blocks < mcBlk0 b + mcNblk b)))))) (ruleFlt 0x20)
  ++ faultIf header (ruleFlt 0x21)
  ++ faultIf (chg && (mcStep b != mhUstep h || decide (mcStep b < mhLast h))) (ruleFlt 0x22)
  ++ faultIf (ok && ((needs.any fun o => wordAt b o == 0) || (!badHeader h && anyOverlap srcs outs))) (ruleFlt 0x24)
  ++ headArrFlts s c n 0x26 h ((mhArrays h).map fun a => { off := a.1, len := a.2, writes := a.1 == 0x30 && grows })
  ++ firingFlts s c n 0x26 h true none fun f =>
      if grows then
        ([8, 0x10].map fun o => if wordAt f o = 0 then []
          else kilnAddr s c n 0x26 true (wordAt f o) (fbStateBytes f * (mhNout h * mhNin h)) false true).flatten
      else []

/-! ### Velvet (R176) -/

/-- Whole velvet units elapsed and the steps carried on. -/
def ageUnits (h : List Byte) (step : Nat) : Nat × Nat :=
  let v := mhVacc h + (step - mhLast h)
  (v / mhVunit h, v % mhVunit h)

/-- A base record with new keep bits and velvet counters. -/
def mkRecord (keep : Nat) (vel : Nat → Nat) : Nat :=
  (List.range 16).foldl (fun a u => a + (if keep.testBit u then vel u % 4 * 2 ^ (16 + 2 * u) else 0)) (keep % 2 ^ 16)

/-- A base record aged by n units. -/
def ageRecord (n r : Nat) : Nat := mkRecord (nbits r 15 0) fun u => recVel r u - n

/-! ### Pass 1: what a command decides -/

/-- A candidate: score and POS. -/
abbrev Cand := W32 × Nat

/-- The result of pass 1: the base records or the tenant tiles, the candidate table, the counts of Table 7.9, the
grown base positions and the changed blocks. -/
structure MaskOut where
  recs   : List Nat := []
  tiles  : List TTile := []
  cand   : List Cand := []
  cast   : Nat := 0
  grown  : Nat := 0
  skip   : Nat := 0
  blk    : Nat := 0
  vconf  : Nat := 0
  made   : Nat := 0
  gone   : Nat := 0
  grownAt : List Nat := []
  changed : List (Nat × Nat) := []
  deriving DecidableEq, Repr

/-- The magnitude that R183 ranks by. -/
def rankMag (w : W32) : Nat := w.toNat % 2 ^ 31

/-- Candidates in descending score, ties by ascending POS (R183). -/
def rankDown (l : List Cand) : List Cand :=
  sortBy (fun a b => decide (rankMag b.1 < rankMag a.1 ∨ (rankMag a.1 = rankMag b.1 ∧ a.2 ≤ b.2))) l

/-- Positions in ascending magnitude, ties by ascending POS (R183). -/
def rankUp (l : List Cand) : List Cand :=
  sortBy (fun a b => decide (rankMag a.1 < rankMag b.1 ∨ (rankMag a.1 = rankMag b.1 ∧ a.2 ≤ b.2))) l

/-- The candidate table as stored. -/
def candTable (s : State) (h : List Byte) : List Cand :=
  (List.range (mhCcnt h)).map fun i =>
    let e := leNat (readMem s (loc (wordAt h 0x40) + 8 * i) 8)
    (BitVec.ofNat 32 (nbits e 63 32), nbits e 31 0)

/-- Whether a score is finite and positive. -/
def goodScore (w : W32) : Bool := f32IsFin w && !(f32 w).neg && !(f32 w).isZero

/-- The faults of the candidate table (R174). -/
def candFlts (s : State) (h : List Byte) : List Flt :=
  let np := mhNout h * mhNin h
  let tab := candTable s h
  match countFlt (wordAt h 0x40) (mhCcnt h) (mhCmax h) with
  | f :: t => f :: t
  | [] => match lineFlt (memRd s) (loc (wordAt h 0x40)) (8 * mhCcnt h) with
    | some f => [f]
    | none =>
      (tab.zipIdx.filterMap fun ((e : Cand), (i : Nat)) =>
        if np ≤ e.2 then
          some { cls := 5, sub := 6, addr := wordAt h 0x40, w1 := BitVec.ofNat 64 e.2, w2 := BitVec.ofNat 64 np, w3 := BitVec.ofNat 64 i }
        else if !goodScore e.1 then some (ruleFlt 0x23 (BitVec.ofNat 64 i)) else none)
      ++ (match (List.range (tab.length - 1)).find? fun i => decide ((tab.getD (i + 1) (0, 0)).2 ≤ (tab.getD i (0, 0)).2) with
        | some i => [ruleFlt 0x23 (BitVec.ofNat 64 (i + 1))]
        | none => [])

/-- The base records as stored. -/
def baseRecords (s : State) (h : List Byte) : List Nat := (List.range (mhBlocks h)).map (blockRec s h)

/-- The faults of the block array (R168, R171). -/
def blockFlts (s : State) (h : List Byte) : List Flt :=
  match lineFlt (memRd s) (loc (wordAt h 0x20)) (8 * mhBlocks h) with
  | some f => [f]
  | none => (baseRecords s h).zipIdx.filterMap fun ((r : Nat), (i : Nat)) => recordFlt h i r

/-- Block index, bit and block coordinates of a POS. -/
def posBlock (h : List Byte) (p : Nat) : Nat := blockOf h (p / mhNin h) (p % mhNin h)
/-- See `posBlock`. -/
def posBit (h : List Byte) (p : Nat) : Nat := blockBit (p / mhNin h) (p % mhNin h)
/-- POS of bit u of block i. -/
def posOf (h : List Byte) (i u : Nat) : Nat :=
  let q := mhNin h / 4
  (4 * (i / q) + u / 4) * mhNin h + 4 * (i % q) + u % 4
/-- Coordinates of block i. -/
def blockXY (h : List Byte) (i : Nat) : Nat × Nat := (i / (mhNin h / 4), i % (mhNin h / 4))

/-- The blocks whose kept set differs between two lists of records. -/
def changedBlocks (h : List Byte) (old new : List Nat) : List (Nat × Nat) :=
  ((List.zip old new).zipIdx.filter fun ((a, b), _) => nbits a 15 0 != nbits b 15 0).map fun q => blockXY h q.2

/-- A base cast (R186) on aged records. -/
def baseCast (s : State) (h b : List Byte) (recs : List Nat) (cand : List Cand) : MaskOut :=
  let able : List Cand := ((recs.zipIdx.map fun ((r : Nat), (i : Nat)) =>
    ((List.range 16).filter fun u => r.testBit u && recVel r u == 0).map fun u =>
      (masterAt s h (posOf h i u), posOf h i u)).flatten)
  let chosen := if mcMode b = 0 then (rankUp able).take (mcCount b)
    else able.filter fun e => decide (rankMag e.1 < rankMag (mcPb b))
  let new := chosen.foldl (fun rs e =>
    let i := posBlock h e.2
    let r := rs.getD i 0
    rs.set i (r - 2 ^ posBit h e.2)) recs
  { recs := new, cand := cand, cast := chosen.length, blk := (changedBlocks h recs new).length, changed := changedBlocks h recs new }

/-- Walk the candidates of a base grow (R188). -/
def baseGrowWalk (h : List Byte) (vg : Nat) : Nat → List Cand → MaskOut → MaskOut
  | 0, rest, m => { m with cand := m.cand ++ rest }
  | _, [], m => m
  | left + 1, e :: t, m =>
    let i := posBlock h e.2
    let u := posBit h e.2
    let r := m.recs.getD i 0
    let keep := nbits r 15 0
    if keep.testBit u then baseGrowWalk h vg (left + 1) t m
    else if crowded (keep + 2 ^ u) then
      baseGrowWalk h vg (left + 1) t { m with cand := m.cand ++ [e], skip := m.skip + 1 }
    else
      baseGrowWalk h vg left t
        { m with recs := m.recs.set i (r + 2 ^ u + vg * 2 ^ (16 + 2 * u)), grown := m.grown + 1, grownAt := m.grownAt ++ [e.2] }

/-- A base grow on aged records. -/
def baseGrow (h b : List Byte) (recs : List Nat) (cand : List Cand) : MaskOut :=
  let m := baseGrowWalk h (mhVgrow h) (mcCount b) (rankDown cand) { recs := recs }
  let ch := changedBlocks h recs m.recs
  { m with blk := ch.length, changed := ch }

/-- The patterns of the selector (R169), ascending. -/
def patterns : List Nat :=
  let rows := [3, 5, 6, 9, 10, 12]
  let four := (rows.map fun d => (rows.map fun c => (rows.map fun b => rows.map fun a =>
    a + 16 * b + 256 * c + 4096 * d).flatten).flatten).flatten
  four.filter fun m => (List.range 4).all fun b =>
    ((List.range 4).filter fun a => m.testBit (4 * a + b)).length == 2

/-- The exact sum of the scores of a set of positions. -/
def setScore (sc : Nat → FV) (m : Nat) : FV := (setBitsOf 16 m).foldl (fun a u => a.add (sc u)) (.fin false 0 0)

/-- The choice of the selector for a block (R191): none where no pattern holds the velvet positions. -/
def choosePattern (sc : Nat → FV) (cur velvet : Nat) : Option Nat :=
  let able := patterns.filter fun m => m &&& velvet == velvet
  match able with
  | [] => none
  | p :: t =>
    let best := t.foldl (fun a m => if (setScore sc a).lt (setScore sc m) then m else a) p
    if cur ∈ able && !(setScore sc cur).lt (setScore sc best) then some cur else some best

/-- The candidate score of a POS. -/
def candAt (cand : List Cand) (p : Nat) : Option W32 := (cand.find? fun e => e.2 == p).map (·.1)

/-- λ × G rounded to FP32, for a position that is not active (R190). -/
def gainScore (b : List Byte) (cand : List Cand) (p : Nat) : FV :=
  match candAt cand p with
  | some g => f32 (f32Mul (mcLambda b) g)
  | none => .fin false 0 0

/-- A base reselection on aged records (R190 to R192), or the fault of a score that is not finite. -/
def baseSel (s : State) (h b : List Byte) (recs : List Nat) (cand : List Cand) : Except Flt MaskOut :=
  let last := if mcNblk b = 0 then recs.length else mcBlk0 b + mcNblk b
  let m := recs.zipIdx.foldl (fun (acc : Except Flt MaskOut) (ri : Nat × Nat) =>
    acc.bind fun m =>
      let r := ri.1
      let i := ri.2
      if i < mcBlk0 b ∨ last ≤ i then .ok m
      else
        let keep := nbits r 15 0
        let sc := fun u => if keep.testBit u then (f32 (masterAt s h (posOf h i u))).abs else gainScore b cand (posOf h i u)
        match (List.range 16).find? fun u => !(sc u).isFin with
        | some u => .error (ruleFlt 0x25 (BitVec.ofNat 64 (posOf h i u)))
        | none =>
          let velvet := (List.range 16).foldl (fun a u => if recVel r u ≠ 0 then a + 2 ^ u else a) 0
          match choosePattern sc keep velvet with
          | none => .ok { m with vconf := m.vconf + 1 }
          | some p =>
            let added := (setBitsOf 16 p).filter fun u => !keep.testBit u
            let dropped := (setBitsOf 16 keep).filter fun u => !p.testBit u
            .ok { m with recs := m.recs.set i (mkRecord p fun u => if keep.testBit u then recVel r u else mhVgrow h)
                         cast := m.cast + dropped.length, grown := m.grown + added.length
                         grownAt := m.grownAt ++ added.map (posOf h i) }) (.ok { recs := recs })
  m.map fun m =>
    let ch := changedBlocks h recs m.recs
    { m with cand := cand.filter (fun e => e.2 ∉ m.grownAt), blk := ch.length, changed := ch }

/-! ### Fold (R184) -/

/-- Insert or add a score in a table sorted by POS. -/
def mergeScore (m : AMap W32) (p : Nat) (g : W32) : AMap W32 :=
  match m.find? fun e => e.1 == p with
  | some e => mput p (f32Add e.2 g) m
  | none => mput p g m

/-- The table of a fold, or the fault of a record. `active` says which positions are skipped. -/
def foldTable (s : State) (h b : List Byte) (active : Nat → Bool) (cand : List Cand) : Except Flt (List Cand) :=
  let np := mhNout h * mhNin h
  let src := wordAt b 0x20
  let start : AMap W32 := (cand.map fun e => (e.2, f32Mul e.1 (mcPb b))).filter fun e => !(f32 e.2).isZero
  let tab := (List.range (mcSrcn b)).foldl (fun (acc : Except Flt (AMap W32)) i =>
    acc.bind fun m =>
      let e := leNat (globalBytes s (src + BitVec.ofNat 64 (8 * i)) 8)
      let g : W32 := BitVec.ofNat 32 (nbits e 63 32)
      let p := nbits e 31 0
      let v := f32 g
      if np ≤ p then
        .error { cls := 5, sub := 6, addr := src, w1 := BitVec.ofNat 64 p, w2 := BitVec.ofNat 64 np, w3 := BitVec.ofNat 64 i }
      else if !v.isFin || (v.neg && !v.isZero) then .error (ruleFlt 0x25 noIndex (BitVec.ofNat 64 i))
      else if active p || v.isZero then .ok m
      else .ok (mergeScore m p g)) (.ok start)
  tab.map fun m =>
    let kept := (rankDown (m.map fun e => (e.2, e.1))).take (mhCmax h)
    sortBy (fun a b => decide (a.2 ≤ b.2)) kept

/-! ### Tenant commands (R187, R189, R193) -/

/-- The index that marks an entry grown in this command: its master is +0. -/
def newMaster : Nat := 2 ^ 32

/-- A tile with its velvet aged. -/
def ageTile (n : Nat) (t : TTile) : TTile := { t with ents := t.ents.map fun e => { e with vel := e.vel - n } }

/-- The tile number of a position. -/
def tileOf (h : List Byte) (o i : Nat) : Nat := o / 64 * (mhNin h / mhTin h) + i / mhTin h

/-- POS of an entry. -/
def TEnt.pos (h : List Byte) (e : TEnt) : Nat := e.o * mhNin h + e.i

/-- Insert an entry in its sorted place. -/
def insertEnt (h : List Byte) (t : TTile) (e : TEnt) : TTile :=
  { t with ents := sortBy (fun a b => decide (a.key h ≤ b.key h)) (t.ents ++ [e]) }

/-- The value of an entry's master. -/
def entMaster (s : State) (h : List Byte) (e : TEnt) : W32 := if e.k = newMaster then 0 else masterAt s h e.k

/-- A tenant cast (R187) on aged tiles. DEDUCED, log entry 20. -/
def tenantCast (s : State) (h b : List Byte) (tiles : List TTile) (cand : List Cand) : MaskOut :=
  let able : List Cand := ((tiles.map (·.ents)).flatten.filter fun e => e.vel == 0).map fun e => (entMaster s h e, e.pos h)
  let chosen := (if mcMode b = 0 then (rankUp able).take (mcCount b)
    else able.filter fun e => decide (rankMag e.1 < rankMag (mcPb b))).map (·.2)
  let new := tiles.map fun t => { t with ents := t.ents.filter fun e => e.pos h ∉ chosen }
  { tiles := new, cand := cand, cast := chosen.length
    changed := chosen.map fun p => (p / mhNin h / 4, p % mhNin h / 4) }

/-- Entries of every tile. -/
def totalEnts (tiles : List TTile) : Nat := tiles.foldl (fun a t => a + t.ents.length) 0

/-- Walk the candidates of a tenant grow (R189). -/
def tenantGrowWalk (s : State) (h : List Byte) : Nat → List Cand → MaskOut → MaskOut
  | 0, rest, m => { m with cand := m.cand ++ rest }
  | _, [], m => m
  | left + 1, e :: t, m =>
    let o := e.2 / mhNin h
    let i := e.2 % mhNin h
    let ti := tileOf h o i
    let x := m.tiles.getD ti ⟨0, 0, 0, 0, [], []⟩
    if tenantActive h (baseImage s h ti) x o i && !(x.ents.any fun q => q.o == o && q.i == i)
        && decide (x.ents.length < 384) && decide (totalEnts m.tiles < mhDmax h) then
      tenantGrowWalk s h left t
        { m with tiles := m.tiles.set ti (insertEnt h x { o := o, i := i, vel := mhVgrow h, k := newMaster })
                 grown := m.grown + 1, changed := m.changed ++ [(o / 4, i / 4)] }
    else tenantGrowWalk s h (left + 1) t { m with cand := m.cand ++ [e], skip := m.skip + 1 }

/-- The kept set of a block in the base image, and the active set of a tenant (R172). -/
def baseSet (h : List Byte) (img : AMap Byte) (p q : Nat) : Nat :=
  (List.range 16).foldl (fun a u => if imageKeeps img ((4 * p + u / 4) % 64) ((4 * q + u % 4) % mhTin h) then a + 2 ^ u else a) 0
/-- See `baseSet`. -/
def activeSet (h : List Byte) (img : AMap Byte) (t : TTile) (p q : Nat) : Nat :=
  match t.ovrs.find? fun v => v.p == p && v.q == q with
  | some v => v.mask
  | none => baseSet h img p q

/-- Give a block of a tile a new active set, as an override or (mask none) by removing its override: positions that
leave lose their entries, positions that enter and are not base-kept are grown. -/
def setActive (h : List Byte) (img : AMap Byte) (t : TTile) (p q new : Nat) (ovr : Bool) : TTile :=
  let cur := activeSet h img t p q
  let base := baseSet h img p q
  let inBlk := fun (e : TEnt) => e.o / 4 == p && e.i / 4 == q
  let ents := t.ents.filter fun e => !inBlk e || new.testBit (blockBit e.o e.i)
  let entering := (setBitsOf 16 new).filter fun u => !cur.testBit u && !base.testBit u
  let t := { t with ents := ents, ovrs := t.ovrs.filter fun v => !(v.p == p && v.q == q) }
  let t := entering.foldl (fun t u => insertEnt h t { o := 4 * p + u / 4, i := 4 * q + u % 4, vel := mhVgrow h, k := newMaster }) t
  if ovr then { t with ovrs := sortBy (fun a b => decide (a.key h ≤ b.key h)) (t.ovrs ++ [⟨p, q, new⟩]) } else t

/-- What the selector asks of a tenant block (R193). -/
structure Ask where
  p    : Nat
  q    : Nat
  tile : Nat
  pat  : Nat
  gain : FV
  isNew : Bool
  deriving DecidableEq, Repr

/-- The scores of a tenant block (R190). -/
def tenantScore (s : State) (h b : List Byte) (img : AMap Byte) (t : TTile) (cand : List Cand) (p q u : Nat) : FV :=
  let o := 4 * p + u / 4
  let i := 4 * q + u % 4
  if (activeSet h img t p q).testBit u then
    let w := tileWeight img (o % 64) (i % mhTin h)
    match t.ents.find? fun e => e.o == o && e.i == i with
    | some e => (f32 (rnd32 (w.add (f32 (entMaster s h e))))).abs
    | none => (f32 (rnd32 w)).abs
  else gainScore b cand (o * mhNin h + i)

/-- The blocks a tenant reselection evaluates, in ascending order: with an override, or with a candidate at a position
outside the active set. -/
def selBlocks (s : State) (h : List Byte) (tiles : List TTile) (cand : List Cand) : List (Nat × Nat) :=
  let nq := mhNin h / 4
  let ov := (tiles.map fun t => t.ovrs.map fun v => v.p * nq + v.q).flatten
  let cs := cand.filterMap fun e =>
    let o := e.2 / mhNin h
    let i := e.2 % mhNin h
    let ti := tileOf h o i
    if tenantActive h (baseImage s h ti) (tiles.getD ti ⟨0, 0, 0, 0, [], []⟩) o i then none else some (o / 4 * nq + i / 4)
  (sortBy (fun (a b : Nat) => decide (a ≤ b)) (ov ++ cs).eraseDups).map fun n => (n / nq, n % nq)

/-- Apply one granted ask. -/
def grantAsk (s : State) (h : List Byte) (m : MaskOut) (a : Ask) (ovr : Bool) : MaskOut :=
  let img := baseImage s h a.tile
  let t := m.tiles.getD a.tile ⟨0, 0, 0, 0, [], []⟩
  let t2 := setActive h img t a.p a.q a.pat ovr
  let grown := t2.ents.filter fun e => e.k == newMaster && e.o / 4 == a.p && e.i / 4 == a.q
    && !(t.ents.any fun x => x.o == e.o && x.i == e.i)
  { m with tiles := m.tiles.set a.tile t2, grown := m.grown + grown.length
           cast := m.cast + (t.ents.length + grown.length - t2.ents.length)
           blk := m.blk + (if activeSet h img t a.p a.q = a.pat then 0 else 1)
           made := m.made + (if ovr then 1 else 0), gone := m.gone + (if ovr then 0 else 1)
           grownAt := m.grownAt ++ grown.map (TEnt.pos h), changed := m.changed ++ [(a.p, a.q)] }

/-- Whether a new override may be granted (R193). -/
def mayOverride (s : State) (h : List Byte) (m : MaskOut) (a : Ask) : Bool :=
  let t := m.tiles.getD a.tile ⟨0, 0, 0, 0, [], []⟩
  let t2 := setActive h (baseImage s h a.tile) t a.p a.q a.pat true
  let n := m.tiles.foldl (fun x y => x + y.ovrs.length) 0
  (FV.fin false 0 0).lt a.gain && decide (n < mhOvmax h) && decide (t.ovrs.length < 16)
    && decide (t2.ents.length ≤ 384) && decide (totalEnts (m.tiles.set a.tile t2) ≤ mhDmax h)

/-- A tenant reselection on aged tiles (R190, R191, R193). DEDUCED, log entry 20. -/
def tenantSel (s : State) (h b : List Byte) (tiles : List TTile) (cand : List Cand) : Except Flt MaskOut :=
  let asks := (selBlocks s h tiles cand).foldl (fun (acc : Except Flt (List Ask × List Ask × Nat)) (pq : Nat × Nat) =>
    acc.bind fun (gone, asks, vc) =>
      let p := pq.1
      let q := pq.2
      let ti := tileOf h (4 * p) (4 * q)
      let img := baseImage s h ti
      let t := tiles.getD ti ⟨0, 0, 0, 0, [], []⟩
      let sc := tenantScore s h b img t cand p q
      match (List.range 16).find? fun u => !(sc u).isFin with
      | some u => .error (ruleFlt 0x25 (BitVec.ofNat 64 ((4 * p + u / 4) * mhNin h + 4 * q + u % 4)))
      | none =>
        let cur := activeSet h img t p q
        let velvet := (t.ents.filter fun e => e.o / 4 == p && e.i / 4 == q && e.vel != 0).foldl (fun a e => a + 2 ^ blockBit e.o e.i) 0
        let has := t.ovrs.any fun v => v.p == p && v.q == q
        match choosePattern sc cur velvet with
        | none => .ok (gone, asks, vc + 1)
        | some pat =>
          let ask : Ask := ⟨p, q, ti, pat, (setScore sc pat).sub (setScore sc cur), !has⟩
          if pat = baseSet h img p q then .ok (if has then gone ++ [ask] else gone, asks, vc)
          else if pat = cur then .ok (gone, asks, vc)
          else .ok (gone, asks ++ [ask], vc)) (.ok ([], [], 0))
  asks.map fun (gone, asks, vc) =>
    let m : MaskOut := { tiles := tiles, vconf := vc }
    let m := gone.foldl (fun m a => grantAsk s h m a false) m
    let m := (asks.filter fun a => !a.isNew).foldl (fun m a => grantAsk s h m a true) m
    let news := sortBy (fun (a c : Ask) => !a.gain.lt c.gain) (asks.filter (·.isNew))
    let m := news.foldl (fun m a => if mayOverride s h m a then grantAsk s h m a true else { m with skip := m.skip + 1 }) m
    { m with cand := cand.filter fun e => e.2 ∉ m.grownAt }

/-! ### Pass 1 whole, commit, pass 2 (R181) -/

/-- The faults of pass 1 in the arrays a command reads. DEDUCED, log entry 20. -/
def passOneFlts (s : State) (op : Nat) (b h : List Byte) : List Flt :=
  let mode := mcMode b
  if op = 5 ∧ mode = 2 then []
  else
    (if mhTenant h then tenantScan s h else blockFlts s h)
    ++ (if op = 4 then countFlt (wordAt h 0x40) (mhCcnt h) (mhCmax h) else candFlts s h)
    ++ (if op = 5 ∧ mode = 1 then gaErr s (wordAt b 0x20) (8 * mcSrcn b)
        else if op = 4 ∨ op = 6 ∨ mhTenant h then
          (lineFlt (memRd s) (loc (wordAt h 0x30)) (if mhTenant h then 4 * mhDcnt h else 4 * (mhNout h * mhNin h))).toList
        else [])

/-- The arrays that pass 1 of a mask command reads. -/
def passOneArrays (op : Nat) (b h : List Byte) : List (W64 × Nat) :=
  let mode := mcMode b
  if op = 5 ∧ mode = 2 then []
  else
    (if mhTenant h then scanArrays h else [(wordAt h 0x20, 8 * mhBlocks h)])
    ++ (if op = 4 then [] else [(wordAt h 0x40, 8 * mhCcnt h)])
    ++ (if op = 5 ∧ mode = 1 then [(wordAt b 0x20, 8 * mcSrcn b)]
        else if op = 4 ∨ op = 6 ∨ mhTenant h then [(wordAt h 0x30, if mhTenant h then 4 * mhDcnt h else 4 * (mhNout h * mhNin h))] else [])

/-- What a mask command decides, on arrays without fault. -/
def decideMask (s : State) (op : Nat) (b h : List Byte) : Except Flt MaskOut :=
  let mode := mcMode b
  let cand := candTable s h
  let tiles := if mhTenant h then tenantTiles s h else []
  let recs := if mhTenant h then [] else baseRecords s h
  let n := (ageUnits h (mcStep b)).1
  let aged := recs.map (ageRecord n)
  let agedT := tiles.map (ageTile n)
  if op = 5 ∧ mode = 2 then .ok { recs := recs, tiles := tiles }
  else if op = 5 ∧ mode = 1 then
    let ents := ((tiles.map (·.ents)).flatten).map (TEnt.pos h)
    let active := fun p => if mhTenant h then decide (p ∈ ents) else (recs.getD (posBlock h p) 0).testBit (posBit h p)
    (foldTable s h b active cand).map fun c => { recs := recs, tiles := tiles, cand := c }
  else if op = 4 then .ok (if mhTenant h then tenantCast s h b agedT cand else baseCast s h b aged cand)
  else if op = 5 then
    let m := if mhTenant h then tenantGrowWalk s h (mcCount b) (rankDown cand) { tiles := agedT } else baseGrow h b aged cand
    .ok { m with cand := sortBy (fun a c => decide (a.2 ≤ c.2)) m.cand }
  else if mhTenant h then tenantSel s h b agedT cand
  else baseSel s h b aged cand

/-- The bytes of the directory, entries, masters and overrides of tenant tiles. -/
def dirBytes (tiles : List TTile) : List Byte :=
  (tiles.foldl (fun (acc : List Byte × Nat × Nat) t =>
    (acc.1 ++ leBytes 8 (t.ents.length * 2 ^ 55 + t.ovrs.length * 2 ^ 50 + acc.2.2 * 2 ^ 32 + acc.2.1),
     acc.2.1 + t.ents.length, acc.2.2 + t.ovrs.length)) ([], 0, 0)).1
/-- See `dirBytes`. -/
def entBytes (h : List Byte) (tiles : List TTile) : List Byte :=
  (((tiles.map (·.ents)).flatten).map fun e => leBytes 2 (e.i % mhTin h * 256 + e.vel * 64 + e.o % 64)).flatten
/-- See `dirBytes`. -/
def masterBytes (s : State) (h : List Byte) (tiles : List TTile) : List Byte :=
  (((tiles.map (·.ents)).flatten).map fun e => leBytes 4 (entMaster s h e).toNat).flatten
/-- See `dirBytes`. -/
def ovrBytes (h : List Byte) (tiles : List TTile) : List Byte :=
  (((tiles.map (·.ovrs)).flatten).map fun v => leBytes 8 (v.mask * 2 ^ 48 + v.q % (mhTin h / 4) * 2 ^ 8 + v.p % 16)).flatten
/-- The bytes of a candidate table. -/
def candBytes (l : List Cand) : List Byte := (l.map fun e => leBytes 8 (e.1.toNat * 2 ^ 32 + e.2)).flatten

/-- The new contents of the array of a destination word. -/
def destBytes (s : State) (h : List Byte) (m : MaskOut) (o : Nat) : List Byte :=
  if o = 0x38 then (if mhTenant h then dirBytes m.tiles else (m.recs.map fun r => leBytes 8 r).flatten)
  else if o = 0x40 then entBytes h m.tiles
  else if o = 0x48 then masterBytes s h m.tiles
  else if o = 0x50 then ovrBytes h m.tiles
  else candBytes m.cand

/-- The header word that takes the place of a destination. -/
def headerWord (o : Nat) : Nat :=
  if o = 0x38 then 0x20 else if o = 0x40 then 0x28 else if o = 0x48 then 0x30 else if o = 0x50 then 0x38 else 0x40

/-- The header as the commit writes it: destinations in place of the arrays, counts, `MH_LAST`, `VACC`. DEDUCED, log entry 20. -/
def commitHeader (op : Nat) (b h : List Byte) (m : MaskOut) : List Byte :=
  let mode := mcMode b
  let needs := mcNeeds op mode (mhTenant h)
  let h1 := needs.foldl (fun x o => patchBytes x (headerWord o) (leBytes 8 (wordAt b o).toNat)) h
  let h2 := if op = 4 then h1 else patchBytes h1 0x4C (leBytes 4 m.cand.length)
  let h3 := if mhTenant h ∧ mcChanges op mode then
      patchBytes (patchBytes h2 0x54 (leBytes 4 (totalEnts m.tiles))) 0x5C
        (leBytes 2 (m.tiles.foldl (fun a t => a + t.ovrs.length) 0))
    else h2
  if mcChanges op mode then
    patchBytes (patchBytes h3 0x10 (leBytes 8 (mcStep b))) 0x0C (leBytes 2 (ageUnits h (mcStep b)).2)
  else h3

/-- Write +0 to the masters and rule state of grown base positions: the rule state is what the `FB_STATE` words that are not 0 name, whatever
rule the tensor uses, and those words are checked at fetch (R175, R248). DESIGN CHOICE, log entry 65. -/
def zeroGrown (s : State) (n c : Nat) (h : List Byte) (fb : Option (List Byte)) : List Nat → State × Option Flt
  | [] => (s, none)
  | p :: t =>
    let st : List (W64 × List Byte) := match fb with
      | none => []
      | some f => ([8, 0x10].filter fun o => wordAt f o != 0).map fun o =>
          (wordAt f o + BitVec.ofNat 64 (fbStateBytes f * p), leBytes (fbStateBytes f) 0)
    let r := ((wordAt h 0x30 + BitVec.ofNat 64 (4 * p), leBytes 4 0) :: st).foldl
      (fun (acc : State × Option Flt) (w : W64 × List Byte) =>
        match acc.2 with
        | some _ => acc
        | none => kilnWrite acc.1 n c w.1 w.2) (s, none)
    match r with
    | (s, none) => zeroGrown s n c h fb t
    | r => r

/-- The storage units that pass 2 fires: those holding a position of a changed block. -/
def changedUnits (h fb : List Byte) (ch : List (Nat × Nat)) : List FireUnit :=
  (selectedUnits h fb 0).filter fun u => ch.any fun pq => (List.range 16).any fun x => unitHas fb u (4 * pq.1 + x / 4) (4 * pq.2 + x % 4)

/-- The result words of a mask command (Table 7.9). -/
def maskWords (h2 : List Byte) (m : MaskOut) : List Nat :=
  [m.cast, m.grown, m.skip, m.blk, m.vconf, m.made * 2 ^ 32 + m.gone, mhCcnt h2, mhLast h2]

/-- A mask command from its start to the end of pass 2, with the firing block that it read at fetch: its result words, or the
fault that ended it. A fault of pass 1 leaves the arrays and the header as they were. -/
def maskRun (s0 : State) (n c op : Nat) (b fire : List Byte) : State × Except Flt (List Nat) :=
  let s := noteArrays s0 ((wordAt b 8, 128) :: passOneArrays op b (readMem s0 (loc (wordAt b 8)) 128))
  let hga := wordAt b 8
  let h := readMem s (loc hga) 128
  match lowest ((lineFlt (memRd s) (loc hga) 128).toList ++ passOneFlts s op b h) with
  | some f => (s, .error f)
  | none =>
    match decideMask s op b h with
    | .error f => (s, .error f)
    | .ok m =>
      let needs := mcNeeds op (mcMode b) (mhTenant h)
      let outs := needs.map fun o => (wordAt b o, destBytes s h m o)
      let h2 := commitHeader op b h m
      let w := (outs ++ [(hga, h2)]).foldl (fun (acc : State × Option Flt) (w : W64 × List Byte) =>
        match acc.2 with
        | some _ => acc
        | none => if w.2.isEmpty then acc else kilnWrite acc.1 n c w.1 w.2) (s, none)
      match w with
      | (s, some f) => (s, .error f)
      | (s, none) =>
        let fb := if mcChanges op (mcMode b) && !fire.isEmpty then some fire else none
        match (if mhTenant h then (s, none) else zeroGrown s n c h2 fb m.grownAt) with
        | (s, some f) => (s, .error f)
        | (s, none) =>
          match fb with
          | none => (s, .ok (maskWords h2 m))
          | some f =>
            match lowest (overCapacity s h2 f) with
            | some e => (s0, .error e)
            | none =>
              let r := fireAll s n c h2 f (changedUnits h2 f m.changed)
              (r.1, match r.2.1 with | some e => .error e | none => .ok (maskWords h2 m))

end Sys2Proof.Machine
end

