-- ==== Sys2Proof/Machine/Kiln.lean ====
section
/-! DEFINITION. The Kilns (R236 to R259): the command path of a cluster, each Kiln's queue, the checks when a command
is fetched, the update stream and its rules, the ring, firing, filling and exporting. -/

namespace Sys2Proof.Machine

open Sys2Proof

/-! ### Queues -/

/-- The commands of Kiln n (0 to 13), or of the command path of cluster k (14 + k). -/
def kilnCmds (s : State) (n : Nat) : List KilnCmd := (mget {} s.kilns n).cmds
/-- Replace them. -/
def setKiln (s : State) (n : Nat) (l : List KilnCmd) : State := { s with kilns := mset {} s.kilns n { cmds := l } }
/-- Replace command i of Kiln n. -/
def putKilnCmd (s : State) (n i : Nat) (q : KilnCmd) : State := setKiln s n ((kilnCmds s n).set i q)
/-- Remove command i of Kiln n. -/
def dropKilnCmd (s : State) (n i : Nat) : State := setKiln s n ((kilnCmds s n).eraseIdx i)

/-- Word o of a command's block. -/
def kb (q : KilnCmd) (o : Nat) : W64 := wordAt q.blk o
/-- The mask header a command names; the destination of a fill. -/
def kilnHdr (q : KilnCmd) : W64 := kb q (if q.op = 2 then 0 else 8)

/-- Whether two commands run one after the other: the same header, or for two updates the same digest cell (R238). -/
def sharesKey (s : State) (a b : KilnCmd) : Bool :=
  (a.op != 2 && b.op != 2 && canonGa s (kilnHdr a) == canonGa s (kilnHdr b))
  || (a.op == 0 && b.op == 0 && canonGa s (kb a 0x70) == canonGa s (kb b 0x70))

/-- Whether command i of Kiln n has no earlier command it must wait for. DEDUCED, log entry 20. -/
def kilnTurn (s : State) (n i : Nat) : Bool :=
  match (kilnCmds s n)[i]? with
  | none => false
  | some q => ((kilnCmds s n).take i).all fun e => !sharesKey s e q

/-! ### Ends of a command -/

/-- The credit of a command returns to its core, while the core still holds the command's context (R60). -/
def kilnCredit (s : State) (q : KilnCmd) : State :=
  if !q.mc && ctxOf (coreOf s q.core) == q.ctx then giveCredit s q.core 3 else s

/-- The tally that command q names, through its context's descriptor (R288). -/
def kilnTally (s : State) (q : KilnCmd) (t : BitVec 12) : Option Nat :=
  match q.ctx with
  | some x => translateCtx s x q.core t
  | none => none

/-- The cluster whose sequencer hears of a command: none for the MC's. -/
def kilnSeq (q : KilnCmd) : Option Nat := if q.mc then none else some (clusterOf q.core)

/-- The record of a fault of command q found at Kiln n, or before its Kiln is known (R237, R259, Table 21.3). -/
def kilnRec (s : State) (n : Option Nat) (q : KilnCmd) (f : Flt) : FaultRec :=
  let f := if f.cls = 0x10 then { f with addr := BitVec.ofNat 64 q.off, w1 := kilnHdr q } else f
  let r := match n with
    | some n => { f.toRec 0xA with unit := n, clus := 0xFFFF }
    | none => if q.mc then { f.toRec 0xD with clus := 0xFFFF } else { f.toRec (engKind q.eng) with unit := q.core, clus := clusterOf q.core }
  let r := { r with beat := beatW s, ctx := q.ctx }
  if f.cls = 9 then
    { r with addr := errLine s f, w1 := BitVec.ofNat 64 q.off, flags := if q.ctx.isSome then 2 else 0 }
  else r

/-- A command ends on a fault: no result, no tally, its credit returned, one record; an accepted update gives its
count back (R259, R376). DEDUCED, log entry 20. -/
def kilnFault (s : State) (n : Option Nat) (q : KilnCmd) (f : Flt) : State :=
  let s := kilnCredit s q
  let s := match q.ctx with
    | some x => if q.op = 0 ∧ q.phase ≠ 0 then countAccepted s x false else s
    | none => s
  let s := if f.cls = 9 then countErr s f q.ctx else s
  report s (kilnSeq q) (.fault (kilnRec s n q f))

/-- The record of a command's advance that would take a tally beyond its range (R284). -/
def kilnOverflow (s : State) (n : Nat) (q : KilnCmd) (t : BitVec 12) (p : Nat) : FaultRec :=
  { (overflowRec s 0xA (BitVec.ofNat 64 q.off) t.toNat p 1) with unit := n, clus := 0xFFFF, beat := beatW s, ctx := q.ctx }

/-- A finished command of Kiln n leaves its core: its tally, its credit; an advance beyond the range stops the core (R41, R284). -/
def kilnLeave (s : State) (n : Nat) (q : KilnCmd) : State :=
  let s := match kilnTally s q q.tally with
    | none => s
    | some p =>
      if overflows s p 1 then
        let s := report s (kilnSeq q) (.fault (kilnOverflow s n q q.tally p))
        if ctxOf (coreOf s q.core) == q.ctx then stopLater s q.core else s
      else advance s p 1
  kilnCredit s q

/-- The result of a finished command goes to its core's scratchpad, as a write of the Kiln's stream (R237, R247, R293). -/
def kilnResult (s : State) (n : Nat) (q : KilnCmd) : State :=
  if ctxOf (coreOf s q.core) == q.ctx then
    creditStream (spadWrite s q.core .kiln (q.off + 0x80) (padTo 64 ((q.words.map (leBytes 8)).flatten))) s.fabric.devaddr.toNat (0xC00 + n) 64
  else s

/-- A command of Kiln n completes: its result area, its tally, its credit (R237, R247). -/
def kilnDone (s : State) (n : Nat) (q : KilnCmd) : State := kilnLeave (kilnResult s n q) n q

/-- Whether a finished command of Kiln n may write its result: every write acknowledged, its result area not held, room for its
stream (R84, R295). -/
def kilnFree (s : State) (n : Nat) (q : KilnCmd) : Bool :=
  !awaiting s q.core .kiln && !heldBy (coreOf s q.core) .kiln (q.off + 0x80) (q.off + 0xC0) true && ownRoom s (0xC00 + n)

/-- The bank ports of a finished command's result (R67). -/
def kilnPorts (s : State) (q : KilnCmd) : List (Nat × Bool) := portsOf (coreOf s q.core) (q.off + 0x80) 64 true

/-! ### Checks at fetch -/

/-- `RULE`, `RING`, `NOFIRE`, `STEP` of an update block (Table 10.3). -/
def ksRule (q : KilnCmd) : Nat := bits (kb q 0) 55 52
/-- See `ksRule`. -/
def ksRing (q : KilnCmd) : Bool := bit (kb q 0) 51
/-- See `ksRule`. -/
def ksNofire (q : KilnCmd) : Bool := bit (kb q 0) 50
/-- See `ksRule`. -/
def ksStep (q : KilnCmd) : Nat := bits (kb q 0) 47 0
/-- The high or low half of a parameter word. -/
def ksHi (q : KilnCmd) (o : Nat) : W32 := BitVec.ofNat 32 (bits (kb q o) 63 32)
/-- See `ksHi`. -/
def ksLo (q : KilnCmd) (o : Nat) : W32 := BitVec.ofNat 32 (bits (kb q o) 31 0)
/-- `NSLOT`. -/
def ksNslot (q : KilnCmd) : Nat := bits (kb q 0x28) 63 48
/-- Chunks of the ring (R252). -/
def ksRch (q : KilnCmd) : Nat := bits (kb q 0x30) 39 24 * 16
/-- `NTALLY`, `RPROD`, `RCONS`. -/
def ksNtally (q : KilnCmd) : BitVec 12 := BitVec.ofNat 12 (bits (kb q 0x20) 63 52)
/-- See `ksNtally`. -/
def ksRprod (q : KilnCmd) : BitVec 12 := BitVec.ofNat 12 (bits (kb q 0x30) 63 52)
/-- See `ksNtally`. -/
def ksRcons (q : KilnCmd) : BitVec 12 := BitVec.ofNat 12 (bits (kb q 0x30) 51 40)

/-- Whether the parameters that the rule uses are in range (R241). -/
def ksParamsOk (q : KilnCmd) : Bool :=
  let r := ksRule q
  let beta := fun (w : W32) => okParam w && f32Lt w one32
  let corr := fun (w : W32) => f32IsFin w && !f32Lt w one32
  okParam (ksHi q 0x40) && okParam (ksLo q 0x60)
  && (r == 1 || r == 2 || okParam (ksLo q 0x40))
  && (decide (r < 3) || beta (ksHi q 0x48))
  && (r != 4 || (beta (ksLo q 0x48) && okParam (ksHi q 0x50) && okParam (ksLo q 0x50) && corr (ksHi q 0x58) && corr (ksLo q 0x58)
      && f32IsFin (ksHi q 0x60) && f32Lt 0 (ksHi q 0x60)))

/-- Whether an update block breaks Table 10.3. -/
def badStepBlock (q : KilnCmd) : Bool :=
  bits (kb q 0) 63 56 != 0 || bits (kb q 0) 49 48 != 0 || bits (kb q 0x20) 51 48 != 0 || bits (kb q 0x38) 63 48 != 0
  || bits (kb q 0x68) 63 32 != 0 || kb q 0x78 != 0 || decide (4 < ksRule q)
  || ksNslot q == 0 || decide (4096 < ksNslot q)
  || (if ksRing q then bits (kb q 0x30) 23 0 != 0 || ksRch q == 0 || decide (4096 * 16 < ksRch q) else kb q 0x30 != 0)
  || !ksParamsOk q

/-- Bytes of the gradient buffer. -/
def gradBytes (h : List Byte) : Nat := if mhTenant h then 4 * mhDcnt h else 4 * (mhNout h * mhNin h / 2)

/-- The faults of a tally name that no range of the context holds. -/
def tallyFlts (s : State) (q : KilnCmd) (ts : List (BitVec 12)) : List Flt :=
  (ts.filter fun t => (kilnTally s q t).isNone).map fun t =>
    { cls := 8, sub := 6, addr := BitVec.ofNat 64 q.off, w1 := BitVec.ofNat 64 t.toNat }

/-- The first tenant copy of a firing block whose format is not the context's (R377). -/
def wrongWfmt (s : State) (x : Option Nat) (fb : List Byte) : Option Nat :=
  match x with
  | none => none
  | some x => (List.range (Min.min 6 (fbCopies fb))).find? fun k =>
      (cpKind fb k == 5 || cpKind fb k == 6) && cpFmt fb k != bits (cw s x 0x18) 57 54

/-- The arrays that updating, firing or exporting a tensor reads; `base` says whether its base images must be the Kiln's. -/
def tensorArrays (h : List Byte) (writes base : Bool) : List HeadArr :=
  if mhTenant h then
    [{ off := 0x20, len := 8 * mhTiles h }, { off := 0x28, len := 2 * mhDmax h }, { off := 0x30, len := 4 * mhDmax h, writes := writes },
     { off := 0x38, len := 8 * mhOvmax h }, { off := 0x60, len := tileBytes * mhTiles h, served := base }]
  else [{ off := 0x20, len := 8 * mhBlocks h }, { off := 0x30, len := 4 * (mhNout h * mhNin h), writes := writes }]

/-- The checks of a header, its arrays and its firing block, as an update or a firing makes them. -/
def tensorFlts (s : State) (c n : Nat) (q : KilnCmd) (h : List Byte) (writes copies : Bool) (rule : Option Nat) : List Flt :=
  faultIf (badHeader h) (ruleFlt 0x21)
  ++ headArrFlts s c n 6 h (tensorArrays h writes false)
  ++ firingFlts s c n 6 h copies rule fun f =>
      (([8, 0x10].take (match rule with | some 3 => 1 | some 4 => 2 | _ => 0)).map fun o =>
          if wordAt f o = 0 then []
          else kilnAddr s c n 6 true (wordAt f o) (if badHeader h then 1 else fbStateBytes f * (mhNout h * mhNin h)) true true).flatten
      ++ (if copies then (match wrongWfmt s q.ctx f with | some k => [ruleFlt 0xD (BitVec.ofNat 64 k)] | none => []) else [])

/-- The checks of an update at fetch that need no header; `glen` is the length of its gradient buffer (R241). -/
def stepBlockFlts (s : State) (n : Nat) (q : KilnCmd) (glen : Nat) : List Flt :=
  let c := q.core
  let grad := kb q 0x10
  let ringOk := isHere s (bits grad 63 48) && inHbm (loc grad) && decide (loc grad + ksRch q * 4096 ≤ 8 * hbmRegion)
  faultIf (badStepBlock q) (ruleFlt 1)
  ++ tallyFlts s q ([q.tally, ksNtally q] ++ if ksRing q then [ksRprod q, ksRcons q] else [])
  ++ kilnAddr s c n 6 false (kb q 0x18) (16 * ksNslot q) true false
  ++ kilnAddr s c n 6 true (kb q 0x70) 64 true true
  ++ (if ksRing q then
        (memFlt s (coreOf s c) (bits grad 63 48) (loc grad) (ksRch q * 4096) false).toList
        ++ faultIf (bits grad 15 0 != 0) { cls := 3, sub := 2, addr := grad, w1 := 0x10000 }
        ++ faultIf (!ringOk) (ruleFlt 6)
      else kilnAddr s c n 6 true grad glen true false)

/-- The checks of an update at fetch that need its header (R241, R248, R376, R377). DEDUCED, log entry 20. -/
def stepFlts (s : State) (n : Nat) (q : KilnCmd) (h : List Byte) : List Flt :=
  faultIf (!badHeader h && mhTenant h && (ksRule q == 3 || ksRule q == 4)) (ruleFlt 4)
  ++ faultIf (ksStep q != (mhUstep h + 1) % 2 ^ 48) (ruleFlt 5)
  ++ (match q.ctx with
      | some x => faultIf (!stepAccepted s x (ksStep q)) (ruleFlt 5) ++ faultIf (ksRule q != bits (cw s x 0x18) 61 58) (ruleFlt 0xD)
      | none => [ruleFlt 5])
  ++ tensorFlts s q.core n q h true (!ksNofire q) (some (ksRule q))

/-- The checks of a fill at fetch (R256). -/
def fillFlts (s : State) (n : Nat) (q : KilnCmd) : List Flt :=
  let ga := kb q 0
  let len := (kb q 8).toNat
  faultIf ((q.blk.drop 0x18).any (· != 0)) (ruleFlt 1)
  ++ faultIf (len == 0 || len % 64 != 0) (ruleFlt 0xA)
  ++ (if q.mc then
        faultIf (bits ga 5 0 != 0) { cls := 3, sub := 2, addr := ga, w1 := 64 }
        ++ faultIf (!servedBy s n (loc ga) len) (ruleFlt 6)
      else tallyFlts s q [q.tally] ++ kilnAddr s q.core n 6 true ga len false true)

/-- The shard limit in bytes. -/
def exLimit (q : KilnCmd) : Nat := bits (kb q 0x30) 31 0 * 0x10000

/-- The checks of an export at fetch that need no header (R257, R378). -/
def exportBlockFlts (s : State) (n : Nat) (q : KilnCmd) : List Flt :=
  let c := q.core
  faultIf (bits (kb q 0) 63 48 != 0 || bits (kb q 0x30) 63 32 != 0 || (q.blk.drop 0x38).any (· != 0)
      || exLimit q == 0 || decide (1024 * 0x10000 < exLimit q)) (ruleFlt 1)
  ++ (match q.ctx with | some x => faultIf (ctxDisc s x) (ruleFlt 0xC) | none => [])
  ++ kilnAddr s c n 6 false (kb q 0x10) (kb q 0x18).toNat false true
  ++ kilnAddr s c n 6 false (kb q 0x20) 64 false true

/-- The checks of an export at fetch that need its header (R257). DEDUCED, log entry 20. -/
def exportFlts (s : State) (n : Nat) (q : KilnCmd) (h : List Byte) : List Flt :=
  faultIf (ksStep q != mhUstep h) (ruleFlt 5)
  ++ faultIf (badHeader h || !mhTenant h) (ruleFlt 0x21)
  ++ headArrFlts s q.core n 6 h (tensorArrays h false true)

/-- The checks of a command at fetch that need no header; `h` is its header where it could be read. -/
def blockOnlyFlts (s : State) (n : Nat) (q : KilnCmd) (h : Option (List Byte)) : List Flt :=
  if q.op = 0 then stepBlockFlts s n q (match h with | some h => if badHeader h then 1 else gradBytes h | none => 1)
  else tallyFlts s q [q.tally] ++
    (if q.op = 1 then faultIf (bits (kb q 0) 63 6 != 0 || (q.blk.drop 0x10).any (· != 0)) (ruleFlt 1)
     else if q.op = 3 then exportBlockFlts s n q
     else maskBlockFlts s q.core n q.op q.blk fun o => match h with
       | some h => if badHeader h then none
           else if o ∈ mcNeeds q.op (mcMode q.blk) (mhTenant h) then some (mcCap h o) else none
       | none => none)

/-- The checks of a command at fetch that need its header. -/
def headerFlts (s : State) (n : Nat) (q : KilnCmd) (h : List Byte) : List Flt :=
  if q.op = 0 then stepFlts s n q h
  else if q.op = 1 then tensorFlts s q.core n q h false true none
  else if q.op = 3 then exportFlts s n q h
  else maskFlts s q.core n q.op q.blk h

/-- Every check of a command when Kiln n fetches it. A header that cannot be read hides no fault of the block (R17). -/
def kilnFlts (s : State) (n : Nat) (q : KilnCmd) : List Flt :=
  if q.op = 2 then fillFlts s n q
  else
    let hga := kilnHdr q
    match kilnAddr s q.core n (if 4 ≤ q.op then 0x26 else 6) true hga 128 true (q.op == 0 || decide (4 ≤ q.op))
        ++ (lineFlt (memRd s) (loc hga) 128).toList with
    | [] =>
      let h := readMem s (loc hga) 128
      blockOnlyFlts s n q (some h) ++ headerFlts s n q h
    | fs => fs ++ blockOnlyFlts s n q none

/-- The local ranges that a command writes, for R394. -/
def kilnReach (s : State) (q : KilnCmd) : List (Nat × Nat) :=
  if q.op = 2 then [(loc (kb q 0), (kb q 8).toNat)]
  else
    let h := readMem s (loc (kilnHdr q)) 128
    let fb := firingBlock s h
    let copies := match fb with
      | some f => (List.range (Min.min 6 (fbCopies f))).map fun k => (loc (cpWord f k 8), copyBytes h f k)
      | none => []
    let states := match fb with
      | some f => [8, 0x10].map fun o => (loc (wordAt f o), if wordAt f o = 0 then 0 else fbStateBytes f * (mhNout h * mhNin h))
      | none => []
    let own := (loc (kilnHdr q), 128)
    let masters := (loc (wordAt h 0x30), if mhTenant h then 4 * mhDmax h else 4 * (mhNout h * mhNin h))
    if q.op = 0 then [own, masters, (loc (kb q 0x70), 64)] ++ states ++ (if ksNofire q then [] else copies)
    else if q.op = 1 then copies
    else if q.op = 3 then [(loc (kb q 0x10), (kb q 0x18).toNat), (loc (kb q 0x20), 64)]
    else
      let needs := mcNeeds q.op (mcMode q.blk) (mhTenant h)
      own :: (needs.map fun o => (loc (wordAt q.blk o), mcCap h o)) ++ (if q.op = 4 ∨ mhTenant h then [] else masters :: states) ++ copies

/-! ### The update stream (R242 to R246) -/

/-- An element of the stream: its master's index, its gradient's, its output. -/
structure SElem where
  k   : Nat
  g   : Nat
  out : Nat
  deriving DecidableEq, Repr

/-- The stream of a base tensor: each record is checked as it is reached (R245). -/
def baseStream (s : State) (h : List Byte) : List (Except Flt SElem) :=
  let nin := mhNin h
  ((List.range (mhNout h)).map fun o =>
    ((List.range (nin / 4)).map fun q =>
      let bi := blockOf h o (4 * q)
      let r := blockRec s h bi
      let bad := if o % 4 = 0 then
          ((lineFlt (memRd s) (loc (wordAt h 0x20) + 8 * bi) 8).toList ++ (recordFlt h bi r).toList) else []
      let pr := keptPair fun j => r.testBit (blockBit o j)
      (bad.take 1).map Except.error
      ++ ((List.range 4).filter fun j => r.testBit (blockBit o j)).map fun j =>
          Except.ok { k := o * nin + 4 * q + j, g := o * (nin / 2) + 2 * q + (if j = pr.1 then 0 else 1), out := o }).flatten).flatten

/-- The stream of a tenant delta: the entries in entry order. -/
def tenantStream (s : State) (h : List Byte) : List (Except Flt SElem) :=
  ((tenantTiles s h).map (·.ents)).flatten.map fun e => .ok { k := e.k, g := e.k, out := e.o }

/-- The update of one parameter (R244): master, first and second moment as read, gradient; the new values. -/
def updateRule (q : KilnCmd) (w m v g : W32) : W32 × W32 × W32 :=
  let eta := ksHi q 0x40
  let wd := ksLo q 0x60
  let g := f32Mul g q.clip
  let fin := fun (u m v : W32) => (f32Sub w (f32Add (f32Mul eta u) (f32Mul wd w)), m, v)
  match ksRule q with
  | 0 => fin g m v
  | 1 => fin (if f32IsNan g then nan32 else if f32Lt 0 g then one32 else if f32Lt g 0 then 0xBF800000 else 0) m v
  | 2 => fin (if q.norm = 0 then 0 else f32Mul g (f32Div one32 q.norm)) m v
  | 3 =>
    let m := f32Add (f32Mul (ksHi q 0x48) m) g
    fin m m v
  | _ =>
    let m := f32Add (f32Mul (ksHi q 0x48) m) (f32Mul (ksHi q 0x50) g)
    let v := f32Add (f32Mul (ksLo q 0x48) v) (f32Mul (ksLo q 0x50) (f32Mul g g))
    fin (f32Div (f32Mul m (ksHi q 0x58)) (f32Add (f32Sqrt (f32Mul v (ksLo q 0x58))) (ksHi q 0x60))) m v

/-- A moment as read and as written (R244: BF16 moments are widened and rounded). -/
def readMoment (s : State) (fb : List Byte) (o k : Nat) : W32 :=
  let n := fbStateBytes fb
  let v := leNat (readMem s (loc (wordAt fb o) + n * k) n)
  if fbBf fb then BitVec.ofNat 32 (v * 2 ^ 16) else BitVec.ofNat 32 v
/-- See `readMoment`. -/
def momentBytes (fb : List Byte) (w : W32) : List Byte :=
  if fbBf fb then leBytes 2 (rndBf (f32 w)) else leBytes 4 w.toNat

/-- Moments that a rule keeps. -/
def momentsOf (q : KilnCmd) : List Nat := if ksRule q = 3 then [8] else if ksRule q = 4 then [8, 0x10] else []

/-- Update one parameter with gradient `g`; the first fault among its reads and writes ends the stream. -/
def updateOne (s : State) (n : Nat) (q : KilnCmd) (h fb : List Byte) (e : SElem) (g : W32) : State × Except Flt KilnCmd :=
  let rd := memRd s
  let sb := fbStateBytes fb
  let bad := (lineFlt rd (loc (wordAt h 0x30) + 4 * e.k) 4).toList
    ++ ((momentsOf q).map fun o => (lineFlt rd (loc (wordAt fb o) + sb * e.k) sb).toList).flatten
  match bad with
  | f :: _ => (s, .error f)
  | [] =>
    let w := masterAt s h e.k
    let new := updateRule q w (readMoment s fb 8 e.k) (readMoment s fb 0x10 e.k) g
    let ms := (momentsOf q).map fun o => (o, if o = 8 then new.2.1 else new.2.2)
    let ws := (wordAt h 0x30 + BitVec.ofNat 64 (4 * e.k), leBytes 4 new.1.toNat)
      :: ms.map fun p => (wordAt fb p.1 + BitVec.ofNat 64 (sb * e.k), momentBytes fb p.2)
    let r := ws.foldl (fun (acc : State × Option Flt) (w : W64 × List Byte) =>
      match acc.2 with
      | some _ => acc
      | none => kilnWrite acc.1 n q.core w.1 w.2) (s, none)
    let inf := fun (v : W32) => if f32IsFin v then 0 else 1
    let stored := fun (v : W32) => if fbBf fb then BitVec.ofNat 32 (rndBf (f32 v) * 2 ^ 16) else v
    let nf := inf new.1 + (ms.map fun p => inf (stored p.2)).foldl (· + ·) 0
    match r with
    | (s, some f) => (s, .error f)
    | (s, none) => (s, .ok { q with done := q.done + 1, masters := q.masters ++ leBytes 4 new.1.toNat, nonfin := q.nonfin + nf })

/-- Fire the bands from the command's next up to `hi` (R251). -/
def fireUpTo (s : State) (n : Nat) (q : KilnCmd) (h fb : List Byte) (hi : Nat) : State × Except Flt KilnCmd :=
  if ksNofire q || wordAt h 0x68 == 0 || decide (hi ≤ q.bands) then (s, .ok q)
  else
    match fireBands s n q.core h fb q.bands hi with
    | (s, some f, _) => (s, .error f)
    | (s, none, t) => (s, .ok { q with bands := hi, tiles := q.tiles + t })

/-- Run the stream over elements whose gradients `grad` gives; it stops at the first without one. -/
def runStream (n : Nat) (h fb : List Byte) (grad : Nat → Option W32) : List (Except Flt SElem) → State → KilnCmd → State × Except Flt KilnCmd
  | [], s, q => (s, .ok q)
  | .error f :: _, s, _ => (s, .error f)
  | .ok e :: t, s, q =>
    match grad e.g with
    | none => (s, .ok q)
    | some g =>
      match fireUpTo s n q h fb (e.out / bandLen h) with
      | (s, .error f) => (s, .error f)
      | (s, .ok q) =>
        match updateOne s n q h fb e g with
        | (s, .error f) => (s, .error f)
        | (s, .ok q) => runStream n h fb grad t s q

/-- The whole stream of a command's tensor. -/
def streamOf (s : State) (h : List Byte) : List (Except Flt SElem) := if mhTenant h then tenantStream s h else baseStream s h

/-- The stream from element `done` on: errors before it have been passed. -/
def dropDone {α : Type} : Nat → List (Except Flt α) → List (Except Flt α)
  | 0, l => l
  | _, [] => []
  | n + 1, .error _ :: t => dropDone (n + 1) t
  | n + 1, .ok _ :: t => dropDone n t

/-- The header of a command's tensor, and the firing block that the command read at fetch. -/
def kilnTensor (s : State) (q : KilnCmd) : List Byte × List Byte :=
  (readMem s (loc (kilnHdr q)) 128, if q.fire.isEmpty then List.replicate 256 0 else q.fire)

/-- The last bands are fired: every write is made (R251). -/
def finishStream (s : State) (n : Nat) (q : KilnCmd) : State × Except Flt KilnCmd :=
  let hf := kilnTensor s q
  match fireUpTo s n q hf.1 hf.2 (ceilDiv (mhNout hf.1) (bandLen hf.1)) with
  | (s, .error f) => (s, .error f)
  | (s, .ok q) => (s, .ok { q with phase := 3 })

/-- Carry command i of Kiln n on with what a part of its work answered. -/
def kilnCarry (n i : Nat) (q : KilnCmd) : State × Except Flt KilnCmd → State
  | (s, .ok q') => putKilnCmd s n i q'
  | (s, .error f) => kilnFault (dropKilnCmd s n i) (some n) q f

/-! ### Norm (R242, R243) -/

/-- Slot j of the norm array: its count and Q. -/
def normSlot (s : State) (q : KilnCmd) (j : Nat) : Nat × W32 :=
  let b := globalBytes s (kb q 0x18 + BitVec.ofNat 64 (16 * j)) 16
  (numAt b 0 4, BitVec.ofNat 32 (numAt b 12 4))

/-- The slots in ascending order. -/
def normSlots (s : State) (q : KilnCmd) : List (Nat × W32) := (List.range (ksNslot q)).map (normSlot s q)

/-- Chunks of a segment of n values (R253). -/
def segChunks (n : Nat) : Nat := ceilDiv n 1024

/-- The next segment from j on that holds a chunk. -/
def nextSeg (sl : List (Nat × W32)) : Nat → Nat → Nat
  | 0, j => j
  | fuel + 1, j => if j < sl.length ∧ (sl.getD j (0, 0)).1 = 0 then nextSeg sl fuel (j + 1) else j

/-- The gradient value at index x of the buffer at `KS_GRAD`, or the uncorrectable line it lies in. -/
def bufferGrad (s : State) (q : KilnCmd) (x : Nat) : W32 := BitVec.ofNat 32 (leNat (readMem s (loc (kb q 0x10) + 4 * x) 4))

/-- The stream with each element whose gradient lies in an uncorrectable line replaced by that fault. -/
def gradChecked (s : State) (q : KilnCmd) (l : List (Except Flt SElem)) : List (Except Flt SElem) :=
  l.map fun r => match r with
    | .ok e => match lineFlt (memRd s) (loc (kb q 0x10) + 4 * e.g) 4 with
      | some f => .error f
      | none => .ok e
    | r => r

/-- A gradient value that no segment of the ring brought: the spec states none (DESIGN CHOICE, log entry 25). -/
def missingGrad (s : State) (x : Nat) : Option W32 := some (BitVec.ofNat 32 (freeElem s x 32))

/-- `KILN_STEP_START` (R242): the norm from its slots, then the stream, or the ring's first segment. -/
def stepStart (s : State) (n i : Nat) : State :=
  match (kilnCmds s n)[i]? with
  | none => s
  | some q =>
    let target := bits (kb q 0x20) 47 0
    let ready : Bool := match kilnTally s q (ksNtally q) with | some p => decide (target ≤ tallyAt s p) | none => false
    if q.op = 0 ∧ q.phase = 1 ∧ ready = true then
      let hf := kilnTensor s q
      let h := hf.1
      let ng := kb q 0x18
      let sl := normSlots s q
      let cnt := sl.foldl (fun a e => a + e.1) 0
      let qs := sl.foldl (fun a e => f32Add a e.2) 0
      let norm := f32Sqrt qs
      let lim := ksLo q 0x40
      let clip := if (ksRule q = 1 ∨ ksRule q = 2) then one32
        else if !(f32 lim).isZero && f32Lt lim norm then f32Div lim norm else one32
      let big := if ksRing q then (sl.zipIdx.find? fun e => decide (ksRch q < segChunks e.1.1)).map (·.2) else none
      let faults := gaErr s ng (16 * ksNslot q)
        ++ faultIf (!f32IsFin qs) (ruleFlt 2)
        ++ faultIf (bits (kb q 0x28) 47 0 != 0 && bits (kb q 0x28) 47 0 != cnt) (ruleFlt 3)
        ++ (match big with | some j => [ruleFlt 7 (BitVec.ofNat 64 j)] | none => [])
        ++ (if mhTenant h then tenantScan s h ++ (if ksNofire q || wordAt h 0x68 == 0 then [] else overCapacity s h hf.2) else [])
      match lowest faults with
      | some f => kilnFault (dropKilnCmd s n i) (some n) q f
      | none =>
        let q1 := { q with norm := norm, clip := clip, n := cnt, slots := sl }
        let s := noteArrays s ((ng, 16 * ksNslot q) :: (if mhTenant h then scanArrays h else [(wordAt h 0x20, 8 * mhBlocks h)])
          ++ if ksRing q then [] else [(kb q 0x10, gradBytes h)])
        if ksRing q ∧ nextSeg sl sl.length 0 < sl.length then
          putKilnCmd s n i { q1 with phase := 2, seg := nextSeg sl sl.length 0 }
        else
          let l := streamOf s h
          let r := if ksRing q then runStream n h hf.2 (missingGrad s) l (nextFree s) q1
            else runStream n h hf.2 (fun x => some (bufferGrad s q x)) (gradChecked s q l) s q1
          match r with
          | (s, .ok q2) => kilnCarry n i q2 (finishStream s n q2)
          | r => kilnCarry n i q1 r
    else s

/-- `KILN_STEP_START`. -/
def execKilnStepStart (n : Fin 14) (i : Nat) (s : State) : Out State := .next (stepStart s n.val i)

/-- The fault of an advance of `RCONS` beyond its range. -/
def rconsFlt (s : State) (q : KilnCmd) (p : Nat) : Flt :=
  { cls := 8, sub := 5, addr := BitVec.ofNat 64 q.off, w1 := BitVec.ofNat 64 (ksRcons q).toNat, w2 := BitVec.ofNat 64 (tallyAt s p), w3 := 1 }

/-- `KILN_RING_CHUNK` (R252, R254): the next chunk of the current segment, once its producer has signalled. The segments are
those of the slots as the command read them; an advance of `RCONS` beyond the range ends the command (R284). -/
def ringChunk (s : State) (n i : Nat) : State :=
  match (kilnCmds s n)[i]? with
  | none => s
  | some q =>
    match kilnTally s q (ksRprod q), kilnTally s q (ksRcons q) with
    | some pp, some pc =>
      if q.op = 0 ∧ q.phase = 2 ∧ bits (kb q 0x38) 47 0 + q.seg + 1 ≤ tallyAt s pp then
        let hf := kilnTensor s q
        let sl := q.slots
        let nj := (sl.getD q.seg (0, 0)).1
        let a := loc (kb q 0x10) + tallyAt s pc % ksRch q * 4096
        let cnt := Min.min 1024 (nj - 1024 * q.chunk)
        match (lineFlt (memRd s) a 4096).orElse fun _ => (faultIf (overflows s pc 1) (rconsFlt s q pc)).head? with
        | some f => kilnFault (dropKilnCmd s n i) (some n) q f
        | none =>
          let bs := readMem s a 4096
          let grad := fun x => if q.got ≤ x ∧ x < q.got + cnt then some (BitVec.ofNat 32 (numAt bs (4 * (x - q.got)) 4) : W32) else none
          let s := advance (noteSpans s [(a, 4096)]) pc 1
          let l := dropDone q.done (streamOf s hf.1)
          match runStream n hf.1 hf.2 grad l s q with
          | (s, .error f) => kilnFault (dropKilnCmd s n i) (some n) q f
          | (s, .ok q1) =>
            let last := decide (segChunks nj ≤ q.chunk + 1)
            let q2 := { q1 with got := q.got + cnt, chunk := if last then 0 else q.chunk + 1
                                seg := if last then nextSeg sl sl.length (q.seg + 1) else q.seg }
            if q2.seg < sl.length then putKilnCmd s n i q2
            else
              match runStream n hf.1 hf.2 (missingGrad s) (dropDone q2.done (streamOf s hf.1)) (nextFree s) q2 with
              | (s, .ok q3) => kilnCarry n i q3 (finishStream s n q3)
              | r => kilnCarry n i q2 r
      else s
    | _, _ => s

/-- `KILN_RING_CHUNK`. -/
def execKilnRingChunk (n : Fin 14) (i : Nat) (s : State) : Out State := .next (ringChunk s n.val i)

/-! ### Export (R257) -/

/-- The payload of a shard of tiles: directory entries made relative, overrides, entries without velvet, masters. -/
def shardPayload (s : State) (h : List Byte) (ts : List TTile) : List Byte :=
  let ents := (ts.map fun t => { t with ents := t.ents.map fun e => { e with vel := 0 } })
  let body := dirBytes ents ++ ovrBytes h ents
  let es := entBytes h ents
  let all := body ++ padTo (roundUp es.length 8) es ++ masterBytes s h ents
  padTo (roundUp all.length 64) all

/-- Bytes of a shard. -/
def shardBytes (s : State) (h : List Byte) (ts : List TTile) : Nat := 128 + (shardPayload s h ts).length

/-- Cut the tiles into shards: the most whole tiles whose shard fits the limit. -/
def cutShards (s : State) (h : List Byte) (limit : Nat) : List TTile → List TTile → List (List TTile)
  | cur, [] => if cur.isEmpty then [] else [cur]
  | cur, t :: rest =>
    if cur.isEmpty ∨ shardBytes s h (cur ++ [t]) ≤ limit then cutShards s h limit (cur ++ [t]) rest
    else cur :: cutShards s h limit [t] rest

/-- A shard's bytes: header (Table 10.10), payload, digest. -/
def shardImage (s : State) (h : List Byte) (q : KilnCmd) (first : Nat) (ts : List TTile) : List Byte :=
  let pay := shardPayload s h ts
  let hdr := leBytes 8 (kb q 0x28).toNat ++ leBytes 8 (ksStep q) ++ leBytes 8 (first * 2 ^ 32 + ts.length)
    ++ leBytes 8 (totalEnts ts * 2 ^ 32 + ts.foldl (fun a t => a + t.ovrs.length) 0) ++ leBytes 8 pay.length ++ leBytes 24 0
  hdr ++ pay ++ digest32 (hdr ++ pay) ++ leBytes 32 0

/-- Run an export: its writes, or its fault before the first. -/
def exportRun (s : State) (n : Nat) (q : KilnCmd) : State × Except Flt (List Nat) :=
  let h := readMem s (loc (kilnHdr q)) 128
  let s := noteArrays s (scanArrays h ++ [(wordAt h 0x30, 4 * mhDcnt h)])
  match lowest (tenantScan s h ++ (lineFlt (memRd s) (loc (wordAt h 0x30)) (4 * mhDcnt h)).toList) with
  | some f => (s, .error f)
  | none =>
    let tiles := tenantTiles s h
    let shards := cutShards s h (exLimit q) [] tiles
    let big := tiles.zipIdx.find? fun (t, _) => decide (exLimit q < shardBytes s h [t])
    let sizes := shards.map (shardBytes s h)
    let total := sizes.foldl (· + ·) 0
    match big with
    | some (_, t) => (s, .error (ruleFlt 0xB (BitVec.ofNat 64 t)))
    | none =>
      match lowest (faultIf (decide ((kb q 0x18).toNat < total)) (ruleFlt 0xB)
          ++ kilnAddr s q.core n 6 false (kb q 0x20) (64 * shards.length) false true) with
      | some f => (s, .error f)
      | none =>
        let r := shards.zipIdx.foldl (fun (acc : (State × Option Flt) × Nat × Nat) (x : List TTile × Nat) =>
          match acc.1.2 with
          | some _ => acc
          | none =>
            let img := shardImage s h q acc.2.1 x.1
            let ga := kb q 0x10 + BitVec.ofNat 64 acc.2.2
            let idx := leBytes 8 ga.toNat ++ leBytes 8 img.length ++ (img.drop (img.length - 64)).take 32 ++ leBytes 16 0
            let w := match kilnWrite acc.1.1 n q.core ga img with
              | (s, none) => kilnWrite s n q.core (kb q 0x20 + BitVec.ofNat 64 (64 * x.2)) idx
              | r => r
            (w, acc.2.1 + x.1.length, acc.2.2 + img.length)) ((s, none), 0, 0)
        match r.1 with
        | (s, some f) => (s, .error f)
        | (s, none) => (s, .ok [shards.length])

/-! ### Fire and fill -/

/-- Run a firing (R255). -/
def fireRun (s : State) (n : Nat) (q : KilnCmd) : State × Except Flt (List Nat) :=
  let h := readMem s (loc (kilnHdr q)) 128
  if q.fire.isEmpty then (s, .ok [])
  else
    let fb := q.fire
    let s := noteArrays s (if mhTenant h then scanArrays h ++ [(wordAt h 0x30, 4 * mhDcnt h)]
      else [(wordAt h 0x20, 8 * mhBlocks h), (wordAt h 0x30, 4 * (mhNout h * mhNin h))])
    match lowest (if mhTenant h then tenantScan s h ++ overCapacity s h fb else []) with
    | some f => (s, .error f)
    | none =>
      let r := fireAll s n q.core h fb (selectedUnits h fb (bits (kb q 0) 5 0))
      (r.1, match r.2.1 with | some f => .error f | none => .ok [0, 0, 0, 0, r.2.2])

/-- Run a fill (R256): the pattern over the destination range. -/
def fillRun (s : State) (n : Nat) (q : KilnCmd) : State × Except Flt (List Nat) :=
  let bs := (List.replicate ((kb q 8).toNat / 8) (leBytes 8 (kb q 0x10).toNat)).flatten
  let r := kilnWrite s n q.core (kb q 0) bs
  (r.1, match r.2 with | some f => .error f | none => .ok [])

/-! ### Serving the queues -/

/-- Run what a command does at once when it is fetched: a firing, a fill, an export. -/
def kilnRun (s : State) (n : Nat) (q : KilnCmd) : State × Except Flt KilnCmd :=
  let r := if q.op = 1 then fireRun s n q else if q.op = 2 then fillRun s n q else exportRun s n q
  (r.1, r.2.map fun w => { q with words := w, phase := 3 })

/-- Fetch command i of Kiln n: its checks, then its acceptance (R241, R376), and its work where it starts at once. DEDUCED, log entry 20. -/
def kilnFetch (s : State) (n i : Nat) (q : KilnCmd) : State :=
  match lowest (kilnFlts s n q) with
  | some f => kilnFault (dropKilnCmd s n i) (some n) q f
  | none =>
    let h := readMem s (loc (kilnHdr q)) 128
    let q1 := { q with phase := 1, fire := if q.op = 2 ∨ q.op = 3 then [] else (firingBlock s h).getD [] }
    let s := if q.op = 2 then s else noteArrays (nextFree s) ((kilnHdr q, 128) :: if q1.fire.isEmpty then [] else [(wordAt h 0x68, 256)])
    let s := match q.ctx with
      | some x => if q.op = 0 then countAccepted s x true else s
      | none => s
    if q.op = 0 ∨ 4 ≤ q.op then putKilnCmd s n i q1
    else kilnCarry n i q1 (kilnRun s n q1)

/-- Whether Kiln n may fetch command i: it waits its turn, and no gate holds it. -/
def kilnMayFetch (s : State) (n i : Nat) (q : KilnCmd) : Bool :=
  q.phase == 0 && kilnTurn s n i && !(match q.ctx with | some x => waitsAtFetch s x (kilnReach s q) | none => false)

/-- Whether a command of Kiln n has done its work and may complete when its result is written; updates and MC fills finish by
their own events. -/
def kilnEnds (s : State) (n : Nat) (q : KilnCmd) : Bool := q.phase == 3 && q.op != 0 && !q.mc && kilnFree s n q

/-- Whether a finished command's result finds its bank ports free (R67). -/
def kilnPortsFree (s : State) (q : KilnCmd) : Bool :=
  !(kilnPorts s q).any (portTaken (coreOf s q.core) s.clock.cycle .kiln)

/-- What Kiln n can do next: fetch a command whose turn it is, or complete one. -/
def kilnNext (s : State) (n : Nat) : Option (Nat × KilnCmd) :=
  ((kilnCmds s n).zipIdx.map fun (q, i) => (i, q)).find? fun (i, q) =>
    kilnMayFetch s n i q || (kilnEnds s n q && kilnPortsFree s q)

/-- Serve Kiln n (`fuel` moves at most). -/
def kilnServiceFuel : Nat → State → Nat → State
  | 0, s, _ => s
  | fuel + 1, s, n =>
    match kilnNext s n with
    | none => s
    | some (i, q) =>
      if q.phase = 0 then kilnServiceFuel fuel (kilnFetch s n i q) n
      else kilnServiceFuel fuel (kilnDone (dropKilnCmd (askPorts s q.core .kiln (kilnPorts s q)).2 n i) n q) n

/-- Serve Kiln n: every command moves at most twice; a result that the bank ports refuse asks again later (R70). -/
def kilnService (s : State) (n : Nat) : State :=
  let s := kilnServiceFuel (2 * (kilnCmds s n).length + 1) s n
  ((kilnCmds s n).filter fun q => kilnEnds s n q && !kilnPortsFree s q).foldl (fun s q => (askPorts s q.core .kiln (kilnPorts s q)).2) s

/-- Serve every Kiln. -/
def kilnServiceAll (s : State) : State := (List.range 14).foldl kilnService s

/-- A command whose block has been read goes to its Kiln, or ends where it yields none (R237). -/
def kilnSubmit (s : State) (q : KilnCmd) : State :=
  let ga := kilnHdr q
  let sub := if 4 ≤ q.op then 0x26 else 6
  match (if isHere s (bits ga 63 48) then kilnOf s (loc ga) else none) with
  | some n => kilnService (setKiln s n (kilnCmds s n ++ [q])) n
  | none =>
    let rw := decide (q.op ≠ 2)
    let win := if q.mc then [] else
      kilnAddr s q.core 0 sub false ga (if q.op = 2 then (kb q 8).toNat else 128) rw (q.op == 0 || q.op == 2 || decide (4 ≤ q.op))
      ++ tallyFlts s q [q.tally]
    match lowest (win ++ [ruleFlt sub]) with
    | some f => kilnFault s none q f
    | none => s

/-- Whether the command path may read a command's block now: its range can be registered, else it waits in the order of asking
(R83, R84), and it gets the bank ports (R67). -/
def pathTake (s : State) (q : KilnCmd) : Bool × State :=
  let rs := [(q.off, 128, false)]
  if !canRegister (coreOf s q.core) .kiln rs then (false, modCore s q.core fun c => queueUp c .kiln rs)
  else match askPorts s q.core .kiln (portsOf (coreOf s q.core) q.off 128 false) with
    | (false, s) => (false, s)
    | (true, s) => (true, modCore s q.core fun c => { leaveQueue c .kiln with sbHigh := Max.max c.sbHigh (c.ranges.length + 1) })

/-- The command path of a cluster reads the blocks it can, those of one core in their order (R83). -/
def pathService (s : State) (k : Nat) : State :=
  let r := (kilnCmds s (14 + k)).foldl (fun (acc : State × List KilnCmd) q =>
    if acc.2.any fun e => e.core == q.core then (acc.1, acc.2 ++ [q])
    else match pathTake acc.1 q with
      | (false, s) => (s, acc.2 ++ [q])
      | (true, s) => (kilnSubmit s { q with blk := (spadRd s q.core .kiln).bytes q.off 128 }, acc.2)) (s, [])
  if (kilnCmds s (14 + k)).isEmpty then s else setKiln r.1 (14 + k) r.2

/-- A core's Kiln command leaves the core (R60, R237): its block and result area are checked as one range. -/
def kilnIssue (s : State) (c op : Nat) (e : Engine) (off : W64) (t : BitVec 12) : State :=
  let s := modCore s c fun k => takeCredit k 3
  let q : KilnCmd := { op := op, core := c, eng := e, ctx := ctxOf (coreOf s c), off := off.toNat, tally := t }
  match lowest ((spadFlt (coreOf s c) off.toNat 192).toList ++ faultIf (off.toNat % 64 != 0) { cls := 3, sub := 2, addr := off, w1 := 64 }) with
  | some f => kilnFault s none q f
  | none =>
    let k := clusterOf c
    pathService (setKiln s (14 + k) (kilnCmds s (14 + k) ++ [q])) k

/-! ### Events of the Kiln -/

/-- The digest cell after a fold of the masters written (R246). -/
def foldedCell (s : State) (q : KilnCmd) : List Byte :=
  let a := loc (kb q 0x70)
  let old := readMem s a 64
  digest32 (old.take 32 ++ leBytes 4 (bits (kb q 0x68) 31 0) ++ leBytes 6 (ksStep q) ++ leBytes 6 0 ++ q.masters)
  ++ leBytes 8 ((numAt old 32 8 + 1) % 2 ^ 64) ++ leBytes 24 0

/-- `KILN_STEP_COMPLETE` (R246, R247): the digest, `MH_USTEP`, the result, the report to the MC, the tally. -/
def stepComplete (s : State) (n i : Nat) : State :=
  match (kilnCmds s n)[i]? with
  | none => s
  | some q =>
    if q.op = 0 ∧ q.phase = 3 ∧ kilnFree s n q then
     match askPorts s q.core .kiln (kilnPorts s q) with
     | (false, s) => s
     | (true, s) =>
      let cell := foldedCell s q
      let r := match lineFlt (memRd s) (loc (kb q 0x70)) 64 with
        | some f => (s, some f)
        | none => match kilnWrite s n q.core (kb q 0x70) cell with
          | (s, none) => kilnWrite s n q.core (kilnHdr q + 0x18) (leBytes 8 (ksStep q))
          | r => r
      match r with
      | (s, some f) => kilnService (kilnFault (dropKilnCmd s n i) (some n) q f) n
      | (s, none) =>
        let s := dropKilnCmd s n i
        let s := match q.ctx with | some x => stepDone s x | none => s
        kilnServiceAll (kilnDone s n { q with words := [q.done, q.nonfin, q.norm.toNat * 2 ^ 32 + q.clip.toNat, q.n, q.tiles, numAt cell 0 8] })
    else s

/-- `KILN_STEP_COMPLETE`. -/
def execKilnStepComplete (n : Fin 14) (i : Nat) (s : State) : Out State := .next (stepComplete s n.val i)

/-- `MASK_COMMAND_START` (R180, R181): an accepted mask command whose turn it is runs its passes. -/
def maskStart (s : State) (n i : Nat) : State :=
  match (kilnCmds s n)[i]? with
  | none => s
  | some q =>
    if 4 ≤ q.op ∧ q.phase = 1 then
      match maskRun s n q.core q.op q.blk q.fire with
      | (s, .error f) => kilnService (kilnFault (dropKilnCmd s n i) (some n) q f) n
      | (s, .ok w) => kilnService (putKilnCmd s n i { q with words := w, phase := 3 }) n
    else s

/-- `MASK_COMMAND_START`. -/
def execMaskCommandStart (n : Fin 14) (i : Nat) (s : State) : Out State := .next (maskStart s n.val i)

/-- The MC runs a fill on the Kiln that serves its destination (R256). -/
def mcFillRun (s : State) (blk : List Byte) : State :=
  let dst := 0xFFFF * 2 ^ 48 + bits (wordAt blk 0x10) 47 0
  let odd := bits (wordAt blk 0) 55 0 != 0 || bits (wordAt blk 0x10) 63 48 != 0 || (blk.drop 0x28).any (· != 0)
  let b := leBytes 8 dst ++ leBytes 8 (wordAt blk 0x18).toNat ++ leBytes 8 (wordAt blk 0x20).toNat
    ++ leBytes 8 (if odd then 1 else 0) ++ leBytes 96 0
  kilnSubmit s { op := 2, core := 0, eng := .compute, ctx := none, off := 0, tally := 0, mc := true, blk := b }

/-- `FILL_COMPLETE` (R256): an MC fill whose last write has committed; the status record of kind 0x09. -/
def execFillComplete (n : Fin 14) (i : Nat) (s : State) : Out State :=
  match (kilnCmds s n.val)[i]? with
  | none => .next s
  | some q =>
    if q.mc && q.phase == 3 then
      let s := dropKilnCmd s n.val i
      .next (kilnService (reportMC s (statusRec s 9 (leBytes 6 0 ++ leBytes 8 (loc (kb q 0)) ++ leBytes 8 (kb q 8).toNat) none)) n.val)
    else .next s

end Sys2Proof.Machine
end

