-- ==== Sys2Proof/Machine/Flags.lean ====
section
/-! DEFINITION. Counters and status registers of a core: `CORE_STALL` (Table 1.12), `SB_STAT` (Table 3.9), the core
register block as `csrr` and the MC path read it (Tables 1.7, 3.4, 16.7), and the times at which results land. -/

namespace Sys2Proof.Machine

open Sys2Proof

/-! ### Stall counters (Table 1.12) -/

/-- Count cycles held by `qwait`, `twait` or `bwait`. -/
def addWait (k : Core) (n : Nat) : Core := { k with waitCyc := satAdd 32 k.waitCyc n }
/-- Count cycles held by the range scoreboard or bank refusal. -/
def addHold (k : Core) (n : Nat) : Core := { k with holdCyc := satAdd 32 k.holdCyc n }

/-- `CORE_STALL` as a word. -/
def stallWord (k : Core) : W64 := BitVec.ofNat 64 (k.waitCyc * 2 ^ 32 + k.holdCyc)
/-- `SB_STAT` as a word: `HIGH` and `USED`. -/
def sbWord (k : Core) : W64 := BitVec.ofNat 64 (k.sbHigh * 2 ^ 16 + k.ranges.length)

/-! ### The core register block -/

/-- `CORE_ID` (Table 1.8): `DEVADDR` reads the device's address of R354, 0xFFFF before discovery. DEDUCED, log entry 53. -/
def coreIdWord (s : State) (c : Nat) : W64 := setBits (coreOf s c).coreId 63 48 s.fabric.devaddr.toNat

/-- The value of the register at byte offset `off` of a core's block; none where no register lies there. R53 gives `csrr` a window fault for
an offset outside the block; that an offset inside it at which no register lies raises the same fault is the model's choice. DESIGN CHOICE,
DESIGN CHOICE, log entry 65. -/
def coreReg (s : State) (c : Nat) (off : Nat) : Option W64 :=
  let k := coreOf s c
  if off = 0 then some (coreIdWord s c)
  else if off = 8 then some k.coreMode
  else if off = 0x10 then some k.queueBind
  else if off = 0x18 then some k.dslotOwn
  else if off = 0x20 then some (stallWord k)
  else if off = 0x28 then some k.coreCtx
  else if off = 0x30 then some k.coreEntry
  else if off = 0x40 then some k.spw
  else if off = 0x48 then some (sbWord k)
  else if 0x80 ≤ off ∧ off < 0x100 ∧ off % 8 = 0 then
    some (if off % 16 = 0 then mget 0xFFFF000000000000 k.winBase ((off - 0x80) / 16) else mget 0 k.winBound ((off - 0x80) / 16))
  else none

/-- What a read of that register leaves: `CORE_STALL` is cleared, `SB_STAT.HIGH` becomes `USED` (R27, R86). DEDUCED, log entry 46. -/
def coreRegRead (k : Core) (off : Nat) : Core :=
  if off = 0x20 then { k with waitCyc := 0, holdCyc := 0 }
  else if off = 0x48 then { k with sbHigh := k.ranges.length }
  else k

/-- Read a register of a core's block: the value answered to the MC path, and what the read leaves. -/
def readCoreReg (s : State) (c off : Nat) : State :=
  match coreReg s c off with
  | none => s
  | some v =>
    let s := modCore s c fun k => coreRegRead k off
    { s with host := { s.host with data := some v } }

/-- `CORE_STALL_READ` (R27): the counters are read and cleared. -/
def execCoreStallRead (c : CoreId) (s : State) : Out State := .next (readCoreReg s c.val 0x20)

/-- `SB_STAT_READ` (R86): `HIGH` is read and set to `USED`. -/
def execSbStatRead (c : CoreId) (s : State) : Out State := .next (readCoreReg s c.val 0x48)

/-! ### Pending results (R28 to R32) -/

/-- Whether an engine is the compute engine in scheduled mode: the only one whose schedule is checked, not waited for. -/
def scheduled (k : Core) (e : Engine) : Bool := e == .compute && !interlocked k

/-- What an engine's latencies are counted in: issues in scheduled mode, cycles otherwise (R18, R29). -/
def engTime (s : State) (k : Core) (e : Engine) : Nat := if scheduled k e then k.ce.idx else s.clock.cycle

/-- Results of an engine readable at time n land and leave the list. -/
def settle (k : Core) (e : Engine) (n : Nat) : Core :=
  let k1 := landDue k e (engOf k e).pend n
  setEng k1 e { engOf k1 e with pend := (engOf k1 e).pend.filter fun p => decide (n < p.ready) }

/-- A register's value as a reader at its ready issue sees it: the last pending write of it, else the file. -/
def pendOf (g : Eng) (r : RegName) : Option RegWrite :=
  ((g.pend.filter fun p => p.name = r).getLast?).map (·.write)

/-- Scalar register r of an engine. -/
def xVal (k : Core) (e : Engine) (r : Reg) : W64 :=
  match pendOf (engOf k e) (.x r) with
  | some (.x _ v) => v
  | _ => xFile (engOf k e) r

/-- Lane i of vector register r. -/
def vVal (k : Core) (r : Reg) (i : Nat) : W32 :=
  match pendOf k.ce (.v r) with
  | some (.v _ ls) => ((ls.find? fun q => q.1 == i).map (·.2)).getD (vLane k r i)
  | _ => vLane k r i

/-- Predicate r. -/
def pVal (k : Core) (r : Fin 8) : BitVec 256 :=
  match pendOf k.ce (.p r) with
  | some (.p _ w) => w
  | _ => pFile k r

/-- The image in descriptor slot r, for an engine. -/
def dVal (k : Core) (e : Engine) (r : Reg) : List Byte :=
  match pendOf (engOf k e) (.d r) with
  | some (.d _ b) => b
  | _ => dImage k r

end Sys2Proof.Machine
end

