-- ==== Sys2Proof/Machine/Streams.lean ====
section
/-! DEFINITION. The memory streams of the fetch and store engines (R38 to R40, R58, R118): entries fetched into queues, the
read cache (R73 to R77), queue entries stored, and the tally signals of the store engine. -/

namespace Sys2Proof.Machine

open Sys2Proof

/-! ### The read cache (R75, R76) -/

/-- Set and tag of the line at a local address. -/
def cacheKey (a : Nat) : Nat × Nat := (nbits a 16 6, nbits a 47 17)

/-- The eight ways of a set. -/
def cacheSet (k : Core) (set : Nat) : List (Option CacheLine) := mget (List.replicate 8 none) k.cache set

/-- The way that holds the line at an address. -/
def cacheWay (k : Core) (a : Nat) : Option Nat :=
  (cacheSet k (cacheKey a).1).findIdx? fun w => match w with | some l => l.tag == (cacheKey a).2 | none => false

/-- The replacement tree of a set after way w is used: every node on its path points away from it. -/
def plruTouch (t w : Nat) : Nat :=
  let put := fun (t i : Nat) (b : Bool) => t - (nbits t i i) * 2 ^ i + (if b then 2 ^ i else 0)
  let b2 := w.testBit 2
  let b1 := w.testBit 1
  let b0 := w.testBit 0
  let t := put t 0 (!b2)
  let n1 := 1 + (if b2 then 1 else 0)
  let t := put t n1 (!b1)
  put t (3 + 2 * (n1 - 1) + (if b1 then 1 else 0)) (!b0)

/-- The way that the tree points at. DEDUCED, log entry 47. -/
def plruVictim (t : Nat) : Nat :=
  let b2 := t.testBit 0
  let n1 := 1 + (if b2 then 1 else 0)
  let b1 := t.testBit n1
  let b0 := t.testBit (3 + 2 * (n1 - 1) + (if b1 then 1 else 0))
  (if b2 then 4 else 0) + (if b1 then 2 else 0) + (if b0 then 1 else 0)

/-- The way that a miss fills: an invalid one first, else the one of the tree. -/
def fillWay (k : Core) (set : Nat) : Nat :=
  match (cacheSet k set).findIdx? (·.isNone) with
  | some w => w
  | none => plruVictim (mget 0 k.plru set)

/-- Write a way of a set. -/
def setWay (k : Core) (set w : Nat) (l : Option CacheLine) : Core :=
  { k with cache := mset (List.replicate 8 none) k.cache set ((cacheSet k set).set w l) }

/-- Mark a way used. -/
def touchWay (k : Core) (set w : Nat) : Core := { k with plru := mset 0 k.plru set (plruTouch (mget 0 k.plru set) w) }

/-- Read the line at an address through the cache: a hit is served by it, a miss fills it. -/
def cacheRead (s : State) (c line : Nat) : State :=
  let k := coreOf s c
  let (set, tag) := cacheKey line
  match cacheWay k line with
  | some w => modCore s c fun k => touchWay k set w
  | none =>
    let w := fillWay k set
    modCore s c fun k => touchWay (setWay k set w (some ⟨tag, readMem s line 64⟩)) set w

/-- Invalidate the line at an address. -/
def cacheDrop (k : Core) (line : Nat) : Core :=
  match cacheWay k line with
  | some w => setWay k (cacheKey line).1 w none
  | none => k

/-- The byte of an address as the cache serves it. -/
def cacheByte (s : State) (c a : Nat) : Byte :=
  let k := coreOf s c
  match cacheWay k a with
  | some w => match (cacheSet k (cacheKey a).1).getD w none with
    | some l => l.data.getD (a % 64) 0
    | none => readByte s a
  | none => readByte s a

/-- Whether a `qfetch` of a descriptor goes through the cache (R73, R75). -/
def usesCache (s : State) (c : Nat) (d : Desc) : Bool :=
  spwCache (coreOf s c) && d.chint != 0 && d.space s == .here && (match d.bounds false with | some (a, _) => !inSpad a.toNat | none => false)

/-- The lines of the stored units in a range of unit numbers. -/
def unitLines (d : Desc) (lo hi : Nat) : List Nat :=
  ((List.range (hi - lo)).map fun i =>
    let (pad, a) := d.unitAt (lo + i)
    if pad then [] else linesOf a.toNat d.unitBytes).flatten

/-- What the hint does when the read starts (Table 3.3): 2 invalidates the lines it covers, 3 the whole cache. -/
def cacheStart (s : State) (c : Nat) (d : Desc) : State :=
  if !usesCache s c d then s
  else if d.chint = 2 then modCore s c fun k => (unitLines d 0 d.unitCount).foldl cacheDrop k
  else if d.chint = 3 then modCore s c fun k => { k with cache := [], plru := [] }
  else s

/-! ### `qfetch` (R38, R118) -/

/-- The stored units that entry k of a stream takes its bytes from. -/
def entryUnits (d : Desc) (k : Nat) : Nat × Nat :=
  let ub := d.unitBytes
  if d.sparse then (0, d.unitCount)
  else if ub ≤ 64 ∧ ub ≠ 0 ∧ 64 % ub = 0 then (k * (64 / ub), Min.min d.unitCount ((k + 1) * (64 / ub)))
  else (k / Max.max 1 (ub / 64), Min.min d.unitCount (k / Max.max 1 (ub / 64) + 1))

/-- Whether another device has answered every byte that entry k needs. -/
def entryHere (d : Desc) (got : AMap (Option Byte)) (k : Nat) : Bool :=
  let (lo, hi) := entryUnits d k
  (List.range (hi - lo)).all fun i =>
    let (pad, a) := d.unitAt (lo + i)
    pad || (List.range d.unitBytes).all fun j => (mget none got (a.toNat + j)).isSome

/-- The reader of a stream's bytes. -/
def streamRd (s : State) (c : Nat) (m : Stream) : Rd :=
  let d := Desc.of m.image
  match d.space s with
  | .spad => bankRd s c (.engine .fetch)
  | .here =>
    if usesCache s c d then
      { byte := cacheByte s c
        bad := fun a n => ((linesOf a n).filter fun l => (cacheWay (coreOf s c) l).isNone).findSome? fun l => badIn s l 64 }
    else memRd s
  | .far _ => { byte := fun a => (mget none m.got a).getD 0, bad := fun _ _ => none }

/-- Ask another device for the bytes of the units that the head of the fetch stream needs next: the frames of one unit
after another, at most 512 bytes each. DEDUCED, log entry 47. -/
def askFar (s : State) (c : Nat) (m : Stream) : State × Stream :=
  let d := Desc.of m.image
  match d.space s with
  | .far dev =>
    let (_, hi) := entryUnits d m.next
    let r := (List.range (hi - m.asked)).foldl (fun s i =>
      let (pad, a) := d.unitAt (m.asked + i)
      if pad then s
      else (List.range (ceilDiv d.unitBytes 512)).foldl (fun s j =>
        remoteRead s (.engine .fetch) c (0x200 + c) dev 0 (coreKey s c) (a.toNat + 512 * j) (Min.min 512 (d.unitBytes - 512 * j))) s) s
    (r, { m with asked := Max.max m.asked hi })
  | _ => (s, m)

/-- Replace the head of an engine's stream. -/
def setHead (s : State) (c : Nat) (e : Engine) (m : Stream) : State :=
  modEng s c e fun g => { g with streams := .move m :: g.streams.drop 1 }

/-- The stream at the head of the fetch engine asks for what it needs. -/
def pumpFetch (s : State) (c : Nat) : State :=
  match (coreOf s c).fe.streams with
  | .move m :: _ => let (s, m) := askFar s c m; setHead s c .fetch m
  | _ => s

/-- The head of an engine's stream is finished: its ranges retire when its last access is done (R85). -/
def endStream (s : State) (c : Nat) (e : Engine) : State :=
  match (engOf (coreOf s c) e).streams with
  | .move m :: t =>
    let s := retireMany s c (.engine e) (tensorRange s c (Desc.of m.image) (e == .store))
    modEng s c e fun g => { g with streams := t }
  | _ :: t => modEng s c e fun g => { g with streams := t }
  | [] => s

/-- The lines that hold the k-th 64 bytes of a stream of BP or HB tiles, from tile n on: the tile's table entry with its first
bytes, and the bytes themselves (R118, R160). -/
def tileEntryLines (d : Desc) (rd : Rd) : Nat → Nat → Nat → List Nat
  | 0, _, _ => []
  | fuel + 1, n, k =>
    if d.unitCount * d.tileCount ≤ n then []
    else
      let (pad, a) := d.unitAt (n / d.tileCount)
      let ent := a.toNat + 8 * (n % d.tileCount)
      match d.tileStream rd n with
      | .error _ => []
      | .ok bs =>
        if k < bs.length / 64 then
          if pad then []
          else
            let e := rd.num ent 8
            (if k = 0 then linesOf ent 8 else [])
              ++ (if nbits e 63 48 = 0 then [] else linesOf (a.toNat + nbits e 47 0 + 64 * k) 64)
        else tileEntryLines d rd fuel (n + 1) (k - bs.length / 64)

/-- The lines that entry k of a stream brings from memory. -/
def entryLines (d : Desc) (rd : Rd) (k : Nat) : List Nat :=
  let ub := d.unitBytes
  if d.sparse then tileEntryLines d rd (d.unitCount * d.tileCount + 1) 0 k
  else if ub ≤ 64 ∧ ub ≠ 0 ∧ 64 % ub = 0 then unitLines d (k * (64 / ub)) (Min.min d.unitCount ((k + 1) * (64 / ub)))
  else
    let per := Max.max 1 (ub / 64)
    let (pad, a) := d.unitAt (k / per)
    if pad then [] else linesOf (a.toNat + 64 * (k % per)) 64

/-- Those of an entry's lines that the cache does not hold. -/
def freshLines (s : State) (c : Nat) (d : Desc) (ls : List Nat) : List Nat :=
  ls.dedup.filter fun l => !(usesCache s c d && (cacheWay (coreOf s c) l).isSome)

/-- The next entry of the fetch engine's oldest `qfetch` arrives and is pushed where there is room; a bank port that is refused
holds the stream (R20, R70); the read ends after its last entry, or on an uncorrectable line or a bad tile, which stop the
core (R331). -/
def fetchEntry (s : State) (c : Nat) : State :=
  match (coreOf s c).fe.streams with
  | .move m :: _ =>
    let d := Desc.of m.image
    let far := match d.space s with | .far _ => true | _ => false
    if 64 ≤ (queueAt (coreOf s c) m.q).length then s
    else if far && !entryHere d m.got m.next then pumpFetch s c
    else match d.entry (streamRd s c m) m.next with
      | none => pumpFetch (endStream s c .fetch) c
      | some (.error f) => unitFault (endStream s c .fetch) c 1 0 f
      | some (.ok bs) =>
        let ls := (entryLines d (streamRd s c m) m.next).dedup
        match askSpace s c (.engine .fetch) (d.space s) false (ls.map fun l => (l, 64)) with
        | (false, s) => s
        | (true, s) =>
          let s := if d.space s = .here then (freshLines s c d ls).foldl (fun s l => noteSoft s l 64) s else s
          let s := if usesCache s c d then ls.foldl (fun s l => cacheRead s c l) s else s
          let s := modCore s c fun k => setQueue k m.q (queueAt k m.q ++ [padTo 64 bs])
          let m := { m with next := m.next + 1 }
          if (d.entry (streamRd s c m) m.next).isNone && !far then pumpFetch (endStream s c .fetch) c
          else setHead s c .fetch m
  | _ => s

/-- `QFETCH_ENTRY_ARRIVAL` (R118, R331). -/
def execQfetchEntryArrival (c : CoreId) (s : State) : Out State := .next (fetchEntry s c.val)

/-- Bytes of a read response for a core's fetch engine. -/
def fetchAnswer (s : State) (c a : Nat) (bs : List Byte) : State :=
  match (coreOf s c).fe.streams with
  | .move m :: _ => setHead s c .fetch { m with got := bs.zipIdx.foldl (fun g (b, i) => mput (a + i) (some b) g) m.got }
  | _ => s

/-! ### `qstore` and the signals behind it (R40, R118) -/

/-- Length of an arriving BP or HB tile and its count, once its map is here. -/
def tileLength (d : Desc) (bs : List Byte) : Option (Nat × Nat) :=
  let vb := elemBits d.fmt / 8
  if d.form = 2 then
    if bs.length < 512 then none
    else let n := (setBitsOf 4096 (numAt bs 0 512)).length; some (512 + n * vb, n)
  else
    if bs.length < 8 then none
    else
      let marked := (setBitsOf 64 (numAt bs 0 8)).length
      if bs.length < 8 + 8 * marked then none
      else
        let n := ((List.range marked).map fun i => (setBitsOf 64 (numAt bs (8 + 8 * i) 8)).length).foldl (· + ·) 0
        some (8 + 8 * marked + n * vb, n)

/-- The writes of a whole tile that has arrived, or the operand bound fault where it passes `SPLEN`, and the place of the
next tile (R118, R121): the first 64-byte boundary after it, a place that R118 leaves to the writer. DESIGN CHOICE, log entry 65. -/
def placeTile (d : Desc) (m : Stream) (len n : Nat) : Except Flt (List Wr) × Nat :=
  let t := m.next % d.tileCount
  let (pad, a) := d.unitAt (m.next / d.tileCount)
  let off := if t = 0 then roundUp d.tableBytes 64 else m.off
  if pad && !d.matpad then (.ok [], off)
  else if n = 0 then (.ok [(a.toNat + 8 * t, leBytes 8 0)], off)
  else if d.splen < off + len then (.error (tileFlt 5 4 d t (off + len) d.splen), off)
  else (.ok [(a.toNat + 8 * t, leBytes 8 (n * 2 ^ 48 + off)), (a.toNat + off, m.buf.take len)], roundUp (off + len) 64)

/-- The writes of a popped entry and what the stream becomes; none as third where the tensor is complete. DEDUCED, log entry 47. -/
def storeEntry (s : State) (c : Nat) (m : Stream) (bs : List Byte) : Except Flt (List Wr) × Stream × Bool :=
  let d := Desc.of m.image
  if d.sparse then
    let m := { m with buf := m.buf ++ bs }
    match tileLength d m.buf with
    | none => (.ok [], m, false)
    | some (len, n) =>
      if m.buf.length < roundUp len 64 then (.ok [], m, false)
      else
        let r := placeTile d m len n
        let m1 := { m with buf := [], off := r.2, next := m.next + 1 }
        (r.1, m1, decide (d.unitCount * d.tileCount ≤ m.next + 1))
  else
    let ws := d.entryWrites m.next bs
    let m1 := { m with next := m.next + 1 }
    let last := decide (d.entries ≤ m.next + 1)
    if d.accw then
      let r := ws.foldl (fun (x : AMap W32 × List Wr) w =>
        let acc := accStep d (d.oldEnc s c) x.1 w.1 (elemVal d.fmt (leNat w.2))
        (acc, x.2 ++ [(w.1, leBytes d.es (elemEnc d.fmt (f32 (mget 0 acc w.1))))])) (m.acc, [])
      (.ok r.2, { m1 with acc := r.1 }, last)
    else (.ok ws, m1, last)

/-- Whether the store engine's writes have all committed (R40). -/
def storesDone (s : State) (c : Nat) : Bool := !awaiting s c (.engine .store)

/-- A counted signal leaves an engine of core c; a local refusal stops the core (R291, R292). DEDUCED, log entry 47. -/
def sendCounted (s : State) (c : Nat) (e : Engine) (pc : Int) (a b : W64) : State :=
  let stream := if e = .store then c else 0x200 + c
  match countedSignal s (.engine e) c stream (coreKey s c) a (bits b 47 0) (BitVec.ofInt 64 pc) with
  | (s, true) => s
  | (s, false) => lateFault s c { cls := 8, sub := 8, ukind := engKind e, addr := BitVec.ofInt 64 pc, w1 := BitVec.ofNat 64 (bits a 14 3) }

/-- The signals at the head of the store engine's stream act once every earlier store has committed (`fuel` at most). -/
def releaseSignals : Nat → State → Nat → State
  | 0, s, _ => s
  | fuel + 1, s, c =>
    match (coreOf s c).se.streams with
    | .signal t m pc :: rest =>
      if storesDone s c then
        let s := modEng s c .store fun g => { g with streams := rest }
        releaseSignals fuel (match translate s c t with
          | some p => signalTally s c .store pc p m t
          | none => s) c
      else s
    | .remote a b pc :: rest =>
      if storesDone s c then
        releaseSignals fuel (sendCounted (modEng s c .store fun g => { g with streams := rest }) c .store pc a b) c
      else s
    | _ => s

/-- Release what may be released of the store engine's signals. DEDUCED, log entry 47. -/
def settleStores (s : State) (c : Nat) : State := releaseSignals (coreOf s c).se.streams.length s c

/-- Perform the writes of the store engine in a space; lines it covers leave the cache (R76). -/
def storeWrites (s : State) (c : Nat) (d : Desc) (ws : List Wr) : State × Option Flt :=
  match d.space s with
  | .spad =>
    let n := ws.foldl (fun a w => a + w.2.length) 0
    (creditStream (ws.foldl (fun s w => spadWrite s c (.engine .store) w.1 w.2) s) s.fabric.devaddr.toNat c n, none)
  | .here =>
    let s := modCore s c fun k => (ws.map fun w => linesOf w.1 w.2.length).flatten.foldl cacheDrop k
    commitAll s c ws
  | .far dev => (remoteWrites (nextFree s) (.engine .store) c c dev (coreKey s c) false ws, none)

/-- The next entry of the store engine's oldest `qstore` is popped and its write commits; a bank port that is refused holds the
stream (R20, R70). An empty tensor pops nothing. -/
def commitEntry (s : State) (c : Nat) : State :=
  match (coreOf s c).se.streams with
  | .move m :: _ =>
    let d := Desc.of m.image
    if !ownRoom s c then s
    else if d.unitCount = 0 ∨ (!d.sparse ∧ d.entries = 0) then settleStores (endStream s c .store) c
    else match queueAt (coreOf s c) m.q with
    | [] => s
    | bs :: rest =>
      let pop := fun s => modCore s c fun k => setQueue k m.q rest
      match storeEntry s c m (padTo 64 bs) with
      | (.error f, _, _) => unitFault (endStream (pop s) c .store) c 3 0 f
      | (.ok ws, m, last) =>
        match askSpace s c (.engine .store) (d.space s) true (ws.map fun w => (w.1, w.2.length)) with
        | (false, s) => s
        | (true, s) =>
          match storeWrites (pop s) c d ws with
          | (s, some f) => unitFault (endStream s c .store) c 3 0 f
          | (s, none) => if last then settleStores (endStream s c .store) c else setHead s c .store m
  | _ => settleStores s c

/-- `STORE_ENGINE_COMMIT` (R40). -/
def execStoreEngineCommit (c : CoreId) (s : State) : Out State := .next (commitEntry s c.val)

end Sys2Proof.Machine
end

