-- ==== Sys2Proof/Machine/Issue.lean ====
section
/-! DEFINITION. The issue of bundles (R18 to R41): slots gathered into a bundle, every check of Table 1.6, the waits of
Table 1.4, the effects in slot order, the results in flight, the next bundle index. -/

namespace Sys2Proof.Machine

open Sys2Proof

/-! ### What a slot touches -/

/-- The scratchpad access of a slot: window offset, length, whether it writes, the alignment required (R52). -/
def accessOf (st : Staged) : Option (Int × Nat × Bool × Nat) :=
  match st.effect with
  | .load _ off n => some (off, n, false, n)
  | .store off bs => some (off, bs.length, true, Min.min 64 bs.length)
  | .vld _ off => some (off, 1024, false, 64)
  | .dld _ off => some (off, 128, false, 64)
  | .qdrain _ off n => if 1 ≤ n ∧ n ≤ 64 then some (off.toNat, 64 * n, true, 64) else none
  | _ => none

/-- The accesses of a bundle. -/
def accessesOf (b : List Staged) : List (Int × Nat × Bool × Nat) := b.filterMap accessOf

/-- The slot of the weight images of `mma.sel` (Table 5.6). -/
def wslotOf (ctl : W64) : Reg := Fin.ofNat 32 (bits ctl 31 27)

/-- The bytes that row r of a pass reads in own scratchpad (R134). -/
def actSpans (d : Desc) (r : Nat) : List (Nat × Nat) :=
  if d.plain then
    (List.range (d.dim 4).pext).filterMap fun i =>
      let (pad, a) := d.unitAt (r * (d.dim 4).pext + i)
      if pad then none else some (a.toNat, d.es)
  else
    let (pad, a) := d.unitAt r
    if pad then [] else [(a.toNat, d.unitBytes)]

/-- The activation rows that the bundle at time n reads: of the passes on their way, and row 0 of a pass it starts (R134). -/
def rowSpans (k : Core) (n : Nat) (b : List Staged) : List (Nat × Nat) :=
  (k.passes.filterMap fun p =>
    let r := p.readRows.length
    if r < p.rows ∧ p.issue + p.first - 96 + r ≤ n then some (actSpans (Desc.of p.act) r) else none).flatten
  ++ (b.filterMap fun st =>
    let row := fun (d1 : Reg) =>
      let d := Desc.of (dVal k .compute d1)
      if passRows d = 0 then none else some (actSpans d 0)
    match st.effect with
    | .pass _ d1 _ => row d1
    | .pred d1 _ _ => row d1
    | _ => none).flatten

/-- The ranges that a slot's unit registers at issue, by agent and core (R83). -/
def unitRanges (s : State) (c : Nat) (e : Engine) (st : Staged) : List (Agent × List (Nat × Nat × Nat × Bool)) :=
  let k := coreOf s c
  let im := fun (r : Reg) => dVal k e r
  let own := fun (rs : List (Nat × Nat × Bool)) => rs.map fun r => (c, r)
  match st.effect with
  | .wld d1 patch t => [(.load 0, own (loadRanges (t == 0) (Desc.of (im d1)) (patch.map fun p => Desc.of (im p))))]
  | .pred _ d2 ctl => if bit ctl 23 then [(.select, own (selRange (Desc.of (im d2))))] else []
  | .sel _ _ ctl =>
    let w := (Desc.of (im (wslotOf ctl))).spadRange false
    [(.load 1, own [(w.1, w.2, false)])]
  | .isect d1 d2 _ => [(.isect, own (isectRanges (Desc.of (im d1)) (Desc.of (im d2))))]
  | .drain d1 d2 ctl _ =>
    let par := if dUsesPar ctl then (spadRd s c).bytes (dPar ctl) 576 else []
    [(.drain, own (drainRanges ctl (im d1) (im d2) par))]
  | .qfetch _ d => [(.engine e, tensorRange s c (Desc.of (im d)) false)]
  | .qstore _ d => [(.engine e, tensorRange s c (Desc.of (im d)) true)]
  | _ => []

/-- The ranges that a slot compares with the scoreboard at issue without registering them: the whole activation range of a
pass (R135), the selection record that `mma.sel` reads (R142, R143). -/
def comparedRanges (k : Core) (e : Engine) (st : Staged) : List (Nat × Nat) :=
  let im := fun (r : Reg) => (Desc.of (dVal k e r)).spadRange false
  match st.effect with
  | .pass _ d1 _ => [im d1]
  | .pred d1 _ _ => [im d1]
  | .sel d1 d2 _ => [im d1, im d2]
  | _ => []

/-! ### Checks at issue (Table 1.6) -/

/-- Whether a register still has a result on its way at time n (R30). -/
def pendingAt (g : Eng) (n : Nat) (r : RegName) : Bool := g.pend.any fun p => p.name = r && decide (n < p.ready)

/-- The number of a register, for a record. -/
def regNo : RegName → Nat
  | .x r => r.val
  | .v r => r.val
  | .p r => r.val
  | .d r => r.val

/-- The register that a `mov.` instruction's channel stands in. -/
def chanNo (s : State) (c : Nat) (xa : W64) : Nat := let _ := s; clusterOf c * 128 + bits xa 6 0

/-- The queue faults of R21, R23 and R35 for a slot that takes `n` entries (`push`: places them) in queue q. -/
def queueFlts (k : Core) (e : Engine) (q : Fin 16) (n : Nat) (push : Bool) (chk : Bool) (pc : W64) : List Flt :=
  let len := (queueAt k q).length
  let f := fun (sub : Nat) => ({ cls := 7, sub := sub, addr := pc, w1 := BitVec.ofNat 64 q.val, w2 := BitVec.ofNat 64 len
                                 w3 := BitVec.ofNat 64 n } : Flt)
  let ok := match queueEnds k q with
    | some (p, c) => if push then p == e else c == e
    | none => false
  faultIf (!ok) (f 1)
  ++ (if push then faultIf (chk && decide (64 < len + n)) (f 4) else faultIf (chk && decide (len < n)) (f 3))

/-- The credit class of a command to a unit (R60). -/
def creditClass : Effect → Option Nat
  | .turn _ _ _ _ => some 0
  | .chain _ _ _ ctl _ => some (if bit ctl 63 then 4 else 1)
  | .herd _ _ _ _ => some 2
  | .kiln _ _ _ => some 3
  | _ => none

/-- The tally faults of a local signal or wait that names tally t (R288). -/
def tallyFlt (s : State) (c : Nat) (t : BitVec 12) (pc : W64) : List Flt :=
  faultIf (translate s c t).isNone { cls := 8, sub := 6, addr := pc, w1 := BitVec.ofNat 64 t.toNat }

/-- The conditions of R291 on a counted signal of an engine. -/
def rsigFlts (s : State) (e : Engine) (a b pc : W64) : List Flt :=
  let l := bits a 47 0
  faultIf (!devOk s (bits a 63 48)) { cls := 2, sub := 6, addr := a, w1 := 8, w2 := noIndex }
  ++ faultIf (decide (l < 0x300080000000 ∨ 0x30009FFFFFF8 < l) || l % 8 != 0 || bits b 63 48 != 0
      || (e != .store && bits b 47 0 != 0)) { cls := 8, sub := 0xA, addr := pc, w1 := a, w3 := b }

/-- Whether a `twait` of an engine is yielding (R225). -/
def yields (k : Core) (e : Engine) (target : W64) : Bool := scheduled k e && bit target 63

/-- The checks that belong to the effect of a slot. `chk`: conditions that interlocked engines wait for are faults. -/
def effectFlts (s : State) (c : Nat) (e : Engine) (chk : Bool) (n : Nat) (pc : W64) (st : Staged) : List Flt :=
  let k := coreOf s c
  let g := engOf k e
  let im := fun (r : Reg) => dVal k e r
  let sched := fun (sub : Nat) => schedFlt sub pc
  let credit := match creditClass st.effect with
    | some cl => faultIf (chk && creditsLeft k cl == 0) { cls := 7, sub := 5, addr := pc, w1 := noIndex, w3 := 1 }
    | none => []
  let busy := fun (xa : W64) => movFlts s c xa ++ faultIf (chk && (movFlts s c xa).isEmpty && !chanFree (chanOf s (chanNo s c xa)))
      { cls := 7, sub := 6, addr := pc, w1 := xa }
  credit ++ match st.effect with
  | .jump _ _ => faultIf g.delay.isSome (sched 0xA)
  | .notTaken => faultIf g.delay.isSome (sched 0xA)
  | .csrr _ off => faultIf (off < 0 || (coreReg s c off.toNat).isNone) { cls := 2, sub := 8, addr := BitVec.ofInt 64 off, w1 := 8, w2 := noIndex }
  | .qwait q m =>
    if m = 0 ∨ 64 < m then [{ cls := 7, sub := 2, addr := pc, w1 := BitVec.ofNat 64 q.val, w2 := BitVec.ofNat 64 (queueAt k q).length, w3 := BitVec.ofNat 64 m }]
    else match queueEnds k q with
      | some (p, cn) => faultIf (p != e && cn != e) { cls := 7, sub := 1, addr := pc, w1 := BitVec.ofNat 64 q.val }
      | none => [{ cls := 7, sub := 1, addr := pc, w1 := BitVec.ofNat 64 q.val }]
  | .qpop q _ => queueFlts k e q 16 false chk pc
  | .qpush q _ => queueFlts k e q 16 true chk pc
  | .qfetch q d => queueFlts k e q 0 true chk pc ++ (Desc.of (im d)).check s c {} (Desc.of (im d)).place
  | .qstore q d => queueFlts k e q 0 false chk pc ++ (Desc.of (im d)).check s c { write := true } (Desc.of (im d)).place
  | .qdrain q _ m =>
    if m = 0 ∨ 64 < m then [{ cls := 7, sub := 2, addr := pc, w1 := BitVec.ofNat 64 q.val, w2 := BitVec.ofNat 64 (queueAt k q).length, w3 := BitVec.ofNat 64 m }]
    else queueFlts k e q m false chk pc
  | .twait t x => tallyFlt s c t pc ++ faultIf (yields k e x && k.unswapped) (sched 0x11)
  | .tsig t m bad => tallyFlt s c t pc ++ faultIf bad { cls := 8, sub := 4, addr := pc, w1 := BitVec.ofNat 64 t.toNat, w3 := BitVec.ofNat 64 m }
  | .tsigR a b => rsigFlts s e a b pc
  | .trd _ t => tallyFlt s c t pc
      ++ (match translate s c t with
          | some p => faultIf (p / 4096 != clusterOf c) { cls := 8, sub := 0xB, addr := pc, w1 := BitVec.ofNat 64 t.toNat }
          | none => [])
  | .farr t f => farrFlts s c t f pc
  | .wld d1 patch t => wldFlts s c n d1 (im d1) (patch.map im) t pc
  | .pass op d1 ctl => passFlts s c n op (im d1) ctl pc
  | .pred d1 d2 ctl => passFlts s c n 0x29 (im d1) ctl pc ++ (if bit ctl 23 then recordFlts (Desc.of (im d2)) k else [])
  | .sel d1 d2 ctl => selFlts s c n (im d1) (im d2) (im (wslotOf ctl)) ctl pc
  | .isect d1 d2 ctl => isectFlts s c n (im d1) (im d2) ctl pc
  | .drain d1 d2 ctl t => drainFlts s c n (im d1) (im d2) d1 d2 ctl t false pc
  | .accrd _ set x => accrdFlts s c n set x pc
  | .accclr set => accclrFlts s c n set pc
  | .chain _ _ _ ctl _ => faultIf (bits ctl 62 53 != 0 || bits ctl 29 0 != 0) (sched 0xB)
  | .movGo a _ => busy a
  | .movRing a _ => busy a
  | .movAbort a => movFlts s c a
  | _ => []

/-- Whether a slot holds a divide or remainder (Table 2.4). -/
def isDivide (st : Staged) : Bool := st.place == 0 && decide (0x0D ≤ st.opcode ∧ st.opcode ≤ 0x10)

/-- The descriptor slots that a slot of a bundle names. -/
def descNames (st : Staged) : List Reg :=
  (st.reads ++ st.dest.toList).filterMap fun r => match r with | .d q => some q | _ => none

/-- The checks of one slot: encoding, slot, ownership, availability, readiness, occupancy, alignment, windows, and those
of its effect. -/
def slotFlts (s : State) (c : Nat) (e : Engine) (chk : Bool) (n : Nat) (pc : W64) (st : Staged) : List Flt :=
  let k := coreOf s c
  let g := engOf k e
  let f := fun (sub reg : Nat) => schedFlt sub pc (BitVec.ofNat 64 reg)
  let badDesc := (descNames st).find? fun r => slotOwner k r != some e
  (match st.reads.find? (pendingAt g n) with | some r => faultIf chk (f 1 (regNo r)) | none => [])
  ++ (match st.dest with | some r => faultIf (chk && pendingAt g n r) (f 2 (regNo r)) | none => [])
  ++ faultIf (chk && isDivide st && decide (n < g.divUntil)) (schedFlt 3 pc)
  ++ faultIf (e != .compute && st.place == 1 && st.opcode != 0) (schedFlt 4 pc)
  ++ (match badDesc with | some r => [f 5 r.val] | none => [])
  ++ faultIf (st.badEnc || st.slot.rsv != 0 || (!interlocked k && st.slot.kind != 2) || (interlocked k && st.newT2)) (schedFlt 7 pc)
  ++ (match st.badFmt with
      | some m => [({ cls := 0xB, sub := 9, addr := 0, w1 := noIndex, w2 := BitVec.ofNat 64 m } : Flt)]
      | none => [])
  ++ faultIf (match st.only with | some o => o != e | none => false) (schedFlt 9 pc)
  ++ (match accessOf st with
      | some (off, len, _, al) =>
        (spadFlt k off len).toList
        ++ faultIf (off % (al : Int) != 0) { cls := 3, sub := (match st.effect with | .dld _ _ => 4 | _ => 3), addr := BitVec.ofInt 64 off, w1 := BitVec.ofNat 64 al }
      | none => [])
  ++ (effectFlts s c e chk n pc st)

/-- Whether two slots of a bundle name one destination (R32); x0 and p0 have no pending write (R49). -/
def sameDest (b : List Staged) : Option RegName :=
  let ds := b.filterMap fun st => match st.dest with
    | some (.x r) => if r = 0 then none else some (RegName.x r)
    | some (.p r) => if r = 0 then none else some (RegName.p r)
    | d => d
  ds.find? fun d => decide (2 ≤ (ds.filter fun q => q = d).length)

/-- Whether two scratchpad accesses of a bundle conflict (R47). -/
def conflicts : List (Int × Nat × Bool × Nat) → Bool
  | (a, n, w, _) :: t => (t.any fun q => (w || q.2.2.1) && decide (a < q.1 + q.2.1 ∧ q.1 < a + n)) || conflicts t
  | [] => false

/-- The words of a schedule record: issue index (of the compute engine alone, R27), slot, mode (Table 21.3).
DEDUCED, log entry 46. -/
def scheduleWords (k : Core) (e : Engine) (place : Nat) (f : Flt) : Flt :=
  if f.cls = 1 then
    { f with w1 := if e = .compute then BitVec.ofNat 64 k.ce.idx else noIndex, w2 := BitVec.ofNat 64 (place + if interlocked k then 4 else 0) }
  else f

/-- Every condition a bundle meets at issue. DEDUCED, log entry 26. -/
def bundleFlts (s : State) (c : Nat) (e : Engine) (chk : Bool) (n : Nat) (b : List Staged) : List Flt :=
  let k := coreOf s c
  let g := engOf k e
  let pc := BitVec.ofInt 64 g.pc
  let f := fun (sub : Nat) (what : W64) => scheduleWords k e 0 (schedFlt sub pc what)
  (b.map fun st => (slotFlts s c e chk n pc st).map (scheduleWords k e st.place.val)).flatten
  ++ faultIf (conflicts (accessesOf b)) (f 8 noIndex)
  ++ (match sameDest b with | some r => [f 0x12 (BitVec.ofNat 64 (regNo r))] | none => [])
  ++ faultIf (g.pc < 0 || (k.bundles : Int) ≤ g.pc) (f 0x13 noIndex)

/-! ### Waits (Tables 1.2 and 1.4, R60, R84) -/

/-- The state in which core c runs in scheduled mode: its checks name what interlocked mode waits for. -/
def asScheduled (s : State) (c : Nat) : State :=
  modCore s c fun k => { k with coreMode := setBits k.coreMode 1 0 0 }

/-- What an interlocked engine waits for: the target of a taken branch (R65), registers, units, queues, credits. DEDUCED, log entry 46. -/
def interlockWait (s : State) (c : Nat) (e : Engine) (n : Nat) (b : List Staged) : Option WaitCause :=
  let fs := (b.map fun st => slotFlts (asScheduled s c) c e true n 0 st).flatten
  let g := engOf (coreOf s c) e
  if interlocked (coreOf s c) && g.delay.isNone && decide (n < g.target) then some .interlock
  else if fs.any fun f => (f.cls == 1 && (f.sub == 1 || f.sub == 2 || f.sub == 3 || f.sub == 0xD)) || (f.cls == 7 && (f.sub == 3 || f.sub == 4 || f.sub == 6))
  then some .interlock
  else if fs.any fun f => f.cls == 7 && f.sub == 5 then some .credit
  else none

/-- The wait of a bundle whose condition does not hold (R23, R33, R225, R227, R285). -/
def conditionWait (s : State) (c : Nat) (e : Engine) (b : List Staged) : Option WaitCause :=
  let k := coreOf s c
  (b.filterMap fun st => match st.effect with
    | .qwait q n =>
      let len := (queueAt k q).length
      let met := match queueEnds k q with
        | some (p, _) => if p = e then decide (len + n ≤ 64) else decide (n ≤ len)
        | none => true
      if met then none else some WaitCause.queue
    | .twait t x =>
      let met := tallyMet s c t (BitVec.ofNat 64 (bits x 62 0))
      if yields k e x then (if met && !pieceRuns s c then none else some (.tally true))
      else if met then none else some (.tally false)
    | .bwait x => if x.toNat ≤ s.clock.beat then none else some .beat
    | _ => none).head?

/-- Whether the bytes of an access meet a range registered by a unit or a stream, one of the two writing (R84). -/
def accessHeld (k : Core) (lo n : Nat) (write : Bool) : Bool :=
  k.ranges.any fun r => decide (lo / 64 * 64 < r.hi ∧ r.lo < roundUp (lo + n) 64) && (r.write || write)

/-- Whether the scoreboard holds a bundle: an access, or a range read at issue, over a registered range, or a range of a unit
that cannot be registered yet (R84, R86, R135). -/
def rangeWait (s : State) (c : Nat) (e : Engine) (b : List Staged) : Bool :=
  let k := coreOf s c
  ((accessesOf b).any fun a => accessHeld k a.1.toNat a.2.1 a.2.2.1)
  || (b.any fun st => (comparedRanges k e st).any fun r => r.2 != 0 && accessHeld k r.1 r.2 false)
  || b.any fun st => (unitRanges s c e st).any fun r => !canRegisterMany s c r.1 r.2

/-- The registrations of a held bundle take their place among those that wait (R84). -/
def queueRanges (s : State) (c : Nat) (e : Engine) (b : List Staged) : State :=
  (b.map fun st => unitRanges s c e st).flatten.foldl (fun s r => queueMany s c r.1 r.2) s

/-- The bank ports a bundle needs (R67, R134). -/
def bundlePorts (s : State) (c : Nat) (e : Engine) (n : Nat) (b : List Staged) : List (Nat × Bool) :=
  let k := coreOf s c
  ((accessesOf b).map fun a => portsOf k a.1.toNat a.2.1 a.2.2.1).flatten
  ++ (if e = .compute then ((rowSpans k n b).map fun r => linesOf r.1 r.2).flatten.dedup.map fun l => (bankOf k l, false) else [])

/-- Whether the fetch engine stands at a full queue (R38). DEDUCED, log entry 47. -/
def streamBlocked (k : Core) (e : Engine) : Bool :=
  e == .fetch && (match k.fe.streams with
    | .move m :: _ => decide (64 ≤ (queueAt k m.q).length)
    | _ => false)

/-- What holds a bundle that passed its checks, in the order in which it is found; `served` cycles of its lines have been
served already (R69). -/
def bundleWait (s : State) (c : Nat) (e : Engine) (n served : Nat) (b : List Staged) : Option WaitCause :=
  match conditionWait s c e b with
  | some w => some w
  | none =>
    if streamBlocked (coreOf s c) e then some .queue
    else if rangeWait s c e b then some .range
    else
      let ps := bundlePorts s c e n b
      if (portRound served ps).any (portTaken (coreOf s c) s.clock.cycle (.engine e)) || decide (served + 1 < maxOnPort ps) then some .bank
      else none

/-! ### Effects (R47) -/

/-- Write own scratchpad for an engine: the compute engine's stores become visible later (R68); the store engine's bytes
count in its stream (R293). -/
def engineStore (s : State) (c : Nat) (e : Engine) (off : Nat) (bs : List Byte) : State :=
  match e with
  | .compute => modCore s c fun k => { k with stores := k.stores ++ [⟨off, bs, s.clock.cycle⟩] }
  | .fetch => spadWrite s c (.engine .fetch) off bs
  | .store => creditStream (spadWrite s c (.engine .store) off bs) s.fabric.devaddr.toNat c bs.length

/-- The reader of own scratchpad for an engine. -/
def engineRd (s : State) (c : Nat) (e : Engine) : Rd := if e = .compute then ownRd s c else bankRd s c (.engine e)

/-- Append to an engine's stream. -/
def enqueueStream (s : State) (c : Nat) (e : Engine) (i : StreamItem) : State :=
  modEng s c e fun g => { g with streams := g.streams ++ [i] }

/-- The lanes of 16 queue entries (R58). -/
def entryLanes (es : List (List Byte)) : List (Nat × W32) :=
  let bs := (es.map (padTo 64)).flatten
  (List.range 256).map fun i => (i, BitVec.ofNat 32 (numAt bs (4 * i) 4))

/-- The 256 lanes in a kilobyte. -/
def byteLanes (bs : List Byte) : List (Nat × W32) := (List.range 256).map fun i => (i, BitVec.ofNat 32 (numAt bs (4 * i) 4))

/-- The effect of a slot at time n, and the register write that it sends on its way. -/
def runEffect (s : State) (c : Nat) (e : Engine) (n : Nat) (st : Staged) : State × Option RegWrite :=
  let k := coreOf s c
  let g := engOf k e
  let im := fun (r : Reg) => dVal k e r
  match st.effect with
  | .nop => (s, none)
  | .notTaken => (s, none)
  | .write w => (s, some w)
  | .jump _ link => (s, link.map fun l => .x l.1 l.2)
  | .stop => (modEng s c e fun g => { g with run := .stopped }, none)
  | .load rd off m => (s, some (.x rd (BitVec.ofNat 64 ((engineRd s c e).num off.toNat m))))
  | .store off bs => (engineStore s c e off.toNat bs, none)
  | .csrr rd off => (modCore s c fun k => coreRegRead k off.toNat, some (.x rd ((coreReg s c off.toNat).getD 0)))
  | .qwait _ _ => (s, none)
  | .qpop q vd =>
    let es := queueAt k q
    (modCore s c fun k => setQueue k q (es.drop 16), some (.v vd (entryLanes (es.take 16))))
  | .qpush q bs => (modCore s c fun k => setQueue k q (queueAt k q ++ chunks 64 bs), none)
  | .qfetch q d =>
    let s := registerMany s c (.engine e) (tensorRange s c (Desc.of (im d)) false)
    (pumpFetch (enqueueStream (cacheStart s c (Desc.of (im d))) c e (.move { q := q, image := im d })) c, none)
  | .qstore q d =>
    let s := registerMany s c (.engine e) (tensorRange s c (Desc.of (im d)) true)
    (enqueueStream s c e (.move { q := q, image := im d }), none)
  | .qdrain q off m =>
    let es := queueAt k q
    let s := modCore s c fun k => setQueue k q (es.drop m)
    (engineStore s c e off.toNat ((es.take m).map (padTo 64)).flatten, none)
  | .vld vd off => (s, some (.v vd (byteLanes ((engineRd s c e).bytes off.toNat 1024))))
  | .dld d off => (s, some (.d d ((engineRd s c e).bytes off.toNat 128)))
  | .dbase d base => (s, some (.d d (patchBytes (im d) 0 (leBytes 8 base.toNat))))
  | .twait t x =>
    let s := if e = .compute then modCore s c fun k => waitedChains k t else s
    (if yields k e x then modCore s c fun k => { k with voided := true } else s, none)
  | .tsig t m _ =>
    if e = .store ∧ (!g.streams.isEmpty ∨ !storesDone s c) then (enqueueStream s c e (.signal t m g.pc), none)
    else match translate s c t with
      | some p => (signalTally s c e g.pc p m t, none)
      | none => (s, none)
  | .tsigR a b =>
    if e = .store ∧ (!g.streams.isEmpty ∨ !storesDone s c) then (enqueueStream s c e (.remote a b g.pc), none)
    else (sendCounted s c e g.pc a b, none)
  | .trd rd t => (s, some (.x rd (BitVec.ofNat 64 (((translate s c t).map (tallyAt s)).getD 0))))
  | .farr t f => (arrive s c e g.pc t f, none)
  | .bwait _ => (s, none)
  | .brd rd => (s, some (.x rd (beatW s)))
  | .wld d1 patch t => (startLoad s c n (im d1) (patch.map im) t, none)
  | .pass op d1 ctl => (startPass s c n op (im d1) none ctl, none)
  | .pred d1 d2 ctl => (startPass s c n 0x29 (im d1) (if bit ctl 23 then some (im d2) else none) ctl, none)
  | .sel d1 d2 ctl => (startSel s c n (im d1) (im d2) (im (wslotOf ctl)) ctl, none)
  | .isect d1 d2 ctl => (startIsect s c n (im d1) (im d2) ctl, none)
  | .drain d1 d2 ctl t => (startDrain s c n (im d1) (im d2) ctl t none, none)
  | .accrd vd set x => (s, some (.v vd (accrdLanes k set x.toNat)))
  | .accclr set => (modCore s c fun k => clearSet k set, none)
  | .turn d1 d2 ctl t => (turnIssue s c (im d1) (im d2) ctl t, none)
  | .movGo a b => (goChan s (chanNo s c a) b, none)
  | .movRing a b => (bindRing s (chanNo s c a) b, none)
  | .movAbort a => (abortChan s (chanNo s c a) 1, none)
  | .chain d1 d2 d3 ctl t => (chainIssue s c (im d1) (im d2) (im d3) d3.val ctl t, none)
  | .herd op d1 ctl t => (herdIssue s c op (im d1) ctl t, none)
  | .kiln op off t => (kilnIssue s c op e off t, none)

/-- The register a write goes to; none for x0 and p0, whose writes are discarded (R49). -/
def writeName : RegWrite → Option RegName
  | .x r _ => if r = 0 then none else some (.x r)
  | .v r _ => some (.v r)
  | .p r _ => if r = 0 then none else some (.p r)
  | .d r _ => some (.d r)

/-- A result goes on its way: readable `lat` later (R28). -/
def addPend (s : State) (c : Nat) (e : Engine) (n lat : Nat) (w : RegWrite) : State :=
  match writeName w with
  | none => s
  | some r => modEng s c e fun g => { g with pend := g.pend ++ [{ name := r, ready := n + lat, write := w }] }

/-- One slot takes effect. -/
def runSlotEffect (s : State) (c : Nat) (e : Engine) (n : Nat) (st : Staged) : State :=
  match runEffect s c e n st with
  | (s, none) => s
  | (s, some w) => addPend s c e n st.lat w

/-- The slots of a bundle take effect in order. -/
def runSlots (c : Nat) (e : Engine) (n : Nat) : List Staged → State → State
  | [], s => s
  | st :: t, s => runSlots c e n t (runSlotEffect s c e n st)

/-- The target of a bundle's taken branch or jump. -/
def jumpOf (b : List Staged) : Option Int :=
  (b.filterMap fun st => match st.effect with | .jump t _ => some t | _ => none).head?

/-- The engine moves to its next bundle: after a taken branch its delay issue, then the target (R53), in interlocked mode three
cycles after the branch (R65, Table 1.3). -/
def nextBundle (b : List Staged) (n : Nat) (g : Eng) : Eng :=
  { g with idx := g.idx + 1
           pc := match g.delay with | some t => t | none => g.pc + 1
           delay := match g.delay with | some _ => none | none => jumpOf b
           target := if g.delay.isNone ∧ (jumpOf b).isSome then n + 3 else g.target
           divUntil := if b.any isDivide then n + 18 else g.divUntil }

/-- The cycles of a bundle's lines that have been served while it was held (R69). -/
def servedOf : Option Held → Nat
  | some h => if h.cause = .bank then h.served else 0
  | none => 0

/-- A bundle that passed its checks and is not held issues at time n: the ports of its last lines, its effects, the rows it
brings to the array, the next bundle; the core reports when it was its last `stop` (R47, R67, R69, R134, R379). DEDUCED, log entry 26. DEDUCED, log entry 46. -/
def completeBundle (s : State) (c : Nat) (e : Engine) (n served : Nat) (b : List Staged) : State :=
  let s0 := s
  let s := modCore s c fun k => claim k s.clock.cycle (.engine e) (portRound served (bundlePorts s c e n b))
  let s := runSlots c e n b s
  let s := if e = .compute then readRows s c n else s
  let s := modEng s c e (nextBundle b n)
  if b.any fun st => st.effect = .stop then reportStopped s0 s s (ctxOf (coreOf s c)) else s

/-- A bundle that the banks hold: refused, it asks again in the next cycle; else the lines of this cycle are served and it
waits for those of the next (R67, R69). Answers the state and the cycles served so far. -/
def bankTurn (s : State) (c : Nat) (e : Engine) (n served : Nat) (b : List Staged) : Nat × State :=
  let r := askPorts s c (.engine e) (portRound served (bundlePorts s c e n b))
  (if r.1 then served + 1 else served, r.2)

/-- The bundle waits: since when is kept while the cause stays the same (R33, R375). -/
def holdBundle (s : State) (c : Nat) (e : Engine) (w : WaitCause) (b : List Staged) (old : Option Held) (served : Nat := 0) : State :=
  let since := match old with
    | some h => if h.cause = w then h.since else s.clock.beat
    | none => s.clock.beat
  modEng s c e fun g => { g with held := some { cause := w, bundle := b, since := since, cyc := s.clock.cycle, served := served } }

/-- A bundle waits for what holds it: at the banks, or among the registrations that wait (R69, R84). -/
def waitBundle (s : State) (c : Nat) (e : Engine) (n : Nat) (w : WaitCause) (b : List Staged) (old : Option Held) : State :=
  if w = .bank then
    let r := bankTurn s c e n (servedOf old) b
    holdBundle r.2 c e w b old r.1
  else if w = .range then holdBundle (queueRanges s c e b) c e w b old
  else holdBundle s c e w b old

/-- What is due in the array by time n: drain slots whose reads come before it, then result rows that have become readable: a
row that lands in the issue of a drain's read is not seen by it (R127, R197, R204). -/
def arrayDue (s : State) (c : Nat) (n : Nat) : State :=
  let fuel := (coreOf s c).drains.foldl (fun a d => a + d.costs.length + 1) 1
  modCore (drainDue fuel s c n) c fun k => landRows k n s.clock.cycle

/-- What is due by time n happens before the bundle is looked at: loads that have become swappable, the array's work, results
that have become readable (R28, R127, R131, R204). -/
def bringDue (s : State) (c : Nat) (e : Engine) (n : Nat) : State :=
  let s := if e = .compute then arrayDue (matureLoad s c n) c n else s
  modCore s c fun k => settle k e n

/-- Issue a bundle, hold it, or stop the core on what its checks find (R33, R41). A fault found earlier in a unit stops
the core here (R41). DEDUCED, log entry 46. -/
def issueBundle (s : State) (c : Nat) (e : Engine) (b : List Staged) (old : Option Held) : State :=
  if (coreOf s c).stopNext then stopCore s c
  else
    let n := engTime s (coreOf s c) e
    let s := bringDue s c e n
    if (coreOf s c).stopNext then stopCore s c
    else
      let chk := scheduled (coreOf s c) e
      match (if chk then none else interlockWait s c e n b) with
      | some w => holdBundle s c e w b old
      | none =>
        match lowest (bundleFlts s c e chk n b) with
        | some f => coreFault s c (f.toRec (engKind e))
        | none =>
          match bundleWait s c e n (servedOf old) b with
          | some w => waitBundle s c e n w b old
          | none => completeBundle s c e n (servedOf old) b

/-- Whether an engine takes a slot: it runs, holds no bundle, and the slot follows those of its bundle in order. DEDUCED, log entry 26. -/
def takes (k : Core) (st : Staged) : Bool :=
  let g := engOf k st.slot.eng
  !k.faulted && g.run == .running && g.held.isNone && g.staged.all fun q => decide (q.place.val < st.place.val)

/-- The opcodes of the S, V and T slots that have an instruction (Tables 2.4 to 2.9). -/
def definedOpcodes (place : Fin 3) : List Nat :=
  if place = 0 then
    (List.range 0x12) ++ [0x13, 0x14, 0x15, 0x16, 0x17, 0x18, 0x19, 0x1E, 0x1F] ++ (List.range 8).map (0x20 + ·)
      ++ [0x30, 0x31, 0x32, 0x33, 0x38, 0x3E]
  else if place = 1 then
    (List.range 9) ++ [0x11, 0x13, 0x14, 0x15, 0x16, 0x20, 0x21, 0x22, 0x28, 0x29, 0x2A, 0x30, 0x31, 0x38]
      ++ (List.range 5).map (0x3C + ·)
  else
    (List.range 7) ++ [0x08, 0x09, 0x0C, 0x0D, 0x10, 0x11, 0x12, 0x13, 0x14, 0x15, 0x18, 0x19, 0x20, 0x21]
      ++ (List.range 7).map (0x24 + ·) ++ [0x2C, 0x2D, 0x2E, 0x30, 0x34, 0x35, 0x36, 0x40, 0x48, 0x49, 0x4A, 0x4B]
      ++ (List.range 7).map (0x50 + ·)

/-- A slot as its opcode bits say: the command's instruction, a no-op (R47), or an opcode that no instruction of the slot
has (R46). -/
def Staged.encoded (st : Staged) : Staged :=
  match st.slot.opc with
  | none => st
  | some o =>
    if o = 0 then { place := st.place, slot := st.slot, opcode := 0, effect := .nop }
    else if o.toNat ∈ definedOpcodes st.place then st
    else { place := st.place, slot := st.slot, opcode := o.toNat, badEnc := true, effect := .nop }

/-- A slot reaches its engine: it waits for the rest of its bundle, or the bundle comes to issue. DEDUCED, log entry 26. -/
def offer (s : State) (st0 : Staged) : State :=
  let st := st0.encoded
  let c := st.slot.core.val
  let e := st.slot.eng
  if !takes (coreOf s c) st then s
  else if st.slot.more then modEng s c e fun g => { g with staged := g.staged ++ [st] }
  else
    let b := (engOf (coreOf s c) e).staged ++ [st]
    issueBundle (modEng s c e fun g => { g with staged := [] }) c e b none

/-- A held bundle comes to issue again. DEDUCED, log entry 60. -/
def retryHeld (s : State) (c : Nat) (e : Engine) : State :=
  match (engOf (coreOf s c) e).held with
  | none => s
  | some h => issueBundle (modEng s c e fun g => { g with held := none }) c e h.bundle (some h)

/-- A held bundle of a given cause comes to issue again. -/
def retryIf (p : WaitCause → Bool) (s : State) (c : Nat) (e : Engine) : State :=
  match (engOf (coreOf s c) e).held with
  | none => s
  | some h => if p h.cause then retryHeld s c e else s

/-- Every engine of a core tries again what `p` says. DEDUCED, log entry 60. -/
def retryCore (p : WaitCause → Bool) (s : State) (c : Nat) : State :=
  [Engine.compute, .fetch, .store].foldl (fun s e => retryIf p s c e) s

end Sys2Proof.Machine
end

