-- ==== Sys2Proof/Machine/Clock.lean ====
section
/-! DEFINITION. One cycle of the arithmetic clock: what the block does when no command waits (R27, R33, R67, R359; log
entry 1). -/

namespace Sys2Proof.Machine

open Sys2Proof

/-- The cycle and the beat after one more cycle: nominally one beat each microsecond, `rate` in units of 0.01 ppm (R361,
Table 15.8). DESIGN CHOICE, log entry 61. -/
def clockNext (k : Clock) (mhz : Nat) (rate : Int) : Clock :=
  let p := k.phase + (100000000 + rate).toNat
  if p < mhz * 100000000 then { k with cycle := k.cycle + 1, phase := p }
  else { cycle := k.cycle + 1, beat := k.beat + 1, phase := p - mhz * 100000000 }

/-- What a cycle counts on a core whose compute engine is held (Table 1.12). -/
def countHeld (k : Core) : Core :=
  match k.ce.held with
  | none => k
  | some h => match h.cause with
    | .queue => addWait k 1
    | .tally _ => addWait k 1
    | .beat => addWait k 1
    | .range => addHold k 1
    | .bank => addHold k 1
    | .interlock => k
    | .credit => k

/-- The ports of a core are free again, and its held cycle is counted. DEDUCED, log entry 60. -/
def tickCore (k : Core) : Core := countHeld (freePorts k)

/-- The rows that passes of an interlocked core read in this cycle, where the ports are granted; refused, they are read in the next
(R29, R67, R127, R134). -/
def rowsCycle (s : State) (c : Nat) : State :=
  let k := coreOf s c
  let n := s.clock.cycle
  let spans := if interlocked k then rowSpans k n [] else []
  if spans.isEmpty then s
  else match askPorts s c (.engine .compute) (spanPorts k spans false) with
    | (true, s) => readRows s c n
    | (false, s) => s

/-- What is due on a core in this cycle whatever it issues: stores that become visible, the relay entry of a chain's load, the
slots, drains and rows of chains, and on an interlocked core those of its program (R29, R68, R127, R131, R204). -/
def coreCycle (s : State) (c : Nat) : State :=
  let s := chainLoadEnd (showDue s c) c
  let n := if interlocked (coreOf s c) then s.clock.cycle else 0
  rowsCycle (arrayDue (if n = 0 then s else matureLoad s c n) c n) c

/-- One cycle of the arithmetic clock: the beat, the counters, what is due in every core, and the bundles that interlocks and
credits hold ask again (R29, R60). With `THERMTRIP#` low no clock runs (R458). DESIGN CHOICE, log entry 1. DESIGN CHOICE, log entry 61. -/
def tick (s : State) : State :=
  if s.power.therm then s
  else
    let s := { s with clock := clockNext s.clock s.power.clkMHz s.fabric.rate }
    let cs := s.cores.map (·.1)
    let s := cs.foldl (fun s c => coreCycle (modCore s c tickCore) c) s
    cs.foldl (fun s c => retryCore (fun w => w == .interlock || w == .credit) s c) s

end Sys2Proof.Machine
end

