-- ==== Sys2Proof/Machine/Memory.lean ====
section
/-! DEFINITION. The memory units of the two tiers: corrected errors and patrol scrub (R328, R330), calibration windows
(R334 to R336), and their register block (R337). -/

namespace Sys2Proof.Machine

open Sys2Proof

/-- Replace memory unit u. -/
def setUnit (s : State) (u : Nat) (m : MemUnit) : State := { s with units := mset {} s.units u m }
/-- Apply a change to memory unit u. -/
def modUnit (s : State) (u : Nat) (f : MemUnit → MemUnit) : State := setUnit s u (f (unitOf s u))

/-- The service kind and number under which a memory unit is drained: a stack, or the pair of a channel (R429). -/
def serviceOf (u : Nat) : Nat × Nat := if u < 8 then (1, u) else (2, (u - 8) / 2)

/-- Whether memory unit u is present and neither closing nor drained (R431). -/
def unitServes (s : State) (u : Nat) : Bool := (unitOf s u).present && !outOfService s (serviceOf u).1 (serviceOf u).2

/-! ### Patrol scrub (R330) -/

/-- The lines of a unit (R322 to R324). -/
def unitLineCount (s : State) (u : Nat) : Nat := if u < 8 then hbmRegion / 64 else (unitOf s u).capGiB * 2 ^ 30 / 64

/-- The place of a line among the lines of its unit, in ascending address. -/
def lineIndex (u line : Nat) : Nat :=
  if u < 8 then line % hbmRegion / 64
  else let o := (line - ddrBase) % pairRegion; o / 8192 * 64 + o % 4096 / 64

/-- Whether a line is among the `n` lines of unit u that a scrub from index `at_` reads, wrapping at the end. -/
def scrubs (s : State) (u at_ n line : Nat) : Bool :=
  let c := unitLineCount s u
  unitOfAddr s line == some u && c != 0 && decide ((lineIndex u line + c - at_ % c) % c < n)

/-- An uncorrectable line found by scrub: counted, told to the Cone, reported to the MC alone with subcode 0x04. -/
def scrubUncorr (s : State) (u line : Nat) : State :=
  let s := { s with secure := { s.secure with evUnc := s.secure.evUnc + 1 } }
  let s := modUnit s u fun m => { m with uncorr := satAdd 16 m.uncorr 1, eaddr := BitVec.ofNat 64 (line / 64 * 64 % 2 ^ 48) }
  reportMC s (.fault { uncorrRec s 0x0B 4 line 0 none with unit := u })

/-- The scrub of one beat: `SCRUB` lines and those carried over; corrected lines are written back, uncorrectable ones left. -/
def scrubBeat (s : State) (u : Nat) : State :=
  let m := unitOf s u
  let n := m.carried + m.scrub.toNat
  let bad := s.badLines.filter (scrubs s u m.scrubAt n)
  let soft := s.softLines.filter (scrubs s u m.scrubAt n)
  let s := soft.foldl countCorrected s
  let s := { s with softLines := s.softLines.filter fun l => decide (l ∉ soft) }
  let s := bad.foldl (fun s l => scrubUncorr s u l) s
  modUnit s u fun m => { m with scrubAt := (m.scrubAt + n) % Max.max 1 (unitLineCount s u), carried := 0, lastScrub := s.clock.beat }

/-- Whether this beat's scrub of unit u is still to come. DEDUCED, log entry 49. -/
def scrubDue (s : State) (u : Nat) : Bool :=
  let m := unitOf s u
  m.present && m.scrub != 0 && decide (m.lastScrub < s.clock.beat)

/-- `PATROL_SCRUB` (R330, R334): the lines of a beat that falls in a window are carried over. DEDUCED, log entry 49. -/
def execPatrolScrub (u : Fin 20) (s : State) : Out State :=
  if !scrubDue s u.val then .next s
  else if (unitOf s u.val).cal then
    .next (modUnit s u.val fun m => { m with carried := m.carried + m.scrub.toNat, lastScrub := s.clock.beat })
  else .next (scrubBeat s u.val)

/-! ### Calibration windows (R334 to R336) -/

/-- The units of u's tier: the stacks, or the channels. -/
def tierOf (u : Nat) : List Nat := if u < 8 then List.range 8 else (List.range 12).map (· + 8)

/-- Whether a unit of u's tier is in a window. -/
def tierBusy (s : State) (u : Nat) : Bool := (tierOf u).any fun v => (unitOf s v).cal

/-- The beat at which the last window of u's tier closed. -/
def tierLast (s : State) (u : Nat) : Nat := (tierOf u).foldl (fun a v => Max.max a (unitOf s v).lastCal) 0

/-- Whether a window of unit u has fallen due. DEDUCED, log entry 49. -/
def windowDue (s : State) (u : Nat) : Bool :=
  let m := unitOf s u
  unitServes s u && m.period != 0 && !m.cal && decide (m.caln.toNat ≤ s.clock.beat)

/-- Whether unit u's window is to be forced: none has run for 16 × `LIMIT` beats (R336). -/
def forcedDue (s : State) (u : Nat) : Bool :=
  let m := unitOf s u
  unitServes s u && m.limit != 0 && !m.cal && decide (m.lastCal + 16 * m.limit.toNat ≤ s.clock.beat)

/-- Whether unit u is the first of its tier in turn: no window of the tier runs, and no lower unit is due (R335). -/
def firstDue (s : State) (u : Nat) : Bool :=
  !tierBusy s u && (tierOf u).all fun v => decide (u ≤ v) || !(windowDue s v || forcedDue s v)

/-- Whether unit u's window opens now: it is the first in turn, and a later one of several that fell due together waits for the beat
after the previous one closed. -/
def windowOpens (s : State) (u : Nat) : Bool :=
  windowDue s u && firstDue s u && (!(unitOf s u).dueLate || decide (tierLast s u < s.clock.beat))

/-- A window opens; `late`: it is counted in `LATE`. -/
def openWindow (m : MemUnit) (late : Bool) : MemUnit :=
  { m with cal := true, dueLate := false, late := if late then satAdd 16 m.late 1 else m.late }

/-- `CAL_WINDOW_OPEN` (R334, R335). -/
def execCalWindowOpen (u : Fin 20) (s : State) : Out State :=
  if windowOpens s u.val then
    .next (modUnit s u.val fun m => { openWindow m m.dueLate with caln := m.caln + m.period.setWidth 64 })
  else .next s

/-- `CAL_WINDOW_CLOSE` (R334): the units of the tier that fell due meanwhile run later. -/
def execCalWindowClose (u : Fin 20) (s : State) : Out State :=
  if (unitOf s u.val).cal then
    let s := modUnit s u.val fun m => { m with cal := false, lastCal := s.clock.beat }
    .next ((tierOf u.val).foldl (fun s v =>
      if v != u.val && windowDue s v then modUnit s v fun m => { m with dueLate := true } else s) s)
  else .next s

/-- `CAL_WINDOW_FORCED` (R335, R336): a forced window too takes its turn in its tier, and opens no sooner than the beat after another
closed. DEDUCED, log entry 49. -/
def execCalWindowForced (u : Fin 20) (s : State) : Out State :=
  if forcedDue s u.val && firstDue s u.val && decide (tierLast s u.val < s.clock.beat) then
    .next (modUnit s u.val fun m => openWindow m true)
  else .next s

/-! ### Registers (Tables 14.3 to 14.6) -/

/-- The register of a memory unit at byte offset `off`. -/
def memReg (m : MemUnit) (off : Nat) : Option W64 :=
  if off = 0 then
    some (BitVec.ofNat 64 ((if m.present then 2 ^ 63 else 0) + (if m.cal then 2 ^ 62 else 0) + m.region * 2 ^ 48
      + m.capGiB * 2 ^ 32 + m.scrub.toNat))
  else if off = 8 then some (BitVec.ofNat 64 (m.uncorr * 2 ^ 32 + m.corr))
  else if off = 0x10 then some m.eaddr
  else if off = 0x18 then some m.caln
  else if off = 0x20 then some (BitVec.ofNat 64 (m.late * 2 ^ 48 + m.limit.toNat * 2 ^ 32 + m.period.toNat))
  else none

/-- What a read of that register leaves: `MEM_ERR` and `LATE` are cleared. -/
def memRegRead (m : MemUnit) (off : Nat) : MemUnit :=
  if off = 8 then { m with uncorr := 0, corr := 0 }
  else if off = 0x20 then { m with late := 0 }
  else m

/-- A write of that register. -/
def memRegWrite (m : MemUnit) (off : Nat) (v : W64) : MemUnit :=
  if off = 0 then { m with scrub := v.setWidth 16 }
  else if off = 0x18 then { m with caln := v }
  else if off = 0x20 then { m with limit := BitVec.ofNat 16 (bits v 47 32), period := v.setWidth 32 }
  else m

/-- The MC path reads a register: its value is answered. -/
def answer (s : State) (v : W64) : State := { s with host := { s.host with data := some v } }

/-- Read a register of memory unit u. -/
def readMemReg (s : State) (u off : Nat) : State :=
  match memReg (unitOf s u) off with
  | none => s
  | some v => answer (modUnit s u fun m => memRegRead m off) v

/-- `MEM_ERR_READ` (R328). -/
def execMemErrRead (u : Fin 20) (s : State) : Out State := .next (readMemReg s u.val 8)

/-- `MEM_CALP_READ` (R335). -/
def execMemCalpRead (u : Fin 20) (s : State) : Out State := .next (readMemReg s u.val 0x20)

end Sys2Proof.Machine
end

