-- ==== Sys2Proof/Machine/Fabric.lean ====
section
/-! DEFINITION. The Silrov fabric (R338 to R353): ports and their link layer, credits, retry, routing, error responses and
timeouts. What a delivered frame does is in Deliver.lean. Port 16 is the Gwemosin port. -/

namespace Sys2Proof.Machine

open Sys2Proof

/-! ### Ports -/

/-- Port p. -/
def portOf (s : State) (p : Nat) : Port := mget {} s.fabric.ports p
/-- Replace port p. -/
def setPort (s : State) (p : Nat) (q : Port) : State := { s with fabric := { s.fabric with ports := mset {} s.fabric.ports p q } }
/-- Apply a change to port p. -/
def modPort (s : State) (p : Nat) (f : Port → Port) : State := setPort s p (f (portOf s p))

/-- Credits of a virtual channel at a receiving port (R343). -/
def vcSize (vc : Nat) : Nat := [1024, 768, 128, 64].getD vc 0

/-- Add to one entry of a list of four counters. -/
def addAt (l : List Nat) (vc n : Nat) : List Nat := l.set vc (l.getD vc 0 + n)

/-- Bytes that frames take in a buffer: header, padded payload, trailer (R340). -/
def bufBytes (l : List Frame) : Nat := l.foldl (fun a f => a + 40 + roundUp f.len.toNat 32) 0

/-- A fabric fault of class 0x0A recorded with the MC (Table 15.12). -/
def fabricMC (s : State) (sub port : Nat) (addr w2 w3 w4 : W64) : State :=
  reportMC s (.fault { cls := 0xA, sub := sub, ukind := 0xC, unit := port, addr := addr, w1 := BitVec.ofNat 64 port, w2 := w2
                       w3 := w3, w4 := w4, beat := beatW s })

/-- The global address that a request names. -/
def requestAddr (f : Frame) : W64 := BitVec.ofNat 64 (f.dst.toNat * 2 ^ 48 + f.addr.toNat)
/-- `SRC` and `DST` as a record gives them (Table 21.3). -/
def srcDst (f : Frame) : W64 := BitVec.ofNat 64 (f.src.toNat * 2 ^ 16 + f.dst.toNat)

/-- The bytes of a frame: header, padded payload, trailer (R340). -/
def frameBytes (f : Frame) : List Byte :=
  leBytes 32 (frameHeader f) ++ padTo (roundUp f.len.toNat 32) f.payload ++ leBytes 8 f.crc.toNat

/-- A frame's bytes striped over the active lanes in 32-byte units, round-robin in ascending lane number (R339). -/
def stripe (lanes : BitVec 4) (bs : List Byte) : List (Nat × List Byte) :=
  let ls := setBitsOf 4 lanes.toNat
  if ls.isEmpty then [] else (chunks 32 bs).zipIdx.map fun u => (ls.getD (u.2 % ls.length) 0, u.1)

/-- Frames leave a port in order, striped over its lanes (R339). -/
def putOut (s : State) (p : Nat) (fs : List Frame) : State :=
  { s with fabric := { s.fabric with
      sent := s.fabric.sent ++ fs.map fun f => (p, f)
      wires := s.fabric.wires ++ (fs.map fun f => (stripe (portOf s p).lanes (frameBytes f)).map fun u => (p, u)).flatten } }

/-- Credits of VC3 that a link-control frame, a hello or a beat mark takes: header, at most 32 bytes of payload, trailer (R343).
DEDUCED, log entry 50. -/
def ctlCredits : Nat := 3

/-- Spend the credits of one frame of VC3. -/
def spendCtl (q : Port) : Port := { q with credits := q.credits.set 3 (q.credits.getD 3 0 - ctlCredits) }

/-- Whether a port holds the credits of a frame of VC3 (R343). -/
def ctlFits (q : Port) : Bool := decide (ctlCredits ≤ q.credits.getD 3 0)

/-- The link-control frames that wait at a port leave it as its credits allow (`fuel` of them at most). -/
def flushCtl : Nat → State → Nat → State
  | 0, s, _ => s
  | fuel + 1, s, p =>
    let q := portOf s p
    match q.ctl with
    | [] => s
    | lc :: t =>
      if ctlFits q then
        let s := setPort s p { spendCtl q with ctl := t }
        flushCtl fuel { s with fabric := { s.fabric with sentCtl := s.fabric.sentCtl ++ [(p, lc)] } } p
      else s

/-- A link-control frame leaves a port once it holds the credits for it (R343). DEDUCED, log entry 50. -/
def sendCtl (s : State) (p : Nat) (lc : LinkCtl) : State :=
  let s := modPort s p fun q => { q with ctl := q.ctl ++ [lc] }
  flushCtl (portOf s p).ctl.length s p

/-! ### Error responses (R345, R346, Table 15.3) -/

/-- Frame types for which a port going down returns an error response (R345). -/
def isRequest (t : Nat) : Bool := t == 1 || t == 2 || t == 6 || t == 7 || t == 9 || t == 0xA

/-- Whether a response with this header answers an outstanding request: its stream, tag and sequence, and its address,
or for an error response a line that the read covers. -/
def answers (r : Frame) (o : Outstanding) : Bool :=
  let q := o.frame
  q.stream == r.stream && q.tag == r.tag && q.sseq == r.sseq
    && (q.addr == r.addr || (r.typ == 5 && q.typ == 2 && decide (r.addr.toNat < q.addr.toNat + q.aux.toNat ∧ q.addr.toNat < r.addr.toNat + 64)))

/-- The request that a response answers. -/
def outstFor (s : State) (r : Frame) : Option Outstanding := s.fabric.outst.find? (answers r)

/-- That request no longer waits. -/
def dropOutst (s : State) (r : Frame) : State :=
  { s with fabric := { s.fabric with outst := s.fabric.outst.eraseP (answers r) } }

/-- The fault that a reason raises at the source (Table 15.3); subcode 0x06 of class 0x0A for a timeout (reason 0x100). -/
def errorFlt (s : State) (o : Outstanding) (reason port : Nat) (line : Nat) : Option Flt :=
  let f := o.frame
  let fab := fun (sub : Nat) => some ({ cls := 0xA, sub := sub, addr := requestAddr f, w1 := BitVec.ofNat 64 port
                                        w2 := BitVec.ofNat 64 (reason % 256), w3 := srcDst f } : Flt)
  let _ := s
  match reason with
  | 1 => fab 3
  | 2 => fab 4
  | 3 => fab 5
  | 4 => some { cls := 9, sub := 5, addr := BitVec.ofNat 64 (f.dst.toNat * 2 ^ 48 + line / 64 * 64) }
  | 5 => fab 1
  | 7 => some { cls := 8, sub := 8, addr := o.cmd, w1 := BitVec.ofNat 64 (bits f.addr 14 3) }
  | 8 => fab 0x20
  | 0x100 => fab 6
  | _ => none

/-- A channel's request fails: what was requested from the failed one on is given up, so that the bytes committed stay a prefix,
and the channel ends (R266, R272). -/
def failChan (s : State) (g : Nat) (f : Frame) (flt : Flt) : State :=
  let h := chanOf s g
  let flt := if flt.cls = 8 then { flt with addr := h.head } else flt
  if h.st = 5 ∨ h.st = 6 then report s (some (g / 128)) (.fault (chanRec s g flt))
  else
    let keep := if f.typ = 2 then h.reqs.takeWhile fun q => !(q.data.isNone && q.tag == f.tag.toNat) else []
    chanFault (setChan s g { h with reqs := keep }) g flt

/-- A Herd command whose message failed ends (R320). -/
def failHerd (s : State) (c id : Nat) (flt : Flt) : State :=
  let k := clusterOf c
  match (herdOf s k).cmds.find? fun q => q.id == id with
  | none => s
  | some q =>
    let s := modHerd s k fun h => { h with cmds := h.cmds.filter fun x => x.id != id }
    herdFault s q.core q.off { flt with w4 := BitVec.ofNat 64 (hbSerial q.blk * 2 + (if hbHalf q.blk then 1 else 0)) }

/-- The Kiln command of core c whose write failed ends (R259). -/
def failKiln (s : State) (c : Nat) (flt : Flt) : State :=
  let hits := ((List.range 14).map fun n => (kilnCmds s n).zipIdx.filterMap fun (q, i) =>
    if q.core = c ∧ !q.mc ∧ q.phase ≠ 0 then some (n, i, q) else none).flatten
  match hits with
  | (n, i, q) :: _ => kilnService (kilnFault (dropKilnCmd s n i) (some n) q flt) n
  | [] => s

/-- The next write to the partner's keep-area goes out (R396). -/
def sendKeep (s : State) : State :=
  match s.secure.toPartner with
  | [] => s
  | f :: t =>
    let (n, s1) := takeSseq { s with secure := { s.secure with toPartner := t } } f.stream.toNat f.dst.toNat
    sendRequest s1 (.remote 1) 0 { f with sseq := n }

/-- A write to the partner failed: the round seals without it. -/
def failKeep (s : State) : State := { s with secure := { s.secure with toPartner := [], partnerFail := true } }

/-- A restore whose source is lost ends with the fabric fault (R406). -/
def endRestore (s : State) : State :=
  { s with cmdq := s.cmdq.drop 1, secure := { s.secure with restore := none, fetched := [] } }

/-- The unit that sent a request ends with a fault under its own chapter (R346). -/
def failUnit (s : State) (o : Outstanding) (flt : Flt) : State :=
  let c := o.core
  match o.agent with
  | .engine .fetch => if o.frame.typ = 2 then unitFault (endStream s c .fetch) c 1 0 flt else lateFault s c (flt.toRec 1)
  | .engine e => unitFault s c (engKind e) 0 flt
  | .turn =>
    match turnsOf s (clusterOf c) with
    | t :: rest => turnService (turnFail (setTurns s (clusterOf c) rest) t flt) (clusterOf c)
    | [] => s
  | .mover g => failChan s g o.frame flt
  | .chain n =>
    match (coreOf s c).chains.find? fun ch => ch.stored && ch.deferred == (n == 1) with
    | some ch => chainService (chainFail s c 6 ch flt) c
    | none => s
  | .herd (id + 1) => failHerd s c id flt
  | .herd 0 => report s (some (clusterOf c)) (.fault (coreRec s c (flt.toRec 9)))
  | .kiln => failKiln s c flt
  | .remote 1 => reportMC (failKeep s) (.fault { flt.toRec 0xD with beat := beatW s })
  | .remote 2 => reportMC (endRestore s) (.fault { flt.toRec 0xD with beat := beatW s })
  | _ => reportMC s (.fault { flt.toRec 0xD with beat := beatW s })

/-- What waits for a unit's last response goes on: signals behind stores, sends, Kiln commands. -/
def settleUnit (s : State) (o : Outstanding) : State :=
  match o.agent with
  | .engine .store => settleStores s o.core
  | .herd _ => settleSends s (clusterOf o.core)
  | .kiln => kilnServiceAll s
  | .mover g => if o.frame.typ = 1 then chanAck s g else s
  | .remote 1 => sendKeep s
  | _ => s

/-- An error response for a fold message of this device: no command waits for it, and the MC records the fault in the name of the
fabric engine that sent it (R342, R345, R346). DEDUCED, log entry 50. -/
def foldError (s : State) (e : Frame) (port : Nat) : State :=
  if decide (0xC20 ≤ e.stream.toNat ∧ e.stream.toNat < 0xC30) then
    match errorFlt s { agent := .remote 0, core := 0, sent := 0, frame := { e with src := s.fabric.devaddr, dst := e.src } } (bits e.aux 7 0) port 0 with
    | some f => reportMC s (.fault { f.toRec 0xC with unit := e.stream.toNat - 0xC20, beat := beatW s })
    | none => s
  else s

/-- An error response reaches its source: a busy reorder store makes the source resend after 1 µs (R351), every other
reason ends the unit (R346). -/
def errorArrives (s : State) (e : Frame) (port : Nat) : State :=
  match outstFor s e with
  | none => foldError s e port
  | some o =>
    let reason := bits e.aux 7 0
    if reason = 6 then
      { s with fabric := { s.fabric with resend := s.fabric.resend ++ [(s.clock.beat + 1, o.frame)] } }
    else
      match errorFlt s o reason port e.addr.toNat with
      | none => settleUnit (dropOutst s e) o
      | some f => settleUnit (failUnit (dropOutst s e) o f) o

/-- The error response to a frame: its stream, tag, sequence and address with the reason. DEDUCED, log entry 50. -/
def errorFrame (s : State) (f : Frame) (reason : Nat) (addr : Nat) : Frame :=
  { newFrame s 5 f.src.toNat f.stream.toNat f.skey addr reason [] with tag := f.tag, sseq := f.sseq }

/-- Answer a frame received at port p: by the fabric, or by the Gwemosin port to the control node (R364). -/
def respond (s : State) (p : Nat) (r : Frame) : State :=
  { s with fabric := { s.fabric with waiting := s.fabric.waiting ++ [{ frame := r, toNode := p == 16 }] } }

/-- Return an error response to the source of a discarded frame; a source in this device learns at once. -/
def returnError (s : State) (f : Frame) (reason port : Nat) : State :=
  if isHere s f.src.toNat then errorArrives s (errorFrame s f reason f.addr.toNat) port
  else sendFrame s (errorFrame s f reason f.addr.toNat)

/-! ### Link state (R339, R344, R345) -/

/-- The lanes a port comes up on: the largest of 4, 2 and 1 whose lanes all pass (R339). -/
def lanesUp (ok : BitVec 4) : BitVec 4 :=
  if ok = 15 then 15 else if bits ok 1 0 = 3 then 3 else if bit ok 0 then 1 else 0

/-- A port comes up. After a retrain the replay buffer is sent again; a new link starts with full credits (R343, R344). -/
def bringUp (s : State) (p : Nat) (lanes : BitVec 4) : State :=
  let q := portOf s p
  if q.linked then
    putOut (setPort s p { q with st := 2, lanes := lanes, replay := satAdd 32 q.replay q.unacked.length, lastRx := s.clock.beat }) p q.unacked
  else setPort s p { q with st := 2, lanes := lanes, linked := true, credits := [1024, 768, 128, 64], owed := [0, 0, 0, 0]
                            sendSeq := 0, recvSeq := 0, unacked := [], waitNak := false, naks := 0, nakFor := none, lastRx := s.clock.beat
                            ctl := [] }

/-- Whether a frame of the transmit queues stands in that of port p: it may leave by no other port (R345). -/
def queuedFor (s : State) (p : Nat) (q : Queued) : Bool :=
  let f := q.frame
  if q.toNode then p == 16
  else !isHere s f.dst.toNat && (!f.adp || f.esc) && bit (routeWord s f.dst) 63 && bits (routeWord s f.dst) 23 20 == p

/-- A frame leaves the transmit queues; the credits it held in its receiving port are owed to the neighbour. DEDUCED, log entry 50. -/
def unqueue (s : State) (i : Nat) (q : Queued) : State :=
  let s := { s with fabric := { s.fabric with waiting := s.fabric.waiting.eraseIdx i } }
  if q.inPort < 17 then modPort s q.inPort fun x => { x with owed := addAt x.owed q.frame.vc.toNat (frameCredits q.frame) } else s

/-- The frames that stand in the transmit queue of port p leave it. -/
def dropQueue (s : State) (p : Nat) : State :=
  let gone := s.fabric.waiting.filter (queuedFor s p)
  let s := { s with fabric := { s.fabric with waiting := s.fabric.waiting.filter fun q => !queuedFor s p q } }
  gone.foldl (fun s q => if q.inPort < 17 then modPort s q.inPort fun x => { x with owed := addAt x.owed q.frame.vc.toNat (frameCredits q.frame) } else s) s

/-- A port goes down: what stands in its transmit queue and its replay buffer is discarded, each request among it answered with
reason 0x05, and the MC told (R345). -/
def goDown (s : State) (p : Nat) : State :=
  let gone := (portOf s p).unacked ++ (s.fabric.waiting.filter (queuedFor s p)).map (·.frame)
  let s := dropQueue { s with secure := { s.secure with evLoss := s.secure.evLoss + 1 } } p
  let s := setPort s p { portOf s p with
    st := 0, lanes := 0, dropped := 0, linked := false, unacked := [], credits := [0, 0, 0, 0], owed := [0, 0, 0, 0]
    sendSeq := 0, recvSeq := 0, waitNak := false, naks := 0, nakFor := none, excess := false, retrains := [], peer := none, ctl := [] }
  let s := fabricMC s 1 p 0 (BitVec.ofNat 64 gone.length) 0 0
  (gone.filter fun f => isRequest f.typ.toNat).foldl (fun s f => returnError s f 5 p) s

/-- A port retrains: counted, told to the Cone; the third within 1,000,000 beats takes it down (R344). The Gwemosin port
comes up again at once (DESIGN CHOICE, log entry 27). -/
def retrain (s : State) (p : Nat) : State :=
  let q := portOf s p
  let s := { s with secure := { s.secure with evRetr := s.secure.evRetr + 1 } }
  let rs := (q.retrains.filter fun b => decide (s.clock.beat < b + 1000000)) ++ [s.clock.beat]
  let s := setPort s p { q with st := 1, retrain := satAdd 16 q.retrain 1, retrains := rs, naks := 0, nakFor := none, excess := false
                                waitNak := false, lastRx := s.clock.beat, peer := none }
  if 3 ≤ rs.length then goDown s p else if p = 16 then bringUp s 16 q.lanes else s

/-- This end's lane check goes out at link-up, before credits are granted (R339). DEDUCED, log entry 50. -/
def sendCheck (s : State) (p : Nat) (ok : BitVec 4) : State :=
  { s with fabric := { s.fabric with sentCtl := s.fabric.sentCtl ++ [(p, { lanes := some ok })] } }

/-- `PORT_TRAINING` (R339): a training port of the floor plan sends its lane check and comes up on the lanes that pass at both
ends; `ok` says which lanes pass here. -/
def execPortTraining (p : Fin 16) (ok : BitVec 4) (s : State) : Out State :=
  let q := portOf s p.val
  let lanes := lanesUp (ok &&& ~~~q.dropped &&& q.peer.getD 15)
  if q.st = 1 ∧ s.plan.ports.getLsbD p.val then
    let s := sendCheck s p.val ok
    .next (if lanes = 0 then s else bringUp s p.val lanes)
  else .next s

/-- `PORT_LINK_TIMEOUT` (R353): a port without a link after 2 s is down. -/
def execPortLinkTimeout (p : Fin 16) (s : State) : Out State :=
  let q := portOf s p.val
  if q.st = 1 then .next (if q.linked then goDown s p.val else setPort s p.val { q with st := 0, lanes := 0 }) else .next s

/-- `LANE_DROP` (R339): a lane over the FEC threshold is dropped by a retrain. -/
def execLaneDrop (p : Fin 16) (lane : Fin 4) (s : State) : Out State :=
  let q := portOf s p.val
  if 2 ≤ q.st ∧ q.lanes.getLsbD lane.val then
    .next (retrain (setPort s p.val { q with dropped := q.dropped ||| BitVec.ofNat 4 (2 ^ lane.val) }) p.val)
  else .next s

/-- `LINK_RETRAIN` (R343, R344): after 8 negative acknowledgements for one number, or bytes beyond the credits granted. DESIGN CHOICE, log entry 27. -/
def execLinkRetrain (p : Fin 17) (s : State) : Out State :=
  let q := portOf s p.val
  if 2 ≤ q.st ∧ (8 ≤ q.naks ∨ q.excess) then .next (retrain s p.val) else .next s

/-- `ACK_TIMEOUT` (R344): 1 µs with no acknowledgement while frames are unacknowledged. -/
def execAckTimeout (p : Fin 17) (s : State) : Out State :=
  let q := portOf s p.val
  if 2 ≤ q.st ∧ !q.unacked.isEmpty ∧ q.lastRx < s.clock.beat then .next (retrain s p.val) else .next s

/-! ### Acknowledgements and credits (R343, R344) -/

/-- The distance from one link sequence number to a later one. -/
def seqAhead (a b : BitVec 20) : Nat := (b - a).toNat

/-- A cumulative acknowledgement of number n. DEDUCED, log entry 50. -/
def ackUpTo (q : Port) (n : BitVec 20) (beat : Nat) : Port :=
  let rest := q.unacked.filter fun f => decide (2 ^ 19 ≤ seqAhead f.lseq n)
  { q with unacked := rest, lastRx := beat
           nakFor := if rest.length = q.unacked.length then q.nakFor else none
           naks := if rest.length = q.unacked.length then q.naks else 0 }

/-- Credits come back, never beyond the receiver's buffers. -/
def takeCredits (q : Port) (l : List Nat) : Port :=
  { q with credits := q.credits.zipIdx.map fun (n, vc) => Min.min (vcSize vc) (n + l.getD vc 0) }

/-- A negative acknowledgement of number n: what came before it arrived; the sender replays from n in order. DEDUCED, log entry 50. -/
def nakFrom (s : State) (p : Nat) (n : BitVec 20) : State :=
  let q := portOf s p
  let rest := q.unacked.filter fun f => decide (seqAhead n f.lseq < 2 ^ 19)
  let k := if q.nakFor = some n then q.naks + 1 else 1
  let s := setPort s p { q with unacked := rest, nakFor := some n, naks := k, replay := satAdd 32 q.replay rest.length, lastRx := s.clock.beat }
  let s := putOut s p rest
  if p = 16 ∧ 8 ≤ k then retrain s 16 else s

/-- The receiver sends a negative acknowledgement naming the first number it lacks, and waits for it. -/
def sendNak (s : State) (p : Nat) : State :=
  let q := portOf s p
  sendCtl (setPort s p { q with waitNak := true }) p { nak := some q.recvSeq }

/-- Credits in use at a receiving port's channel: owed, or held by frames that wait. -/
def vcUsed (s : State) (p vc : Nat) : Nat :=
  let h := fun (a : Nat) (f : Frame) => if f.vc.toNat = vc then a + frameCredits f else a
  (portOf s p).owed.getD vc 0 + (s.fabric.waiting.filter fun q => q.inPort == p).foldl (fun a q => h a q.frame) 0
    + (s.fabric.parked.filter fun q => q.1 == p).foldl (fun a q => h a q.2) 0

/-- Port p takes a frame of VC3: one whose CRC fails is answered by a negative acknowledgement, one beyond the credits granted is
discarded; the credits of the others are owed again (R340, R343). -/
def ctlTake (s : State) (p : Nat) (crcOk : Bool) : State × Bool :=
  let q := portOf s p
  if q.st < 2 then (s, false)
  else if !crcOk then (sendNak s p, false)
  else if vcSize 3 < vcUsed s p 3 + ctlCredits then (setPort s p { q with excess := true }, false)
  else (setPort s p { q with owed := addAt q.owed 3 ctlCredits }, true)

/-- What a link-control frame brings; a training port hears the neighbour's lane check (R339). -/
def linkControl (s : State) (p : Nat) (lc : LinkCtl) : State :=
  if (portOf s p).st = 1 ∧ lc.crcOk = true ∧ lc.lanes.isSome = true then modPort s p fun q => { q with peer := lc.lanes }
  else match ctlTake s p lc.crcOk with
  | (s, false) => s
  | (s, true) =>
    let q := portOf s p
    let s := setPort s p (takeCredits (match lc.ack with | some n => ackUpTo q n s.clock.beat | none => q) lc.credits)
    let s := flushCtl (portOf s p).ctl.length s p
    match lc.nak with
    | some n => nakFrom s p n
    | none => s

/-- `LINK_CONTROL_FRAME` (R343, R344). -/
def execLinkControlFrame (p : Fin 17) (lc : LinkCtl) (s : State) : Out State := .next (linkControl s p.val lc)

/-- Return the credits owed at a port. -/
def returnCredits (s : State) (p : Nat) : State :=
  let q := portOf s p
  if q.owed.all (· == 0) ∨ q.st < 2 then s
  else sendCtl (setPort s p { q with owed := [0, 0, 0, 0] }) p { credits := q.owed }

/-! ### Routing (R347 to R349) -/

/-- Where a queued frame may go now. -/
inductive Route where
  | here
  | none
  | wait
  | port (p : Nat) (esc : Bool)
  deriving DecidableEq, Repr

/-- Valid candidate k of an entry. -/
def candidate (w : W64) (k : Nat) : Option Nat := if bit w (5 * k + 4) then some (bits w (5 * k + 3) (5 * k)) else none

/-- Whether a port is up and carries frames of types 0x1 to 0xA (R353, R354). -/
def carries (s : State) (p : Nat) : Bool := (portOf s p).st == 2 && (p == 16 || s.fabric.ready)

/-- Whether a port may take one more read request of this device: it holds at most 1,024 outstanding (R273). -/
def readsFit (s : State) (p : Nat) (f : Frame) : Bool :=
  f.typ != 2 || f.src != s.fabric.devaddr || decide ((s.fabric.outst.filter fun o => o.frame.typ == 2 && o.port == p).length < 1024)

/-- Whether a port has the credits and the replay buffer for a whole frame (R343, R344), and for a read request its place among
those outstanding (R273). -/
def fitsPort (s : State) (p : Nat) (f : Frame) : Bool :=
  let q := portOf s p
  carries s p && readsFit s p f && decide (frameCredits f ≤ q.credits.getD f.vc.toNat 0) && decide (bufBytes q.unacked + bufBytes [f] ≤ 131072)

/-- Of the candidates that fit, the one with the most free credits; ties to the lower number (R348). -/
def bestPort (s : State) (f : Frame) (l : List Nat) : Option Nat :=
  (l.filter fun p => fitsPort s p f).foldl (fun (b : Option Nat) p =>
    match b with
    | none => some p
    | some x => if (portOf s x).credits.getD f.vc.toNat 0 < (portOf s p).credits.getD f.vc.toNat 0 then some p else some x) none

/-- The route of a queued frame. DEDUCED, log entry 50. -/
def routeFrame (s : State) (q : Queued) : Route :=
  let f := q.frame
  if q.toNode then if fitsPort s 16 f then .port 16 f.esc else if carries s 16 then .wait else .none
  else if isHere s f.dst.toNat then .here
  else
    let w := routeWord s f.dst
    let d := bits w 23 20
    let cs := ((List.range 4).filterMap (candidate w)).filter fun p => (portOf s p).st == 2
    let dUp := (portOf s d).st == 2
    if !bit w 63 then .none
    else if f.adp && !f.esc then
      match bestPort s f cs with
      | some p => .port p false
      | none => if fitsPort s d f then .port d true else if dUp || !cs.isEmpty then .wait else .none
    else if fitsPort s d f then .port d f.esc
    else if dUp || (!f.esc && !cs.isEmpty) then .wait else .none

/-- Whether an earlier queued frame goes first: of the same receiving port and channel (R342), or of a unit of this device
toward the same place on the same channel, both deterministic. DEDUCED, log entry 50. -/
def behindOther (s : State) (i : Nat) (q : Queued) : Bool :=
  (s.fabric.waiting.take i).any fun e => e.frame.vc == q.frame.vc && e.inPort == q.inPort
    && (q.inPort != 17 || (e.frame.dst == q.frame.dst && e.toNode == q.toNode && !e.frame.adp && !q.frame.adp))

/-- Whether a write of this device would be the 65th unacknowledged one of its stream toward its device (R351). -/
def streamFull (s : State) (f : Frame) : Bool :=
  f.typ == 1 && f.src == s.fabric.devaddr
    && (match s.fabric.outst.find? fun o => o.frame.typ == 1 && o.frame.stream == f.stream && o.frame.dst == f.dst with
        | some o => decide (64 ≤ (f.sseq - o.frame.sseq).toNat)
        | none => false)

/-- The read request of this device that a frame is has left by port p (R273). -/
def notePort (s : State) (p : Nat) (f : Frame) : State :=
  if f.typ = 2 ∧ f.src = s.fabric.devaddr then
    let hit := fun (o : Outstanding) => o.port == 17 && o.frame.typ == 2 && o.frame.stream == f.stream && o.frame.tag == f.tag && o.frame.addr == f.addr
    match s.fabric.outst.findIdx? hit with
    | some i => { s with fabric := { s.fabric with outst := s.fabric.outst.modify i fun o => { o with port := p } } }
    | none => s
  else s

/-- A frame takes a port: numbered, kept for replay, its credits spent (R343, R344). -/
def sendOn (s : State) (p : Nat) (f : Frame) (esc : Bool) : State :=
  let q := portOf s p
  let f := { f with esc := esc, lseq := q.sendSeq }
  let f := { f with crc := frameCrc f }
  let n := q.credits.getD f.vc.toNat 0 - frameCredits f
  let s := setPort s p { q with sendSeq := q.sendSeq + 1, unacked := q.unacked ++ [f], credits := q.credits.set f.vc.toNat n
                                lastRx := if q.unacked.isEmpty then s.clock.beat else q.lastRx }
  putOut (notePort s p f) p [f]

/-- A frame that finds no route is discarded: an error response unless it is a response, and a record (R349). DEDUCED, log entry 50. -/
def noRoute (s : State) (f : Frame) : State :=
  let t := f.typ.toNat
  let s := if t = 3 ∨ t = 4 ∨ t = 5 then s else returnError s f 1 0xFFFF
  reportMC s (.fault { cls := 0xA, sub := 3, ukind := 0xC, unit := 0xFFFF, addr := requestAddr f, w1 := noIndex, w2 := 1, w3 := srcDst f
                       beat := beatW s })

/-! ### Receiving (R340, R343, R344, R350, R353, R364) -/

/-- Whether a received frame counts as a CRC failure (R340). -/
def badFrame (f : Frame) : Bool :=
  f.crc != frameCrc f || decide (f.typ = 0 ∨ 0xD < f.typ.toNat) || f.vc.toNat != frameVc f.typ.toNat || decide (512 < f.len.toNat)
    || f.payload.length != f.len.toNat

/-- The link layer takes a frame at port p: answered by an acknowledgement, or by a negative one on a CRC failure or a gap;
duplicates and bytes beyond the credits are discarded. DEDUCED, log entry 50. -/
def linkTake (s : State) (p : Nat) (f : Frame) : State × Bool :=
  let q := portOf s p
  if q.st < 2 then (s, false)
  else if badFrame f then (sendNak s p, false)
  else if f.lseq ≠ q.recvSeq then
    if decide (seqAhead f.lseq q.recvSeq < 2 ^ 19) || q.waitNak then (s, false) else (sendNak s p, false)
  else if vcSize f.vc.toNat < vcUsed s p f.vc.toNat + frameCredits f then (setPort s p { q with excess := true }, false)
  else (sendCtl (setPort s p { q with recvSeq := q.recvSeq + 1, waitNak := false }) p { ack := some f.lseq }, true)

/-- The buffer space of a frame that is done with is owed to the neighbour. -/
def drained (s : State) (p : Nat) (f : Frame) : State :=
  modPort s p fun q => { q with owed := addAt q.owed f.vc.toNat (frameCredits f) }

/-- A frame for another device is forwarded with one hop fewer, or discarded at 0 (R350). -/
def forward (s : State) (p : Nat) (f : Frame) : State :=
  if f.hops.toNat ≤ 1 then
    let t := f.typ.toNat
    let s := if t = 3 ∨ t = 4 ∨ t = 5 then s else returnError s f 2 p
    drained (fabricMC s 4 p (requestAddr f) 2 (srcDst f) 0) p f
  else
    { s with fabric := { s.fabric with waiting := s.fabric.waiting ++ [{ frame := { f with hops := f.hops - 1 }, inPort := p }] } }

/-! ### Timeouts and resends (R345, R351) -/

/-- `FABRIC_RESPONSE_TIMEOUT` (R345): request i of those that await a response ends after `TMO` beats. -/
def execFabricResponseTimeout (i : Nat) (s : State) : Out State :=
  match s.fabric.outst[i]? with
  | none => .next s
  | some o =>
    if s.clock.beat < o.sent + s.fabric.tmo.toNat then .next s
    else
      let s := { s with fabric := { s.fabric with outst := s.fabric.outst.eraseIdx i } }
      match errorFlt s o 0x100 0xFFFF 0 with
      | some f => .next (settleUnit (failUnit s o f) o)
      | none => .next s

/-- `WRITE_RESEND` (R351): a write refused for a busy reorder store goes again after 1 µs. -/
def execWriteResend (i : Nat) (s : State) : Out State :=
  match s.fabric.resend[i]? with
  | none => .next s
  | some (b, f) =>
    if s.clock.beat < b then .next s
    else .next (sendFrame { s with fabric := { s.fabric with resend := s.fabric.resend.eraseIdx i } } f)

/-! ### Discovery (R353, R354) -/

/-- The hello of a port. DEDUCED, log entry 28. -/
def helloOf (s : State) (p : Nat) : Hello :=
  { serial := s.part.serialNo, port := BitVec.ofNat 4 p, grade := BitVec.ofNat 8 s.part.grade, devaddr := s.fabric.devaddr, plan := s.plan.serial }

/-- `HELLO_SEND` (R343, R353): an up port sends a hello every 1,000 beats; the first as soon as it is up; each once it holds the
credits for it. -/
def execHelloSend (p : Fin 16) (s : State) : Out State :=
  let q := portOf s p.val
  if 2 ≤ q.st ∧ (q.lastHello = 0 ∨ q.lastHello + 1000 ≤ s.clock.beat + 1) ∧ ctlFits q then
    let s := setPort s p.val { spendCtl q with lastHello := s.clock.beat + 1 }
    .next { s with fabric := { s.fabric with sentHello := s.fabric.sentHello ++ [(p.val, helloOf s p.val)] } }
  else .next s

/-- `HELLO_FRAME` (R353, R354): the neighbour is recorded, or found changed; `PORT_NEIGH` then names the new one (DEDUCED, log entry 28). -/
def execHelloFrame (p : Fin 16) (h : Hello) (s : State) : Out State :=
  match ctlTake s p.val h.crcOk with
  | (s, false) => .next s
  | (s, true) =>
  let q := portOf s p.val
  if !q.known then .next (setPort s p.val { q with neigh := h.serial, neighP := h.port.setWidth 64, known := true })
  else if q.neigh = h.serial ∧ q.neighP = h.port.setWidth 64 then .next s
  else .next (fabricMC (setPort s p.val { q with st := 3, neigh := h.serial, neighP := h.port.setWidth 64 }) 7 p.val 0 0 0 0)

end Sys2Proof.Machine
end

