-- ==== Sys2Proof/Machine/Beat.lean ====
section
/-! DEFINITION. The beat (R359 to R362) and the heartbeats of the control node (R366). -/

namespace Sys2Proof.Machine

open Sys2Proof

/-- This device's time in ns. DESIGN CHOICE, log entry 61. -/
def timeNs (s : State) : Nat := s.clock.beat * 1000 + s.clock.phase * 1000 / (Max.max 1 s.power.clkMHz * 100000000)

/-- The count set to a time in ns: the one step of R361, at the lock of S9. -/
def setTime (s : State) (ns : Nat) : State :=
  { s with clock := { s.clock with beat := ns / 1000, phase := ns % 1000 * s.power.clkMHz * 100000 } }

/-- `ROOT`, `UP2EN`, `UP`, `UP2` of `BEAT_CTL`. -/
def beatRoot (s : State) : Bool := bit s.fabric.beatCtl 63
/-- See `beatRoot`. -/
def beatUp2en (s : State) : Bool := bit s.fabric.beatCtl 56
/-- See `beatRoot`. -/
def beatUp (s : State) : Nat := bits s.fabric.beatCtl 55 52
/-- See `beatRoot`. -/
def beatUp2 (s : State) : Nat := bits s.fabric.beatCtl 51 48

/-- The upstream that the configuration names, and the code of `SRC` for it (R362). -/
def firstUp (s : State) : Nat × Nat := if beatRoot s then (16, 3) else (beatUp s, 1)
/-- The port that is upstream now. -/
def upstream (s : State) : Nat := if s.fabric.src = 2 then beatUp2 s else (firstUp s).1

/-- `BEAT_MARK_SEND` (R359): every 64 beats from each up port, and from the Gwemosin port of a root device, once
the port holds the credits for it (R343). -/
def execBeatMarkSend (p : Fin 17) (s : State) : Out State :=
  let q := portOf s p.val
  if 2 ≤ q.st ∧ (p.val ≠ 16 ∨ beatRoot s) ∧ (q.lastMark = 0 ∨ q.lastMark + 64 ≤ s.clock.beat + 1) ∧ ctlFits q then
    let s := setPort s p.val { spendCtl q with lastMark := s.clock.beat + 1 }
    .next { s with fabric := { s.fabric with sentMark := s.fabric.sentMark ++ [(p.val, timeNs s)] } }
  else .next s

/-- Twice the delay and twice the offset of R360, in ns. DEDUCED, log entry 29. -/
def markDelay2 (m : BeatMark) : Int := (m.t2 - (m.beat.toNat * 1000 + m.phase : Nat)) + (m.t4 - m.t3)
/-- See `markDelay2`. DEDUCED, log entry 29. -/
def markOff2 (m : BeatMark) : Int := (m.t2 - (m.beat.toNat * 1000 + m.phase : Nat)) - (m.t4 - m.t3)

/-- An integer held between two bounds. -/
def clampInt (lo hi x : Int) : Int := if x < lo then lo else if hi < x then hi else x

/-- The rate correction −e ÷ 64 µs in units of 0.01 ppm, limited to ±200 ppm, from twice the offset (R361; DEDUCED, log entry 29). -/
def rateFor (off2 : Int) : Int := clampInt (-20000) 20000 (-(off2 * 3125) / 4)

/-- The count follows a mark of the upstream (R361): rate, `ERR`, and `LOCK` after 16 in a row with |e| below 40 ns. DEDUCED, log entry 29. -/
def discipline (s : State) (off2 : Int) : State :=
  let f := s.fabric
  let good := decide (-80 < off2 ∧ off2 < 80)
  let run := if good then f.goodRun + 1 else 0
  { s with fabric := { f with rate := rateFor off2, err := clampInt (-32767) 32767 (off2 / 2), goodRun := run
                              lock := good && (f.lock || decide (16 ≤ run)), hold := false, lastUp := s.clock.beat } }

/-- A mark arrives at port p (R360 to R362): the link is measured; a mark of the first upstream brings the device back to
it; a mark of the upstream disciplines the count; before the lock at S9 it sets the count once. DEDUCED, log entry 29. -/
def markArrives (s : State) (p : Nat) (m : BeatMark) : State :=
  let d := markDelay2 m / 2
  let s := modPort s p fun q => { q with delay := BitVec.ofNat 64 (clampInt 0 0xFFFF d).toNat }
  if s.fabric.src = 0 then
    if p = (firstUp s).1 ∧ s.boot.state = 0 ∧ s.boot.next = 9 then
      let s := setTime s ((m.beat.toNat * 1000 + m.phase : Nat) + d).toNat
      { s with fabric := { s.fabric with src := (firstUp s).2, err := 0, goodRun := 1, lastUp := s.clock.beat } }
    else s
  else
    let s := if p = (firstUp s).1 then { s with fabric := { s.fabric with src := (firstUp s).2 } } else s
    if p = upstream s then discipline s (markOff2 m) else s

/-- `BEAT_MARK_FRAME` (R360, R361). -/
def execBeatMarkFrame (p : Fin 17) (m : BeatMark) (s : State) : Out State :=
  match ctlTake s p.val m.crcOk with
  | (s, false) => .next s
  | (s, true) => .next (markArrives s p.val m)

/-- `BEAT_UPSTREAM_LOST` (R362): 16 upstream marks in a row were missed. -/
def execBeatUpstreamLost (s : State) : Out State :=
  let f := s.fabric
  if f.src = 0 ∨ f.hold ∨ s.clock.beat < f.lastUp + 1024 then .next s
  else
    let p := upstream s
    let f := { f with lost := satAdd 16 f.lost 1, goodRun := 0, lastUp := s.clock.beat }
    let f := if f.src != 2 && beatUp2en s then { f with src := 2 } else { f with hold := true, lock := false }
    let s := { s with fabric := f, secure := { s.secure with evLoss := s.secure.evLoss + 1 } }
    .next (fabricMC s 0xB p 0 0 0 0)

/-! ### Heartbeats (R366) -/

/-- `HEARTBEAT` (R366): the MC answers it. -/
def execHeartbeat (s : State) : Out State :=
  .next { s with fabric := { s.fabric with lastHb := s.clock.beat, hbAnswered := s.fabric.hbAnswered + 1 }
                 secure := { s.secure with missRun := 0 } }

/-- `HEARTBEAT_MISS` (R366): none within 2 × `HBP` beats of the one before. DEDUCED, log entry 52. -/
def execHeartbeatMiss (s : State) : Out State :=
  let h := bits s.fabric.hbp 31 0
  if s.clock.beat < s.fabric.lastHb + 2 * h then .next s
  else
    .next { s with fabric := { s.fabric with miss := satAdd 32 s.fabric.miss 1, lastHb := s.fabric.lastHb + h }
                   secure := { s.secure with missRun := satAdd 16 s.secure.missRun 1, evMiss := s.secure.evMiss + 1 } }

end Sys2Proof.Machine
end

