-- ==== Sys2Proof/Machine/Context.lean ====
section
/-! DEFINITION. Tenant contexts (R368 to R386): the MC's command queue, acquire, release, scrub, switch, the limit on
waits, and the halt of a core by debug (R441). -/

namespace Sys2Proof.Machine

open Sys2Proof

/-! ### Life-cycle state (Tables 19.1, 19.3) -/

/-- Life-cycle state: 0 Greenware, 1 Bisque, 2 Glaze, 3 Sherd; a pattern that Table 19.1 does not list reads as Sherd. -/
def lcState (s : State) : Nat := bits (lcStat s) 63 62
/-- Whether a return to maker is under way: S burned, D blank (R440). -/
def destroying (s : State) : Bool := s.part.fuseS && !s.part.fuseD
/-- Whether the functions open in Greenware and in Sherd with D burned are open (Table 19.3). -/
def makerOpen (s : State) : Bool := lcState s == 0 || (lcState s == 3 && s.part.fuseD)
/-- Whether cores may be halted and read: as above, or under owner unlock. -/
def debugOpen (s : State) : Bool := makerOpen s || ((lcState s == 1 || lcState s == 2) && s.life.unlock)

/-! ### The command queue (R371) -/

/-- Address of `MC_CMDQ`. -/
def cmdqAddr : Nat := 0x300020000000
/-- Operation code of a command block. -/
def blkOp (b : List Byte) : Nat := bits (wordAt b 0) 63 56
/-- Whether a block carries a beat in word 0x08 (R371). DEDUCED, log entry 51. -/
def hasBeat (op : Nat) : Bool := (1 ≤ op && op ≤ 3) || (0x10 ≤ op && op ≤ 0x15)

/-- The block that acts now, where it has code `op`: at the head, its beat reached, with no switch waiting before it. DEDUCED, log entry 51. -/
def headBlock (s : State) (op : Nat) : Option (List Byte) :=
  match s.cmdq with
  | b :: _ =>
    if s.boot.state = 1 ∧ blkOp b = op ∧ s.switches.isEmpty ∧ (!hasBeat op ∨ (wordAt b 8).toNat ≤ s.clock.beat) then some b else none
  | [] => none

/-- The head block has acted. DEDUCED, log entry 51. -/
def popCmd (s : State) : State := { s with cmdq := s.cmdq.drop 1 }

/-- A refusal of the head block, which has then acted. -/
def refuseCmd (s : State) (sub : Nat) (b : List Byte) (w3 : W64 := 0) : State :=
  refuse (popCmd s) sub (BitVec.ofNat 64 cmdqAddr) (BitVec.ofNat 64 (blkOp b)) w3

/-- A block arrives at `MC_CMDQ`: queued, refused where 64 wait, passed over where its code is none of the spec's. DEDUCED, log entry 51. -/
def enqueueCmd (s : State) (b : List Byte) : State :=
  let b := padTo 128 b
  if s.boot.state = 2 ∨ !(hasBeat (blkOp b) || blkOp b == 0x20 || blkOp b == 0x21) then s
  else if 64 ≤ s.cmdq.length then refuse s 0x20 (BitVec.ofNat 64 cmdqAddr) (BitVec.ofNat 64 (blkOp b))
  else { s with cmdq := s.cmdq ++ [b] }

/-- `MC_CMDQ_ENQUEUE` (R371, Table 16.8). -/
def execMcCmdqEnqueue (blk : List Byte) (s : State) : Out State := .next (enqueueCmd s blk)

/-! ### Fields of a context block (Table 16.6) and of the descriptor -/

/-- `CTX`, `CTXN`, `FORCE`, `KEEPS`. -/
def aqCtx (b : List Byte) : Nat := bits (wordAt b 0) 49 36
/-- See `aqCtx`. -/
def aqCtxn (b : List Byte) : Nat := bits (wordAt b 0) 13 0
/-- See `aqCtx`. -/
def aqForce (b : List Byte) : Bool := bit (wordAt b 0) 51
/-- See `aqCtx`. -/
def aqKeeps (b : List Byte) : Bool := bit (wordAt b 0) 50
/-- The cores named, ascending. -/
def aqCores (b : List Byte) : List Nat := setBitsOf 512 (numAt b 0x10 64)
/-- Whether a reserved field of a context block is not 0 (R15, Table 16.6). -/
def aqReserved (b : List Byte) : Bool :=
  bits (wordAt b 0) 55 52 != 0 || bits (wordAt b 0) 35 14 != 0 || (b.drop 0x70).any (· != 0)
/-- Fold entry f. -/
def aqFold (b : List Byte) (f : Nat) : Nat := numAt b (0x50 + 2 * f) 2

/-- `CHAN`, `FMASK`, `KMASK`, `NCORE` of `CTX_RUN` (Table 16.3). -/
def runChan (s : State) (x : Nat) : Nat := bits (cw s x 0x18) 53 50
/-- See `runChan`. -/
def runFmask (s : State) (x : Nat) : Nat := bits (cw s x 0x18) 49 34
/-- See `runChan`. -/
def runKmask (s : State) (x : Nat) : Nat := bits (cw s x 0x18) 33 18
/-- See `runChan`. -/
def runNcore (s : State) (x : Nat) : Nat := bits (cw s x 0x18) 17 8

/-- The clusters that hold cores of a list. -/
def clustersOf (cs : List Nat) : List Nat := (cs.map clusterOf).dedup

/-! ### Tally ranges (R288, Table 12.1) -/

/-- The valid ranges of context x. -/
def ttrsOf (s : State) (x : Nat) : List W64 := ((List.range 8).map fun n => cw s x (0xA0 + 8 * n)).filter fun r => bit r 63

/-- Virtual tallies in a range, first physical tally. -/
def ttrCount (r : W64) : Nat := bits r 47 36 + 1 - bits r 59 48
/-- See `ttrCount`. -/
def ttrFirst (r : W64) : Nat := bits r 11 0

/-- Whether a valid range breaks Table 12.1. -/
def badTtr (r : W64) : Bool :=
  decide (bits r 47 36 < bits r 59 48) || bits r 31 12 != 0
  || (bit r 62 && (ttrFirst r % 32 != 0 || bit r 61 || decide (4096 < ttrFirst r + 32 * ttrCount r)))
  || (!bit r 62 && decide (4096 < ttrFirst r + ttrCount r))
  || (bit r 60 && (bits r 48 48 != 0 || !bit r 36))

/-- Whether two ranges share a virtual tally. -/
def virtOverlap (a b : W64) : Bool := decide (bits a 59 48 ≤ bits b 47 36 ∧ bits b 59 48 ≤ bits a 47 36)

/-- Whether some pair of a list is related. -/
def anyPair {α : Type} (p : α → α → Bool) : List α → Bool
  | [] => false
  | a :: t => t.any (p a) || anyPair p t

/-- Whether a core-private range of cores `cs` reaches a tally from `lo` to `lo + n − 1` of cluster k. DEDUCED, log entry 52. -/
def privReach (r : W64) (cs : List Nat) (k lo n : Nat) : Bool :=
  cs.any fun c =>
    let first := ttrFirst r + c % 32
    let i := if lo ≤ first then 0 else ceilDiv (lo - first) 32
    clusterOf c == k && decide (i < ttrCount r ∧ first + 32 * i < lo + n)

/-- Whether two ranges, of contexts on cores `ca` and `cb`, share a physical tally. -/
def physOverlap (a : W64) (ca : List Nat) (b : W64) (cb : List Nat) : Bool :=
  match bit a 62, bit b 62 with
  | false, false => bits a 35 32 == bits b 35 32 && decide (ttrFirst a < ttrFirst b + ttrCount b ∧ ttrFirst b < ttrFirst a + ttrCount a)
  | true, false => privReach a ca (bits b 35 32) (ttrFirst b) (ttrCount b)
  | false, true => privReach b cb (bits a 35 32) (ttrFirst a) (ttrCount a)
  | true, true => ca.any (· ∈ cb) && decide (ttrFirst a < ttrFirst b + 32 * ttrCount b ∧ ttrFirst b < ttrFirst a + 32 * ttrCount a)

/-- The cores that a live context holds, or that a releasing one held. -/
def heldCores (s : State) (x : Nat) : List Nat :=
  match s.releases.find? fun r => r.ctx == x with
  | some r => r.cores
  | none => coresOf s x

/-- The contexts that are live or releasing. -/
def busyCtxs (s : State) : List Nat :=
  ((s.cores.filterMap fun p => ctxOf p.2) ++ s.releases.map (·.ctx)).dedup

/-- Whether a range of context x on cores `cs` reaches a physical tally of context y. -/
def sharesTally (s : State) (x : Nat) (cs : List Nat) (y : Nat) : Bool :=
  (ttrsOf s x).any fun a => (ttrsOf s y).any fun b => physOverlap a cs b (heldCores s y)

/-- Whether a physical tally is reached by a range of context x on cores `cs`. DEDUCED, log entry 52. -/
def reaches (s : State) (x : Nat) (cs : List Nat) (p : Nat) : Bool :=
  (ttrsOf s x).any fun r =>
    if bit r 62 then privReach r cs (p / 4096) (p % 4096) 1
    else bits r 35 32 == p / 4096 && decide (ttrFirst r ≤ p % 4096 ∧ p % 4096 < ttrFirst r + ttrCount r)

/-! ### Windows -/

/-- Whether an `SPW` value breaks R82. -/
def badSpw (v : W64) : Bool :=
  decide ((if bit v 0 then 16 else 32) < bits v 20 16 + bits v 37 32) || (List.range 8).any fun i => bits v (49 + 2 * i) (48 + 2 * i) == 3

/-- Whether a window of context x on this device reaches [a, a + n). -/
def windowReaches (s : State) (x a n : Nat) : Bool :=
  (List.range 8).any fun i =>
    let b := cw s x (0x20 + 16 * i)
    let e := cw s x (0x28 + 16 * i)
    isHere s (bits b 63 48) && decide (bits b 47 6 * 64 < a + n ∧ a < bits e 47 6 * 64 ∧ bits b 47 6 < bits e 47 6)

/-- The region of a stack or pair: first byte and length. -/
def regionOf (s : State) (kind u : Nat) : Nat × Nat :=
  if kind = 1 then ((unitOf s u).region * hbmRegion, hbmRegion) else (ddrBase + u * pairRegion, pairRegion)

/-- Whether context x uses a unit: one of its cores, or a window that reaches its region (R431). -/
def usesUnit (s : State) (x kind u : Nat) : Bool :=
  if kind = 0 then (coresOf s x).any fun c => clusterOf c == u
  else windowReaches s x (regionOf s kind u).1 (regionOf s kind u).2

/-! ### Acquire (R372, R373) -/

/-- Whether a named core may be acquired: in the floor plan, holding no context, clean, its cluster in service, its entry
bundles in the image it holds (R372, R417, R431). `switch`: it has just been released by the switch. -/
def coreFree (s : State) (switch : Bool) (c : Nat) : Bool :=
  let k := coreOf s c
  goodCore s c && (ctxOf k).isNone && (k.scrub == .clean || switch) && !outOfService s 0 (clusterOf c)
    && decide (bits k.coreEntry 59 40 < k.bundles ∧ bits k.coreEntry 39 20 < k.bundles ∧ bits k.coreEntry 19 0 < k.bundles)

/-- Whether every check of R372 passes; `besides`: a context left out of the check of R288. -/
def mayAcquire (s : State) (x : Nat) (b : List Byte) (switch : Bool) (besides : Option Nat) : Bool :=
  let cs := aqCores b
  let ks := clustersOf cs
  let rs := ttrsOf s x
  let fm := runFmask s x
  let others := (busyCtxs s).filter fun y => some y != besides
  cs.all (coreFree s switch)
  && ctxState s x == 1 && ctxKey s x != 0 && runNcore s x == cs.length && setBitsOf 16 (runKmask s x) == sortBy (fun a b => decide (a ≤ b)) ks
  && s.plan.dies.getLsbD (x / 4096)
  && !badSpw (cw s x 0x10) && !rs.any badTtr && !anyPair virtOverlap rs && others.all (fun y => !sharesTally s x cs y)
  && (List.range 16).all (fun f =>
      if fm.testBit f then aqFold b f / 2 ^ 14 != 0 && aqFold b f / 2 ^ 12 % 4 == 0 && ks.all fun k => foldScope (foldOf s k f) == 0
      else aqFold b f == 0)
  && (s.service.closing ++ s.service.drained).all (fun u => u.1 == 0 || !windowReaches s x (regionOf s u.1 u.2).1 (regionOf s u.1 u.2).2)
  && decide (x ∉ s.secure.restoring) && !destroying s

/-- An engine starts at a bundle. -/
def startEng (pc : Nat) : Eng := { pc := pc, run := .running }

/-- The registers of context x are loaded into core c, its cache lines and relay counts cleared, its engines started (R73, R373). -/
def loadCore (s : State) (x c : Nat) : State :=
  let s1 := modCore s c fun k =>
    { k with spw := cw s x 0x10, coreCtx := BitVec.ofNat 64 (2 ^ 63 + x)
             winBase := (List.range 8).foldl (fun m n => mset 0xFFFF000000000000 m n (cw s x (0x20 + 16 * n))) []
             winBound := (List.range 8).foldl (fun m n => mset 0 m n (cw s x (0x28 + 16 * n))) []
             ttr := (List.range 8).foldl (fun m n => mset 0 m n (cw s x (0xA0 + 8 * n))) []
             cache := [], plru := [], relayCnt := [], used := [], faulted := false, stopNext := false
             fe := startEng (bits k.coreEntry 59 40), ce := startEng (bits k.coreEntry 39 20), se := startEng (bits k.coreEntry 19 0) }
  spwChanged s1 c (coreOf s c).spw

/-- The word `FOLD_DEF` of a granted fold in cluster k (Table 12.5): cluster scope names its own cluster alone. -/
def foldWord (x scope kmask k : Nat) (cs : List Nat) : W64 :=
  BitVec.ofNat 64 (scope * 2 ^ 62 + x * 2 ^ 48 + (if scope = 1 then 2 ^ k else kmask) * 2 ^ 32
    + ((cs.filter fun c => clusterOf c == k).map fun c => 2 ^ (c % 32)).foldl (· + ·) 0)

/-- The fold slots granted to context x are defined in its clusters. -/
def grantFolds (s : State) (x : Nat) (b : List Byte) : State :=
  let cs := aqCores b
  (clustersOf cs).foldl (fun s k => (setBitsOf 16 (runFmask s x)).foldl (fun s f =>
    setFold s k f { defn := foldWord x (aqFold b f / 2 ^ 14) (runKmask s x) k cs, grp := BitVec.ofNat 64 (aqFold b f % 4096) }) s) s

/-- The channels granted to context x: channel 32 × M + q to core q of its cluster, for each Mover M of `CHAN`. -/
def grantChans (s : State) (x : Nat) (cs : List Nat) : State :=
  cs.foldl (fun s c => (setBitsOf 4 (runChan s x)).foldl (fun s m =>
    let g := clusterOf c * 128 + 32 * m + c % 32
    modChan s g fun h => { h with own := BitVec.ofNat 64 (x * 2 ^ 32 + 2 ^ 31 + c % 32), pace := 0, ring := none }) s) s

/-- An accepted acquire (R373, R289): registers, folds, channels, tallies to 0, the context live and its engines started. DEDUCED, log entry 52. -/
def acquire (s : State) (x : Nat) (b : List Byte) : State :=
  let cs := aqCores b
  let s := cs.foldl (fun s c => loadCore s x c) s
  let s := grantChans (grantFolds s x b) x cs
  let s := { s with tallies := s.tallies.filter fun p => !reaches s x cs p.1 }
  setCtxState s x 2

/-- `CTX_ACQUIRE` (R372, R373); a block with a reserved field that is not 0 is refused with the unit's subcode (R15). DESIGN CHOICE,
DEDUCED, log entry 51. -/
def execCtxAcquire (s : State) : Out State :=
  match headBlock s 1 with
  | none => .next s
  | some b =>
    if !aqReserved b && mayAcquire s (aqCtx b) b false none then .next (acquire (popCmd s) (aqCtx b) b) else .next (refuseCmd s 0x24 b)

/-! ### Release (R379 to R383) -/

/-- A unit's registration that waits at the cores of ranges is given up. -/
def leaveAt (s : State) (c : Nat) (ag : Agent) (rs : List (Nat × Nat × Nat × Bool)) : State :=
  (rangeCores rs).foldl (fun s t => modCore s t fun k => leaveQueue k (agentAt c ag t)) s

/-- A Turn command that has not started is discarded: what it registered or waited for is given up, its credit returns. -/
def dropTurn (s : State) (t : TurnCmd) : State :=
  let s := if t.held then turnEnd s t else leaveAt s t.core .turn (turnRanges s t.core (Desc.of t.d1) (Desc.of t.d2))
  giveCredit s t.core 0

/-- Step 1: commands of context x accepted but not started are discarded without result, their credits back. -/
def discardQueued (s : State) (x : Nat) : State :=
  let cs := coresOf s x
  let ks := clustersOf cs
  let idleT := fun (t : TurnCmd) => decide (t.core ∈ cs) && !t.ready && t.chain.isNone
  let s := ks.foldl (fun s k =>
    ((turnsOf s k).filter idleT).foldl dropTurn (setTurns s k ((turnsOf s k).filter fun t => !idleT t))) s
  let s := ks.foldl (fun s k =>
    let idleH := fun (q : HerdCmd) => decide (q.core ∈ cs) && !q.fetched
    ((herdOf s k).cmds.filter idleH).foldl (fun s q => giveCredit s q.core 2)
      (modHerd s k fun h => { h with cmds := h.cmds.filter fun q => !idleH q })) s
  let s := cs.foldl (fun s c =>
    let gone := (coreOf s c).chains.filter fun h => !h.accepted
    gone.foldl (fun s h => giveCredit (modCore s c fun k => leaveQueue k (.chain (if h.deferred then 1 else 0))) c (if h.deferred then 4 else 1))
      (modCore s c fun k => { k with chains := k.chains.filter fun h => h.accepted })) s
  (List.range 30).foldl (fun s n =>
    let idle := fun (q : KilnCmd) => q.ctx == some x && decide (q.phase ≤ 1)
    let gone := (kilnCmds s n).filter idle
    gone.foldl (fun s q =>
      let s := kilnCredit s q
      let s := if 14 ≤ n then modCore s q.core fun k => leaveQueue k .kiln else s
      if q.op = 0 ∧ q.phase = 1 then countAccepted s x false else s) (setKiln s n ((kilnCmds s n).filter fun q => !idle q))) s

/-- Step 2: every Mover channel of context x is aborted with cause 0x02 (R271). -/
def abortChans (s : State) (x : Nat) : State :=
  ((s.chans.filter fun p => chanCtx p.2 == some x).map (·.1)).foldl (fun s g => abortChan s g 2) s

/-- Step 3: every Herd pair of context x is cancelled (R316). -/
def cancelPairs (s : State) (x : Nat) : State :=
  (s.herds.map (·.1)).foldl (fun s k =>
    (((herdOf s k).pairs.filterMap id).filter fun p => p.ctx == x).foldl (fun s p => cancelPair s k p.serial p.half) s) s

/-- The virtual tallies of unequal balanced pairs (R290, R299), each core's own where the range is core-private. -/
def unbalanced (s : State) (x : Nat) (cs : List Nat) : List Nat :=
  ((ttrsOf s x).map fun r =>
    if !bit r 60 then [] else
    ((List.range (ttrCount r / 2)).map fun i =>
      let v := bits r 59 48 + 2 * i
      let val := fun (c v : Nat) => match translateCtx s x c (BitVec.ofNat 12 v) with | some p => tallyAt s p | none => 0
      ((if bit r 62 then cs else cs.take 1).filter fun c => val c v != val c (v + 1)).map fun _ => v).flatten).flatten

/-- The held counted signals to context x, as virtual tallies. -/
def heldSignals (s : State) (x : Nat) : List Nat :=
  (s.srcs.map fun p => (p.2.held.filter fun h => h.ctx == x).map fun h => h.t.toNat).flatten

/-- The folds granted to context x with a round in progress. -/
def openRounds (s : State) (x : Nat) : List Nat :=
  (s.folds.filter fun p => foldScope p.2 != 0 && bits p.2.defn 61 48 == x && (p.2.arrived != 0 || !p.2.kids.isEmpty)).map fun p => p.1 % 16

/-- The smallest of a list, or a default. DEDUCED, log entry 30. -/
def leastOf (d : Nat) (l : List Nat) : Nat := l.foldl Min.min d

/-- Step 4: the checks of R299; offenders are counted and one tally fault names the lowest (DEDUCED, log entry 30). Held signals to
the context are discarded. -/
def releaseChecks (s : State) (x : Nat) : State × Nat :=
  let ts := unbalanced s x (coresOf s x) ++ heldSignals s x
  let fs := openRounds s x
  let n := ts.length + fs.length
  let t := if ts.isEmpty then leastOf 16 fs else leastOf 4096 ts
  let val := match translateCtx s x ((coresOf s x).headD 0) (BitVec.ofNat 12 t) with
    | some p => if ts.isEmpty then 0 else tallyAt s p
    | none => 0
  let s := if n = 0 then s
    else reportMC s (.fault { cls := 8, sub := 7, ukind := 0xD, w1 := BitVec.ofNat 64 t, w2 := BitVec.ofNat 64 val, w4 := BitVec.ofNat 64 n
                              beat := beatW s, ctx := some x })
  ({ s with srcs := s.srcs.filterMap fun p =>
      let e := { p.2 with held := p.2.held.filter fun h => h.ctx != x }
      if e = {} then none else some (p.1, e) }, n)

/-- Step 5: fold slots, channel grants and `CORE_CTX` are cleared; a channel still ending keeps its grant until it stops. DEDUCED, log entry 52. -/
def clearGrants (s : State) (x : Nat) : State :=
  let cs := coresOf s x
  let s := { s with folds := s.folds.filter fun p => !(foldScope p.2 != 0 && bits p.2.defn 61 48 == x) }
  let gs := (s.chans.filter fun p => chanCtx p.2 == some x && p.2.st != 4).map (·.1)
  let s := gs.foldl (fun s g => modChan s g fun h => { h with own := 0, ring := none, got := [] }) s
  cs.foldl (fun s c => modCore s c fun k => { k with coreCtx := 0, cache := [], plru := [] }) s

/-- The engines of a core left at rest for its scrub: nothing further issues. -/
def restCore (k : Core) : Core := { k with fe := haltEng k.fe, ce := haltEng k.ce, se := haltEng k.se, stopNext := false }

/-- A release of a live context (R380). `keeps`: the scrub is deferred (R383). DEDUCED, log entry 52. -/
def release (s : State) (x : Nat) (keeps : Bool) : State :=
  let cs := coresOf s x
  let s := securePoint s x false
  let running := cs.filter fun c =>
    let k := coreOf s c
    !(k.faulted || (engDone k.fe && engDone k.ce && engDone k.se && k.isect.isNone))
  let s := running.foldl (fun s c => modCore s c haltCore) s
  let s := if running.isEmpty then s else setDisc s x
  let s := cancelPairs (abortChans (discardQueued s x) x) x
  let (s, n) := releaseChecks s x
  let s := clearGrants s x
  let s := setCtxState s x 3
  let s := if keeps then setCw s x 0 (setBits (cw s x 0) 60 60 1) else s
  let s := cs.foldl (fun s c => modCore s c fun k => { restCore k with scrub := if keeps then .kept x else .scrubbing }) s
  { s with releases := s.releases ++ [{ ctx := x, cores := cs, forced := running.length, offend := n }]
           gates := mset none s.gates x none }

/-- Whether a release of context x must wait: a core still runs and `FORCE` is 0. -/
def releaseWaits (s : State) (x : Nat) (force : Bool) : Bool := !force && !ctxStopped s x

/-- Whether the later release of R383 is meant: parked, `KEEP` 1, `KEEPS` 0. -/
def isKeptRelease (s : State) (b : List Byte) : Bool :=
  ctxState s (aqCtx b) == 1 && bit (cw s (aqCtx b) 0) 60 && !aqKeeps b

/-- `CTX_RELEASE` (R380, R383, R386). -/
def execCtxRelease (s : State) : Out State :=
  match headBlock s 2 with
  | none => .next s
  | some b =>
    let x := aqCtx b
    if aqReserved b then .next (refuseCmd s 0x23 b)
    else if isKeptRelease s b then .next s
    else if aqKeeps b ∧ !makerOpen s then .next (refuseCmd s 0x22 b)
    else if ctxState s x ≠ 2 then .next (refuseCmd s 0x23 b)
    else if releaseWaits s x (aqForce b) then .next s
    else .next (release (popCmd s) x (aqKeeps b))

/-- The context-released record (Table 21.4). -/
def releasedRec (s : State) (x offend forced : Nat) : Record :=
  statusRec s 4 (leBytes 6 0 ++ leBytes 8 offend ++ leBytes 8 forced) (some x)

/-- `CTX_RELEASE_SCRUB_KEPT` (R383): the kept cores are scrubbed, `KEEP` cleared, a record sent; the context stays parked. -/
def execCtxReleaseScrubKept (s : State) : Out State :=
  match headBlock s 2 with
  | none => .next s
  | some b =>
    let x := aqCtx b
    if !isKeptRelease s b || aqReserved b then .next s
    else
      let s := popCmd s
      let s := { s with cores := s.cores.map fun p => (p.1, if p.2.scrub = .kept x then { p.2 with scrub := .scrubbing } else p.2) }
      let s := setCw s x 0 (setBits (cw s x 0) 60 60 0)
      .next (reportMC s (releasedRec s x 0 0))

/-- Whether a unit command of context x, started before its release, is still running (R380). -/
def ctxBusy (s : State) (r : Release) : Bool :=
  (List.range 30).any (fun n => (kilnCmds s n).any fun q => q.ctx == some r.ctx)
  || s.chans.any (fun p => chanCtx p.2 == some r.ctx && p.2.st == 4)
  || (clustersOf r.cores).any (fun k => (turnsOf s k).any (fun t => decide (t.core ∈ r.cores)) || (herdOf s k).cmds.any fun q => q.ctx == some r.ctx)
  || r.cores.any fun c =>
      let k := coreOf s c
      k.isect.isSome || !k.chains.isEmpty || !k.drains.isEmpty || k.load.isSome || k.chainLoad.isSome || !k.passes.isEmpty

/-- `CTX_RELEASE_COMPLETE` (R380): once its started commands have ended the context is parked and a record sent. -/
def execCtxReleaseComplete (x : CtxId) (s : State) : Out State :=
  match s.releases.find? fun r => r.ctx == x.val with
  | none => .next s
  | some r =>
    if ctxBusy s r then .next s
    else
      let s := { s with releases := s.releases.filter fun q => q.ctx != x.val }
      let gs := (s.chans.filter fun p => chanCtx p.2 == some x.val).map (·.1)
      let s := gs.foldl (fun s g => modChan s g fun h => { h with own := 0, ring := none, got := [] }) s
      .next (reportMC (setCtxState s x.val 1) (releasedRec s x.val r.offend r.forced))

/-! ### The scrub (R381) -/

/-- Whether the last operation issued on a core has landed: no unit works for it, no stream can go on. -/
def coreQuiet (s : State) (c : Nat) : Bool :=
  let k := coreOf s c
  let fetch := match k.fe.streams with
    | .move m :: _ => k.faulted || decide (64 ≤ (queueAt k m.q).length)
    | _ => true
  let store := match k.se.streams with
    | .move m :: _ => k.faulted || (queueAt k m.q).isEmpty
    | _ => true
  k.isect.isNone && k.chains.isEmpty && k.drains.isEmpty && k.load.isNone && k.chainLoad.isNone && k.passes.isEmpty && k.selWrites.isEmpty && k.stores.isEmpty
    && fetch && store && !(turnsOf s (clusterOf c)).any fun t => t.core == c

/-- A core after its scrub: every store of R381 zero, `CORE_STALL`, `SB_STAT` and `HALT` 0; the registers that the scrub
does not name keep their values. DEDUCED, log entry 52. -/
def scrubbed (k : Core) : Core :=
  { coreId := k.coreId, coreMode := setBits k.coreMode 2 2 0, queueBind := k.queueBind, dslotOwn := k.dslotOwn
    coreEntry := k.coreEntry, spw := k.spw, winBase := k.winBase, winBound := k.winBound, ttr := k.ttr
    chainSer := k.chainSer, image := k.image, bundles := k.bundles }

/-- The scratchpad of core c reads 0. -/
def zeroSpad (s : State) (c : Nat) : State :=
  let lo := spadBase + c * 0x400000
  { s with mem := s.mem.filter fun p => !decide (lo ≤ p.1 ∧ p.1 < lo + 0x200000) }

/-- Scrub core c. -/
def scrubCore (s : State) (c : Nat) : State := zeroSpad (modCore s c scrubbed) c

/-- `CORE_SCRUB_COMPLETE` (R381). -/
def execCoreScrubComplete (c : CoreId) (s : State) : Out State :=
  .next (if (coreOf s c.val).scrub == .scrubbing && coreQuiet s c.val then scrubCore s c.val else s)

/-! ### Switch (R384) -/

/-- `CTX_SWITCH` (R384): the release acts, and the acquire is checked then. DEDUCED, log entry 51. -/
def execCtxSwitch (s : State) : Out State :=
  match headBlock s 3 with
  | none => .next s
  | some b =>
    let x := aqCtx b
    if aqReserved b ∨ aqKeeps b ∨ ctxState s x ≠ 2 ∨ aqCores b ≠ sortBy (fun a b => decide (a ≤ b)) (coresOf s x) then .next (refuseCmd s 0x23 b)
    else if releaseWaits s x (aqForce b) then .next s
    else
      let s1 := release (popCmd s) x false
      if mayAcquire s1 (aqCtxn b) b true (some x) then .next { s1 with switches := s1.switches ++ [b] }
      else .next (refuse s1 0x24 (BitVec.ofNat 64 cmdqAddr) 3)

/-- `SWITCH_ACQUIRE` (R384): at the first beat after `AQ_BEAT` at which every core's scrub is complete; where a range of
`CTXN` reaches a tally of `CTX`, once `CTX` is parked. DEDUCED, log entry 51. DEDUCED, log entry 52. -/
def execSwitchAcquire (s : State) : Out State :=
  match s.switches with
  | [] => .next s
  | b :: rest =>
    let x := aqCtx b
    let y := aqCtxn b
    let cs := aqCores b
    if s.clock.beat ≤ (wordAt b 8).toNat ∨ !(cs.all fun c => (coreOf s c).scrub == .clean)
        ∨ (ctxState s x = 3 ∧ sharesTally s y cs x) then .next s
    else
      let s := { s with switches := rest }
      if cs.all (goodCore s) then .next (acquire s y b) else .next (refuse s 0x24 (BitVec.ofNat 64 cmdqAddr) 3)

/-! ### Waits, fills, debug -/

/-- What a held wait waits for, as a record names it: the queue or tally, its entries or value, and the number awaited. -/
def waitWords (s : State) (c : Nat) (b : List Staged) : W64 × W64 × W64 :=
  ((b.filterMap fun st => match st.effect with
    | .qwait q n => some (noIndex, BitVec.ofNat 64 (queueAt (coreOf s c) q).length, BitVec.ofNat 64 n)
    | .twait t x => some (BitVec.ofNat 64 t.toNat, BitVec.ofNat 64 (((translate s c t).map (tallyAt s)).getD 0), x)
    | _ => none).head?).getD (0, 0, 0)

/-- `WAIT_LIMIT_EXPIRY` (R375): a wait held beyond `WLIM` × 1,000 beats ends, the core stops, `DISC` is set. -/
def execWaitLimitExpiry (c : CoreId) (e : Engine) (s : State) : Out State :=
  let k := coreOf s c.val
  match (engOf k e).held, ctxOf k with
  | some h, some x =>
    let limited := match h.cause with | .queue => true | .tally _ => true | _ => false
    if limited && ctxWlim s x != 0 && decide (h.since + ctxWlim s x * 1000 < s.clock.beat) then
      let w := waitWords s c.val h.bundle
      .next (setDisc (coreFault s c.val { cls := 8, sub := 0xC, ukind := engKind e, flags := 2, addr := BitVec.ofInt 64 (engOf k e).pc
                                          w1 := w.1, w2 := w.2.1, w3 := w.2.2 }) x)
    else .next s
  | _, _ => .next s

/-- `MC_FILL` (R256). -/
def execMcFill (s : State) : Out State :=
  match headBlock s 0x15 with
  | none => .next s
  | some b => .next (mcFillRun (popCmd s) b)

/-- `DEBUG_CORE_HALT` (R441): the core stops as under R41 and `DISC` is set; refused where the function is closed. -/
def execDebugCoreHalt (c : CoreId) (s : State) : Out State :=
  if debugOpen s then
    let x := ctxOf (coreOf s c.val)
    .next (discOpt (stopCore s c.val) x)
  else .next (refuse s 0x54 0 0)

end Sys2Proof.Machine
end

