-- ==== Sys2Proof/Machine/Registers.lean ====
section
/-! DEFINITION. The register map of the MC path (Tables 1.7, 3.4, 11.1, 12.2, 13.8, 14.3, 15.9, 16.1, 17.1, 18.8, 18.15, 19.6,
20.5, 21.6): what a read answers and clears, and what a write does or why it is refused (R43, R82, R369, R467). -/

namespace Sys2Proof.Machine

open Sys2Proof

/-! ### The map -/

/-- A register of the MC path: its block, the unit of the block, the byte offset in it. -/
inductive RegAt where
  | core   (c off : Nat)
  | chan   (g off : Nat)
  | herd   (k off : Nat)
  | tally  (p : Nat)
  | fold   (k f off : Nat)
  | seq    (k off : Nat)
  | mem    (u off : Nat)
  | port   (p off : Nat)
  | fab    (off : Nat)
  | member (m : Nat)
  | group  (g : Nat)
  | tree   (g w : Nat)
  | import_ (i w : Nat)
  | cp     (off : Nat)
  | cone   (off : Nat)
  | floor  (off : Nat)
  | life   (off : Nat)
  | power  (off : Nat)
  | ctx    (x off : Nat)
  deriving DecidableEq, Repr

/-- Whether an address lies in [base, base + n × stride). -/
def inBlock (a base n stride : Nat) : Bool := decide (base ≤ a ∧ a < base + n * stride)

/-- The register at a local address. -/
def regAt (a : Nat) : Option RegAt :=
  let unit := fun (base stride : Nat) => (a - base) / stride
  let off := fun (base stride : Nat) => (a - base) % stride
  if a % 8 ≠ 0 then none
  else if inBlock a 0x300004000000 512 0x10000 then some (.core (unit 0x300004000000 0x10000) (off 0x300004000000 0x10000))
  else if inBlock a 0x300008000000 16 0x10000 then
    let o := off 0x300008000000 0x10000
    if o < 0x2000 then some (.chan (unit 0x300008000000 0x10000 * 128 + o / 0x40) (o % 0x40)) else none
  else if inBlock a 0x30000A000000 16 0x10000 then some (.herd (unit 0x30000A000000 0x10000) (off 0x30000A000000 0x10000))
  else if inBlock a 0x30000C000000 16 0x10000 then
    let k := unit 0x30000C000000 0x10000
    let o := off 0x30000C000000 0x10000
    if o < 0x8000 then some (.tally (k * 4096 + o / 8))
    else if o < 0x8200 then some (.fold k ((o - 0x8000) / 0x20) (o % 0x20)) else none
  else if inBlock a 0x30000D000000 16 0x10000 then some (.seq (unit 0x30000D000000 0x10000) (off 0x30000D000000 0x10000))
  else if inBlock a 0x30000E000000 8 0x1000 then some (.mem (unit 0x30000E000000 0x1000) (off 0x30000E000000 0x1000))
  else if inBlock a 0x30000E008000 12 0x1000 then some (.mem (8 + unit 0x30000E008000 0x1000) (off 0x30000E008000 0x1000))
  else if inBlock a 0x300010000000 16 0x100 then some (.port (unit 0x300010000000 0x100) (off 0x300010000000 0x100))
  else if inBlock a 0x300010010000 4 8 then some (.fab (a - 0x300010010000))
  else if inBlock a 0x300010020000 128 8 then some (.member (unit 0x300010020000 8))
  else if inBlock a 0x300010020400 128 8 then some (.group (unit 0x300010020400 8))
  else if inBlock a 0x300010040000 4096 32 then some (.tree (unit 0x300010040000 32) (off 0x300010040000 32 / 8))
  else if inBlock a 0x300010080000 1024 32 then some (.import_ (unit 0x300010080000 32) (off 0x300010080000 32 / 8))
  else if inBlock a 0x3000100C0000 2 8 then some (.cp (a - 0x3000100C0000))
  else if inBlock a 0x300018000000 11 8 then some (.cone (a - 0x300018000000))
  else if inBlock a 0x30001C000000 35 8 then some (.floor (a - 0x30001C000000))
  else if inBlock a 0x300024000000 12 8 then some (.life (a - 0x300024000000))
  else if inBlock a 0x300028000000 2 8 then some (.power (a - 0x300028000000))
  else if inBlock a 0x300040000000 16384 0x100 then some (.ctx (unit 0x300040000000 0x100) (off 0x300040000000 0x100))
  else none

/-- Whether an address lies in the range of registers (Table 0.6). -/
def inCsr (a : Nat) : Bool := decide (csrBase ≤ a ∧ a < csrBase + 0x100000000)

/-- The bits of `old` outside the mask, those of `new` inside it. -/
def maskIn (mask old new : W64) : W64 := (old &&& ~~~mask) ||| (new &&& mask)

/-! ### Status words -/

/-- `CH_STATE` (Table 11.2). -/
def chanWord (h : Chan) : W64 := BitVec.ofNat 64 (tagsHeld h * 2 ^ 32 + h.st)

/-- `HERD_LIVE`n (Table 13.9). -/
def liveWord (q : Option HerdPair) : W64 :=
  match q with
  | none => 0
  | some p => BitVec.ofNat 64 (2 ^ 63 + (if p.half then 2 ^ 62 else 0) + p.serial * 2 ^ 50 + p.ctx * 2 ^ 36 + (if p.final then 1 else 0))

/-- `PORT_STAT` (Table 15.11). -/
def portWord (q : Port) : W64 := BitVec.ofNat 64 (q.st * 2 ^ 62 + q.lanes.toNat * 2 ^ 56 + q.retrain * 2 ^ 32 + q.replay)

/-- `FAB_CFG` (Table 15.10). -/
def fabWord (s : State) : W64 :=
  BitVec.ofNat 64 ((if s.fabric.ready then 2 ^ 63 else 0) + s.fabric.tmo.toNat % 2 ^ 16 * 2 ^ 32 + s.fabric.devaddr.toNat)

/-- `BEAT_STAT` (Table 15.8). -/
def beatWord (s : State) : W64 :=
  let f := s.fabric
  BitVec.ofNat 64 ((if f.lock then 2 ^ 63 else 0) + (if f.hold then 2 ^ 62 else 0) + f.src * 2 ^ 60
    + (BitVec.ofInt 16 f.err).toNat * 2 ^ 32 + f.lost * 2 ^ 16 + (BitVec.ofInt 16 f.rate).toNat)

/-- The Cone's level L (R388). -/
def coneLevel (s : State) : Nat := Min.min 7 (s.secure.points / Max.max 1 (bits s.secure.cfg 47 32))

/-- `CONE_STAT` (Table 17.4). -/
def coneWord (s : State) : W64 :=
  let c := s.secure
  BitVec.ofNat 64 (coneLevel s * 2 ^ 61 + (match c.round with | some r => 2 ^ 60 + (if r.emergency then 2 ^ 59 else 0) | none => 0)
    + c.points * 2 ^ 32 + c.missRun)

/-- `PHASE` of `SEC_STAT`: 0 idle, 1 armed, 2 copying, 3 sealing, 4 comparing, 5 recovering. -/
def secPhase (s : State) : Nat :=
  if s.secure.restore.isSome then 5
  else match s.secure.round with
    | some r => if r.sealing then 3 else if r.regions.any fun g => g.copied then 2 else 1
    | none => if s.gates.isEmpty then 0 else 4

/-- `SEC_STAT` (Table 17.8). -/
def secWord (s : State) : W64 :=
  let c := s.secure
  let b := fun (x : Bool) (n : Nat) => if x then 2 ^ n else 0
  BitVec.ofNat 64 (c.roundNo * 2 ^ 16 + b c.lslot 11 + b c.pslot 10 + b c.lok 9 + b c.pok 8 + secPhase s)

/-- The good cores of a floor plan. -/
def goodCount (p : Plan) : Nat := (setBitsOf 512 p.cores.toNat).length

/-- `FP_HDR` and `FP_UNITS` (Tables 18.9, 18.10). -/
def planHdr (s : State) : W64 :=
  BitVec.ofNat 64 (s.plan.serial.toNat * 2 ^ 32 + s.part.grade * 2 ^ 24 + s.plan.mode * 2 ^ 22 + Min.min 63 s.plan.disag * 2 ^ 16 + goodCount s.plan)
/-- See `planHdr`. -/
def planUnits (p : Plan) : W64 :=
  BitVec.ofNat 64 (p.hstacks.toNat * 2 ^ 56 + p.channels.toNat * 2 ^ 44 + p.dies.toNat * 2 ^ 40 + p.clusters.toNat)
/-- `FP_PORT`: the lanes of each port present. -/
def planPorts (s : State) : W64 :=
  BitVec.ofNat 64 (((List.range 16).map fun p => if s.plan.ports.getLsbD p then (portOf s p).lanes.toNat * 2 ^ (4 * p) else 0).foldl (· + ·) 0)

/-- `BOOT_STAT`. -/
def bootWord (s : State) : W64 := BitVec.ofNat 64 (s.boot.stage * 2 ^ 60 + s.boot.state * 2 ^ 58)

/-- `SVC_STAT` (Table 18.17). -/
def svcWord (s : State) : W64 :=
  let out := fun (kind : Nat) => ((s.service.closing ++ s.service.drained).filter fun u => u.1 == kind).foldl (fun a u => a ||| 2 ^ u.2) 0
  BitVec.ofNat 64 (out 0 * 2 ^ 48 + out 1 * 2 ^ 40 + out 2 * 2 ^ 34
    + (match s.service.running with | some q => q.action * 2 ^ 8 + q.kind * 2 ^ 6 + q.unit | none => 0))

/-- Epoch fuses used (R442). -/
def epochsUsed (s : State) : Nat := (setBitsOf 1024 s.part.epochs.toNat).length

/-- `SIGN_STAT` (Table 19.8). DEDUCED, log entry 41. -/
def signWord (s : State) : W64 :=
  BitVec.ofNat 64 ((if s.life.active then 2 ^ 63 else 0) + s.life.epoch % 1024 * 2 ^ 53 + s.life.leaf * 2 ^ 42 + epochsUsed s * 2 ^ 31)

/-- `PWR_STAT` (Table 20.5). -/
def pwrWord (s : State) : W64 :=
  let p := s.power
  BitVec.ofNat 64 (p.pavg % 2 ^ 16 * 2 ^ 48 + p.tmax % 256 * 2 ^ 40 + p.clkMHz / 10 * 2 ^ 28 + p.cause * 2 ^ 26 + p.droop)

/-- `SEQ_FSTAT` (Table 21.6). -/
def fstatWord (q : RecQueue) : W64 := BitVec.ofNat 64 (q.lost * 2 ^ 16 + q.held.length)
/-- Whether the interrupt of a record queue is raised: a sequencer's fault interrupt, and the MC's internal one (R472). -/
def recordInterrupt (q : RecQueue) : Bool := !q.held.isEmpty
/-- `SEQ_FHEAD`k. -/
def fheadWord (q : RecQueue) (k : Nat) : W64 := match q.held with | [] => 0 | r :: _ => wordAt r.bytes (8 * k)

/-- Whether the quarter of the context table that holds descriptor x is there (R368). -/
def ctxThere (s : State) (x : Nat) : Bool := s.plan.dies.getLsbD (x / 4096)

/-! ### Reads -/

/-- The value that a read of a register answers; none where the block has no register there. -/
def regVal (s : State) : RegAt → Option W64
  | .core c off => coreReg s c off
  | .chan g off =>
    let h := chanOf s g
    if off = 0 then some (chanWord h) else if off = 8 then some h.head else if off = 0x10 then some h.own
    else if off = 0x18 then some h.saddr else if off = 0x20 then some (BitVec.ofNat 64 h.pace) else none
  | .herd k off =>
    let h := herdOf s k
    if off < 0x20 then some (liveWord ((h.pairs.getD (off / 8) none)))
    else if off = 0x20 then some (BitVec.ofNat 64 (h.dropped * 2 ^ 32 + h.kept))
    else if off = 0x28 then some (BitVec.ofNat 64 (h.stale * 2 ^ 32 + h.refused)) else none
  | .tally p => some (BitVec.ofNat 64 (tallyAt s p))
  | .fold k f off =>
    let v := foldOf s k f
    if off = 0 then some v.defn else if off = 8 then some v.grp
    else if off = 0x10 then some (BitVec.ofNat 64 (v.rounds.toNat * 2 ^ 32 + v.arrived.toNat)) else none
  | .seq k off =>
    let q := mget {} s.seqs k
    if off = 0 then some (fstatWord q) else if off = 8 then some 0
    else if 0x40 ≤ off ∧ off < 0x80 then some (fheadWord q ((off - 0x40) / 8)) else none
  | .mem u off => memReg (unitOf s u) off
  | .port p off =>
    let q := portOf s p
    if off = 0 then some 0 else if off = 8 then some (portWord q) else if off = 0x10 then some q.neigh
    else if off = 0x18 then some q.neighP else if off = 0x20 then some q.delay else none
  | .fab off =>
    if off = 0 then some (fabWord s) else if off = 8 then some (takeFree s).1
    else if off = 0x10 then some s.fabric.beatCtl else some (beatWord s)
  | .member m => some (mget 0 s.fabric.memberRt m)
  | .group g => some (mget 0 s.fabric.groupRt g)
  | .tree g w => some (groupWord s g w)
  | .import_ i w => some (mget 0 s.fabric.imports (i * 4 + w))
  | .cp off => if off = 0 then some s.fabric.hbp else some (BitVec.ofNat 64 s.fabric.miss)
  | .cone off =>
    let c := s.secure
    if off = 0 then some c.cfg else if off = 8 then some c.weights else if off = 0x10 then some c.ext else if off = 0x18 then some (coneWord s)
    else if off = 0x20 then some c.last else if off = 0x28 then some c.plan else if off = 0x30 then some c.keepLoc
    else if off = 0x38 then some c.keepPart else if off = 0x40 then some c.feed else if off = 0x48 then some (secWord s) else some c.repl
  | .floor off =>
    if off = 0 then some (planHdr s) else if off = 8 then some (planUnits s.plan) else if off = 0x10 then some (planPorts s)
    else if off = 0x18 then some s.part.serialNo
    else if off < 0x60 then some (BitVec.ofNat 64 (s.plan.cores.toNat >>> (64 * ((off - 0x20) / 8))))
    else if off = 0x60 then some s.plan.beat
    else if off = 0x100 then some (bootWord s) else if off = 0x108 then some s.service.minReg else if off = 0x110 then some (svcWord s)
    else some 0
  | .life off =>
    if off = 0 then some (lcStat s) else if off = 8 then some (signWord s) else if off = 0x10 then some s.life.nonce
    else if off < 0x20 then none
    else if off < 0x40 then some (wordAt s.life.pubRoot (off - 0x20)) else some (wordAt s.life.pubSeed (off - 0x40))
  | .power off => if off = 0 then some (BitVec.ofNat 64 s.power.cap) else some (pwrWord s)
  | .ctx x off => if ctxThere s x then some (cw s x off) else none

/-- What a read leaves: the read-clear fields are cleared (RC), `SB_STAT.HIGH` becomes `USED`. DESIGN CHOICE, log entry 31. -/
def regRead (s : State) : RegAt → State
  | .core c off => modCore s c fun k => coreRegRead k off
  | .herd k off =>
    if off = 0x20 then modHerd s k fun h => { h with dropped := 0, kept := 0 }
    else if off = 0x28 then modHerd s k fun h => { h with stale := 0, refused := 0 } else s
  | .seq k off => if off = 0 then { s with seqs := mset {} s.seqs k { mget {} s.seqs k with lost := 0 } } else s
  | .mem u off => modUnit s u fun m => memRegRead m off
  | .port p off => if off = 8 then modPort s p fun q => { q with retrain := 0, replay := 0 } else s
  | .fab off =>
    if off = 0x18 then { s with fabric := { s.fabric with lost := 0 } }
    else if off = 8 then (takeFree s).2 else s
  | .cp off => if off = 8 then { s with fabric := { s.fabric with miss := 0 } } else s
  | .power off => if off = 8 then { s with power := { s.power with droop := 0 } } else s
  | _ => s

/-- Read a register for the MC path: its value is answered. -/
def readReg (s : State) (r : RegAt) : State :=
  match regVal s r with
  | some v => answer (regRead s r) v
  | none => s

/-! ### Writes -/

/-- A register write is refused (R467): subcode 0x01 for what is held, 0x02 for the value. -/
def refuseReg (s : State) (sub base off : Nat) : State := refuse s sub (BitVec.ofNat 64 (base + off)) (BitVec.ofNat 64 off)

/-- The bits of `CTX_WIN`n`_BASE` and of `CTX_WIN`n`_BOUND` (Tables 3.6, 3.7). -/
def winMask (bound : Bool) : W64 := if bound then 0x0000FFFFFFFFFFC3 else 0xFFFFFFFFFFFFFFC0

/-- The bits of `SPW` (Table 3.5). -/
def spwMask : W64 := 0xFFFF003F001F0001

/-- The registers of a core that only the MC writes, and only while no context is held (R43, R82). DEDUCED, log entry 53. -/
def coreRegWrite (k : Core) (off : Nat) (v : W64) : Core :=
  if off = 0 then { k with coreId := v &&& 0x0000FFFFFFFFFFF0 }
  else if off = 8 then (if bits v 1 0 < 2 then { k with coreMode := setBits k.coreMode 1 0 (bits v 1 0) } else k)
  else if off = 0x10 then { k with queueBind := v &&& 0xFFFFFFFF }
  else if off = 0x18 then { k with dslotOwn := v }
  else if off = 0x30 then { k with coreEntry := v &&& 0x0FFFFFFFFFFFFFFF }
  else if off = 0x40 then { k with spw := v &&& spwMask }
  else if off % 16 = 0 then { k with winBase := mset 0xFFFF000000000000 k.winBase ((off - 0x80) / 16) (v &&& winMask false) }
  else { k with winBound := mset 0 k.winBound ((off - 0x80) / 16) (v &&& winMask true) }

/-- Whether a register of the core block may be written. -/
def coreRegRw (off : Nat) : Bool :=
  decide (off = 0 ∨ off = 8 ∨ off = 0x10 ∨ off = 0x18 ∨ off = 0x30 ∨ off = 0x40 ∨ (0x80 ≤ off ∧ off < 0x100))

/-- A write in a core's register block. -/
def writeCoreReg (s : State) (c off : Nat) (v : W64) : State :=
  let base := 0x300004000000 + c * 0x10000
  if !coreRegRw off then s
  else if (ctxOf (coreOf s c)).isSome then refuseReg s 1 base off
  else if off = 0x40 ∧ badSpw v then refuseReg s 2 base off
  else
    let s1 := modCore s c fun k => coreRegWrite k off v
    if off = 0x40 then spwChanged s1 c (coreOf s c).spw else s1

/-- Whether a live context reaches a physical tally (R289). DEDUCED, log entry 53. -/
def tallyLive (s : State) (p : Nat) : Bool := (busyCtxs s).any fun x => ctxState s x == 2 && reaches s x (heldCores s x) p

/-- Whether a definition breaks Table 12.5 in cluster k. DEDUCED, log entry 53. -/
def badFold (s : State) (k : Nat) (v : W64) : Bool :=
  bits v 63 62 != 0 && (!bit v (32 + k) || (bits v 63 62 == 1 && bits v 47 32 != 2 ^ k)
    || (setBitsOf 32 (bits v 31 0)).any fun q => ctxOf (coreOf s (32 * k + q)) != some (bits v 61 48))

/-- Whether a fold of group g is granted (R356). -/
def groupHeld (s : State) (g : Nat) : Bool := s.folds.any fun p => foldScope p.2 == 3 && bits p.2.grp 11 0 == g

/-- Whether any context is live. -/
def anyLive (s : State) : Bool := (busyCtxs s).any fun x => ctxState s x == 2

/-- Bits of a routing entry, a group entry word, an import entry word (Tables 15.4 to 15.6). -/
def routeMask : W64 := 0x8000000000FFFFFF
/-- See `routeMask`. -/
def treeMask (w : Nat) : W64 := if w = 0 then 0x8FFFFFFFFFFFFFFF else if w = 3 then 0x0000FFFFFFFFFFFF else BitVec.allOnes 64
/-- See `routeMask`. -/
def importMask (w : Nat) : W64 := if w = 0 then 0xF0000000FFFFFFFF else if w = 1 then 0xFFFFFFFF else 0x0000FFFFFFFFFFC0

/-- `FAB_CFG` is written (R353, R354): `DEVADDR` stays while a context is live. DEDUCED, log entry 53. -/
def writeFabCfg (s : State) (v : W64) : State :=
  let live := anyLive s
  let s := { s with fabric := { s.fabric with ready := bit v 63, tmo := BitVec.ofNat 64 (bits v 47 32)
                                              devaddr := if live then s.fabric.devaddr else v.setWidth 16 } }
  if live then refuseReg s 1 0x300010010000 0 else s

/-- `PORT_CFG` is written (R354): a changed neighbour is accepted. -/
def writePortCfg (s : State) (p : Nat) (v : W64) : State :=
  let q := portOf s p
  if bit v 0 ∧ q.st = 3 then setPort s p { q with st := 2 } else s

/-- Whether these registers pair the device with a partner of its own feed domain without override (R392). -/
def sharesFeed (part feed : W64) : Bool := bit part 0 && bits feed 31 16 == bits feed 15 0 && !bit feed 63

/-- A write of a Cone or securing register (Tables 17.1 to 17.7). -/
def writeCone (s : State) (off : Nat) (v : W64) : State :=
  let c := s.secure
  let no := fun (sub : Nat) => refuseReg s sub 0x300018000000 off
  if off = 0 then
    if bits v 63 61 = 0 ∨ bits v 60 58 < bits v 63 61 ∨ bits v 47 32 = 0 then no 0x30
    else { s with secure := { c with cfg := v &&& 0xFC00FFFFFFFFFFFF } }
  else if off = 8 then { s with secure := { c with weights := v } }
  else if off = 0x10 then { s with secure := { c with ext := v &&& 0xFF } }
  else if off = 0x28 then { s with secure := { c with plan := v } }
  else if off = 0x30 then { s with secure := { c with keepLoc := v &&& 0xFFFFFFFFFC000001 } }
  else if off = 0x38 then
    let w := v &&& 0xFFFFFFFFFC000001
    if sharesFeed w c.feed then no 0x31 else { s with secure := { c with keepPart := w } }
  else if off = 0x40 then
    let w := v &&& 0x80000000FFFFFFFF
    if sharesFeed c.keepPart w then no 0x31 else { s with secure := { c with feed := w } }
  else if off = 0x50 then { s with secure := { c with repl := v &&& 0x8000000000000FFF } }
  else s

/-- The writable bits of a word of a context descriptor but the first (Table 16.1). -/
def ctxMask (off : Nat) : W64 :=
  if off = 8 then 0xFFFFFFFF
  else if off = 0x10 then spwMask
  else if off = 0x18 then 0x3FFFFFFFFFFFFF00
  else if 0x20 ≤ off ∧ off < 0xA0 then winMask (off % 16 == 8)
  else if 0xA0 ≤ off ∧ off < 0xE0 then 0xFFFFFFFF00000FFF
  else if off = 0xE0 then 0x0000FFFFFFFFFFFF
  else BitVec.allOnes 64

/-- A write of a context descriptor (R369): while live or releasing only `WLIM`, and `DISC` by writing 1. DEDUCED, log entry 53. -/
def writeCtx (s : State) (x off : Nat) (v : W64) : State :=
  let busy := decide (2 ≤ ctxState s x)
  let old := cw s x off
  let no := refuseReg s 0x20 (0x300040000000 + x * 0x100) off
  if !ctxThere s x then s
  else if off = 0 then
    let st := bits v 63 62
    if (if busy then st ≠ ctxState s x ∨ bits v 31 0 ≠ bits old 31 0 else 2 ≤ st) then no
    else
      let w := maskIn 0xC000FFFFFFFFFFFF old v
      setCw s x 0 (if bit v 61 then setBits w 61 61 0 else w)
  else if busy then no
  else setCw s x off (maskIn (ctxMask off) old v)

/-- The grade's cap in W, clock in MHz, and guaranteed good cores (Table 0.1). -/
def gradeCap (s : State) : Nat := if s.part.grade = 0x0A then 2400 else if s.part.grade = 0x0B then 2000 else 1500
/-- See `gradeCap`. -/
def gradeClk (s : State) : Nat := if s.part.grade = 0x0A then 3300 else if s.part.grade = 0x0B then 3100 else 2800
/-- See `gradeCap`. -/
def gradeCores (s : State) : Nat := if s.part.grade = 0x0A then 496 else if s.part.grade = 0x0B then 432 else 368

/-- The head record of a sequencer queue is discarded (R472). -/
def popSeq (s : State) (k : Nat) (v : W64) : State :=
  let q := mget {} s.seqs k
  if bit v 0 then { s with seqs := mset {} s.seqs k { q with held := q.held.drop 1 } } else s

/-- The field-removal record as its copy in flash holds it: the layout of Table 18.8 with a serial, and the digest of it (R428).
DEDUCED, log entry 32. -/
def removalBytes (p : Part) (serial : BitVec 32) : List Byte :=
  let ws : List Nat := [serial.toNat * 2 ^ 32 + p.grade * 2 ^ 24, p.remStacks.toNat * 2 ^ 56 + p.remChannels.toNat * 2 ^ 44 + p.remDies.toNat * 2 ^ 40,
    ((setBitsOf 16 p.remPorts.toNat).map fun q => 15 * 2 ^ (4 * q)).foldl (· + ·) 0, p.serialNo.toNat]
    ++ (List.range 8).map fun w => nbits p.remCores.toNat (64 * w + 63) (64 * w)
  let b := padTo 256 ((ws.map (leBytes 8)).flatten)
  b ++ digest32 b

/-- Whether a copy is valid, and its serial. DEDUCED, log entry 32. -/
def removalValid (b : List Byte) : Bool := b.length == 288 && digest32 (b.take 256) == b.drop 256
/-- See `removalValid`. -/
def removalSerial (b : List Byte) : Nat := if removalValid b then numAt b 4 4 + 1 else 0

/-- The newest valid copy, where there is one: the first (false) or the second (true). DEDUCED, log entry 32. -/
def newestRemoval (p : Part) : Option Bool :=
  if removalSerial p.remA = 0 ∧ removalSerial p.remB = 0 then none else some (decide (removalSerial p.remA < removalSerial p.remB))

/-- Write the record to the copy that does not hold the newest valid one, unless that one says the same already (R428). DEDUCED, log entry 32. -/
def storeRemoval (p : Part) (serial : BitVec 32) : Part :=
  let b := removalBytes p serial
  let same := fun (c : List Byte) => (c.drop 8).take 248 == (b.drop 8).take 248
  match newestRemoval p with
  | some false => if same p.remA then p else { p with remB := b }
  | some true => if same p.remB then p else { p with remA := b }
  | none => if p.remCores = 0 ∧ p.remStacks = 0 ∧ p.remChannels = 0 ∧ p.remPorts = 0 ∧ p.remDies = 0 then p else { p with remA := b }

/-- The field-removal record with its word at `off` cut to the units that `v` still names (R428, Table 18.8). DEDUCED, log entry 32. -/
def keepRemoved (p : Part) (off : Nat) (v : W64) : Part :=
  if off = 8 then { p with remStacks := p.remStacks &&& BitVec.ofNat 8 (bits v 63 56), remChannels := p.remChannels &&& BitVec.ofNat 12 (bits v 55 44),
                              remDies := p.remDies &&& BitVec.ofNat 4 (bits v 43 40) }
  else if off = 0x10 then
    { p with remPorts := p.remPorts &&& BitVec.ofNat 16 (((List.range 16).map fun i => if bits v (4 * i + 3) (4 * i) = 0 then 0 else 2 ^ i).foldl (· + ·) 0) }
  else if 0x20 ≤ off ∧ off < 0x60 then
    let lo := 64 * ((off - 0x20) / 8)
    { p with remCores := p.remCores &&& ~~~(BitVec.ofNat 512 ((2 ^ 64 - 1 - v.toNat) * 2 ^ lo)) }
  else p

/-- A write in the floor plan block names the field-removal record of the same layout: it may only take units out, and only in
Greenware and Sherd (R428; DEDUCED, log entry 32). -/
def writeRemoval (s : State) (off : Nat) (v : W64) : State :=
  let p := keepRemoved s.part off v
  if p = s.part then s
  else if makerOpen s then { s with part := storeRemoval p (BitVec.ofNat 32 (Max.max (removalSerial p.remA) (removalSerial p.remB))) }
  else refuseReg s 0x44 0x30001C000000 off

/-- A write of a register on the MC path; read-only registers and reserved bits take nothing (R15). DEDUCED, log entry 53. -/
def writeReg (s : State) (r : RegAt) (v : W64) : State :=
  match r with
  | .core c off => writeCoreReg s c off v
  | .chan g off =>
    if off = 0x10 then modChan s g fun h => { h with own := v &&& 0x00003FFF8000001F }
    else if off = 0x18 then modChan s g fun h => { h with saddr := v } else s
  | .tally p =>
    if tallyLive s p then refuseReg s 1 (0x30000C000000 + p / 4096 * 0x10000) (p % 4096 * 8)
    else { s with tallies := mset 0 s.tallies p (v.setWidth 48) }
  | .fold k f off =>
    if off = 0 then
      if badFold s k v then refuseReg s 2 (0x30000C000000 + k * 0x10000) (0x8000 + f * 0x20)
      else setFold s k f { foldOf s k f with defn := v }
    else if off = 8 then setFold s k f { foldOf s k f with grp := v &&& 0xFFF } else s
  | .seq k off => if off = 8 then popSeq s k v else s
  | .mem u off => modUnit s u fun m => memRegWrite m off v
  | .port p off => if off = 0 then writePortCfg s p v else s
  | .fab off =>
    if off = 0 then writeFabCfg s v
    else if off = 0x10 then { s with fabric := { s.fabric with beatCtl := v &&& 0x81FF000000000000 } } else s
  | .member m => { s with fabric := { s.fabric with memberRt := mset 0 s.fabric.memberRt m (v &&& routeMask) } }
  | .group g => { s with fabric := { s.fabric with groupRt := mset 0 s.fabric.groupRt g (v &&& routeMask) } }
  | .tree g w =>
    if groupHeld s g then refuseReg s 1 0x300010040000 (32 * g + 8 * w)
    else { s with fabric := { s.fabric with groups := mset 0 s.fabric.groups (g * 4 + w) (v &&& treeMask w) } }
  | .import_ i w => { s with fabric := { s.fabric with imports := mset 0 s.fabric.imports (i * 4 + w) (v &&& importMask w) } }
  | .cp off => if off = 0 then { s with fabric := { s.fabric with hbp := v &&& 0xFFFFFFFF } } else s
  | .cone off => writeCone s off v
  | .floor off =>
    if off = 0x108 then { s with service := { s.service with minReg := v &&& 0xFFFFFF } }
    else if off < 0x100 then writeRemoval s off v else s
  | .power off =>
    if off = 0 ∧ 600 ≤ bits v 15 0 ∧ bits v 15 0 ≤ gradeCap s then { s with power := { s.power with cap := bits v 15 0 } } else s
  | .ctx x off => writeCtx s x off v
  | _ => s

/-- A write by the MC path at a local address; a halted device takes none (R414). DEDUCED, log entry 53. -/
def mcWrite (s : State) (a : Nat) (v : W64) : State :=
  if s.boot.state = 2 then s
  else match regAt a with
    | some r => writeReg s r v
    | none => s

/-- A read by the MC path of a register address; where the block has none, what is answered is a free value (DESIGN CHOICE, log entry 31). -/
def mcRegRead (s : State) (a : Nat) : State :=
  match regAt a with
  | some r => if (regVal s r).isSome then readReg s r else answer (takeFree s).2 (takeFree s).1
  | none => answer (takeFree s).2 (takeFree s).1

/-! ### Reads that the life-cycle closes (R382, R440, R441) -/

/-- The core whose scratchpad holds an address. -/
def spadCore (a : Nat) : Nat := (a - spadBase) / 0x400000

/-- The subcode with which a read by the MC path is refused, where it is: a releasing core's stores outside Greenware and
Sherd, anything of memory and cores during destruction, a core's stores and the tallies where debug is closed. DEDUCED, log entry 54. -/
def readClosed (s : State) (a : Nat) : Option Nat :=
  let coreBlock := inBlock a 0x300004000000 512 0x10000
  let tally := inBlock a 0x30000C000000 16 0x10000 && decide (a % 0x10000 < 0x8000)
  if destroying s ∧ (!inCsr a ∨ coreBlock) then some 0x54
  else if inSpad a ∧ (coreOf s (spadCore a)).scrub ≠ .clean ∧ !makerOpen s then some 0x21
  else if (inSpad a ∨ tally) ∧ !debugOpen s then some 0x54
  else none

/-- A read of 8 bytes of memory by the MC path: an uncorrectable line or an address that is not there answers nothing and
is recorded (R13, R331). DEDUCED, log entry 54. -/
def mcMemRead (s : State) (a : Nat) : State :=
  let fault := fun (s : State) (r : FaultRec) => reportMC s (.fault { r with ukind := 0xD, beat := beatW s })
  if !populatedRange s a 8 then
    fault s { cls := 2, sub := 5, ukind := 0xD, addr := globalLine s a, w1 := 8, w2 := noIndex }
  else match (if inSpad a then none else badIn s a 8) with
    | some l => fault (countUncorr s l none) (uncorrRec s 0xD (uncorrSub l) l 0 none)
    | none => answer (noteSoft s a 8) (wordAt (readMem s a 8) 0)

/-- `MC_PATH_READ` (R382, R440, R441). -/
def execMcPathRead (addr : BitVec 48) (s : State) : Out State :=
  let a := addr.toNat
  match readClosed s a with
  | some sub => .next (refuse s sub (BitVec.ofNat 64 a) (if inCsr a then BitVec.ofNat 64 (a % 0x10000) else 0))
  | none => .next (if inCsr a then mcRegRead s a else mcMemRead s a)

/-- `REGISTER_WRITE` (R43, R467). -/
def execRegisterWrite (addr : BitVec 48) (v : W64) (s : State) : Out State := .next (mcWrite s addr.toNat v)

/-- `PORT_CFG_ACCEPT` (R354). -/
def execPortCfgAccept (p : Fin 16) (w : W64) (s : State) : Out State := .next (mcWrite s (0x300010000000 + p.val * 0x100) w)

/-- `FAB_CFG_READY` (R353). -/
def execFabCfgReady (v : W64) (s : State) : Out State := .next (mcWrite s 0x300010010000 v)

/-- `CTX_DISC_CLEAR` (R369). -/
def execCtxDiscClear (x : CtxId) (w : W64) (s : State) : Out State := .next (mcWrite s (0x300040000000 + x.val * 0x100) w)

/-- `SEQ_FPOP` (R472). -/
def execSeqFpop (k : ClusterId) (w : W64) (s : State) : Out State := .next (mcWrite s (0x30000D000008 + k.val * 0x10000) w)

/-- `SEQ_FSTAT_READ` (R471). -/
def execSeqFstatRead (k : ClusterId) (s : State) : Out State := .next (readReg s (.seq k.val 0))

/-- `HERD_CNT0_READ` (R318). -/
def execHerdCnt0Read (k : ClusterId) (s : State) : Out State := .next (readReg s (.herd k.val 0x20))

/-- `HERD_CNT1_READ` (R318). -/
def execHerdCnt1Read (k : ClusterId) (s : State) : Out State := .next (readReg s (.herd k.val 0x28))

/-- `PORT_STAT_READ` (R344). -/
def execPortStatRead (p : Fin 16) (s : State) : Out State := .next (readReg s (.port p.val 8))

/-- `BEAT_STAT_READ` (R362). -/
def execBeatStatRead (s : State) : Out State := .next (readReg s (.fab 0x18))

/-- `CP_STAT_READ` (R366). -/
def execCpStatRead (s : State) : Out State := .next (readReg s (.cp 8))

/-- `PWR_STAT_READ` (R455). -/
def execPwrStatRead (s : State) : Out State := .next (readReg s (.power 8))

/-- `RECORD_FORWARD` (R469): the MC forwards its head record on VC2 of the Gwemosin port, as soon as credits allow. DEDUCED, log entry 54. -/
def execRecordForward (s : State) : Out State :=
  match s.mcq.held with
  | [] => .next s
  | r :: rest =>
    let q := portOf s 16
    if 2 ≤ q.st ∧ 4 ≤ q.credits.getD 2 0 then
      let s := setPort s 16 { q with credits := q.credits.set 2 (q.credits.getD 2 0 - 4) }
      .next { s with mcq := { s.mcq with held := rest }, host := { s.host with vc2 := s.host.vc2 ++ [r] } }
    else .next s

end Sys2Proof.Machine
end

