-- ==== Sys2Proof/Machine/Deliver.lean ====
section
/-! DEFINITION. What a frame does at its destination (R292, R293, R295, R309, R332, R346, R351, R352, R357, R364, R371): writes
and reads under the import tables, responses, signals, folds and Herd messages; and the frames that this device itself sends
to a port or to itself (R347 to R350). -/

namespace Sys2Proof.Machine

open Sys2Proof

/-! ### Answers -/

/-- A response to a frame: its stream, tag, sequence. -/
def answerFrame (s : State) (f : Frame) (typ addr aux : Nat) (payload : List Byte) : Frame :=
  { newFrame s typ f.src.toNat f.stream.toNat f.skey addr aux payload with tag := f.tag, sseq := f.sseq }

/-- Acknowledge a frame received at port p (R346). -/
def acknowledge (s : State) (p : Nat) (f : Frame) : State := respond s p (answerFrame s f 4 f.addr.toNat 0 [])

/-- Return an error response of a reason (Table 15.3). -/
def respondError (s : State) (p : Nat) (f : Frame) (reason addr : Nat) : State := respond s p (errorFrame s f reason addr)

/-! ### Import tables (R352) -/

/-- Whether the import tables accept an access of n bytes by a frame; what the control node sends needs no entry (R365). -/
def imported (s : State) (p : Nat) (f : Frame) (n : Nat) (write : Bool) : Bool :=
  p == 16 || (List.range 1024).any fun i =>
    let w := fun (j : Nat) => mget (0 : W64) s.fabric.imports (i * 4 + j)
    let m := BitVec.ofNat 16 (bits (w 0) 31 16)
    bit (w 0) 63 && (f.src &&& m) == (BitVec.ofNat 16 (bits (w 0) 15 0) &&& m) && bit (w 0) 60 == f.mcf
      && (bit (w 0) 60 || f.skey == (w 1).setWidth 32)
      && decide (bits (w 2) 47 6 * 64 ≤ f.addr.toNat ∧ f.addr.toNat + n ≤ bits (w 3) 47 6 * 64)
      && bit (w 0) (if write then 61 else 62)

/-- Whether a frame comes from the MC path: the control node, or an engine acting for another device's MC (R441). -/
def fromMc (p : Nat) (f : Frame) : Bool := p == 16 || f.mcf

/-- Whether the memory that an accepted frame names is there and may be reached (R13, R81): registers by the MC path only. DEDUCED, log entry 54. -/
def reachable (s : State) (p : Nat) (f : Frame) (n : Nat) : Bool :=
  let a := f.addr.toNat
  if inCsr a then fromMc p f
  else populatedRange s a n && (!inSpad a || fromMc p f || (targetFlt s (globalLine s a) a n).isNone)

/-- A frame that no entry accepts is refused (R352, Table 15.12). DEDUCED, log entry 54. -/
def refuseImport (s : State) (p : Nat) (f : Frame) : State :=
  respondError (fabricMC s 5 (if p = 16 then 16 else p) (requestAddr f) 3 (srcDst f) 0) p f 3 f.addr.toNat

/-! ### Writes -/

/-- The name under which a frame works at a scratchpad of this device: a remote access of its source stream (R81). -/
def frameAgent (f : Frame) : Agent := .remote (8192 + f.stream.toNat)

/-- The bytes of a write or read frame in a scratchpad of this device: how many, and whether it writes; none for another frame. -/
def frameSpan (f : Frame) : Nat × Bool := (if f.typ = 1 then f.len.toNat else if f.typ = 2 then f.aux.toNat else 0, f.typ == 1)

/-- Whether a write or read frame waits for a range registered in the scratchpad that it names (R84), or for the bank ports it
needs there (R67, R70). -/
def spadWait (s : State) (f : Frame) : Bool :=
  let a := f.addr.toNat
  let sp := frameSpan f
  let ps := mapPorts s a sp.1 sp.2
  sp.1 != 0 && inSpad a && (mapHeld s (frameAgent f) a sp.1 sp.2 || ps.2.any (portTaken (coreOf s ps.1) s.clock.cycle (frameAgent f)))

/-- The bank ports of a write or read frame that is performed. -/
def spadTake (s : State) (f : Frame) : State :=
  let sp := frameSpan f
  if inSpad f.addr.toNat then
    let ps := mapPorts s f.addr.toNat sp.1 sp.2
    (askPorts s ps.1 (frameAgent f) ps.2).2
  else s

/-- The words of a write to registers, in order. -/
def writeRegs (s : State) (a : Nat) : List (List Byte) → State
  | [] => s
  | w :: t => writeRegs (mcWrite s a (wordAt w 0)) (a + 8) t

/-- A write whose turn has come is performed and answered. -/
def performWrite (s : State) (p : Nat) (f : Frame) : State :=
  let a := f.addr.toNat
  if !imported s p f f.len.toNat true || !reachable s p f f.len.toNat then refuseImport s p f
  else if inCsr a then
    let s := if a = cmdqAddr then (if f.len = 128 then enqueueCmd s f.payload else s) else writeRegs s a (chunks 8 f.payload)
    acknowledge s p f
  else
    match commit (spadTake s f) f.src.toNat f.stream.toNat a f.payload with
    | (s, none) => acknowledge s p f
    | (s, some e) =>
      let s := countUncorr s (e.addr.toNat % 2 ^ 48) none
      let s := reportMC s (.fault { uncorrRec s 0xB 3 (e.addr.toNat % 2 ^ 48) 0 none with unit := (unitOfAddr s (e.addr.toNat % 2 ^ 48)).getD 0, w2 := 1 })
      respondError s p f 4 (e.addr.toNat % 2 ^ 48)

/-- The reorder window of a source stream (R351). DEDUCED, log entry 54. -/
def windowOf (s : State) (f : Frame) : Reorder := (mget none s.fabric.reorder (f.src.toNat * 4096 + f.stream.toNat)).getD {}
/-- Replace it. -/
def setWindow (s : State) (f : Frame) (w : Reorder) : State :=
  { s with fabric := { s.fabric with reorder := mset none s.fabric.reorder (f.src.toNat * 4096 + f.stream.toNat) (some w) } }

/-- Perform the early writes of a window whose turn has come, in `SSEQ` order, up to one that waits for a scratchpad. -/
def flushWindow (f : Frame) : Nat → State → State
  | 0, s => s
  | fuel + 1, s =>
    let w := windowOf s f
    match w.early.find? fun e => e.2.sseq == w.next with
    | none => s
    | some e =>
      if spadWait s e.2 then spadTake s e.2
      else flushWindow f fuel
        (performWrite (setWindow s f { next := w.next + 1, early := w.early.filter fun x => x.2.sseq != w.next }) e.1 e.2)

/-- The early writes of every window go on (R84, R351). -/
def flushWindows (s : State) : State :=
  (s.fabric.reorder.filterMap fun w => match w.2 with | some r => r.early.head?.map fun e => (e.2, r.early.length) | none => none).foldl
    (fun s e => flushWindow e.1 e.2 s) s

/-- Windows that hold early writes. -/
def windowsUsed (s : State) : Nat :=
  (s.fabric.reorder.filter fun w => match w.2 with | some r => !r.early.isEmpty | none => false).length

/-- A write arrives (R351): performed in `SSEQ` order, held in its window of 64 frames while early, or refused where no window
is free. A number already performed is passed over. DEDUCED, log entry 54. -/
def writeArrives (s : State) (p : Nat) (f : Frame) : State :=
  let w := windowOf s f
  let ahead := (f.sseq - w.next).toNat
  if 0x8000 ≤ ahead then s
  else if 64 ≤ ahead ∨ (w.early.isEmpty ∧ 512 ≤ windowsUsed s) then respondError s p f 6 f.addr.toNat
  else if ahead = 0 then flushWindow f w.early.length (performWrite (setWindow s f { w with next := w.next + 1 }) p f)
  else setWindow s f { w with early := (w.early.filter fun e => e.2.sseq != f.sseq) ++ [(p, f)] }

/-! ### Reads -/

/-- The words of a read of registers, in order: what the reads leave, and the bytes. -/
def readRegs : Nat → State → Nat → State × List Byte
  | 0, s, _ => (s, [])
  | n + 1, s, a =>
    let s1 := mcRegRead s a
    let (s2, bs) := readRegs n s1 (a + 8)
    (s2, leBytes 8 ((s1.host.data.getD 0).toNat) ++ bs)

/-- A read request is served (R332, R352, R382): its data, or an error response in place of a line that cannot be corrected, the
server's MC told too. DEDUCED, log entry 54. -/
def readArrives (s : State) (p : Nat) (f : Frame) : State :=
  let a := f.addr.toNat
  let n := f.aux.toNat
  if 512 < n ∨ !imported s p f n false || !reachable s p f n then refuseImport s p f
  else match (if fromMc p f then readClosed s a else none) with
  | some sub => respondError (refuse s sub (BitVec.ofNat 64 a) (if inCsr a then BitVec.ofNat 64 (a % 0x10000) else 0)) p f 3 a
  | none =>
    if inCsr a then
      let (s, bs) := readRegs (n / 8) s a
      respond s p (answerFrame s f 3 a n bs)
    else match (if inSpad a then none else badIn s a n) with
    | some l =>
      let s := countUncorr s l none
      let s := reportMC s (.fault { uncorrRec s 0xB 5 l 0 none with unit := (unitOfAddr s l).getD 0, w2 := 1 })
      respondError s p f 4 l
    | none => respond (noteSoft (spadTake s f) a n) p (answerFrame s f 3 a n ((memRd s (frameAgent f)).bytes a n))

/-- The data of a read response reaches the unit that asked. -/
def giveData (s : State) (o : Outstanding) (bs : List Byte) : State :=
  match o.agent with
  | .mover g =>
    let h := chanOf s g
    let i := h.reqs.findIdx fun q => q.tag == o.frame.tag.toNat && q.data.isNone
    match h.reqs[i]? with
    | some q => relayImageDone (setChan s g { h with reqs := h.reqs.set i { q with data := some bs } }) g
    | none =>
      let a := o.frame.dst.toNat * 2 ^ 48 + o.frame.addr.toNat
      chanFetch (setChan s g { h with got := bs.zipIdx.foldl (fun m (b, i) => mput (a + i) (some b) m) h.got }) g
  | .engine .fetch => fetchAnswer s o.core o.frame.addr.toNat bs
  | .remote 2 =>
    { s with secure := { s.secure with fetched := mput (o.frame.dst.toNat * 2 ^ 48 + o.frame.addr.toNat) bs s.secure.fetched } }
  | _ => s

/-- A read response (R342, R346). -/
def responseArrives (s : State) (f : Frame) : State :=
  match outstFor s f with
  | none => s
  | some o => if o.frame.typ = 2 then giveData (dropOutst s f) o f.payload else s

/-- An acknowledgement completes a remote write or message (R346). -/
def ackArrives (s : State) (f : Frame) : State :=
  match outstFor s f with
  | none => s
  | some o => if o.frame.typ = 2 then s else settleUnit (dropOutst s f) o

/-! ### Signals and folds -/

/-- A counted signal is accepted and held, or refused (R292). DEDUCED, log entry 15. -/
def signalArrives (s : State) (p : Nat) (f : Frame) : State :=
  let a := f.addr.toNat
  if a < 0x300080000000 ∨ 0x30009FFFFFF8 < a then respondError s p f 7 a
  else
    let (s, ok) := acceptCounted s f.src.toNat f.stream.toNat f.skey a f.aux.toNat
    if ok then acknowledge s p f else respondError s p f 7 a

/-- Fold number and group of a fold message. -/
def foldNum (f : Frame) : Nat := bits f.aux 3 0
/-- See `foldNum`. -/
def foldGroup (f : Frame) : Nat := bits f.aux 15 4

/-- The first cluster in which fold f is a fabric fold of group g; the first in which it is one of any group. -/
def foldPlace (s : State) (f g : Nat) : Option Nat :=
  (List.range 16).find? fun k => foldScope (foldOf s k f) == 3 && bits (foldOf s k f).grp 11 0 == g
/-- See `foldPlace`. -/
def foldGrouped (s : State) (f : Nat) : Option Nat := (List.range 16).find? fun k => foldScope (foldOf s k f) == 3

/-- An arrival from a child (R357): counted toward the parent's round, or discarded where the fold is another group's. DEDUCED, log entry 54. -/
def arrivalArrives (s : State) (p : Nat) (f : Frame) : State :=
  let n := foldNum f
  match foldPlace s n (foldGroup f) with
  | none => fabricMC s 9 p 0 0 (srcDst f) (BitVec.ofNat 64 (foldGroup f))
  | some k =>
    let h := foldHome k (foldOf s k n)
    let v := foldOf s h n
    foldUp (setFold s h n { v with kids := if f.src ∈ v.kids then v.kids else v.kids ++ [f.src] }) h n

/-- A completion from the parent (R357): the round completes here and goes on to the children. DEDUCED, log entry 54. -/
def completionArrives (s : State) (f : Frame) : State :=
  let n := foldNum f
  let g := foldGroup f
  match foldPlace s n g with
  | none => s
  | some k =>
    if (foldOf s (foldHome k (foldOf s k n)) n).sentUp then
      foldMessages (completeRound s k n) 8 n g (groupChildren s g)
    else s

/-! ### Herd messages (R309, R313; DESIGN CHOICE, log entry 24) -/

/-- The message of a frame: header and row. DESIGN CHOICE, log entry 24. -/
def herdMsgOf (f : Frame) (kind count : Nat) (row : List Byte) : HerdMsg :=
  { kind := kind, cluster := bits f.addr 3 0, skey := f.skey, srcDev := f.src.toNat, srcCl := f.stream.toNat - 0xC10
    tag := wordAt f.payload 0, score := BitVec.ofNat 32 (numAt f.payload 8 4), expert := numAt f.payload 12 1
    row := row, count := count, frame := some f }

/-- Whether a frame comes from a Herd unit. DESIGN CHOICE, log entry 24. -/
def fromHerd (f : Frame) : Bool := decide (0xC10 ≤ f.stream.toNat ∧ f.stream.toNat < 0xC20 ∧ 16 ≤ f.len.toNat)

/-- A part of a row arrives: the last one makes the row whole, the others are acknowledged. DESIGN CHOICE, log entry 24. -/
def rowArrives (s : State) (p : Nat) (f : Frame) : State :=
  if !fromHerd f then respondError s p f 8 f.addr.toNat
  else
    let k := bits f.addr 3 0
    let back := bit f.addr 4
    let i := bits f.addr 47 8
    let hdr := f.payload.take 16
    let src := f.src.toNat * 4096 + f.stream.toNat
    let same := fun (q : HerdPart) => q.src == src && q.back == back && q.hdr == hdr
    let old := ((herdOf s k).parts.find? same).getD { src := src, back := back, hdr := hdr }
    let part := { old with pieces := mput i (f.payload.drop 16) old.pieces }
    let rest := (herdOf s k).parts.filter fun q => !same q
    if part.pieces.length * herdPartBytes < f.aux.toNat then
      acknowledge (modHerd s k fun h => { h with parts := rest ++ [part] }) p f
    else
      let s := modHerd s k fun h => { h with parts := rest }
      { s with herdMsgs := s.herdMsgs ++ [herdMsgOf f (if back then 2 else 0) 0 ((part.pieces.map (·.2)).flatten.take f.aux.toNat)] }

/-- A count or done message arrives. DESIGN CHOICE, log entry 24. -/
def messageArrives (s : State) (p : Nat) (f : Frame) : State :=
  if !fromHerd f then respondError s p f 8 f.addr.toNat
  else { s with herdMsgs := s.herdMsgs ++ [herdMsgOf f (if bit f.addr 4 then 3 else 1) f.aux.toNat []] }

/-! ### Delivery -/

/-- What a frame for this device does, received at port p (17: sent by this device to itself). A halted device answers
reads of registers only (R414). -/
def deliver (s : State) (p : Nat) (f : Frame) : State :=
  let t := f.typ.toNat
  if s.boot.state = 2 ∧ !(t = 2 ∧ inCsr f.addr.toNat) then s
  else if t = 1 then writeArrives s p f
  else if t = 2 then readArrives s p f
  else if t = 3 then responseArrives s f
  else if t = 4 then ackArrives s f
  else if t = 5 then errorArrives s f p
  else if t = 6 then signalArrives s p f
  else if t = 7 then arrivalArrives s p f
  else if t = 8 then completionArrives s f
  else if t = 9 then rowArrives s p f
  else if t = 0xA then messageArrives s p f
  else s

/-- Whether a frame waits at the receiving port: the store it needs is full (R295), it names a fold that is not yet defined
for any group (R298), or its turn has come and it waits for a scratchpad (R70, R84). -/
def mustWait (s : State) (f : Frame) : Bool :=
  if f.typ = 1 then
    !inCsr f.addr.toNat && (!streamRoom s f.src.toNat f.stream.toNat || (f.sseq == (windowOf s f).next && spadWait s f))
  else if f.typ = 2 then spadWait s f
  else if f.typ = 6 then !signalRoom s f.src.toNat f.stream.toNat
  else if f.typ = 7 then (foldPlace s (foldNum f) (foldGroup f)).isNone && (foldGrouped s (foldNum f)).isNone
  else if f.typ = 9 then !streamRoom s f.src.toNat f.stream.toNat
  else false

/-- Whether a frame of the same port and channel waits already (R342). -/
def parkedAhead (s : State) (p : Nat) (f : Frame) : Bool := s.fabric.parked.any fun q => q.1 == p && q.2.vc == f.vc

/-- A frame for this device is delivered, or waits at its port. -/
def accept (s : State) (p : Nat) (f : Frame) : State :=
  if parkedAhead s p f || mustWait s f then { s with fabric := { s.fabric with parked := s.fabric.parked ++ [(p, f)] } }
  else deliver (drained s p f) p f

/-- Whether a frame's `TYPE` is reserved (Table 15.2). -/
def reservedTyp (f : Frame) : Bool := f.typ == 0 || f.typ == 0xE || f.typ == 0xF

/-- A frame of type `typ` arrives at port p: taken by the link layer, then delivered, forwarded or discarded. One of a reserved
type reaches the link layer as any frame does, and fails there (R340). -/
def receive (typ : Nat) (s : State) (p : Nat) (f : Frame) : State :=
  if f.typ.toNat ≠ typ && !reservedTyp f then s
  else match linkTake s p f with
  | (s, false) => s
  | (s, true) =>
    if p = 16 then
      if isHere s f.dst.toNat then accept s p f else drained (fabricMC s 0xA 16 (requestAddr f) 0 (srcDst f) 0) p f
    else if (portOf s p).st = 3 ∨ !s.fabric.ready ∨ f.src = 0xFFFF then drained s p f
    else if f.dst = s.fabric.devaddr then accept s p f
    else forward s p f

/-- `WRITE_FRAME` (R351, R352). -/
def execWriteFrame (p : Fin 17) (fr : Frame) (s : State) : Out State := .next (receive 1 s p.val fr)
/-- `READ_REQUEST_FRAME` (R332, R352, R382). -/
def execReadRequestFrame (p : Fin 17) (fr : Frame) (s : State) : Out State := .next (receive 2 s p.val fr)
/-- `READ_RESPONSE_FRAME` (R342). -/
def execReadResponseFrame (p : Fin 17) (fr : Frame) (s : State) : Out State := .next (receive 3 s p.val fr)
/-- `WRITE_ACK_FRAME` (R346). -/
def execWriteAckFrame (p : Fin 17) (fr : Frame) (s : State) : Out State := .next (receive 4 s p.val fr)
/-- `ERROR_RESPONSE_FRAME` (R346). -/
def execErrorResponseFrame (p : Fin 17) (fr : Frame) (s : State) : Out State := .next (receive 5 s p.val fr)
/-- `COUNTED_SIGNAL_FRAME` (R292). -/
def execCountedSignalFrame (p : Fin 17) (fr : Frame) (s : State) : Out State := .next (receive 6 s p.val fr)
/-- `FOLD_ARRIVAL_FRAME` (R357). -/
def execFoldArrivalFrame (p : Fin 17) (fr : Frame) (s : State) : Out State := .next (receive 7 s p.val fr)
/-- `FOLD_COMPLETION_FRAME` (R357). -/
def execFoldCompletionFrame (p : Fin 17) (fr : Frame) (s : State) : Out State := .next (receive 8 s p.val fr)
/-- `HERD_ROW_FRAME` (R309). -/
def execHerdRowFrame (p : Fin 17) (fr : Frame) (s : State) : Out State := .next (receive 9 s p.val fr)
/-- `HERD_MESSAGE_FRAME` (R309). -/
def execHerdMessageFrame (p : Fin 17) (fr : Frame) (s : State) : Out State := .next (receive 0xA s p.val fr)

/-- The frames waiting at a port that need wait no longer are delivered, each channel in order (R295, R342). DEDUCED, log entry 50. -/
def serveParked (p : Nat) : List (Nat × Frame) → State → State
  | [], s => s
  | (q, f) :: t, s =>
    if q = p ∧ !parkedAhead s p f ∧ !mustWait s f then serveParked p t (deliver (drained s p f) p f)
    else serveParked p t { s with fabric := { s.fabric with parked := s.fabric.parked ++ [(q, f)] } }

/-- `CREDIT_RETURN` (R343): the frames that waited go first, then the credits owed go back. -/
def execCreditReturn (p : Fin 17) (s : State) : Out State :=
  let l := s.fabric.parked
  .next (returnCredits (flushWindows (serveParked p.val l { s with fabric := { s.fabric with parked := [] } })) p.val)

/-- What waits at any port, or in a window, for a scratchpad asks again (R70, R84). -/
def serveFrames (s : State) : State :=
  flushWindows ((s.fabric.parked.map (·.1)).dedup.foldl
    (fun s p => serveParked p s.fabric.parked { s with fabric := { s.fabric with parked := [] } }) s)

/-- `FRAME_PORT_TAKE` (R347 to R349): frame i of the transmit queues takes its port, comes back to this device, finds no
route, or waits. -/
def execFramePortTake (i : Nat) (s : State) : Out State :=
  match s.fabric.waiting[i]? with
  | none => .next s
  | some q =>
    if behindOther s i q || streamFull s q.frame then .next s
    else match routeFrame s q with
    | .wait => .next s
    | .none => .next (noRoute (unqueue s i q) q.frame)
    | .port p esc => .next (sendOn (unqueue s i q) p q.frame esc)
    | .here => if mustWait s q.frame then .next s else .next (deliver (unqueue s i q) 17 q.frame)

end Sys2Proof.Machine
end

