-- ==== Sys2Proof/Machine/Fence.lean ====
section
/-! DEFINITION. Fencing a unit in service (R403 to R406, R426 to R428, R433, Table 17.11), and the rounds that a fence or an
uncorrectable line cuts short (R397). -/

namespace Sys2Proof.Machine

open Sys2Proof

/-! ### A round that loses a context (R397) -/

/-- The copies of context x end: the image will be sealed without it. DEDUCED, log entry 55. -/
def dropFromRound (s : State) (x : Nat) : State :=
  match s.secure.round with
  | none => s
  | some r =>
    if r.regions.any fun g => g.ctx == x && !g.devWide && !g.dropped then
      let r := { r with partly := true, descs := r.descs.filter fun d => d.1 != x
                        regions := r.regions.map fun g => if g.ctx == x && !g.devWide then { g with dropped := true } else g }
      { s with secure := { s.secure with round := some r } }
    else s

/-- The copies of every region that reaches [a, a + n) end, and their contexts are marked. -/
def dropReaching (s : State) (a n : Nat) : State :=
  match s.secure.round with
  | none => s
  | some r =>
    let hit := r.regions.filter fun g => !g.copied && decide (g.regSrc < a + n ∧ a < g.regSrc + g.regLen)
    let cut := { r with regions := r.regions.map fun g => if g ∈ hit ∧ g.devWide then { g with dropped := true } else g, partly := r.partly || !hit.isEmpty }
    let s := { s with secure := { s.secure with round := some cut } }
    (hit.filter fun g => !g.devWide).foldl (fun s g => dropFromRound (setDisc s g.ctx) g.ctx) s

/-! ### The floor plan and the field-removal record -/

/-- The 256 bytes of the floor plan block, as four records of the log ring (R427). -/
def planRecords (s : State) : List Record :=
  (List.range 4).map fun i => .raw (((List.range 8).map fun j => leBytes 8 ((regVal s (.floor (64 * i + 8 * j))).getD 0).toNat).flatten)

/-- A change of the floor plan: the serial rises, the change is logged and kept for the next start, with the field-removal record. -/
def planChanged (s : State) : State :=
  let s := { s with plan := { s.plan with serial := s.plan.serial + 1, beat := beatW s } }
  let s := { s with part := storeRemoval s.part s.plan.serial }
  { s with part := { s.part with log := s.part.log ++ planRecords s, lastPlan := some s.plan } }

/-- The mask of one bit. -/
def oneBit (w n : Nat) : BitVec w := BitVec.ofNat w (2 ^ n)

/-- The cores of cluster k as a mask. -/
def clusterMask (k : Nat) : BitVec 512 := BitVec.ofNat 512 (0xFFFFFFFF * 2 ^ (32 * k))

/-- A floor plan without the clusters that keep no good core (R426). -/
def pruneClusters (p : Plan) : Plan :=
  { p with clusters := (List.range 16).foldl (fun (m : BitVec 16) k => if p.cores &&& clusterMask k = 0 then m &&& ~~~(oneBit 16 k) else m) p.clusters }

/-- Take a unit out of the floor plan with what depends on it: kind 0 core, 1 cluster, 2 stack, 3 channel pair, 4 port. DEDUCED, log entry 57. -/
def cutUnit (p : Plan) (kind u : Nat) : Plan :=
  if kind = 0 then pruneClusters { p with cores := p.cores &&& ~~~(oneBit 512 u) }
  else if kind = 1 then { p with clusters := p.clusters &&& ~~~(oneBit 16 u), cores := p.cores &&& ~~~(clusterMask u) }
  else if kind = 2 then { p with hstacks := p.hstacks &&& ~~~(oneBit 8 u) }
  else if kind = 3 then { p with channels := p.channels &&& ~~~(oneBit 12 (2 * u) ||| oneBit 12 (2 * u + 1)) }
  else { p with ports := p.ports &&& ~~~(oneBit 16 u) }

/-- Add a unit to the field-removal record (R428). DEDUCED, log entry 32. -/
def recordRemoved (p : Part) (kind u : Nat) : Part :=
  if kind = 0 then { p with remCores := p.remCores ||| oneBit 512 u }
  else if kind = 1 then { p with remCores := p.remCores ||| clusterMask u }
  else if kind = 2 then { p with remStacks := p.remStacks ||| oneBit 8 u }
  else if kind = 3 then { p with remChannels := p.remChannels ||| oneBit 12 (2 * u) ||| oneBit 12 (2 * u + 1) }
  else { p with remPorts := p.remPorts ||| oneBit 16 u }

/-- Whether a unit is in the floor plan. -/
def inPlan (p : Plan) (kind u : Nat) : Bool :=
  if kind = 0 then p.cores.getLsbD u else if kind = 1 then p.clusters.getLsbD u else if kind = 2 then p.hstacks.getLsbD u
  else if kind = 3 then p.channels.getLsbD (2 * u) && p.channels.getLsbD (2 * u + 1) else p.ports.getLsbD u

/-! ### The fence (R403) -/

/-- The cores of the unit fenced. -/
def fencedCores (kind u : Nat) : List Nat :=
  if kind = 0 then [u] else if kind = 1 then (List.range 32).map fun q => 32 * u + q else []

/-- The contexts that hold a core, channel or window served by the unit. -/
def fencedCtxs (s : State) (kind u : Nat) : List Nat :=
  if kind = 2 ∨ kind = 3 then (busyCtxs s).filter fun x => usesUnit s x (kind - 1) u
  else ((fencedCores kind u).filterMap fun c => ctxOf (coreOf s c)).dedup

/-- `UKIND` and number of the unit fenced (Tables 21.2, 21.3). DEDUCED, log entry 57. -/
def fencedName (kind u : Nat) : Nat × Nat :=
  if kind = 0 then (2, u) else if kind = 1 then (0xE, u) else if kind = 2 then (0xB, u) else if kind = 3 then (0xB, 8 + 2 * u) else (0xC, u)

/-- The Kiln commands of a fenced stack or pair end: the region they work on is no longer populated (R13, R259). DEDUCED, log entry 57. -/
def endKilnCmds (s : State) (n : Nat) : State :=
  let l := kilnCmds s n
  l.foldl (fun s q => kilnFault s (some n) q { cls := 2, sub := 5, addr := BitVec.ofNat 64 q.off, w2 := noIndex }) (setKiln s n [])

/-- The commands of a fenced cluster's units end: Turn and Herd commands are dropped, channels aborted (R271), pairs cancelled. DEDUCED, log entry 57. -/
def endClusterCmds (s : State) (k : Nat) : State :=
  let s := setTurns s k []
  let s := (List.range 128).foldl (fun s ch => abortChan s (k * 128 + ch) 4) s
  let s := ((herdOf s k).pairs.filterMap id).foldl (fun s p => cancelPair s k p.serial p.half) s
  modHerd (setKiln s (14 + k) []) k fun h => { h with cmds := [], parts := [] }

/-- What fencing does to the unit itself. DEDUCED, log entry 57. -/
def stopUnit (s : State) (kind u : Nat) : State :=
  if kind = 1 then endClusterCmds s u
  else if kind = 2 then endKilnCmds (modUnit s u fun m => { m with present := false }) u
  else if kind = 3 then
    endKilnCmds (modUnit (modUnit s (8 + 2 * u) fun m => { m with present := false }) (8 + 2 * u + 1) fun m => { m with present := false }) (8 + u)
  else if kind = 4 then (if (portOf s u).st = 0 then s else goDown s u)
  else s

/-- The service request on a fenced unit ends, and its drain (R433). -/
def endService (s : State) (kind u : Nat) : State :=
  let key := (kind - 1, u)
  let mine := fun (q : SvcReq) => q.kind == kind - 1 && q.unit == u
  if kind = 0 ∨ kind = 4 then s
  else
    let v := s.service
    { s with service := { v with closing := v.closing.filter (· != key), drained := v.drained.filter (· != key), reqs := v.reqs.filter fun q => !mine q
                                 running := if v.running.any mine then none else v.running } }

/-- Fence a unit for a cause of Table 17.11: it leaves the floor plan, its cores stop without records of their own, its
commands end, the contexts it serves are marked, and one record tells the MC. DEDUCED, log entry 57. -/
def fence (s : State) (kind u sub : Nat) (digest : W64 := 0) : State :=
  let xs := fencedCtxs s kind u
  let cs := (fencedCores kind u).filter fun c => let k := coreOf s c; (ctxOf k).isSome && !k.faulted
  let s := xs.foldl setDisc s
  let s := if kind = 2 ∨ kind = 3 then dropReaching s (regionOf s (kind - 1) u).1 (regionOf s (kind - 1) u).2 else s
  let s := { s with plan := cutUnit s.plan kind u, part := recordRemoved s.part kind u }
  let s := endService (planChanged s) kind u
  let w := fencedName kind u
  let s := reportMC s (.fault { cls := 0xE, sub := sub, ukind := 0xD, flags := (if cs.isEmpty then 0 else 1) + (if xs.isEmpty then 0 else 2)
                                w1 := BitVec.ofNat 64 w.1, w3 := BitVec.ofNat 64 w.2, w4 := digest, beat := beatW s })
  stopUnit (cs.foldl stopCore s) kind u

/-! ### Commands -/

/-- Whether a fence command breaks R404: a reserved kind, a unit out of range or absent, a reserved field not 0. -/
def badFence (s : State) (b : List Byte) : Bool :=
  let w := wordAt b 0
  let kind := bits w 15 13
  let u := bits w 8 0
  decide (4 < kind) || decide ([512, 16, 8, 6, 16].getD kind 0 ≤ u) || !inPlan s.plan kind u || bits w 12 9 != 0 || bits w 55 16 != 0
    || (b.drop 16).any (· != 0)

/-- `FENCE_COMMAND` (R403, R404). -/
def execFenceCommand (s : State) : Out State :=
  match headBlock s 0x12 with
  | none => .next s
  | some b =>
    if badFence s b then .next (refuseCmd s 0x34 b)
    else .next (fence (popCmd s) (bits (wordAt b 0) 15 13) (bits (wordAt b 0) 8 0) 0x23)

/-- `SEQUENCER_WATCHDOG` (R403): the cluster is fenced. -/
def execSequencerWatchdog (k : ClusterId) (s : State) : Out State :=
  .next (if s.boot.state = 1 ∧ s.plan.clusters.getLsbD k.val then fence s 1 k.val 0x21 else s)

/-! ### Four uncorrectable lines from consumers (Table 17.11, 0x22) -/

/-- The lines met by consumers in a memory unit within 1,000,000 beats. -/
def recentLines (s : State) (u : Nat) : Nat := ((unitOf s u).recent.filter fun r => decide (s.clock.beat < r.2 + 1000000)).length

/-- The first stack or pair that has met four. -/
def wornUnit (s : State) : Option (Nat × Nat) :=
  match (List.range 8).find? fun n => s.plan.hstacks.getLsbD n && decide (4 ≤ recentLines s n) with
  | some n => some (2, n)
  | none => ((List.range 6).find? fun n => inPlan s.plan 3 n && decide (4 ≤ recentLines s (8 + 2 * n) + recentLines s (9 + 2 * n))).map fun n => (3, n)

/-- Fence that unit, where there is one. DESIGN CHOICE, log entry 1. -/
def fenceWorn (s : State) : State :=
  match wornUnit s with
  | some (kind, u) => if s.boot.state = 1 then fence s kind u 0x22 else s
  | none => s

end Sys2Proof.Machine
end

