-- ==== Sys2Proof/Machine/Scalar.lean ====
section
/-! DEFINITION. The S-slot instructions (Table 2.4, R51 to R53): scalar arithmetic, branches and jumps, scratchpad
accesses, `csrr` and `stop`. -/

namespace Sys2Proof.Machine

open Sys2Proof

/-- A scalar register as the slot's engine reads it. -/
def slotX (s : State) (sl : Slot) (r : Reg) : W64 := xVal (coreOf s sl.core.val) sl.eng r
/-- The bundle index of the slot. -/
def slotPc (s : State) (sl : Slot) : Int := (engOf (coreOf s sl.core.val) sl.eng).pc

/-- The slot of an S-slot operation of two registers that sends `v` to rd. -/
def rrSlot (sl : Slot) (op lat : Nat) (rd rs1 rs2 : Reg) (v : W64) (t2 : Bool := false) : Staged :=
  { place := 0, slot := sl, opcode := op, newT2 := t2, reads := [.x rs1, .x rs2], dest := some (.x rd), lat := lat, effect := .write (.x rd v) }

/-- The slot of an S-slot operation of a register and an immediate. -/
def riSlot (sl : Slot) (op : Nat) (rd rs1 : Reg) (v : W64) : Staged :=
  { place := 0, slot := sl, opcode := op, reads := [.x rs1], dest := some (.x rd), effect := .write (.x rd v) }

/-- The slot of a branch, taken or not. -/
def branchSlot (sl : Slot) (op : Nat) (rs1 rs2 : Reg) (eff : Effect) : Staged :=
  { place := 0, slot := sl, opcode := op, reads := [.x rs1, .x rs2], lat := 2, effect := eff }

/-- An S-slot operation of three registers. -/
def scalarRR (s : State) (sl : Slot) (op lat : Nat) (rd rs1 rs2 : Reg) (f : W64 → W64 → W64) (t2 : Bool := false) : State :=
  offer s (rrSlot sl op lat rd rs1 rs2 (f (slotX s sl rs1) (slotX s sl rs2)) t2)

/-- An S-slot operation of a register and the sign-extended immediate (R51). -/
def scalarRI (s : State) (sl : Slot) (op : Nat) (rd rs1 : Reg) (imm : BitVec 22) (f : W64 → W64 → W64) : State :=
  offer s (riSlot sl op rd rs1 (f (slotX s sl rs1) (imm.signExtend 64)))

/-- `ADD` (R51). -/
def execAdd (sl : Slot) (rd rs1 rs2 : Reg) (s : State) : Out State := .next (scalarRR s sl 0x01 1 rd rs1 rs2 (· + ·))
/-- `SUB` (R51). -/
def execSub (sl : Slot) (rd rs1 rs2 : Reg) (s : State) : Out State := .next (scalarRR s sl 0x02 1 rd rs1 rs2 (· - ·))
/-- `AND` (R51). -/
def execAndW (sl : Slot) (rd rs1 rs2 : Reg) (s : State) : Out State := .next (scalarRR s sl 0x03 1 rd rs1 rs2 (· &&& ·))
/-- `OR` (R51). -/
def execOrW (sl : Slot) (rd rs1 rs2 : Reg) (s : State) : Out State := .next (scalarRR s sl 0x04 1 rd rs1 rs2 (· ||| ·))
/-- `XOR` (R51). -/
def execXorW (sl : Slot) (rd rs1 rs2 : Reg) (s : State) : Out State := .next (scalarRR s sl 0x05 1 rd rs1 rs2 (· ^^^ ·))

/-- A shift amount: bits 5 to 0 (R51). -/
def shamt (w : W64) : Nat := bits w 5 0
/-- Shift left. -/
def shl (a b : W64) : W64 := a <<< shamt b
/-- Shift right logically. -/
def shr (a b : W64) : W64 := a >>> shamt b
/-- Shift right arithmetically. -/
def sar (a b : W64) : W64 := a.sshiftRight (shamt b)
/-- 1 if a < b signed. -/
def ltS (a b : W64) : W64 := if a.toInt < b.toInt then 1 else 0
/-- 1 if a < b unsigned. -/
def ltU (a b : W64) : W64 := if a.toNat < b.toNat then 1 else 0
/-- The high 64 bits of the signed product. -/
def mulHigh (a b : W64) : W64 := BitVec.ofInt 64 (a.toInt * b.toInt / 2 ^ 64)
/-- Signed quotient truncated toward zero, with the edge cases of R51. -/
def quoS (a b : W64) : W64 := if b = 0 then BitVec.allOnes 64 else BitVec.ofInt 64 (a.toInt.tdiv b.toInt)
/-- Unsigned quotient. -/
def quoU (a b : W64) : W64 := if b = 0 then BitVec.allOnes 64 else BitVec.ofNat 64 (a.toNat / b.toNat)
/-- Signed remainder, with the sign of the dividend. -/
def remS (a b : W64) : W64 := if b = 0 then a else BitVec.ofInt 64 (a.toInt.tmod b.toInt)
/-- Unsigned remainder. -/
def remU (a b : W64) : W64 := if b = 0 then a else BitVec.ofNat 64 (a.toNat % b.toNat)

/-- `SLL` (R51). -/
def execSll (sl : Slot) (rd rs1 rs2 : Reg) (s : State) : Out State := .next (scalarRR s sl 0x06 1 rd rs1 rs2 shl)
/-- `SRL` (R51). -/
def execSrl (sl : Slot) (rd rs1 rs2 : Reg) (s : State) : Out State := .next (scalarRR s sl 0x07 1 rd rs1 rs2 shr)
/-- `SRA` (R51). -/
def execSra (sl : Slot) (rd rs1 rs2 : Reg) (s : State) : Out State := .next (scalarRR s sl 0x08 1 rd rs1 rs2 sar)
/-- `SLT` (R51). -/
def execSlt (sl : Slot) (rd rs1 rs2 : Reg) (s : State) : Out State := .next (scalarRR s sl 0x09 1 rd rs1 rs2 ltS)
/-- `SLTU` (R51). -/
def execSltu (sl : Slot) (rd rs1 rs2 : Reg) (s : State) : Out State := .next (scalarRR s sl 0x0A 1 rd rs1 rs2 ltU)
/-- `MUL` (R51): the low 64 bits of the product, latency 3. -/
def execMul (sl : Slot) (rd rs1 rs2 : Reg) (s : State) : Out State := .next (scalarRR s sl 0x0B 3 rd rs1 rs2 (· * ·))
/-- `MULH` (R51): the high 64 bits of the signed product. -/
def execMulh (sl : Slot) (rd rs1 rs2 : Reg) (s : State) : Out State := .next (scalarRR s sl 0x0C 3 rd rs1 rs2 mulHigh true)
/-- `DIV` (R51). -/
def execDiv (sl : Slot) (rd rs1 rs2 : Reg) (s : State) : Out State := .next (scalarRR s sl 0x0D 18 rd rs1 rs2 quoS)
/-- `DIVU` (R51). -/
def execDivu (sl : Slot) (rd rs1 rs2 : Reg) (s : State) : Out State := .next (scalarRR s sl 0x0E 18 rd rs1 rs2 quoU)
/-- `REM` (R51). -/
def execRem (sl : Slot) (rd rs1 rs2 : Reg) (s : State) : Out State := .next (scalarRR s sl 0x0F 18 rd rs1 rs2 remS)
/-- `REMU` (R51). -/
def execRemu (sl : Slot) (rd rs1 rs2 : Reg) (s : State) : Out State := .next (scalarRR s sl 0x10 18 rd rs1 rs2 remU)
/-- `ADDI` (R51). -/
def execAddi (sl : Slot) (rd rs1 : Reg) (imm : BitVec 22) (s : State) : Out State := .next (scalarRI s sl 0x11 rd rs1 imm (· + ·))
/-- `ANDI` (R51). -/
def execAndi (sl : Slot) (rd rs1 : Reg) (imm : BitVec 22) (s : State) : Out State := .next (scalarRI s sl 0x13 rd rs1 imm (· &&& ·))
/-- `ORI` (R51). -/
def execOri (sl : Slot) (rd rs1 : Reg) (imm : BitVec 22) (s : State) : Out State := .next (scalarRI s sl 0x14 rd rs1 imm (· ||| ·))
/-- `XORI` (R51). -/
def execXori (sl : Slot) (rd rs1 : Reg) (imm : BitVec 22) (s : State) : Out State := .next (scalarRI s sl 0x15 rd rs1 imm (· ^^^ ·))
/-- `SLLI` (R51): the shift amount is imm[5:0]. -/
def execSlli (sl : Slot) (rd rs1 : Reg) (imm : BitVec 22) (s : State) : Out State := .next (scalarRI s sl 0x16 rd rs1 imm shl)
/-- `SRLI` (R51). -/
def execSrli (sl : Slot) (rd rs1 : Reg) (imm : BitVec 22) (s : State) : Out State := .next (scalarRI s sl 0x17 rd rs1 imm shr)
/-- `SRAI` (R51). -/
def execSrai (sl : Slot) (rd rs1 : Reg) (imm : BitVec 22) (s : State) : Out State := .next (scalarRI s sl 0x18 rd rs1 imm sar)
/-- `SLTI` (R51). -/
def execSlti (sl : Slot) (rd rs1 : Reg) (imm : BitVec 22) (s : State) : Out State := .next (scalarRI s sl 0x19 rd rs1 imm ltS)

/-- `LUI` (R51): imm27 sign-extended and shifted left 22. -/
def execLui (sl : Slot) (rd : Reg) (imm : BitVec 27) (s : State) : Out State :=
  .next (offer s { place := 0, slot := sl, opcode := 0x1E, dest := some (.x rd), effect := .write (.x rd (imm.signExtend 64 <<< 22)) })

/-- `LUH` (R51, Table 2.4): rd[63:48] = imm27[15:0], the rest kept; imm27[26:16] must be 0. -/
def execLuh (sl : Slot) (rd : Reg) (imm : BitVec 27) (s : State) : Out State :=
  .next (offer s { place := 0, slot := sl, opcode := 0x1F, newT2 := true, badEnc := bits imm 26 16 != 0, reads := [.x rd]
                   dest := some (.x rd), effect := .write (.x rd (setBits (slotX s sl rd) 63 48 (bits imm 15 0))) })

/-! ### Branches and jumps (R53) -/

/-- A conditional branch. -/
def branch (s : State) (sl : Slot) (op : Nat) (rs1 rs2 : Reg) (off : BitVec 22) (p : W64 → W64 → Bool) : State :=
  offer s (branchSlot sl op rs1 rs2 (if p (slotX s sl rs1) (slotX s sl rs2) then .jump (slotPc s sl + off.toInt) none else .notTaken))

/-- `BEQ` (R53). -/
def execBeq (sl : Slot) (rs1 rs2 : Reg) (off : BitVec 22) (s : State) : Out State := .next (branch s sl 0x20 rs1 rs2 off (· == ·))
/-- `BNE` (R53). -/
def execBne (sl : Slot) (rs1 rs2 : Reg) (off : BitVec 22) (s : State) : Out State := .next (branch s sl 0x21 rs1 rs2 off (· != ·))
/-- `BLT` (R53): signed. -/
def execBlt (sl : Slot) (rs1 rs2 : Reg) (off : BitVec 22) (s : State) : Out State :=
  .next (branch s sl 0x22 rs1 rs2 off fun a b => decide (a.toInt < b.toInt))
/-- `BGE` (R53): signed. -/
def execBge (sl : Slot) (rs1 rs2 : Reg) (off : BitVec 22) (s : State) : Out State :=
  .next (branch s sl 0x23 rs1 rs2 off fun a b => decide (b.toInt ≤ a.toInt))
/-- `BLTU` (R53): unsigned. -/
def execBltu (sl : Slot) (rs1 rs2 : Reg) (off : BitVec 22) (s : State) : Out State :=
  .next (branch s sl 0x24 rs1 rs2 off fun a b => decide (a.toNat < b.toNat))
/-- `BGEU` (R53): unsigned. -/
def execBgeu (sl : Slot) (rs1 rs2 : Reg) (off : BitVec 22) (s : State) : Out State :=
  .next (branch s sl 0x25 rs1 rs2 off fun a b => decide (b.toNat ≤ a.toNat))

/-- The link value: the address of the bundle after the delay issue. -/
def linkOf (s : State) (sl : Slot) : W64 := BitVec.ofInt 64 (slotPc s sl + 2)

/-- `JAL` (R53). -/
def execJal (sl : Slot) (rd : Reg) (imm : BitVec 27) (s : State) : Out State :=
  .next (offer s { place := 0, slot := sl, opcode := 0x26, dest := some (.x rd), lat := 2
                   effect := .jump (slotPc s sl + imm.toInt) (some (rd, linkOf s sl)) })
/-- `JALR` (R53): to the bundle address rs1 + imm22. -/
def execJalr (sl : Slot) (rd rs1 : Reg) (imm : BitVec 22) (s : State) : Out State :=
  .next (offer s { place := 0, slot := sl, opcode := 0x27, reads := [.x rs1], dest := some (.x rd), lat := 2
                   effect := .jump (slotX s sl rs1 + imm.signExtend 64).toInt (some (rd, linkOf s sl)) })

/-! ### Scratchpad accesses (R52) -/

/-- The window offset rs1 + imm22. -/
def offsetOf (s : State) (sl : Slot) (r : Reg) (imm : BitVec 22) : Int := (slotX s sl r + imm.signExtend 64).toNat

/-- `LD` (R52): 64 bits. -/
def execLd (sl : Slot) (rd rs1 : Reg) (imm : BitVec 22) (s : State) : Out State :=
  .next (offer s { place := 0, slot := sl, opcode := 0x30, reads := [.x rs1], dest := some (.x rd), lat := 8
                   effect := .load rd (offsetOf s sl rs1 imm) 8 })
/-- `LW` (R52): 32 bits, zero-extended. -/
def execLw (sl : Slot) (rd rs1 : Reg) (imm : BitVec 22) (s : State) : Out State :=
  .next (offer s { place := 0, slot := sl, opcode := 0x31, reads := [.x rs1], dest := some (.x rd), lat := 8
                   effect := .load rd (offsetOf s sl rs1 imm) 4 })
/-- `SD` (R52). -/
def execSd (sl : Slot) (rd rs1 : Reg) (imm : BitVec 22) (s : State) : Out State :=
  .next (offer s { place := 0, slot := sl, opcode := 0x32, reads := [.x rs1, .x rd]
                   effect := .store (offsetOf s sl rs1 imm) (leBytes 8 (slotX s sl rd).toNat) })
/-- `SW` (R52). -/
def execSw (sl : Slot) (rd rs1 : Reg) (imm : BitVec 22) (s : State) : Out State :=
  .next (offer s { place := 0, slot := sl, opcode := 0x33, reads := [.x rs1, .x rd]
                   effect := .store (offsetOf s sl rs1 imm) (leBytes 4 (slotX s sl rd).toNat) })
/-- `CSRR` (R53, Table 2.4): the register at offset imm22 of the core's own block; rs1 must be 0. -/
def execCsrr (sl : Slot) (rd rs1 : Reg) (imm : BitVec 22) (s : State) : Out State :=
  .next (offer s { place := 0, slot := sl, opcode := 0x38, badEnc := rs1 != 0, dest := some (.x rd), lat := 6
                   effect := .csrr rd imm.toInt })
/-- `STOP` (R379). -/
def execStop (sl : Slot) (s : State) : Out State := .next (offer s { place := 0, slot := sl, opcode := 0x3E, effect := .stop })

end Sys2Proof.Machine
end

