-- ==== Sys2Proof/Machine/Vector.lean ====
section
/-! DEFINITION. The V-slot instructions (Table 2.5, R50, R54 to R57): FP32 and BF16 arithmetic, functions, reductions,
permutation, conversion, comparison and predicate logic. -/

namespace Sys2Proof.Machine

open Sys2Proof

/-- Lane i of a vector register as the slot reads it. -/
def slotV (s : State) (sl : Slot) (r : Reg) (i : Nat) : W32 := vVal (coreOf s sl.core.val) r i
/-- A predicate as the slot reads it. -/
def slotP (s : State) (sl : Slot) (r : Fin 8) : BitVec 256 := pVal (coreOf s sl.core.val) r

/-- Whether the slot runs on lane i (R50). -/
def laneOn (s : State) (sl : Slot) (i : Nat) : Bool := (slotP s sl sl.vp).getLsbD i != sl.vneg
/-- The lanes the slot runs on. -/
def lanesOn (s : State) (sl : Slot) : List Nat := (List.range 256).filter (laneOn s sl)
/-- The predicate registers a V slot reads for itself. -/
def predReads (sl : Slot) : List RegName := [.p sl.vp]

/-- The slot of a vector operation that sends lanes to vd. -/
def vectorSlot (sl : Slot) (op lat : Nat) (t2 : Bool) (srcs : List RegName) (vd : Reg) (lanes : List (Nat × W32)) : Staged :=
  { place := 1, slot := sl, opcode := op, newT2 := t2, reads := srcs ++ predReads sl, dest := some (.v vd), lat := lat, effect := .write (.v vd lanes) }

/-- A vector operation: the new value of each lane it runs on (R50). -/
def vectorOp (s : State) (sl : Slot) (op lat : Nat) (t2 : Bool) (srcs : List RegName) (vd : Reg) (f : Nat → W32) : State :=
  offer s (vectorSlot sl op lat t2 srcs vd ((lanesOn s sl).map fun i => (i, f i)))

/-- Two operands, lane by lane. -/
def vector2 (s : State) (sl : Slot) (op lat : Nat) (vd a b : Reg) (f : W32 → W32 → W32) : State :=
  vectorOp s sl op lat false [.v a, .v b] vd fun i => f (slotV s sl a i) (slotV s sl b i)
/-- One operand, lane by lane. -/
def vector1 (s : State) (sl : Slot) (op lat : Nat) (vd a : Reg) (f : W32 → W32) : State :=
  vectorOp s sl op lat false [.v a] vd fun i => f (slotV s sl a i)

/-- An operation on the two 16-bit elements of a lane. -/
def onHalves (f : Nat → Nat → Nat → Nat) (a b c : W32) : W32 :=
  BitVec.ofNat 32 (f (bits a 15 0) (bits b 15 0) (bits c 15 0) % 2 ^ 16 + 2 ^ 16 * f (bits a 31 16) (bits b 31 16) (bits c 31 16))

/-- `VADD` (R54). -/
def execVadd (sl : Slot) (vd vs1 vs2 : Reg) (s : State) : Out State := .next (vector2 s sl 0x01 4 vd vs1 vs2 f32Add)
/-- `VSUB` (R54). -/
def execVsub (sl : Slot) (vd vs1 vs2 : Reg) (s : State) : Out State := .next (vector2 s sl 0x02 4 vd vs1 vs2 f32Sub)
/-- `VMUL` (R54). -/
def execVmul (sl : Slot) (vd vs1 vs2 : Reg) (s : State) : Out State := .next (vector2 s sl 0x03 4 vd vs1 vs2 f32Mul)
/-- `VFMA` (R54): rounded once. -/
def execVfma (sl : Slot) (vd vs1 vs2 vs3 : Reg) (s : State) : Out State :=
  .next (vectorOp s sl 0x04 4 false [.v vs1, .v vs2, .v vs3] vd fun i => f32Fma (slotV s sl vs1 i) (slotV s sl vs2 i) (slotV s sl vs3 i))
/-- `VMAX` (R54). -/
def execVmax (sl : Slot) (vd vs1 vs2 : Reg) (s : State) : Out State := .next (vector2 s sl 0x05 4 vd vs1 vs2 f32Max)
/-- `VMIN` (R54). -/
def execVmin (sl : Slot) (vd vs1 vs2 : Reg) (s : State) : Out State := .next (vector2 s sl 0x06 4 vd vs1 vs2 f32Min)
/-- `VABS` (R54): the sign cleared. -/
def execVabs (sl : Slot) (vd vs1 : Reg) (s : State) : Out State := .next (vector1 s sl 0x07 4 vd vs1 fun a => a &&& 0x7FFFFFFF)
/-- `VNEG` (R54): the sign changed. -/
def execVneg (sl : Slot) (vd vs1 : Reg) (s : State) : Out State := .next (vector1 s sl 0x08 4 vd vs1 fun a => a ^^^ 0x80000000)
/-- `VADD_BF` (R54). -/
def execVaddBf (sl : Slot) (vd vs1 vs2 : Reg) (s : State) : Out State :=
  .next (vector2 s sl 0x11 3 vd vs1 vs2 fun a b => onHalves (fun x y _ => rndBf ((bf x).add (bf y))) a b 0)
/-- `VMUL_BF` (R54). -/
def execVmulBf (sl : Slot) (vd vs1 vs2 : Reg) (s : State) : Out State :=
  .next (vector2 s sl 0x13 3 vd vs1 vs2 fun a b => onHalves (fun x y _ => rndBf ((bf x).mul (bf y))) a b 0)
/-- `VFMA_BF` (R54). -/
def execVfmaBf (sl : Slot) (vd vs1 vs2 vs3 : Reg) (s : State) : Out State :=
  .next (vectorOp s sl 0x14 3 false [.v vs1, .v vs2, .v vs3] vd fun i =>
    onHalves (fun x y z => rndBf (((bf x).mul (bf y)).add (bf z))) (slotV s sl vs1 i) (slotV s sl vs2 i) (slotV s sl vs3 i))
/-- `VMAX_BF` (R54). -/
def execVmaxBf (sl : Slot) (vd vs1 vs2 : Reg) (s : State) : Out State :=
  .next (vector2 s sl 0x15 3 vd vs1 vs2 fun a b => onHalves (fun x y _ => rndBf ((bf x).max (bf y))) a b 0)
/-- `VMIN_BF` (R54). -/
def execVminBf (sl : Slot) (vd vs1 vs2 : Reg) (s : State) : Out State :=
  .next (vector2 s sl 0x16 3 vd vs1 vs2 fun a b => onHalves (fun x y _ => rndBf ((bf x).min (bf y))) a b 0)

/-- `VEXP` (R55). -/
def execVexp (sl : Slot) (vd vs1 : Reg) (s : State) : Out State := .next (vector1 s sl 0x20 12 vd vs1 exp32)
/-- `VLOG` (R55). -/
def execVlog (sl : Slot) (vd vs1 : Reg) (s : State) : Out State := .next (vector1 s sl 0x21 12 vd vs1 log32)
/-- `VRSQRT` (R55). -/
def execVrsqrt (sl : Slot) (vd vs1 : Reg) (s : State) : Out State := .next (vector1 s sl 0x22 12 vd vs1 rsqrt32)

/-- A reduction by the fixed pairwise tree: lane 0 takes the result, the other lanes 0; lanes that are off contribute
`unit` (R50, R56). -/
def reduction (s : State) (sl : Slot) (op : Nat) (t2 : Bool) (vd vs1 : Reg) (unit : W32) (f : W32 → W32) (join : W32 → W32 → W32) : State :=
  let leaves := (List.range 256).map fun i => if laneOn s sl i then f (slotV s sl vs1 i) else unit
  let r := (treeFold join 8 leaves).headD 0
  offer s (vectorSlot sl op 9 t2 [.v vs1] vd ((0, r) :: (List.range 255).map fun i => (i + 1, 0)))

/-- `VREDSUM` (R56). -/
def execVredsum (sl : Slot) (vd vs1 : Reg) (s : State) : Out State := .next (reduction s sl 0x28 false vd vs1 0 id f32Add)
/-- `VREDMAX` (R56). -/
def execVredmax (sl : Slot) (vd vs1 : Reg) (s : State) : Out State := .next (reduction s sl 0x29 false vd vs1 ninf32 id f32Max)
/-- `VREDSQ` (R56): each square is rounded before the tree. -/
def execVredsq (sl : Slot) (vd vs1 : Reg) (s : State) : Out State :=
  .next (reduction s sl 0x2A true vd vs1 0 (fun a => f32Mul a a) f32Add)

/-- `VPERM` (R50, Table 2.5): lane i takes lane (vs2 lane i)[7:0] of vs1. -/
def execVperm (sl : Slot) (vd vs1 vs2 : Reg) (s : State) : Out State :=
  .next (vectorOp s sl 0x30 3 false [.v vs1, .v vs2] vd fun i => slotV s sl vs1 (bits (slotV s sl vs2 i) 7 0))
/-- `VSPLAT` (R50, Table 2.5): every lane takes bits 31 to 0 of a scalar register. -/
def execVsplat (sl : Slot) (vd vs1 : Reg) (s : State) : Out State :=
  .next (vectorOp s sl 0x31 3 false [.x vs1] vd fun _ => (slotX s sl vs1).truncate 32)

/-! ### Conversion (R57, R64) -/

/-- Whether `vcvt` takes a format code. -/
def cvtCode (f : Nat) : Bool := decide (f ≤ 4) || f == 0xA

/-- Source, destination and part of a conversion: from mod, or from the fixed conversions of T1 (R64). -/
def cvtFields (k : Core) (mod : BitVec 12) : Nat × Nat × Nat :=
  if interlocked k then
    match bits mod 1 0 with
    | 0 => (0, 1, 0)
    | 1 => (1, 0, 0)
    | 2 => (0, 3, 0)
    | _ => (3, 0, 0)
  else (bits mod 7 4, bits mod 3 0, bits mod 11 10)

/-- The parts of a conversion; 0 for an unsupported pair. -/
def cvtParts (src dst : Nat) : Nat :=
  let a := elemBits src
  let b := elemBits dst
  if !(cvtCode src && cvtCode dst) || a == b then 0 else Max.max a b / Min.min a b

/-- One lane of a conversion: narrowing replaces the elements of part p in `old`, widening reads them from `src`. -/
def cvtLane (sf df p : Nat) (old src : W32) : W32 :=
  let a := elemBits sf
  let b := elemBits df
  let get := fun (w : W32) (n j : Nat) => bits w (n * j + n - 1) (n * j)
  let conv := fun e => elemEnc df (elemVal sf e)
  if b < a then (List.range (32 / a)).foldl (fun o j => setBits o (b * (a / b * j + p) + b - 1) (b * (a / b * j + p)) (conv (get src a j))) old
  else (List.range (32 / b)).foldl (fun o j => setBits o (b * j + b - 1) (b * j) (conv (get src a (b / a * j + p)))) old

/-- `VCVT` (R57). -/
def execVcvt (sl : Slot) (vd vs1 : Reg) (mod : BitVec 12) (s : State) : Out State :=
  let (sf, df, p) := cvtFields (coreOf s sl.core.val) mod
  let bad := decide (cvtParts sf df ≤ p)
  let lanes := if bad then [] else (lanesOn s sl).map fun i => (i, cvtLane sf df p (slotV s sl vd i) (slotV s sl vs1 i))
  .next (offer s { place := 1, slot := sl, opcode := 0x38, badEnc := bits mod 9 8 != 0, badFmt := if bad then some mod.toNat else none
                   reads := .v vs1 :: predReads sl, dest := some (.v vd), lat := 3, effect := .write (.v vd lanes) })

/-! ### Predicates -/

/-- The predicate register that a five-bit field names. -/
def predOf (r : Reg) : Fin 8 := Fin.ofNat 8 r.val
/-- Whether a predicate field's upper bits are not 0 (R46). -/
def badPred (r : Reg) : Bool := decide (8 ≤ r.val)

/-- The slot of an operation that sends `w` to a predicate. -/
def predicateSlot (sl : Slot) (op lat : Nat) (t2 bad : Bool) (srcs : List RegName) (vd : Reg) (w : BitVec 256) : Staged :=
  { place := 1, slot := sl, opcode := op, newT2 := t2, badEnc := bad || badPred vd, reads := srcs ++ predReads sl
    dest := some (.p (predOf vd)), lat := lat, effect := .write (.p (predOf vd) w) }

/-- The number whose bits below n are `f`. -/
def maskOf (f : Nat → Bool) : Nat → Nat
  | 0 => 0
  | n + 1 => maskOf f n + if f n then 2 ^ n else 0

/-- The 256 bits of a predicate after an operation: `f` on the lanes the slot runs on, the old bits elsewhere (R50). -/
def predicateBits (s : State) (sl : Slot) (vd : Reg) (f : Nat → Bool) : BitVec 256 :=
  BitVec.ofNat 256 (maskOf (fun i => if laneOn s sl i then f i else (slotP s sl (predOf vd)).getLsbD i) 256)

/-- A predicate written on the lanes the slot runs on (R50). -/
def predicateOp (s : State) (sl : Slot) (op lat : Nat) (t2 bad : Bool) (srcs : List RegName) (vd : Reg) (f : Nat → Bool) : State :=
  offer s (predicateSlot sl op lat t2 bad srcs vd (predicateBits s sl vd f))

/-- The comparison of a condition code: an unordered pair gives only `ne`. -/
def compare32 (cond : Nat) (a b : W32) : Bool :=
  if cond = 0 then f32Eq a b
  else if cond = 1 then !f32Eq a b
  else if cond = 2 then f32Lt a b
  else if cond = 3 then f32Lt a b || f32Eq a b
  else if cond = 4 then f32Lt b a
  else f32Lt b a || f32Eq a b

/-- `VCMP` (R50, Table 2.5). -/
def execVcmp (sl : Slot) (vd vs1 vs2 : Reg) (mod : BitVec 12) (s : State) : Out State :=
  .next (predicateOp s sl 0x3C 4 false (decide (5 < mod.toNat)) [.v vs1, .v vs2] vd fun i =>
    compare32 mod.toNat (slotV s sl vs1 i) (slotV s sl vs2 i))
/-- Predicate logic of two operands. -/
def predicate2 (s : State) (sl : Slot) (op : Nat) (t2 : Bool) (vd vs1 vs2 : Reg) (f : Bool → Bool → Bool) : State :=
  predicateOp s sl op 3 t2 (badPred vs1 || badPred vs2) [.p (predOf vs1), .p (predOf vs2)] vd fun i =>
    f ((slotP s sl (predOf vs1)).getLsbD i) ((slotP s sl (predOf vs2)).getLsbD i)
/-- `PAND` (R50). -/
def execPand (sl : Slot) (vd vs1 vs2 : Reg) (s : State) : Out State := .next (predicate2 s sl 0x3D false vd vs1 vs2 (· && ·))
/-- `POR` (R50). -/
def execPor (sl : Slot) (vd vs1 vs2 : Reg) (s : State) : Out State := .next (predicate2 s sl 0x3E false vd vs1 vs2 (· || ·))
/-- `PNOT` (R50). -/
def execPnot (sl : Slot) (vd vs1 : Reg) (s : State) : Out State :=
  .next (predicateOp s sl 0x3F 3 false (badPred vs1) [.p (predOf vs1)] vd fun i => !(slotP s sl (predOf vs1)).getLsbD i)
/-- `PXOR` (R50). -/
def execPxor (sl : Slot) (vd vs1 vs2 : Reg) (s : State) : Out State := .next (predicate2 s sl 0x40 true vd vs1 vs2 (· != ·))

end Sys2Proof.Machine
end

