-- ==== Sys2Proof/Machine/Queue.lean ====
section
/-! DEFINITION. Queue, scratchpad and descriptor instructions of the T slot (Table 2.6), the events that release a held
bundle, the landing of results, and the retirement of ranges. -/

namespace Sys2Proof.Machine

open Sys2Proof

/-- The 1,024 bytes of a vector register as the slot reads it. -/
def slotVBytes (s : State) (sl : Slot) (r : Reg) : List Byte := ((List.range 256).map fun i => leBytes 4 (slotV s sl r i).toNat).flatten

/-- `QWAIT` (R23). -/
def execQwait (sl : Slot) (q : Fin 16) (n : BitVec 7) (s : State) : Out State :=
  .next (offer s { place := 2, slot := sl, opcode := 0x01, effect := .qwait q n.toNat })
/-- `QPOP` (R58). -/
def execQpop (sl : Slot) (q : Fin 16) (r : Reg) (s : State) : Out State :=
  .next (offer s { place := 2, slot := sl, opcode := 0x02, only := some .compute, dest := some (.v r), effect := .qpop q r })
/-- `QPUSH` (R58). -/
def execQpush (sl : Slot) (q : Fin 16) (r : Reg) (s : State) : Out State :=
  .next (offer s { place := 2, slot := sl, opcode := 0x03, only := some .compute, reads := [.v r], effect := .qpush q (slotVBytes s sl r) })
/-- `QFETCH` (R118). -/
def execQfetch (sl : Slot) (q : Fin 16) (r : Reg) (s : State) : Out State :=
  .next (offer s { place := 2, slot := sl, opcode := 0x04, only := some .fetch, reads := [.d r], effect := .qfetch q r })
/-- `QSTORE` (R118). -/
def execQstore (sl : Slot) (q : Fin 16) (r : Reg) (s : State) : Out State :=
  .next (offer s { place := 2, slot := sl, opcode := 0x05, only := some .store, reads := [.d r], effect := .qstore q r })
/-- `QDRAIN` (R23, R52): n entries to the offset in x(r). DEDUCED, log entry 47. -/
def execQdrain (sl : Slot) (q : Fin 16) (r : Reg) (n : BitVec 7) (s : State) : Out State :=
  .next (offer s { place := 2, slot := sl, opcode := 0x06, only := some .compute, reads := [.x r]
                   effect := .qdrain q (slotX s sl r) n.toNat })
/-- `VLD` (R52). -/
def execVld (sl : Slot) (r xs : Reg) (imm : BitVec 22) (s : State) : Out State :=
  .next (offer s { place := 2, slot := sl, opcode := 0x08, only := some .compute, reads := [.x xs], dest := some (.v r), lat := 8
                   effect := .vld r (offsetOf s sl xs imm) })
/-- `VST` (R68). -/
def execVst (sl : Slot) (r xs : Reg) (imm : BitVec 22) (s : State) : Out State :=
  .next (offer s { place := 2, slot := sl, opcode := 0x09, only := some .compute, reads := [.x xs, .v r]
                   effect := .store (offsetOf s sl xs imm) (slotVBytes s sl r) })
/-- `DLD` (R106): by the engine that owns the slot. -/
def execDld (sl : Slot) (r xs : Reg) (imm : BitVec 22) (s : State) : Out State :=
  .next (offer s { place := 2, slot := sl, opcode := 0x0C, reads := [.x xs], dest := some (.d r), lat := 8
                   effect := .dld r (offsetOf s sl xs imm) })
/-- `DBASE` (R61, Table 2.6): only the base address is replaced. -/
def execDbase (sl : Slot) (d xs : Reg) (s : State) : Out State :=
  .next (offer s { place := 2, slot := sl, opcode := 0x0D, newT2 := true, reads := [.x xs], dest := some (.d d)
                   effect := .dbase d (slotX s sl xs) })

/-! ### Releases -/

/-- `QWAIT_RELEASE` (R23): a held `qwait` is tried again. -/
def execQwaitRelease (c : CoreId) (e : Engine) (s : State) : Out State := .next (retryIf (fun w => w == .queue) s c.val e)
/-- `TWAIT_RELEASE` (R285). -/
def execTwaitRelease (c : CoreId) (e : Engine) (s : State) : Out State := .next (retryIf (fun w => w == .tally false) s c.val e)
/-- `YIELD_RELEASE` (R227). -/
def execYieldRelease (c : CoreId) (s : State) : Out State := .next (retryIf (fun w => w == .tally true) s c.val .compute)
/-- `BWAIT_RELEASE` (R33). -/
def execBwaitRelease (c : CoreId) (e : Engine) (s : State) : Out State := .next (retryIf (fun w => w == .beat) s c.val e)

/-- The oldest result of an engine that has not landed reaches its register. In scheduled mode it is readable from its
issue index only; elsewhere it lands in the cycle in which it is readable, and not before (R28, R29). -/
def landOldest (s : State) (c : Nat) (e : Engine) : State :=
  let k := coreOf s c
  let g := engOf k e
  match g.pend.find? fun p => !p.landed with
  | none => s
  | some p =>
    if !scheduled k e && decide (s.clock.cycle < p.ready) then s
    else
      let k := land k e p.write
      let g := engOf k e
      let keep := if scheduled k e then g.pend.map fun q => if q = p then { q with landed := true } else q
        else g.pend.filter fun q => q ≠ p
      setCore s c (setEng k e { g with pend := keep })

/-- `RESULT_LAND` (R28). -/
def execResultLand (c : CoreId) (e : Engine) (s : State) : Out State :=
  .next (retryIf (fun w => w == .interlock) (landOldest s c.val e) c.val e)

/-- `BANK_GRANT_RETRY` (R67): in a later cycle than the one in which it last asked, the bundle that the banks hold asks again. -/
def execBankGrantRetry (c : CoreId) (e : Engine) (s : State) : Out State :=
  match (engOf (coreOf s c.val) e).held with
  | some h => if h.cause = .bank ∧ h.cyc < s.clock.cycle then .next (retryHeld s c.val e) else .next s
  | none => .next s

/-- The agent of a registration that waits at core c asks again; a Mover channel asks at its own next event. -/
def askAgain (c : Nat) (s : State) (ag : Agent) : State :=
  match ag with
  | .turn => turnService s (clusterOf c)
  | .chain _ => chainService s c
  | .kiln => pathService s (clusterOf c)
  | .herd _ => herdService s (clusterOf c)
  | .mover _ => s
  | .remote n =>
    if n < 1024 then turnService s (n - 16)
    else retryIf (fun w => w == .range) s ((n - 1024) / 2) (if n % 2 = 0 then .fetch else .store)
  | _ => retryCore (fun w => w == .range) s c

/-- What waits for a range of core c asks again: the registrations in the order in which they asked (R84), then the Turn
unit, the chains, the Kiln command path, the Herd unit and the held accesses. -/
def afterRetire (s : State) (c : Nat) : State :=
  let s := ((coreOf s c).waiters.map (·.agent)).foldl (askAgain c) s
  let s := turnService s (clusterOf c)
  let s := chainService s c
  let s := pathService s (clusterOf c)
  let s := herdService s (clusterOf c)
  retryCore (fun w => w == .range) s c

/-- `SCOREBOARD_RANGE_RETIRE` (R85): the i-th range retires where its agent's last access is done; what it held goes on. -/
def execScoreboardRangeRetire (c : CoreId) (i : Nat) (s : State) : Out State :=
  match (coreOf s c.val).ranges[i]? with
  | some r =>
    .next (afterRetire (if r.done then modCore s c.val fun k => { dropOlds k r.agent with ranges := k.ranges.eraseIdx i } else s) c.val)
  | none => .next (afterRetire s c.val)

end Sys2Proof.Machine
end

