-- ==== Sys2Proof/Machine/Cycle.lean ====
section
/-! DEFINITION. What the block does in a clock cycle in which no command waits (DESIGN CHOICE, log entry 1): the cycle itself; the
units and frames that banks and ranges held ask again; and the fence of a memory unit in which consumers have met four
uncorrectable lines (Table 17.11). -/

namespace Sys2Proof.Machine

open Sys2Proof

/-- The units of a cluster ask again for the ports and ranges that they were refused (R67, R70, R84). -/
def clusterCycle (s : State) (k : Nat) : State := herdService (pathService (turnService s k) k) k

/-- Everything that a bank or a range held asks again in a new cycle: registrations in the order in which they asked, the units of
every cluster, the Kilns, and frames. -/
def unitsCycle (s : State) : State :=
  let s := (s.cores.filter fun p => !p.2.waiters.isEmpty).foldl (fun s p => afterRetire s p.1) s
  serveFrames (kilnServiceAll ((List.range 16).foldl clusterCycle s))

/-- One clock cycle; with `THERMTRIP#` low no clock runs (R458). DESIGN CHOICE, log entry 1. DEDUCED, log entry 42. -/
def cycle (s : State) : State := if s.power.therm then s else fenceWorn (unitsCycle (tick s))

end Sys2Proof.Machine
end

