-- ==== Sys2Proof/Machine/Sync.lean ====
section
/-! DEFINITION. Tally, fold and beat instructions (Table 2.7, R225, R284 to R298). -/

namespace Sys2Proof.Machine

open Sys2Proof

/-- The slot of a `twait` of tally t on target x. -/
def waitSlot (sl : Slot) (t : BitVec 12) (xs : Reg) (x : W64) : Staged :=
  { place := 2, slot := sl, opcode := 0x10, reads := [.x xs], effect := .twait t x }

/-- A `twait` of tally t on the target in xs. -/
def tallyWait (s : State) (sl : Slot) (t : BitVec 12) (xs : Reg) : State := offer s (waitSlot sl t xs (slotX s sl xs))

/-- `TWAIT` (R285). -/
def execTwait (sl : Slot) (t : BitVec 12) (xs : Reg) (s : State) : Out State := .next (tallyWait s sl t xs)
/-- `TWAIT_YIELD` (R225): the same instruction, its register with bit 63 set. -/
def execTwaitYield (sl : Slot) (t : BitVec 12) (xs : Reg) (s : State) : Out State := .next (tallyWait s sl t xs)
/-- `TSIG` (R286). -/
def execTsig (sl : Slot) (t : BitVec 12) (imm : BitVec 15) (s : State) : Out State :=
  .next (offer s { place := 2, slot := sl, opcode := 0x11, effect := .tsig t imm.toNat (imm == 0) })
/-- `TSIG_X` (R286). -/
def execTsigX (sl : Slot) (t : BitVec 12) (xs : Reg) (s : State) : Out State :=
  let x := slotX s sl xs
  .next (offer s { place := 2, slot := sl, opcode := 0x12, newT2 := true, reads := [.x xs]
                   effect := .tsig t (bits x 47 0) (bits x 47 0 == 0 || bits x 63 48 != 0) })
/-- `TSIG_R` (R291). -/
def execTsigR (sl : Slot) (xa xb : Reg) (s : State) : Out State :=
  .next (offer s { place := 2, slot := sl, opcode := 0x13, reads := [.x xa, .x xb], effect := .tsigR (slotX s sl xa) (slotX s sl xb) })
/-- `TRD` (R287). -/
def execTrd (sl : Slot) (t : BitVec 12) (xs : Reg) (s : State) : Out State :=
  .next (offer s { place := 2, slot := sl, opcode := 0x14, dest := some (.x xs), lat := 6, effect := .trd xs t })
/-- `FARR` (R297): the fold is imm15[3:0]; imm15[14:4] must be 0. -/
def execFarr (sl : Slot) (t : BitVec 12) (imm : BitVec 15) (s : State) : Out State :=
  .next (offer s { place := 2, slot := sl, opcode := 0x15, badEnc := bits imm 14 4 != 0, effect := .farr t (bits imm 3 0) })
/-- `BWAIT` (R33). -/
def execBwait (sl : Slot) (xs : Reg) (s : State) : Out State :=
  .next (offer s { place := 2, slot := sl, opcode := 0x18, newT2 := true, reads := [.x xs], effect := .bwait (slotX s sl xs) })
/-- `BRD` (R359). -/
def execBrd (sl : Slot) (xs : Reg) (s : State) : Out State :=
  .next (offer s { place := 2, slot := sl, opcode := 0x19, newT2 := true, dest := some (.x xs), lat := 6, effect := .brd xs })

end Sys2Proof.Machine
end

