-- ==== Sys2Proof/Machine/ArrayOps.lean ====
section
/-! DEFINITION. Array and accumulator instructions of the compute engine (Table 2.8); their checks and effects are in
Array.lean, Isect.lean and Drain.lean. -/

namespace Sys2Proof.Machine

open Sys2Proof

/-- The slot of a T-slot command of the compute engine that names descriptor slots and a control register. -/
def arraySlot (sl : Slot) (op : Nat) (t2 : Bool) (ds : List Reg) (xs : Reg) (eff : Effect) : Staged :=
  { place := 2, slot := sl, opcode := op, newT2 := t2, only := some .compute, reads := .x xs :: ds.map RegName.d, effect := eff }

/-- Offer that slot, its effect from the control word. -/
def arrayOp (s : State) (sl : Slot) (op : Nat) (t2 : Bool) (ds : List Reg) (xs : Reg) (f : W64 → Effect) : State :=
  offer s (arraySlot sl op t2 ds xs (f (slotX s sl xs)))

/-- `WLD` (R131): d1 is read only for a tile from own scratchpad. -/
def execWld (sl : Slot) (d1 : Reg) (t : BitVec 12) (s : State) : Out State :=
  .next (offer s { place := 2, slot := sl, opcode := 0x20, only := some .compute, reads := if t = 0 then [.d d1] else []
                   effect := .wld d1 none t })
/-- `WLD_PATCH` (R139). -/
def execWldPatch (sl : Slot) (d1 d2 : Reg) (t : BitVec 12) (s : State) : Out State :=
  .next (offer s { place := 2, slot := sl, opcode := 0x21, newT2 := true, only := some .compute
                   reads := .d d2 :: (if t = 0 then [.d d1] else []), effect := .wld d1 (some d2) t })
/-- `MMA_D` (R125). -/
def execMmaD (sl : Slot) (d1 xs : Reg) (s : State) : Out State := .next (arrayOp s sl 0x24 false [d1] xs (.pass 0x24 d1))
/-- `MMA_S24` (R123). -/
def execMmaS24 (sl : Slot) (d1 xs : Reg) (s : State) : Out State := .next (arrayOp s sl 0x25 false [d1] xs (.pass 0x25 d1))
/-- `MMA_MX4` (R124). -/
def execMmaMx4 (sl : Slot) (d1 xs : Reg) (s : State) : Out State := .next (arrayOp s sl 0x26 true [d1] xs (.pass 0x26 d1))
/-- `MMA_BF` (R123). -/
def execMmaBf (sl : Slot) (d1 xs : Reg) (s : State) : Out State := .next (arrayOp s sl 0x27 false [d1] xs (.pass 0x27 d1))
/-- `MMA_ISECT` (R145). -/
def execMmaIsect (sl : Slot) (d1 d2 xs : Reg) (s : State) : Out State := .next (arrayOp s sl 0x28 true [d1, d2] xs (.isect d1 d2))
/-- `MMA_PRED` (R141): d2 is used with `SELECT` only. -/
def execMmaPred (sl : Slot) (d1 d2 xs : Reg) (s : State) : Out State :=
  .next (arrayOp s sl 0x29 true (if bit (slotX s sl xs) 23 then [d1, d2] else [d1]) xs (.pred d1 d2))
/-- `MMA_SEL` (R143). -/
def execMmaSel (sl : Slot) (d1 d2 xs : Reg) (s : State) : Out State :=
  .next (arrayOp s sl 0x2A true [d1, d2, wslotOf (slotX s sl xs)] xs (.sel d1 d2))

/-- The descriptor slots that a drain uses (R202). -/
def drainNames (w : W64) (d1 d2 : Reg) : List Reg := (if dNeeds1 w then [d1] else []) ++ (if dNeeds2 w then [d2] else [])

/-- `DRAIN` (R198). -/
def execDrain (sl : Slot) (d1 d2 xs : Reg) (t : BitVec 12) (s : State) : Out State :=
  .next (arrayOp s sl 0x2C false (drainNames (slotX s sl xs) d1 d2) xs fun w => .drain d1 d2 w t)
/-- `DRAIN_SPILL` (R210): the same instruction with `SPM` 1 or 2. -/
def execDrainSpill (sl : Slot) (d1 d2 xs : Reg) (t : BitVec 12) (s : State) : Out State :=
  .next (arrayOp s sl 0x2C false (drainNames (slotX s sl xs) d1 d2) xs fun w => .drain d1 d2 w t)
/-- `ACCRD` (R48, Table 2.8): imm22[21:1] must be 0. -/
def execAccrd (sl : Slot) (vd xs : Reg) (imm : BitVec 22) (s : State) : Out State :=
  .next (offer s { place := 2, slot := sl, opcode := 0x2D, only := some .compute, badEnc := bits imm 21 1 != 0, reads := [.x xs]
                   dest := some (.v vd), lat := 5, effect := .accrd vd (bits imm 0 0) (slotX s sl xs) })
/-- `ACCCLR` (R211). -/
def execAccclr (sl : Slot) (imm : BitVec 22) (s : State) : Out State :=
  .next (offer s { place := 2, slot := sl, opcode := 0x2E, only := some .compute, badEnc := bits imm 21 1 != 0
                   effect := .accclr (bits imm 0 0) })

end Sys2Proof.Machine
end

