-- ==== Sys2Proof/Machine/Secure.lean ====
section
/-! DEFINITION. Securing state (R388 to R399): the Cone, rounds, images in the keep-areas, and restores. -/

namespace Sys2Proof.Machine

open Sys2Proof

/-! ### Keep-areas (R392, R393) -/

/-- 64 MiB: the unit of slots and of shards. -/
def shardBytesMax : Nat := 0x4000000
/-- Bytes of a slot. -/
def slotSize (s : State) : Nat := bits s.secure.keepLoc 63 48 * shardBytesMax
/-- First local address of slot b of the own keep-area. -/
def slotLocal (s : State) (b : Bool) : Nat := bits s.secure.keepLoc 47 26 * shardBytesMax + (if b then slotSize s else 0)
/-- Device and first address of slot b of the partner's keep-area. -/
def slotPartner (s : State) (b : Bool) : Nat × Nat :=
  (bits s.secure.keepPart 63 48, bits s.secure.keepPart 47 26 * shardBytesMax + (if b then slotSize s else 0))

/-- The channel pair in whose region the own keep-area lies. -/
def keepPair (s : State) : Nat := (slotLocal s false - ddrBase) / pairRegion

/-- Whether the own keep-area counts as enabled: not while its pair is closing or drained, but for the round that was in progress when it
began to close (R431). DEDUCED, log entry 55. -/
def keepEnabled (s : State) : Bool :=
  bit s.secure.keepLoc 0
    && (!outOfService s 2 (keepPair s) || (decide ((2, keepPair s) ∈ s.service.closing) && s.secure.round.isSome))

/-- Whether the own keep-area is in use: enabled, in one populated pair region (R392, R431). -/
def keepOn (s : State) : Bool :=
  let a := slotLocal s false
  let n := 2 * slotSize s
  let m := unitOf s (8 + 2 * keepPair s)
  keepEnabled s && slotSize s != 0 && inDdr a && m.present && decide ((a - ddrBase) % pairRegion + n ≤ 2 * m.capGiB * 2 ^ 30)

/-- Whether the partner's keep-area is in use. -/
def partnerOn (s : State) : Bool := bit s.secure.keepPart 0 && slotSize s != 0

/-- First byte of the system region, its length, and of the plan's regions in an image (R391, R393). -/
def sysOff : Nat := 0x100000
/-- See `sysOff`. -/
def sysLen : Nat := 0x500000

/-- Shards of a region. -/
def shardCount (len : Nat) : Nat := ceilDiv len shardBytesMax

/-! ### An image as its bytes -/

/-- A byte of the image at global address `ga`: of this device, or as fetched from another. -/
def imgByte (s : State) (ga i : Nat) : Byte :=
  if isHere s (ga / 2 ^ 48) then readByte s (ga % 2 ^ 48 + i)
  else (mget [] s.secure.fetched (ga + i / 512 * 512)).getD (i % 512) 0

/-- Bytes of an image. -/
def imgBytes (s : State) (ga i n : Nat) : List Byte := (List.range n).map fun j => imgByte s ga (i + j)
/-- A word of an image. DESIGN CHOICE, log entry 33. -/
def imgWord (s : State) (ga i : Nat) : Nat := leNat (imgBytes s ga i 8)

/-- The first 512 bytes of [i, i + n) of an image that have still to be fetched. -/
def imgMissing (s : State) (ga i n : Nat) : Option Nat :=
  if isHere s (ga / 2 ^ 48) then none
  else ((List.range (if n = 0 then 0 else (i + n - 1) / 512 + 1 - i / 512)).map fun j => (i / 512 + j) * 512).find? fun o =>
    (mget [] s.secure.fetched (ga + o)).isEmpty

/-- `ROUND`, `NREG`, `NSHARD`, the flags of a manifest header: eight words from 0x40 (DESIGN CHOICE, log entry 33). -/
def imgRound (s : State) (ga : Nat) : Nat := imgWord s ga 0x40
/-- See `imgRound`. -/
def imgNreg (s : State) (ga : Nat) : Nat := imgWord s ga 0x60
/-- See `imgRound`. -/
def imgNshard (s : State) (ga : Nat) : Nat := imgWord s ga 0x68
/-- See `imgRound`. -/
def imgMixed (s : State) (ga : Nat) : Bool := imgWord s ga 0x70 / 2 % 2 == 1
/-- See `imgRound`. -/
def imgPartial (s : State) (ga : Nat) : Bool := imgWord s ga 0x70 / 4 % 2 == 1

/-- End of the list of digests, where the counts are within R393. -/
def imgListEnd (s : State) (ga : Nat) : Nat := 0x80 + 32 * (Min.min 32764 (imgNreg s ga + 1 + imgNshard s ga))

/-- Whether a slot holds an image: its seal matches its manifest (R393, R396). -/
def imgSealed (s : State) (ga : Nat) : Bool :=
  decide (imgNreg s ga + 1 + imgNshard s ga ≤ 32764)
    && imgBytes s ga 0 32 == digest32 (imgBytes s ga 0x40 (imgListEnd s ga - 0x40))
    && imgWord s ga 0x20 == imgRound s ga

/-- Record k of an image: `REGID` word, length, offset, first shard (DESIGN CHOICE, log entry 33). -/
def imgRecord (s : State) (ga k : Nat) : Nat × Nat × Nat × Nat :=
  (imgWord s ga (0x80 + 32 * k), imgWord s ga (0x88 + 32 * k), imgWord s ga (0x90 + 32 * k), imgWord s ga (0x98 + 32 * k))

/-- The record of a region, by `REGID`. DESIGN CHOICE, log entry 33. -/
def imgFind (s : State) (ga regId : Nat) : Option (Nat × Nat × Nat × Nat) :=
  ((List.range (imgNreg s ga + 1)).map (imgRecord s ga)).find? fun r => r.1 % 2 ^ 32 == regId

/-- The digest of shard k. -/
def imgDigest (s : State) (ga k : Nat) : List Byte := imgBytes s ga (0x80 + 32 * (imgNreg s ga + 1 + k)) 32

/-- The slot of two with the newer image, among those that pass a test. -/
def newestOf (s : State) (slots : List Nat) (ok : Nat → Bool) : Option Nat :=
  (slots.filter ok).foldl (fun (b : Option Nat) g =>
    match b with
    | none => some g
    | some h => if imgRound s h < imgRound s g then some g else some h) none

/-- The own slots as global addresses. -/
def localSlots (s : State) : List Nat := [slotLocal s false, slotLocal s true].map fun a => 0xFFFF * 2 ^ 48 + a
/-- The partner's. -/
def partnerSlots (s : State) : List Nat := [slotPartner s false, slotPartner s true].map fun q => q.1 * 2 ^ 48 + q.2

/-! ### Arming a round (R389, R390, R394, R395) -/

/-- Bytes of the image of a plan, and its shards. -/
def planImage (rs : List Region) : Nat × Nat :=
  (sysOff + sysLen + (rs.map (·.regLen)).foldl (· + ·) 0, 1 + (rs.map fun r => shardCount r.regLen).foldl (· + ·) 0)

/-- Whether a plan breaks R390 or R393. -/
def badPlan (s : State) (rs : List Region) : Bool :=
  let im := planImage rs
  rs.any (fun r => r.regId == 0 || r.regLen == 0 || r.regLen % 64 != 0 || r.regSrc % 64 != 0
      || (match kilnOf s r.regSrc with | some n => !servedBy s n r.regSrc r.regLen | none => true))
    || !decide (rs.map (·.regId)).Nodup || decide (32764 < rs.length + 1 + im.2)
    || ((keepOn s || partnerOn s) && decide (slotSize s < im.1))

/-- The slot of the own keep-area that a round writes: the one without the newest image that is not `PARTIAL` (R396). DEDUCED, log entry 55. -/
def localTarget (s : State) : Bool :=
  match newestOf s (localSlots s) fun g => imgSealed s g && !imgPartial s g with
  | some g => g == (localSlots s).headD 0
  | none => false

/-- The same at the partner; before this device has sealed an image there, which slot holds the newest one is not known to it:
a free value. DEDUCED, log entry 55. -/
def partnerTarget (s : State) : Bool × State :=
  match s.secure.pwhole with
  | some b => (!b, s)
  | none => (bit (takeFree s).1 0, (takeFree s).2)

/-- The number of the next round (Table 17.8). -/
def nextRound (s : State) : Nat :=
  1 + (((localSlots s).filter fun g => keepOn s && imgSealed s g).map (imgRound s)).foldl Max.max s.secure.roundNo

/-- The contexts of a plan whose secure point is the arming: those not live. -/
def parkedCtxs (s : State) (rs : List Region) : List Nat :=
  (((rs.filter fun g => !g.devWide).map (·.ctx)).dedup).filter fun x => ctxState s x != 2

/-- Every live context still waiting takes its secure point now. -/
def secureNow (s : State) : State :=
  match s.secure.round with
  | none => s
  | some r => (((r.regions.filter fun g => !g.devWide && !g.ready && !g.dropped).map (·.ctx)).dedup).foldl (fun s x => securePoint s x true) s

/-- A round is armed: parked contexts and device-wide regions are at their secure points; a context whose `DISC` is 1 is left
out. DEDUCED, log entry 55. -/
def armRound (s : State) : State :=
  let rs := planRegions s
  let xs := parkedCtxs s rs
  let (slotP, s) := partnerTarget s
  let regions := rs.map fun g =>
    if g.devWide then { g with ready := true }
    else if g.ctx ∈ xs then (if ctxDisc s g.ctx then { g with dropped := true } else { g with ready := true }) else g
  let good := xs.filter fun x => !ctxDisc s x
  let r : Round := { number := nextRound s, regions := regions, descs := good.map fun x => (x, descWords s x), partly := xs.any (ctxDisc s)
                     slotL := localTarget s, slotP := slotP }
  { s with secure := { s.secure with round := some r, partnerFail := false } }

/-- Whether an entry of `SEC_PLAN` holds a reserved field that is not 0 (R15, Table 17.5). -/
def oddPlan (s : State) : Bool :=
  (List.range (bits s.secure.plan 63 48)).any fun i => planReserved s (bits s.secure.plan 47 0) i

/-- Arm a round where its plan is valid; refused otherwise, in the name of `addr` and `w1` (R390), a plan with a reserved field that
is not 0 among them (R15; DESIGN CHOICE, log entry 51). DEDUCED, log entry 55. -/
def tryArm (s : State) (addr w1 : W64) : State :=
  if badPlan s (planRegions s) || oddPlan s then refuse s 0x32 addr w1 else armRound s

/-- Whether a field of a secure command other than `OP`, `NOW` and the beat is not 0 (R395). -/
def armReserved (b : List Byte) : Bool :=
  bits (wordAt b 0) 55 52 != 0 || bits (wordAt b 0) 50 0 != 0 || (b.drop 16).any (· != 0)

/-- The round in progress becomes an emergency round (R389, R394). -/
def makeEmergency (s : State) : State :=
  match s.secure.round with
  | none => s
  | some r => secureNow { s with secure := { s.secure with round := some { r with emergency := true } } }

/-- `SECURE_ROUND_ARM` (R395, R397): a round in progress is not armed again; a block with another field that is not 0 is refused
(R15; DESIGN CHOICE, log entry 51). -/
def execSecureRoundArm (s : State) : Out State :=
  match headBlock s 0x10 with
  | none => .next s
  | some b =>
    let s := popCmd s
    if armReserved b then .next (refuse s 0x32 (BitVec.ofNat 64 cmdqAddr) 0x10)
    else if s.secure.round.isSome then .next s
    else
      let s := tryArm s (BitVec.ofNat 64 cmdqAddr) 0x10
      .next (if bit (wordAt b 0) 51 then secureNow s else s)

/-! ### The Cone (R388, R389, Table 17.3) -/

/-- Whether the partner shares the device's declared domain under override. -/
def feedShared (s : State) : Bool :=
  bit s.secure.keepPart 0 && bits s.secure.feed 31 16 == bits s.secure.feed 15 0 && bit s.secure.feed 63

/-- The hottest reading. -/
def hottest (s : State) : Nat := s.power.temps.foldl Max.max 0

/-- The points of a tick: each input's weight times its events. -/
def coneInput (s : State) : Nat :=
  let c := s.secure
  let w := fun (hi lo : Nat) => bits c.weights hi lo
  w 63 56 * c.evUnc + w 55 48 * (c.evCorr / 1024) + w 47 40 * (hottest s - 95) + w 39 32 * c.evDroop + w 31 24 * c.evRetr + w 23 16 * c.evLoss
    + w 15 8 * c.evMiss + (if feedShared s then w 7 0 else 0)

/-- The new point count. -/
def conePoints (s : State) : Nat :=
  let c := s.secure
  if 16 ≤ c.missRun then 65535 else Min.min 65535 (c.points - c.points / 16 + coneInput s + bits c.ext 7 0)

/-- What the Cone does at its level. -/
def coneActs (s : State) : State :=
  let c := s.secure
  let l := coneLevel s
  let emg := decide (bits c.cfg 60 58 ≤ l)
  let fresh := emg && !c.aboveEmg
  let due := decide (bits c.cfg 63 61 ≤ l) || (bits c.cfg 31 0 != 0 && decide (c.last.toNat + bits c.cfg 31 0 ≤ s.clock.beat))
  let s := { s with secure := { c with aboveEmg := emg } }
  let s := if due && c.round.isNone then tryArm s 0x300018000028 0x28 else s
  if fresh then makeEmergency s else s

/-- `CONE_TICK` (R388, R389): once every 1,000 beats. -/
def execConeTick (s : State) : Out State :=
  let c := s.secure
  if s.clock.beat < c.lastTick + 1000 ∨ s.boot.state = 2 then .next s
  else
    .next (coneActs { s with secure := { c with points := conePoints s, lastTick := s.clock.beat, evUnc := 0, evCorr := c.evCorr % 1024
                                                evDroop := 0, evRetr := 0, evLoss := 0, evMiss := 0 } })

/-- `SECURE_POINT` (R394): a live context that has stopped is at its secure point (its next serial advance and its release take
theirs by themselves). -/
def execSecurePoint (x : CtxId) (s : State) : Out State :=
  .next (if ctxState s x.val = 2 ∧ ctxStopped s x.val then securePoint s x.val false else s)

/-! ### Copying (R394, R396, R397) -/

/-- Whether a Kiln command of context x is in progress. -/
def kilnBusy (s : State) (x : Nat) : Bool :=
  (List.range 14).any fun n => (kilnCmds s n).any fun q => q.ctx == some x && decide (1 ≤ q.phase)

/-- The writes of bytes to the partner's slot, in pieces of 512 (R392). -/
def keepFrames (s : State) (b : Bool) (off : Nat) (bs : List Byte) : List Frame :=
  let (dev, a) := slotPartner s b
  (chunks 512 bs).zipIdx.map fun (p, i) => { newFrame s 1 dev (engineStream s dev) 0 (a + off + 512 * i) 0 p with mcf := true }

/-- Queue writes to the partner; the first goes out where none is awaited. -/
def queueKeep (s : State) (l : List Frame) : State :=
  let s := { s with secure := { s.secure with toPartner := s.secure.toPartner ++ l } }
  if awaiting s 0 (.remote 1) then s else sendKeep s

/-- Write bytes of an image to every keep-area in use. DEDUCED, log entry 55. -/
def writeKeep (s : State) (r : Round) (off : Nat) (bs : List Byte) : State :=
  let s := if keepOn s then writeMem s (slotLocal s r.slotL + off) bs else s
  if partnerOn s && !s.secure.partnerFail then queueKeep s (keepFrames s r.slotP off bs) else s

/-- Where the next region copied goes. DEDUCED, log entry 55. -/
def nextOff (r : Round) : Nat := sysOff + sysLen + ((r.regions.filter (·.copied)).map (·.regLen)).foldl (· + ·) 0

/-- A region is read once: digested shard by shard and written to the keep-areas. -/
def copyRegion (s : State) (r : Round) (i : Nat) (g : Region) : State :=
  let bs := readMem s g.regSrc g.regLen
  let off := nextOff r
  let g := { g with copied := true, imgOff := off, digests := (chunks shardBytesMax bs).map digest32 }
  let s := noteSoft s g.regSrc g.regLen
  let s := { s with secure := { s.secure with round := some { r with regions := r.regions.set i g } } }
  kilnServiceAll (writeKeep s r off bs)

/-- An uncorrectable line ends the copy of its context (R397). -/
def copyFails (s : State) (g : Region) (l : Nat) : State :=
  let x := if g.devWide then none else some g.ctx
  let n := (kilnOf s g.regSrc).getD 0
  let s := reportMC (countUncorr s l x) (.fault { uncorrRec s 0xA (uncorrSub l) l 0 x with unit := n })
  match x with
  | some x => kilnServiceAll (dropFromRound s x)
  | none => dropReaching s g.regSrc g.regLen

/-- `REGION_COPY` (R394, R396, R397): region i of the round, at its secure point and after the Kiln commands in progress. -/
def execRegionCopy (i : Nat) (s : State) : Out State :=
  match s.secure.round with
  | none => .next s
  | some r =>
    match r.regions[i]? with
    | none => .next s
    | some g =>
      if !g.ready || g.copied || g.dropped || (!g.devWide && kilnBusy s g.ctx) then .next s
      else match badIn s g.regSrc g.regLen with
      | some l => .next (copyFails s g l)
      | none => .next (copyRegion s r i g)

/-! ### Sealing (R391, R393, R396, R400) -/

/-- The bytes of a list of words. -/
def wordBytes (l : List W64) : List Byte := (l.map fun w => leBytes 8 w.toNat).flatten

/-- The system region (Table 17.6). -/
def systemRegion (s : State) (r : Round) : List Byte :=
  let f := s.fabric
  let groups := wordBytes ((List.range 16384).map fun i => mget 0 f.groups i)
  let rts := wordBytes (((List.range 128).map fun m => mget 0 f.memberRt m) ++ (List.range 128).map fun g => mget 0 f.groupRt g)
  let regs := padTo 0x800 (wordBytes [fabWord s, f.beatCtl, s.secure.repl, s.secure.feed])
  let imports := padTo 0xF000 (wordBytes ((List.range 4096).map fun i => mget 0 f.imports i))
  let descs := ((sortBy (fun a b => decide (a.1 ≤ b.1)) r.descs).map fun d => wordBytes d.2).flatten
  padTo sysLen (groups ++ rts ++ regs ++ imports ++ descs)

/-- The manifest of a round: header, records, digests (R393; DESIGN CHOICE, log entry 33). DEDUCED, log entry 55. -/
def manifestBytes (s : State) (r : Round) (sys : List Byte) : List Byte :=
  let gs := r.regions.filter fun g => g.copied && !g.dropped
  let len := sysOff + sysLen + ((r.regions.filter (·.copied)).map (·.regLen)).foldl (· + ·) 0
  let nshard := 1 + (gs.map fun g => g.digests.length).foldl (· + ·) 0
  let flags := (if r.emergency then 1 else 0) + (if r.mixed then 2 else 0) + (if r.partly then 4 else 0)
  let head := wordBytes ([r.number, r.beat, s.part.serialNo.toNat, s.plan.serial.toNat, gs.length, nshard, flags, len].map (BitVec.ofNat 64))
  let sysRec := wordBytes ([0, sysLen, sysOff, 0].map (BitVec.ofNat 64))
  let recs := (gs.foldl (fun (a : List Byte × Nat) g =>
    let w := g.ctx * 2 ^ 50 + (if g.devWide then 2 ^ 49 else 0) + (if g.isDig then 2 ^ 48 else 0) + g.regId
    (a.1 ++ wordBytes ([w, g.regLen, g.imgOff, a.2].map (BitVec.ofNat 64)), a.2 + g.digests.length)) (sysRec, 1)).1
  head ++ recs ++ digest32 sys ++ (gs.map fun g => g.digests.flatten).flatten

/-- The round ends with what was sealed: `SEC_LAST` and `SEC_STAT` follow, a seal at one of two areas only is reported. -/
def finishRound (s : State) (r : Round) : State :=
  let l := keepOn s
  let p := partnerOn s && !s.secure.partnerFail
  let c := s.secure
  let c := if l || p then { c with last := BitVec.ofNat 64 r.beat, roundNo := r.number, lok := l, pok := p } else c
  let c := if l then { c with lslot := r.slotL } else c
  let c := if p then { c with pslot := r.slotP, pwhole := if r.partly then c.pwhole else some r.slotP } else c
  let one := keepEnabled s && bit c.keepPart 0 && (l != p)
  let s := { s with secure := { c with round := none, partnerFail := false } }
  if one then reportMC s (.fault { cls := 0xA, sub := 0x30, ukind := 0xD, w1 := noIndex, beat := beatW s }) else s

/-- The MC writes the system region, the manifest, and then the seal as one write of 64 bytes. -/
def writeSeal (s : State) (r : Round) : State :=
  let r := { r with sealing := true, beat := s.clock.beat }
  let sys := systemRegion s r
  let man := manifestBytes s r sys
  let sealBytes := padTo 64 (digest32 man ++ leBytes 8 r.number ++ leBytes 8 r.beat)
  let s := { s with secure := { s.secure with round := some r } }
  writeKeep (writeKeep (writeKeep s r sysOff sys) r 0x40 man) r 0 sealBytes

/-- Whether the partner has still to acknowledge writes of the round. -/
def partnerBusy (s : State) : Bool := !s.secure.toPartner.isEmpty || awaiting s 0 (.remote 1)

/-- Leave out of the round the contexts whose verdict did not pass (R400). -/
def dropDiverged (s : State) : State :=
  (s.gates.filter fun g => match g.2 with | some q => q.restoring || q.giver.isSome | none => false).foldl (fun s g => dropFromRound s g.1) s

/-- Whether a context of the round awaits a verdict. -/
def awaitsVerdict (s : State) (r : Round) : Bool := r.regions.any fun g => !g.devWide && !g.dropped && (gateOf s g.ctx).isSome

/-- `ROUND_SEAL` (R396, R400): once every region is copied or dropped and every verdict is in, the image is sealed; once the
partner has acknowledged it too, the round ends. -/
def execRoundSeal (s : State) : Out State :=
  let s1 := dropDiverged s
  match s1.secure.round with
  | none => .next s
  | some r =>
    if r.regions.any (fun g => !g.copied && !g.dropped) || awaitsVerdict s1 r || partnerBusy s1 then .next s
    else
      let s2 := if r.sealing then s1 else writeSeal s1 r
      match s2.secure.round with
      | none => .next s2
      | some r => if partnerBusy s2 then .next s2 else .next (finishRound s2 r)

/-! ### Restoring (R398, R399) -/

/-- `SRC`, `FAB`, `ALT`, `ACCM` of a restore block (Table 17.9). -/
def rsSrc (b : List Byte) : Nat := bits (wordAt b 0) 55 53
/-- See `rsSrc`. -/
def rsFab (b : List Byte) : Bool := bit (wordAt b 0) 52
/-- See `rsSrc`. -/
def rsAlt (b : List Byte) : Bool := bit (wordAt b 0) 51
/-- See `rsSrc`. -/
def rsAccm (b : List Byte) : Bool := bit (wordAt b 0) 50

/-- The destination plan. -/
def rsPlan (s : State) (b : List Byte) : List Region :=
  (List.range (bits (wordAt b 0x20) 63 48)).map fun i => planEntry s (bits (wordAt b 0x20) 47 0) i

/-- The contexts of a destination plan. -/
def rsCtxs (rs : List Region) : List Nat := ((rs.filter fun g => !g.devWide).map (·.ctx)).dedup

/-- The images that a source names. -/
def rsSlots (s : State) (b : List Byte) : List Nat :=
  if rsSrc b < 2 then (if keepOn s then localSlots s else [])
  else if rsSrc b < 4 then (if partnerOn s then partnerSlots s else [])
  else if rsSrc b = 4 then [(wordAt b 0x10).toNat] else []

/-- The image chosen: the newest of the source's, or its other slot. -/
def rsChoose (s : State) (b : List Byte) : Option Nat :=
  let ok := (rsSlots s b).filter (imgSealed s)
  match newestOf s ok fun _ => true with
  | none => none
  | some g => if rsSrc b % 2 = 1 then ((rsSlots s b).find? (· != g)).bind fun h => if imgSealed s h then some h else none else some g

/-- Bytes of an image's manifest still to be fetched. -/
def manifestMissing (s : State) (ga : Nat) : Option Nat :=
  match imgMissing s ga 0 512 with
  | some o => some o
  | none => imgMissing s ga 0 (imgListEnd s ga)

/-- Ask for 512 bytes of an image on another device. DEDUCED, log entry 56. -/
def fetchImage (s : State) (ga off : Nat) : State :=
  let dev := ga / 2 ^ 48
  sendRequest s (.remote 2) 0 { newFrame s 2 dev (engineStream s dev) 0 ((ga + off) % 2 ^ 48) 512 [] with mcf := true }

/-- The first image of a list whose manifest is not all here, with the missing place. -/
def firstMissing (s : State) (l : List Nat) : Option (Nat × Nat) := (l.filterMap fun g => (manifestMissing s g).map fun o => (g, o)).head?

/-- Whether a reserved field of a restore block, `RS_IMG` where no image is named by it, or a reserved field of its destination plan
is not 0 (R15, Tables 17.5 and 17.9). -/
def rsReserved (s : State) (b : List Byte) : Bool :=
  bits (wordAt b 0) 49 0 != 0 || (rsSrc b != 4 && wordAt b 0x10 != 0) || (b.drop 0x28).any (· != 0)
    || (List.range (bits (wordAt b 0x20) 63 48)).any fun i => planReserved s (bits (wordAt b 0x20) 47 0) i

/-- Whether a restore from image `ga` is refused (R398), or for a reserved field that is not 0 (R15; DESIGN CHOICE, log entry 51). -/
def badRestore (s : State) (b : List Byte) (ga : Nat) : Bool :=
  let rs := rsPlan s b
  let want := wordAt b 0x18
  let granted := s.folds.any fun p => foldScope p.2 != 0
  rsReserved s b || (want != 0 && want.toNat != imgRound s ga) || (imgMixed s ga && !rsAccm b)
    || rs.any (fun g => match imgFind s ga g.regId with | some r => r.2.1 != g.regLen | none => true)
    || (rsCtxs rs).any (fun x => ctxState s x != 1)
    || (rsFab b && (anyLive s || granted))
    || (!rsFab b && (List.range 4096).any fun g =>
        let w := fun (k : Nat) => BitVec.ofNat 64 (imgWord s ga (sysOff + 32 * g + 8 * k))
        bit (w 0) 63 && (List.range 4).any fun k => w k != groupWord s g k)

/-- Step 1: the tables of the system region are written (R399). DEDUCED, log entry 34. -/
def restoreTables (s : State) (ga : Nat) : State :=
  let w := fun (o : Nat) => BitVec.ofNat 64 (imgWord s ga (sysOff + o))
  let table := fun (n o : Nat) => (List.range n).foldl (fun (m : AMap W64) i => mset 0 m i (w (o + 8 * i))) []
  { s with fabric := { s.fabric with groups := table 16384 0, memberRt := table 128 0x20000, groupRt := table 128 0x20400, imports := table 4096 0x21000
                                     beatCtl := w 0x20808 }
           secure := { s.secure with repl := w 0x20810, feed := w 0x20818 } }

/-- A restore is accepted: its contexts are held parked with `DISC` at 1. -/
def acceptRestore (s : State) (b : List Byte) (ga : Nat) : State :=
  let xs := rsCtxs (rsPlan s b)
  let s := xs.foldl setDisc (if rsFab b then restoreTables s ga else s)
  { s with secure := { s.secure with restore := some { base := ga, ctxs := xs }, restoring := (s.secure.restoring ++ xs).dedup } }

/-- The first event of a restore: its image is read, checked, accepted or refused. -/
def openRestore (s : State) (b : List Byte) : State :=
  match firstMissing s (rsSlots s b) with
  | some (g, o) => fetchImage s g o
  | none =>
    let no := { refuseCmd s 0x33 b with secure := { s.secure with fetched := [] } }
    match rsChoose s b with
    | none => no
    | some ga =>
      match imgMissing s ga sysOff sysLen with
      | some o => fetchImage s ga o
      | none => if badRestore s b ga then no else acceptRestore s b ga

/-- The same shard in the other keep-area, where it holds an image of the same round (R399): address and offset. -/
def otherShard (s : State) (b : List Byte) (r : Restore) (regId t : Nat) : Option (Nat × Nat) :=
  let slots := if isHere s (r.base / 2 ^ 48) then (if partnerOn s then partnerSlots s else []) else (if keepOn s then localSlots s else [])
  if !rsAlt b then none
  else ((slots.filter fun g => imgSealed s g && imgRound s g == imgRound s r.base).filterMap fun g =>
    (imgFind s g regId).map fun q => (g, q.2.2.1 + t * shardBytesMax)).head?

/-- A restore ends where no copy of a shard matches: the destinations hold no defined contents, the contexts stay barred. DEDUCED, log entry 56. -/
def failRestore (s : State) (b : List Byte) (g : Region) (own : List Byte) : State :=
  let rs := rsPlan s b
  let s := reportMC s (.fault { cls := 0xD, sub := 5, ukind := 0xD, w1 := BitVec.ofNat 64 (bits (cw s g.ctx 0) 31 0), w2 := BitVec.ofNat 64 (ctxStep s g.ctx)
                                w3 := wordAt own 0, w4 := BitVec.ofNat 64 g.regId, beat := beatW s, ctx := if g.devWide then none else some g.ctx })
  let s := rs.foldl (fun s g =>
    let bs := (List.range g.regLen).map fun i => ((Config.freeValue (s.free + i)).truncate 8 : Byte)
    { writeMem s g.regSrc bs with free := s.free + g.regLen }) s
  popCmd { s with secure := { s.secure with restore := none, fetched := [] } }

/-- One shard of a restore is read, compared and written (R399). DEDUCED, log entry 56. -/
def restoreShard (s : State) (b : List Byte) (r : Restore) (g : Region) : State :=
  match imgFind s r.base g.regId with
  | none => s
  | some q =>
    let o := r.shard * shardBytesMax
    let n := Min.min shardBytesMax (g.regLen - o)
    let want := imgDigest s r.base (q.2.2.2 + r.shard)
    let go := fun (s : State) (bs : List Byte) (k : Nat) =>
      let last := decide (g.regLen ≤ o + n)
      let r := { r with region := if last then r.region + 1 else r.region, shard := if last then 0 else r.shard + 1, others := r.others + k }
      { writeMem s (g.regSrc + o) bs with secure := { s.secure with restore := some r } }
    match imgMissing s r.base (q.2.2.1 + o) n with
    | some m => fetchImage s r.base m
    | none =>
      let bs := imgBytes s r.base (q.2.2.1 + o) n
      if digest32 bs = want then go s bs 0
      else
        let slots := if isHere s (r.base / 2 ^ 48) then (if partnerOn s then partnerSlots s else []) else []
        match (if rsAlt b then firstMissing s slots else none) with
        | some (h, m) => fetchImage s h m
        | none =>
          match otherShard s b r g.regId r.shard with
          | none => failRestore s b g (digest32 bs)
          | some (h, i) =>
            match imgMissing s h i n with
            | some m => fetchImage s h m
            | none =>
              let bs2 := imgBytes s h i n
              if digest32 bs2 = want then go s bs2 1 else failRestore s b g (digest32 bs)

/-- The contexts named by an image's records, ascending: the order of its descriptors (Table 17.6). -/
def imgCtxs (s : State) (ga : Nat) : List Nat :=
  sortBy (fun a b => decide (a ≤ b)) ((((List.range (imgNreg s ga)).map fun k => (imgRecord s ga (k + 1)).1).filter fun w => !w.testBit 49).map
    fun w => nbits w 63 50).dedup

/-- The context of the image whose state the destination context x takes: that of the saved region which the first region of x
names by `REGID` (R398, R399). DEDUCED, log entry 34. -/
def savedCtx (s : State) (b : List Byte) (ga x : Nat) : Nat :=
  match (rsPlan s b).find? fun g => g.ctx == x && !g.devWide with
  | some g => match imgFind s ga g.regId with | some q => nbits q.1 63 50 | none => x
  | none => x

/-- Steps 3 and 4: steps and counters from the system region, `DISC` cleared, the record sent (R399; DEDUCED, log entry 34). -/
def endRestoreOk (s : State) (b : List Byte) (r : Restore) : State :=
  let order := imgCtxs s r.base
  let s2 := (r.ctxs.map fun x => (x, savedCtx s b r.base x)).foldl (fun s (x, y) =>
    let o := sysOff + 0x30000 + 256 * order.findIdx (· == y)
    let w := fun (k : Nat) => BitVec.ofNat 64 (imgWord s r.base (o + k))
    let s := setCw (setCw (setCw s x 0xE0 (w 0xE0)) x 0xF0 (w 0xF0)) x 0xF8 (w 0xF8)
    let s := setCw s x 8 (setBits (cw s x 8) 63 48 (bits (w 0xE0) 63 48))
    setCw s x 0 (setBits (cw s x 0) 61 61 0)) s
  let s2 := { s2 with secure := { s2.secure with restore := none, fetched := [], restoring := s2.secure.restoring.filter fun x => decide (x ∉ r.ctxs) } }
  reportMC (popCmd s2) (statusRec s 6 (leBytes 6 0 ++ leBytes 8 (imgRound s r.base) ++ leBytes 8 r.others) none)

/-- `RESTORE` (R398, R399): one event of the restore at the head of the queue: a piece of the image is asked for, the restore is
accepted or refused, a shard is copied, or the restore ends. -/
def execRestore (s : State) : Out State :=
  match headBlock s 0x11 with
  | none => .next s
  | some b =>
    if awaiting s 0 (.remote 2) then .next s
    else match s.secure.restore with
    | none => .next (openRestore s b)
    | some r =>
      match (rsPlan s b)[r.region]? with
      | some g => .next (restoreShard s b r g)
      | none => .next (endRestoreOk s b r)

end Sys2Proof.Machine
end

