-- ==== Sys2Proof/Machine/Replica.lean ====
section
/-! DEFINITION. Comparing replicas (R400 to R402): step digests up the tree, the root's verdict, and the copy a divergent member
takes. The formats of these MC frames are not given, so their contents are the commands' operands (DESIGN CHOICE, log entry 35). -/

namespace Sys2Proof.Machine

open Sys2Proof

/-- A divergence record of context x (Table 21.3). -/
def diverge (s : State) (x sub : Nat) (serial : Nat) (own : List Byte) (reference : W64) : State :=
  reportMC s (.fault { cls := 0xD, sub := sub, ukind := 0xD, w1 := BitVec.ofNat 64 (bits (cw s x 0) 31 0), w2 := BitVec.ofNat 64 serial
                       w3 := wordAt own 0, w4 := reference, beat := beatW s, ctx := some x })

/-- `REPLICA_DIGEST_FRAME` (R401): a member's digest is kept by the root, or goes on up the tree; before this device's own serial
advance it is kept for it. DESIGN CHOICE, log entry 35. -/
def execReplicaDigestFrame (x : CtxId) (rank : BitVec 16) (digest : List Byte) (s : State) : Out State :=
  if !replOn s then .next s
  else match gateOf s x.val with
  | none => .next { s with secure := { s.secure with early := s.secure.early ++ [(x.val, rank.toNat, digest)] } }
  | some g =>
    if replRoot s then .next (setGate s x.val (some { g with from_ := g.from_ ++ [(rank.toNat, digest)] }))
    else .next (setGate s x.val (some { g with sentUp := g.sentUp ++ [(rank.toNat, digest)] }))

/-! ### The verdict (Table 17.10) -/

/-- Members of the replica group. -/
def replMembers (s : State) : Nat := bits (groupWord s (replGroup s) 0) 47 32

/-- Whether the root has every member's digest. -/
def allDigests (s : State) (g : Gate) : Bool := (List.range (replMembers s)).all fun r => g.from_.any fun e => e.1 == r

/-- The digest of a member. -/
def digestOf (g : Gate) (r : Nat) : List Byte := ((g.from_.find? fun e => e.1 == r).map (·.2)).getD []

/-- The value of D held by more than half of n members, where there is one. -/
def majority (g : Gate) (n : Nat) : Option (List Byte) :=
  ((List.range n).map (digestOf g)).find? fun d => decide (n < 2 * ((List.range n).filter fun r => digestOf g r == d).length)

/-- Whether a line lies in a plan region of context x. -/
def inPlanOf (s : State) (x l : Nat) : Bool :=
  (planRegions s).any fun g => g.ctx == x && decide (l < g.regSrc + g.regLen ∧ g.regSrc < l + 64)

/-- This member's evidence (Table 17.10): an error that a verification read of the plan regions of context x finds, corrected or
not, or a memory uncorrectable record for one of their lines since the verdict before. -/
def evidence (s : State) (x : Nat) : Bool :=
  (s.badLines ++ s.softLines ++ s.secure.uncLines).any (inPlanOf s x)

/-- A verdict is in: the records before it are no evidence for the next. -/
def verdictIn (s : State) (x : Nat) : State :=
  { s with secure := { s.secure with uncLines := s.secure.uncLines.filter fun l => !inPlanOf s x l } }

/-- Whether a verdict for the member of rank r is one that the root may reach from the digests it holds. With two members that
differ, what the other's verification read found is known only by the verdict itself. -/
def mayDecide (s : State) (x : Nat) (g : Gate) (r : Nat) (v : Verdict) : Bool :=
  let n := replMembers s
  let d := digestOf g r
  let reference := fun (w : W64) => (List.range n).any fun q => digestOf g q != d && wordAt (digestOf g q) 0 == w
  if (List.range n).all fun q => digestOf g q == d then v == .pass
  else if n = 2 then
    match v with
    | .pass => !evidence s x
    | .takeCopy giver e => evidence s x && giver.toNat == 1 - r && e == digestOf g (1 - r)
    | .restore w => reference w
  else match majority g n with
  | some m =>
    if d = m then v == .pass
    else v == .takeCopy (BitVec.ofNat 16 (((List.range n).find? fun q => digestOf g q == m).getD 0)) m
  | none => match v with | .restore w => reference w | _ => false

/-- The verdicts that the root sends to the other members of a group of three or more, or of equal digests; with two that differ
the other's follows from this one's. -/
def otherVerdicts (s : State) (g : Gate) (own : Nat) (v : Verdict) : List (Nat × Verdict) :=
  let n := replMembers s
  let m := majority g n
  ((List.range n).filter (· != own)).map fun r =>
    let d := digestOf g r
    let w := wordAt (((List.range n).map (digestOf g)).find? (· != d) |>.getD []) 0
    if (List.range n).all fun q => digestOf g q == d then (r, .pass)
    else if n = 2 then (r, match v with
      | .pass => .takeCopy (BitVec.ofNat 16 own) (digestOf g own)
      | .takeCopy _ _ => .pass
      | .restore _ => .restore w)
    else match m with
    | some e => (r, if d = e then .pass else .takeCopy (BitVec.ofNat 16 (((List.range n).find? fun q => digestOf g q == e).getD 0)) e)
    | none => (r, .restore w)

/-- A verification read through ECC of every line of the context's plan regions: its errors are counted (R401). -/
def verifyRead (s : State) (x : Nat) : State :=
  ((planRegions s).filter fun g => g.ctx == x).foldl (fun s g =>
    let s := noteSoft s g.regSrc g.regLen
    (s.badLines.filter fun l => decide (l < g.regSrc + g.regLen ∧ g.regSrc < l + 64)).foldl (fun s l =>
      reportMC (countUncorr s l (some x)) (.fault { uncorrRec s 0xA (uncorrSub l) l 0 (some x) with unit := (kilnOf s l).getD 0 })) s) s

/-- What a verdict does to a member (R401, R402). -/
def applyVerdict (s : State) (x : Nat) (g : Gate) : Verdict → State
  | .pass => kilnServiceAll (setGate s x none)
  | .takeCopy giver e =>
    setGate (diverge (dropFromRound s x) x 1 g.serial g.digest (wordAt e 0)) x (some { g with giver := some (giver, e) })
  | .restore w =>
    let s := diverge (dropFromRound s x) x 1 g.serial g.digest w
    setDisc (setGate (diverge s x 3 g.serial g.digest w) x (some { g with restoring := true })) x

/-- `REPLICA_VERDICT` (R401): at the root once every digest is here, which sends the others theirs; at another member as the tree
brings it. DESIGN CHOICE, log entry 35. -/
def execReplicaVerdict (x : CtxId) (v : Verdict) (s : State) : Out State :=
  match gateOf s x.val with
  | none => .next s
  | some g =>
    if g.restoring || g.giver.isSome then .next s
    else if replRoot s then
      if allDigests s g && mayDecide s x.val g (replRank s) v then
        let l := otherVerdicts s g (replRank s) v
        let s1 := { s with secure := { s.secure with verdicts := s.secure.verdicts ++ l.map fun e => (x.val, e.1, e.2) } }
        let differ := (List.range (replMembers s)).any fun r => digestOf g r != g.digest
        let s2 := if differ && replMembers s == 2 then verifyRead s1 x.val else s1
        let other := wordAt (((List.range (replMembers s)).map (digestOf g)).find? (· != g.digest) |>.getD []) 0
        let s3 := if differ && v == .pass then diverge s2 x.val 1 g.serial g.digest other else s2
        .next (applyVerdict (verdictIn s3 x.val) x.val g v)
      else .next s
    else
      let s1 := if replMembers s == 2 && v != .pass then verifyRead s x.val else s
      .next (applyVerdict (verdictIn s1 x.val) x.val g v)

/-- `PEER_COPY` (R402): the giver's plan regions, in plan order, replace this member's; D is formed again from the copied cells; where
it differs the member is treated as restoring, with both records. DESIGN CHOICE, log entry 35. -/
def execPeerCopy (x : CtxId) (data : List Byte) (s : State) : Out State :=
  match gateOf s x.val with
  | none => .next s
  | some g =>
    match g.giver with
    | none => .next s
    | some (_, e) =>
      let rs := (planRegions s).filter fun r => r.ctx == x.val
      let total := (rs.map (·.regLen)).foldl (· + ·) 0
      let s1 := if data.length = total then
          (rs.foldl (fun (a : State × List Byte) r => (writeMem a.1 r.regSrc (a.2.take r.regLen), a.2.drop r.regLen)) (s, data)).1
        else s
      let d := stepDigest s1 x.val g.serial
      if data.length = total ∧ d = e then .next (kilnServiceAll (setGate (diverge s1 x.val 2 g.serial d (wordAt e 0)) x.val none))
      else
        let s2 := diverge (diverge s1 x.val 4 g.serial d (wordAt e 0)) x.val 3 g.serial d (wordAt e 0)
        .next (setDisc (setGate s2 x.val (some { g with giver := none, restoring := true })) x.val)

end Sys2Proof.Machine
end

