-- ==== Sys2Proof/Machine/Service.lean ====
section
/-! DEFINITION. In-service drain, test and repair (R429 to R433), and the loading of programs (R417, R419). -/

namespace Sys2Proof.Machine

open Sys2Proof

/-! ### Requests (R429, R430) -/

/-- `ACTION`, `KIND`, `RET`, `UNIT` of a service block (Table 18.13). -/
def svAction (b : List Byte) : Nat := bits (wordAt b 0) 55 52
/-- See `svAction`. -/
def svKind (b : List Byte) : Nat := bits (wordAt b 0) 51 50
/-- See `svAction`. -/
def svRet (b : List Byte) : Bool := bit (wordAt b 0) 49
/-- See `svAction`. -/
def svUnit (b : List Byte) : Nat := bits (wordAt b 0) 43 40

/-- Whether Table 18.14 gives a kind an action. -/
def actionFits (action kind : Nat) : Bool :=
  kind < 3 && (action == 1 || action == 2 || action == 6 || ((action == 3 || action == 5) && 1 ≤ kind) || (action == 4 && kind == 0))

/-- Whether a unit of a service kind is in the floor plan. -/
def svcInPlan (s : State) (kind u : Nat) : Bool := decide (u < [16, 8, 6].getD kind 0) && inPlan s.plan (kind + 1) u

/-- Whether a request is invalid (R430, subcode 0x43). DEDUCED, log entry 58. -/
def badService (s : State) (b : List Byte) : Bool :=
  let key := (svKind b, svUnit b)
  !svcInPlan s (svKind b) (svUnit b) || decide (key ∈ s.service.closing) || !actionFits (svAction b) (svKind b)
    || (svAction b == 6 && !decide (key ∈ s.service.drained))
    || bits (wordAt b 0) 48 44 != 0 || bits (wordAt b 0) 39 0 != 0 || (svAction b != 4 && wordAt b 0x10 != 0) || (b.drop 0x18).any (· != 0)

/-- Units of a kind in service. -/
def inService (s : State) (kind : Nat) : Nat :=
  ((List.range 16).filter fun u => svcInPlan s kind u && !outOfService s kind u).length

/-- The minimum that `SVC_MIN` names for a kind (Table 18.16). -/
def svcMin (s : State) (kind : Nat) : Nat := bits s.service.minReg (23 - 8 * kind) (16 - 8 * kind)

/-- Whether draining the unit would pass the minimum (subcode 0x42): not checked for one already drained. -/
def belowMin (s : State) (b : List Byte) : Bool :=
  !decide ((svKind b, svUnit b) ∈ s.service.drained) && decide (inService s (svKind b) < svcMin s (svKind b) + 1)

/-- The service request of a block. -/
def svcReq (b : List Byte) : SvcReq :=
  { kind := svKind b, unit := svUnit b, action := svAction b, ret := svRet b, beat := (wordAt b 8).toNat, img := (wordAt b 0x10).toNat }

/-- An accepted request: its unit is closing, unless it is drained already (R431). DEDUCED, log entry 58. -/
def acceptService (s : State) (b : List Byte) : State :=
  let key := (svKind b, svUnit b)
  let v := s.service
  { s with service := { v with reqs := v.reqs ++ [svcReq b], closing := if key ∈ v.drained then v.closing else v.closing ++ [key] } }

/-- A service block of an action that `mine` accepts. -/
def serviceBlock (mine : Nat → Bool) (s : State) : State :=
  match headBlock s 0x13 with
  | none => s
  | some b =>
    if !mine (svAction b) then s
    else if badService s b then refuseCmd s 0x43 b
    else if belowMin s b then refuseCmd s 0x42 b
    else acceptService (popCmd s) b

/-- `SERVICE_DRAIN` (R429 to R431): action 1; a reserved action is refused. -/
def execServiceDrain (s : State) : Out State := .next (serviceBlock (fun a => decide (a < 2 ∨ 6 < a)) s)
/-- `SERVICE_KNOWN_ANSWER`: action 2. -/
def execServiceKnownAnswer (s : State) : Out State := .next (serviceBlock (· == 2) s)
/-- `SERVICE_MEMORY_TEST`: action 3. -/
def execServiceMemoryTest (s : State) : Out State := .next (serviceBlock (· == 3) s)
/-- `SERVICE_FIRMWARE_RELOAD`: action 4. -/
def execServiceFirmwareReload (s : State) : Out State := .next (serviceBlock (· == 4) s)
/-- `SERVICE_DEEP_RECAL`: action 5. -/
def execServiceDeepRecal (s : State) : Out State := .next (serviceBlock (· == 5) s)
/-- `SERVICE_RETURN`: action 6. -/
def execServiceReturn (s : State) : Out State := .next (serviceBlock (· == 6) s)

/-! ### Draining (R431) -/

/-- Whether a command of the MC or a Kiln is in progress on a unit, or a round must seal first. -/
def unitBusy (s : State) (kind u : Nat) : Bool :=
  if kind = 0 then
    !(kilnCmds s (14 + u)).isEmpty || (List.range 14).any fun n => (kilnCmds s n).any fun q => !q.mc && clusterOf q.core == u
  else
    let a := (regionOf s kind u).1
    let n := (regionOf s kind u).2
    !(kilnCmds s (if kind = 1 then u else 8 + u)).isEmpty || s.secure.restore.isSome
      || (match s.secure.round with
          | some r => r.regions.any (fun g => !g.copied && !g.dropped && decide (g.regSrc < a + n ∧ a < g.regSrc + g.regLen))
              || (kind == 2 && bit s.secure.keepLoc 0 && decide (a ≤ slotLocal s false ∧ slotLocal s false < a + n))
          | none => false)

/-- `UNIT_DRAINED` (R431). -/
def execUnitDrained (kind : Fin 3) (u : Fin 16) (s : State) : Out State :=
  let key := (kind.val, u.val)
  let v := s.service
  if key ∈ v.closing ∧ !(busyCtxs s).any (fun x => usesUnit s x kind.val u.val) ∧ !unitBusy s kind.val u.val then
    .next { s with service := { v with closing := v.closing.filter (· != key), drained := v.drained ++ [key] } }
  else .next s

/-! ### Actions (R432) -/

/-- The unit returns to service. -/
def returnUnit (s : State) (q : SvcReq) : State :=
  { s with service := { s.service with drained := s.service.drained.filter (· != (q.kind, q.unit)) } }

/-- The service result record (Table 21.4). -/
def resultRec (s : State) (q : SvcReq) (pass : Bool) : Record :=
  statusRec s 2 ([q.kind, q.unit, q.action, if pass then 0 else 1].map (BitVec.ofNat 8)) none

/-- The memory of a stack or pair reads zero after a test, with no error left (R421). -/
def zeroUnit (s : State) (kind u : Nat) : State :=
  let a := (regionOf s kind u).1
  let n := (regionOf s kind u).2
  let out := fun (x : Nat) => !decide (a ≤ x ∧ x < a + n)
  { s with mem := s.mem.filter fun p => out p.1, badLines := s.badLines.filter out, softLines := s.softLines.filter out }

/-- The image stores of a cluster after a firmware reload: the image lies in an object whose place in the manifest is not given, so
its bytes and its length are free values (DESIGN CHOICE, log entry 36). -/
def reloadCluster (s : State) (k : Nat) : State :=
  let n := (takeFree s).1.toNat % 16385
  let s := (takeFree s).2
  let img : List Byte := (List.range (16 * n)).map fun i => (Config.freeValue (s.free + i)).truncate 8
  let s := { s with free := s.free + 16 * n }
  ((List.range 32).map fun q => 32 * k + q).foldl (fun s c =>
    if goodCore s c then modCore s c fun e => { e with image := setBytes [] 0 img, bundles := n } else s) s

/-- An action passes: its effect, its record, the unit's return. -/
def actionPasses (s : State) (q : SvcReq) : State :=
  let s := if q.action = 3 then zeroUnit s q.kind q.unit else if q.action = 4 then reloadCluster s q.unit else s
  let s := reportMC s (resultRec s q true)
  if q.ret ∨ q.action = 6 then returnUnit s q else s

/-- An action fails: a failed run or test fences the unit; a failed reload names the core, or the sequencer by no index. DEDUCED, log entry 58. -/
def actionFails (s : State) (q : SvcReq) (r : ActionResult) : State :=
  let s := reportMC s (resultRec s q false)
  if q.action = 2 ∨ q.action = 3 then fence s (q.kind + 1) q.unit 0x20 r.digest
  else if q.action = 4 then
    refuse s 0x41 (BitVec.ofNat 64 q.img) 0x13 (match r.failCore with | some c => BitVec.ofNat 64 c.val | none => noIndex)
  else s

/-- The request that starts next: of those whose units are drained and whose beats are reached, in the order of draining. DEDUCED, log entry 58. -/
def nextAction (s : State) : Option SvcReq :=
  ((s.service.drained.map fun key => s.service.reqs.filter fun q => (q.kind, q.unit) == key && decide (q.beat ≤ s.clock.beat)).flatten).head?

/-- `SERVICE_ACTION_START` (R432): one action at a time; a drain and a return end where they start. -/
def execServiceActionStart (s : State) : Out State :=
  if s.service.running.isSome then .next s
  else match nextAction s with
  | none => .next s
  | some q =>
    let s := { s with service := { s.service with reqs := s.service.reqs.erase q } }
    if q.action = 1 ∨ q.action = 6 then .next (actionPasses s q)
    else .next { s with service := { s.service with running := some q } }

/-- `SERVICE_ACTION_END` (R432). -/
def execServiceActionEnd (res : ActionResult) (s : State) : Out State :=
  match s.service.running with
  | none => .next s
  | some q =>
    let s := { s with service := { s.service with running := none } }
    .next (if res.pass then actionPasses s q else actionFails s q res)

/-! ### Loading programs (R419) -/

/-- `LD_CORES`, `LD_SRC`, `LD_LEN`, `LD_DIG` (Table 18.19). -/
def ldCores (b : List Byte) : List Nat := setBitsOf 512 (numAt b 0x10 64)
/-- See `ldCores`. -/
def ldSrc (b : List Byte) : Nat := (wordAt b 0x50).toNat
/-- See `ldCores`. -/
def ldLen (b : List Byte) : Nat := bits (wordAt b 0x58) 19 0
/-- See `ldCores`. -/
def ldDig (b : List Byte) : List Byte := (b.drop 0x60).take 32

/-- Bytes of a bundle in the mode of the first core named: T2 or T1. -/
def bundleSize (s : State) (b : List Byte) : Nat :=
  match ldCores b with
  | c :: _ => if interlocked (coreOf s c) then 12 else 16
  | [] => 16

/-- Whether a load is refused (R419). DEDUCED, log entry 58. -/
def badLoad (s : State) (b : List Byte) : Bool :=
  let cs := ldCores b
  cs.any (fun c =>
    let k := coreOf s c
    !goodCore s c || (ctxOf k).isSome || k.scrub != .clean || outOfService s 0 (clusterOf c)
      || interlocked k != interlocked (coreOf s (cs.headD c)))
    || ldLen b == 0 || decide (262144 < ldLen b) || ldLen b % bundleSize s b != 0 || ldSrc b % 64 != 0
    || bits (wordAt b 0) 55 0 != 0 || bits (wordAt b 0x58) 63 20 != 0

/-- Core c loads the image: on a mismatch that stays, its store is empty and the MC is told. DESIGN CHOICE, log entry 36. -/
def loadInto (s : State) (b : List Byte) (img : List Byte) (ok : Bool) (c : Nat) : State :=
  if ok then modCore s c fun k => { k with image := setBytes [] 0 img, bundles := img.length / bundleSize s b }
  else
    refuse (modCore s c fun k => { k with image := [], bundles := 0 }) 0x41 (BitVec.ofNat 64 cmdqAddr) 0x14 (BitVec.ofNat 64 c)

/-- An accepted load. A line of the image that cannot be corrected is counted and recorded, and no core's digest matches. DESIGN CHOICE, log entry 36. -/
def loadImage (s : State) (b : List Byte) : State :=
  let img := readMem s (ldSrc b) (ldLen b)
  let bad := badIn s (ldSrc b) (ldLen b)
  let s := match bad with
    | some l => reportMC (countUncorr s l none) (.fault (uncorrRec s 0xD (uncorrSub l) l (BitVec.ofNat 64 cmdqAddr) none))
    | none => noteSoft s (ldSrc b) (ldLen b)
  let ok := bad.isNone && inHbm (ldSrc b) && populatedRange s (ldSrc b) (ldLen b) && digest32 img == ldDig b
  let cs := ldCores b
  let s := cs.foldl (fun s c => loadInto s b img ok c) s
  reportMC s (statusRec s 8 (leBytes 6 0 ++ leBytes 8 (if ok then 0 else cs.length) ++ leBytes 8 (if ok then cs.length else 0)) none)

/-- `LOAD_IMAGE` (R419). DEDUCED, log entry 58. -/
def execLoadImage (s : State) : Out State :=
  match headBlock s 0x14 with
  | none => .next s
  | some b => if badLoad s b then .next (refuseCmd s 0x45 b) else .next (loadImage (popCmd s) b)

end Sys2Proof.Machine
end

