-- ==== Sys2Proof/Machine/Life.lean ====
section
/-! DEFINITION. Signed commands, signing epochs and batches (R435 to R447). -/

namespace Sys2Proof.Machine

open Sys2Proof

/-! ### Command objects (R438) -/

/-- Local address and length of the object that a block of `OP` 0x21 names. -/
def objAddr (b : List Byte) : Nat := (wordAt b 8).toNat
/-- See `objAddr`. -/
def objLen (b : List Byte) : Nat := (wordAt b 0x10).toNat

/-- The object's bytes: none where a byte of it is unpopulated or cannot be corrected. DEDUCED, log entry 37. -/
def objBytes (s : State) (b : List Byte) : List Byte :=
  if populatedRange s (objAddr b) (objLen b) && (badIn s (objAddr b) (objLen b)).isNone then readMem s (objAddr b) (objLen b) else []

/-- Whether a field of an `OP` 0x21 block other than the object's address and length is not 0. -/
def objReserved (b : List Byte) : Bool := bits (wordAt b 0) 55 0 != 0 || (b.drop 0x18).any (· != 0)

/-- The kind of a command object. -/
def objKind (o : List Byte) : Nat := numAt o 4 1

/-- The digest of a new owner key, in kinds 1 and 4. -/
def objDigest (o : List Byte) : BitVec 256 := BitVec.ofNat 256 (numAt o 24 32)

/-- The digest that the signer's key must have: the vendor's, or the owner slot in use (Table 19.2). -/
def signerDigest (s : State) (kind : Nat) : Option (BitVec 256) :=
  if kind = 1 then some (BitVec.ofNat 256 (leNat Config.vendorDigest)) else s.part.owners.getLast?

/-- The header of R438 for this unit and the current nonce, with zeros in every other byte. DEDUCED, log entry 37. -/
def headerOk (s : State) (o : List Byte) : Bool :=
  decide (64 ≤ o.length) && numAt o 0 4 == 0x51543943 && numAt o 5 3 == 0 && wordAt o 8 == s.part.serialNo && wordAt o 16 == s.life.nonce
    && (objKind o == 1 || objKind o == 4 || numAt o 24 32 == 0) && numAt o 56 8 == 0

/-- Whether the object is signed by the key that Table 19.2 names. -/
def signatureOk (s : State) (o : List Byte) : Bool :=
  let rest := o.drop 64
  let key := rest.take (Config.xmssKeyBytes rest)
  signerDigest s (objKind o) == some (BitVec.ofNat 256 (leNat (digest32 key)))
    && Config.xmssVerify key (o.take (64 + key.length)) (rest.drop key.length)

/-- Whether the state allows a kind (Table 19.2). DEDUCED, log entry 37. -/
def kindAllowed (s : State) (kind : Nat) : Bool :=
  if kind = 1 then lcState s == 0
  else if kind = 2 then lcState s == 1
  else (kind == 3 || kind == 4 || kind == 5) && (lcState s == 1 || lcState s == 2)

/-- A refusal of a command object: it names the object and its kind (Table 21.3). DEDUCED, log entry 37. -/
def refuseObj (s : State) (sub : Nat) (b : List Byte) (kind : Nat) : State :=
  refuse (popCmd s) sub (BitVec.ofNat 64 (objAddr b)) (BitVec.ofNat 64 kind)

/-- An object is accepted: the nonce takes a fresh value from the entropy source. DESIGN CHOICE, log entry 38. -/
def freshNonce (s : State) : State := let v := takeFree s; { v.2 with life := { v.2.life with nonce := v.1 } }

/-- A signed command or a batch meets a line that cannot be corrected: the line is counted, and the one record is its class 0x09, the
lowest (R17); the block leaves the queue with no other effect. DEDUCED, log entry 37. -/
def lineFails (s : State) (l : Nat) : State :=
  popCmd (reportMC (countUncorr s l none) (.fault (uncorrRec s 0xD (uncorrSub l) l (BitVec.ofNat 64 cmdqAddr) none)))

/-- Act on the command object at the head of the queue where its kind is `mine`; a block whose other fields are not all 0 is refused as
an object that does not hold. DEDUCED, log entry 37. -/
def signedCommand (mine : Nat → Bool) (refused : State → Option Nat) (effect : List Byte → State → State) (s : State) : State :=
  match headBlock s 0x21 with
  | none => s
  | some b =>
    let o := objBytes s b
    let kind := objKind o
    if !mine kind then s
    else match badIn s (objAddr b) (objLen b) with
      | some l => lineFails s l
      | none =>
        let s := noteSoft s (objAddr b) (objLen b)
        if !o.isEmpty && !kindAllowed s kind then refuseObj s 0x53 b kind
        else if objReserved b || !headerOk s o || !signatureOk s o then refuseObj s 0x52 b kind
        else match refused s with
          | some sub => refuseObj s sub b kind
          | none => freshNonce (effect o (popCmd s))

/-! ### Transitions (R437 to R441, Table 19.2) -/

/-- Words of entropy conditioned with SHAKE256 to a seed of 256 bits. DESIGN CHOICE, log entry 38. -/
def drawSeed (s : State) : BitVec 256 × State :=
  let ent := ((List.range 4).map fun i => leBytes 8 (Config.freeValue (s.free + i)).toNat).flatten
  (BitVec.ofNat 256 (leNat (digest32 ent)), { s with free := s.free + 4 })

/-- The identity of a part: seed fuses, public root and seed. DESIGN CHOICE, log entry 38. -/
def setIdentity (s : State) (v : BitVec 256) : State :=
  { s with part := { s.part with seed := some v }
           life := { s.life with pubRoot := padTo 32 (Config.identityRoot v), pubSeed := padTo 32 (Config.identityPubSeed v) } }

/-- Provisioning: the seed is burned, owner slot 0 written, B burned last (R439). -/
def provisionPart (o : List Byte) (s : State) : State :=
  let s := setIdentity (drawSeed s).2 (drawSeed s).1
  { s with part := { s.part with owners := [objDigest o], fuseB := true } }

/-- `PROVISION` (R438, R439): kind 1; reserved kinds are refused here. -/
def execProvision (s : State) : Out State :=
  .next (signedCommand (fun k => k == 1 || k == 0 || decide (5 < k)) (fun s => if s.part.seed.isSome then some 0x53 else none) provisionPart s)

/-- `ENTER_GLAZE`: kind 2 burns G. -/
def execEnterGlaze (s : State) : Out State :=
  .next (signedCommand (· == 2) (fun _ => none) (fun _ s => { s with part := { s.part with fuseG := true } }) s)

/-- `OWNER_UNLOCK` (R441): kind 3, until the next reset. -/
def execOwnerUnlock (s : State) : Out State :=
  .next (signedCommand (· == 3) (fun _ => none) (fun _ s => { s with life := { s.life with unlock := true } }) s)

/-- `ROTATE_OWNER_KEY` (R437): kind 4 writes the next owner slot. DEDUCED, log entry 41. -/
def execRotateOwnerKey (s : State) : Out State :=
  .next (signedCommand (· == 4) (fun s => if 4 ≤ s.part.owners.length then some 0x56 else none)
    (fun o s => { s with part := { s.part with owners := s.part.owners ++ [objDigest o] } }) s)

/-- The good cores. -/
def goodCores (s : State) : List Nat := setBitsOf 512 s.plan.cores.toNat

/-- The contexts that are live. -/
def liveCtxs (s : State) : List Nat := (busyCtxs s).filter fun x => ctxState s x == 2

/-- S is burned, then every bit of the seed and of the owner slots; every context is released by force and every core is to be
scrubbed (R440, steps 1 and 2). DEDUCED, log entry 40. -/
def beginDestruction (s : State) : State :=
  let ones := BitVec.allOnes 256
  let s := { s with part := { s.part with fuseS := true, seed := some ones, owners := List.replicate 4 ones }
                    life := { s.life with pubRoot := [], pubSeed := [] } }
  let s := (liveCtxs s).foldl (fun s x => release s x false) s
  (goodCores s).foldl (fun s c => modCore s c fun k => { k with scrub := .scrubbing }) s

/-- Whether the releases and scrubs of step 2 are done. DEDUCED, log entry 40. -/
def destructionDue (s : State) : Bool := destroying s && s.releases.isEmpty && (goodCores s).all fun c => (coreOf s c).scrub == .clean

/-- Every populated HBM and DDR5 line reads 0, with no error left in it. DEDUCED, log entry 40. -/
def zeroMemory (s : State) : State :=
  let hit := fun (a : Nat) => (inHbm a || inDdr a) && populated s a
  { s with mem := s.mem.filter fun p => !hit p.1, badLines := s.badLines.filter fun l => !hit l, softLines := s.softLines.filter fun l => !hit l }

/-- Steps 3 to 5: the context table and memory are zeroed, the log ring erased, D burned. DEDUCED, log entry 40. -/
def endDestruction (s : State) : State :=
  let s := zeroMemory { s with ctxs := [] }
  { s with part := { s.part with log := [], fuseD := true } }

/-- `RETURN_TO_MAKER` (R440): kind 5 begins the destruction; a later event ends it, once every release and scrub is done. -/
def execReturnToMaker (s : State) : Out State :=
  .next (if destructionDue s then endDestruction s
    else signedCommand (· == 5) (fun _ => none) (fun _ s => beginDestruction s) s)

/-! ### Signing epochs (R442 to R444) -/

/-- Take the first of these fuses that reads blank and burns within three attempts; each that does not is recorded (R443). DESIGN CHOICE, log entry 38. -/
def openEpoch (s : State) : List Nat → State × Option Nat
  | [] => (s, none)
  | e :: r =>
    if s.part.epochs.getLsbD e then openEpoch s r
    else
      let ok := (List.range 3).any fun k => Config.fuseBurns (s.free + k) e
      let s := { s with free := s.free + 3 }
      if ok then ({ s with part := { s.part with epochs := s.part.epochs ||| BitVec.ofNat 1024 (2 ^ e) } }, some e)
      else openEpoch (refuse s 0x57 (BitVec.ofNat 64 cmdqAddr) 0x20) r

/-- An epoch with a leaf to spare: the open one, or a new one. -/
def epochFor (s : State) : State × Option Nat :=
  if s.life.active && decide (s.life.leaf < 1024) then (s, some s.life.epoch)
  else
    let q := openEpoch s (List.range 1024)
    match q.2 with
    | some e => ({ q.1 with life := { q.1.life with active := true, epoch := e, leaf := 0 } }, some e)
    | none => (q.1, none)

/-- Advance `LEAF` and sign with the leaf taken (R443); the signature has 4,963 bytes (R436). -/
def signWith (s : State) (e : Nat) (msg : List Byte) : State × List Byte :=
  let j := s.life.leaf
  ({ s with life := { s.life with leaf := j + 1 } }, padTo 4963 (Config.xmssSign (s.part.seed.getD 0) (1024 * e + j) msg))

/-! ### Batches (R445, R446) -/

/-- Request list, count, destination, capacity, serial of a batch block. -/
def bkList (b : List Byte) : Nat := (wordAt b 8).toNat
/-- See `bkList`. -/
def bkCount (b : List Byte) : Nat := bits (wordAt b 0x10) 31 0
/-- See `bkList`. -/
def bkDest (b : List Byte) : Nat := (wordAt b 0x18).toNat
/-- See `bkList`. -/
def bkCap (b : List Byte) : Nat := (wordAt b 0x20).toNat

/-- The requests. -/
def bkRequests (s : State) (b : List Byte) : List (List Byte) := (List.range (bkCount b)).map fun i => readMem s (bkList b + 64 * i) 64

/-- `CTX`, index address, shard count and `STEP` of an export request. -/
def rqCtx (r : List Byte) : Nat := (wordAt r 8).toNat
/-- See `rqCtx`. -/
def rqIndex (r : List Byte) : Nat := (wordAt r 0x10).toNat
/-- See `rqCtx`. -/
def rqShards (r : List Byte) : Nat := (wordAt r 0x18).toNat
/-- See `rqCtx`. -/
def rqStep (r : List Byte) : Nat := bits (wordAt r 0x20) 47 0

/-- The index entries of an export request. -/
def rqEntries (s : State) (r : List Byte) : List (List Byte) := (List.range (rqShards r)).map fun i => readMem s (rqIndex r + 64 * i) 64

/-- Whether n bytes from a local address can be read: populated, no uncorrectable line. -/
def readable (s : State) (a n : Nat) : Bool := populatedRange s a n && (badIn s a n).isNone

/-- The first word of an export's first shard: `TENANT` and `TID` (Table 10.10). -/
def rqName (s : State) (r : List Byte) : W64 := wordAt (readMem s (wordAt ((rqEntries s r).headD []) 0).toNat 8) 0

/-- Whether the shard of an index entry matches its digests, its header and the request. DEDUCED, log entry 39. -/
def shardOk (s : State) (r e : List Byte) : Bool :=
  let a := (wordAt e 0).toNat
  let n := (wordAt e 8).toNat
  decide (128 ≤ n) && readable s a n &&
    (let sh := readMem s a n
     let d := digest32 (sh.take (n - 64))
     d == (e.drop 16).take 32 && d == (sh.drop (n - 64)).take 32 && numAt sh (n - 32) 32 == 0
       && wordAt sh 0 == rqName s r && bits (wordAt sh 8) 47 0 == rqStep r && numAt sh 0x20 8 == n - 128)

/-- Whether a request can be stated (R445). DEDUCED, log entry 39. -/
def requestOk (s : State) (r : List Byte) : Bool :=
  if numAt r 0 1 = 2 then true
  else
    numAt r 0 1 == 1 && decide (rqCtx r < 16384 ∧ 1 ≤ rqShards r) && ctxThere s (rqCtx r) && !ctxDisc s (rqCtx r)
      && readable s (rqIndex r) (64 * rqShards r) && bits (rqName s r) 63 32 == bits (cw s (rqCtx r) 0) 31 0
      && (rqEntries s r).all (shardOk s r)

/-- The statement of a request (Table 19.4). -/
def statement (s : State) (r : List Byte) : List Byte :=
  let w := fun (v : Nat) => leBytes 8 v
  if numAt r 0 1 = 1 then
    w (2 ^ 56) ++ w (rqName s r).toNat ++ w (rqStep r) ++ w (rqShards r) ++ digest32 (rqEntries s r).flatten ++ w s.part.serialNo.toNat
      ++ List.replicate 40 0 ++ w s.clock.beat ++ w 0
  else
    w (2 * 2 ^ 56) ++ w s.boot.manifest.version.toNat ++ w (s.plan.serial.toNat * 2 ^ 32 + goodCount s.plan) ++ w (lcStat s).toNat
      ++ (r.drop 0x20).take 32 ++ w s.part.serialNo.toNat ++ digest32 s.boot.manifest.body ++ w (signWord s).toNat ++ w s.clock.beat ++ w 0

/-- The level above a level of the tree; a last node without a partner is carried up (R446). -/
def parentsOf : List (List Byte) → List (List Byte)
  | a :: b :: r => digest32 (1 :: (a ++ b)) :: parentsOf r
  | l => l

/-- The levels of a tree from its leaves to its root. -/
def merkleLevels : Nat → List (List Byte) → List (List (List Byte))
  | 0, l => [l]
  | n + 1, l => if l.length ≤ 1 then [l] else l :: merkleLevels n (parentsOf l)

/-- The path of node i: for each level with a sibling, whether it lies on the left, and its hash. -/
def pathOf : List (List (List Byte)) → Nat → List (List Byte)
  | [], _ => []
  | l :: r, i =>
    let j := if i % 2 = 0 then i + 1 else i - 1
    (match l[j]? with
      | some h => [leBytes 8 (i % 2) ++ h]
      | none => []) ++ pathOf r (i / 2)

/-- The tree over statements. -/
def treeOf (sts : List (List Byte)) : List (List (List Byte)) := merkleLevels 11 (sts.map fun t => digest32 (0 :: t))

/-- The block of a statement in the output. DEDUCED, log entry 39. -/
def statementBlock (levels : List (List (List Byte))) (i : Nat) (st : List Byte) : List Byte :=
  let path := pathOf levels i
  let bs := st ++ leBytes 8 path.length ++ path.flatten
  padTo (roundUp bs.length 64) bs

/-- The root record (Table 19.10). -/
def rootRecord (s : State) (b : List Byte) (n : Nat) (root : List Byte) : List Byte :=
  leBytes 4 0x51543952 ++ leBytes 4 1 ++ leBytes 8 (wordAt b 0x28).toNat ++ leBytes 4 n ++ leBytes 4 0 ++ leBytes 8 s.clock.beat ++ root
    ++ leBytes 8 s.part.serialNo.toNat ++ leBytes 4 s.plan.serial.toNat ++ List.replicate 20 0

/-- The blocks of a batch's statements, and its root record. -/
def batchParts (s : State) (b : List Byte) : List Byte × List Byte :=
  let sts := (bkRequests s b).map (statement s)
  let levels := treeOf sts
  ((sts.zipIdx.map fun q => statementBlock levels q.2 q.1).flatten, rootRecord s b sts.length ((levels.getLastD []).headD []))

/-- Whether the batch is valid but for the size of its output. DEDUCED, log entry 39. -/
def batchOk (s : State) (b : List Byte) : Bool :=
  decide (1 ≤ bkCount b ∧ bkCount b ≤ 1024) && bits (wordAt b 0x10) 63 32 == 0 && bits (wordAt b 0) 55 0 == 0 && readable s (bkList b) (64 * bkCount b)
    && (bkRequests s b).all (requestOk s)

/-- The places that a batch reads, for the errors of their lines: the list, the indexes, the shards. -/
def batchReads (s : State) (b : List Byte) : List (Nat × Nat) :=
  (bkList b, 64 * bkCount b) :: if !readable s (bkList b) (64 * bkCount b) then [] else
    ((bkRequests s b).map fun r => if numAt r 0 1 ≠ 1 then [] else
      (rqIndex r, 64 * rqShards r) :: if !readable s (rqIndex r) (64 * rqShards r) then [] else
        (rqEntries s r).map fun e => ((wordAt e 0).toNat, (wordAt e 8).toNat)).flatten

/-- The first uncorrectable line that a batch meets. DEDUCED, log entry 39. -/
def batchBadLine (s : State) (b : List Byte) : Option Nat := ((batchReads s b).filterMap fun q => badIn s q.1 q.2).head?

/-- A valid batch: an epoch, one signature, the output (R443, R445, R446). DEDUCED, log entry 39. -/
def signBatch (s : State) (b : List Byte) : State :=
  let parts := batchParts s b
  if bkCap b < 96 + 4963 + parts.1.length ∨ !populatedRange s (bkDest b) (96 + 4963 + parts.1.length) then refuseCmd s 0x55 b
  else
    let q := epochFor s
    match q.2 with
    | none => refuseCmd q.1 0x50 b
    | some e =>
      let g := signWith q.1 e parts.2
      writeMem (popCmd g.1) (bkDest b) (parts.2 ++ g.2 ++ parts.1)

/-- `SIGN_BATCH` (R443 to R446). -/
def execSignBatch (s : State) : Out State :=
  match headBlock s 0x20 with
  | none => .next s
  | some b =>
    if lcState s = 0 ∨ lcState s = 3 then .next (refuseCmd s 0x51 b)
    else match batchBadLine s b with
      | some l => .next (lineFails s l)
      | none => .next (if batchOk s b then signBatch s b else refuseCmd s 0x55 b)

end Sys2Proof.Machine
end

