-- ==== Sys2Proof/Machine/Startup.lean ====
section
/-! DEFINITION. Resets (R453), the start-up stages (R409 to R424) and the floor plan that they build (R424 to R428). -/

namespace Sys2Proof.Machine

open Sys2Proof

/-! ### Resets (R444, R453) -/

/-- What a reset leaves of a state: the part, the commands that wait, what has been answered and sent, the draws made. DEDUCED, log entry 42. -/
def resetFrom (s : State) : State :=
  let f := s.fabric
  let z := State.reset
  let v := takeFree s
  { z with pending := s.pending, part := s.part, host := s.host, free := v.2.free
           life := { z.life with nonce := v.1 }
           power := { z.power with cap := gradeCap s, clkMHz := gradeClk s, wantMHz := gradeClk s, thermMHz := gradeClk s, powMHz := gradeClk s }
           fabric := { z.fabric with sent := f.sent, sentHello := f.sentHello, sentMark := f.sentMark, sentCtl := f.sentCtl, wires := f.wires } }

/-- `COLD_RESET` (R453). -/
def execColdReset (s : State) : Out State := .next (resetFrom s)

/-- `WARM_RESET` (R413, R444, R453): DDR5 and the open epoch are kept, and the restart is in quick mode. After `THERMTRIP#` no clock
runs before a cold reset (R458). DEDUCED, log entry 42. -/
def execWarmReset (s : State) : Out State :=
  if s.power.therm then .next s
  else
    let z := resetFrom s
    .next { z with mem := s.mem.filter fun p => inDdr p.1, badLines := s.badLines.filter inDdr, softLines := s.softLines.filter inDdr
                   boot := { z.boot with warm := true, quick := true }
                   life := { z.life with active := s.life.active, epoch := s.life.epoch, leaf := s.life.leaf } }

/-! ### Units of the floor plan (R424, R426) -/

/-- A floor plan with whole pairs only (R323, R426). -/
def prunePairs (p : Plan) : Plan :=
  { p with channels := (List.range 6).foldl (fun (m : BitVec 12) n =>
      if m.getLsbD (2 * n) && m.getLsbD (2 * n + 1) then m else m &&& ~~~(oneBit 12 (2 * n) ||| oneBit 12 (2 * n + 1))) p.channels }

/-- A mask without the n bits from lo on. -/
def clearRun {w : Nat} (m : BitVec w) (lo n : Nat) : BitVec w := m &&& ~~~(BitVec.ofNat w ((2 ^ n - 1) * 2 ^ lo))

/-- A floor plan without base die d: its four clusters, three channels with their pairs, four ports, and its quarter of the context
table (R426). -/
def cutDie (p : Plan) (d : Nat) : Plan :=
  prunePairs { p with dies := clearRun p.dies d 1, clusters := clearRun p.clusters (4 * d) 4, cores := clearRun p.cores (128 * d) 128
                      channels := clearRun p.channels (3 * d) 3, ports := clearRun p.ports (4 * d) 4 }

/-- A floor plan without a unit that failed, and what depends on it. -/
def cutTest (p : Plan) : TestUnit → Plan
  | .core c => cutUnit p 0 c.val
  | .array c => cutUnit p 0 c.val
  | .cluster k => cutUnit p 1 k.val
  | .stack n => cutUnit p 2 n.val
  | .channel m => cutUnit p 3 (m.val / 2)
  | .kiln n => if n.val < 8 then cutUnit p 2 n.val else cutUnit p 3 (n.val - 8)
  | .port q => cutUnit p 4 q.val
  | .baseDie d => cutDie p d.val

/-- The field-removal record with a unit added (R428). -/
def recordTest (p : Part) : TestUnit → Part
  | .core c => recordRemoved p 0 c.val
  | .array c => recordRemoved p 0 c.val
  | .cluster k => recordRemoved p 1 k.val
  | .stack n => recordRemoved p 2 n.val
  | .channel m => { p with remChannels := p.remChannels ||| oneBit 12 m.val }
  | .kiln n => if n.val < 8 then recordRemoved p 2 n.val else recordRemoved p 3 (n.val - 8)
  | .port q => recordRemoved p 4 q.val
  | .baseDie d => { p with remDies := p.remDies ||| oneBit 4 d.val }

/-- Whether a unit is in the floor plan. -/
def testInPlan (p : Plan) : TestUnit → Bool
  | .core c => p.cores.getLsbD c.val
  | .array c => p.cores.getLsbD c.val
  | .cluster k => p.clusters.getLsbD k.val
  | .stack n => p.hstacks.getLsbD n.val
  | .channel m => p.channels.getLsbD m.val
  | .kiln n => if n.val < 8 then p.hstacks.getLsbD n.val else p.channels.getLsbD (2 * (n.val - 8))
  | .port q => p.ports.getLsbD q.val
  | .baseDie d => p.dies.getLsbD d.val

/-- The n lowest units of a mask. DESIGN CHOICE, log entry 64. -/
def firstUnits {w : Nat} (n : Nat) (m : BitVec w) : BitVec w := ((setBitsOf w m.toNat).take n).foldl (fun a i => a ||| oneBit w i) 0

/-- The field-removal record in use at a start: that of the valid copy with the higher serial (R428). DEDUCED, log entry 32. -/
def loadRemoval (p : Part) : Part :=
  let use := fun (b : List Byte) =>
    { p with remStacks := BitVec.ofNat 8 (bits (wordAt b 8) 63 56), remChannels := BitVec.ofNat 12 (bits (wordAt b 8) 55 44)
             remDies := BitVec.ofNat 4 (bits (wordAt b 8) 43 40), remCores := BitVec.ofNat 512 (numAt b 0x20 64)
             remPorts := BitVec.ofNat 16 (((List.range 16).map fun q => if bits (wordAt b 0x10) (4 * q + 3) (4 * q) = 0 then 0 else 2 ^ q).foldl (· + ·) 0) }
  match newestRemoval p with
  | some false => use p.remA
  | some true => use p.remB
  | none => p

/-- A part with the units that its grade fuses enable: no more of a kind than Table 0.1 gives the grade (R2). Of fuses that would enable more,
the lowest numbered count. DESIGN CHOICE, log entry 64. -/
def graded (p : Part) : Part :=
  let n := fun (a b c : Nat) => if p.grade = 0x0A then a else if p.grade = 0x0B then b else c
  { p with enClusters := firstUnits (n 16 14 12) p.enClusters, enStacks := firstUnits (n 8 8 6) p.enStacks
           enChannels := firstUnits (n 12 12 8) p.enChannels, enPorts := firstUnits (n 16 12 8) p.enPorts }

/-- A floor plan whose last change was at a beat (Table 18.8). -/
def Plan.at (p : Plan) (b : W64) : Plan := { p with beat := b }

/-- The floor plan of the fuses and the field-removal record alone (R424, 1, 2 and 4). DEDUCED, log entry 43. -/
def planOfFuses (q : Part) (serial : BitVec 32) (mode : Nat) : Plan :=
  let p := graded q
  let cores := (List.range 16).foldl (fun (m : BitVec 512) k => if p.enClusters.getLsbD k then m ||| clusterMask k else m) 0
  let q : Plan :=
    { serial := serial, mode := mode, cores := cores &&& ~~~p.badCores &&& ~~~p.remCores, clusters := p.enClusters
      hstacks := p.enStacks &&& ~~~p.badStacks &&& ~~~p.remStacks, channels := p.enChannels &&& ~~~p.badChannels &&& ~~~p.remChannels
      ports := p.enPorts &&& ~~~p.badPorts &&& ~~~p.remPorts, dies := 15 }
  pruneClusters (prunePairs ((setBitsOf 4 p.remDies.toNat).foldl cutDie q))

/-! ### Records of a stage (R415, R420, R425) -/

/-- `UKIND` and number of a unit judged (Tables 21.2, 21.3). -/
def testName : TestUnit → Nat × Nat
  | .core c => (2, c.val)
  | .array c => (4, c.val)
  | .cluster k => (0xE, k.val)
  | .stack n => (0xB, n.val)
  | .channel m => (0xB, 8 + m.val)
  | .kiln n => (0xA, n.val)
  | .port q => (0xC, q.val)
  | .baseDie d => (0xD, d.val)

/-- Subcode of a known-answer run (Table 18.6). -/
def runSub : TestUnit → Nat
  | .core _ => 1
  | .array _ => 2
  | .cluster _ => 3
  | .kiln _ => 4
  | .port _ => 6
  | .stack _ => 8
  | .channel _ => 9
  | .baseDie _ => 7

/-- A known-answer record of a stage. `dir` 0 mismatch, 1 marked good and failing, 2 marked bad or removed and passing. -/
def judgeRec (s : State) (stage sub dir kind unit : Nat) (digest : W64) : Record :=
  .fault { cls := 0xE, sub := sub, ukind := 0xD, w1 := BitVec.ofNat 64 (dir * 256 + kind), w2 := BitVec.ofNat 64 stage, w3 := BitVec.ofNat 64 unit
           w4 := digest, beat := beatW s }

/-- Record a unit judged. The digest obtained at S7 (R420) is a free value: what the unit computed is outside the model; the other stages
compute none. DESIGN CHOICE, log entry 43. -/
def noteJudged (s : State) (stage sub dir kind unit : Nat) : State :=
  if stage = 7 then reportMC (takeFree s).2 (judgeRec s stage sub dir kind unit (takeFree s).1)
  else reportMC s (judgeRec s stage sub dir kind unit 0)

/-- What a stage has found so far: the state, the units removed, the disagreements. -/
structure Found where
  s       : State
  removed : Nat := 0
  disag   : Nat := 0
  deriving DecidableEq, Repr

/-- A disagreement is counted (R425, Table 18.9). -/
def countDisag (s : State) : State := { s with plan := { s.plan with disag := s.plan.disag + 1 } }

/-- A unit fails a test: where it is in the floor plan it is marked good, and it is removed, recorded, and added to the field-removal
record; where it is not, its marking agrees. DEDUCED, log entry 43. -/
def failTest (stage sub : Nat) (f : Found) (u : TestUnit) : Found :=
  let s := { f.s with boot := { f.s.boot with failed := f.s.boot.failed ++ [u] } }
  if testInPlan s.plan u then
    let s := countDisag { s with plan := cutTest s.plan u, part := recordTest s.part u }
    { s := noteJudged s stage sub 1 (testName u).1 (testName u).2, removed := f.removed + 1, disag := f.disag + 1 }
  else { f with s := s }

/-- A unit marked bad or field-removed passes its last test: it stays out, and the disagreement is recorded. DEDUCED, log entry 43. -/
def passMarked (stage sub : Nat) (f : Found) (u : TestUnit) : Found :=
  let s := countDisag f.s
  { f with s := noteJudged s stage sub 2 (testName u).1 (testName u).2, disag := f.disag + 1 }

/-- The units of one kind that were tested and passed although they are marked: enabled, marked, not failed. -/
def markedPassing (s : State) (en bad : Nat → Bool) (n : Nat) (mk : Nat → List TestUnit) : List TestUnit :=
  ((List.range n).filter fun i => en i && bad i && !(mk i).any fun u => u ∈ s.boot.failed).filterMap fun i => (mk i).head?

/-- The units judged on a kind's last test. -/
def markedOf (s : State) (stage : Nat) : List TestUnit :=
  let p := graded s.part
  if stage = 4 then
    markedPassing s p.enStacks.getLsbD (fun n => p.badStacks.getLsbD n || p.remStacks.getLsbD n) 8 fun n => if h : n < 8 then [.stack ⟨n, h⟩] else []
  else if stage = 5 then
    markedPassing s (fun m => p.enChannels.getLsbD m && s.plan.dies.getLsbD (m / 3)) (fun m => p.badChannels.getLsbD m || p.remChannels.getLsbD m) 12
      fun m => if h : m < 12 then [.channel ⟨m, h⟩] else []
  else if stage = 7 then
    markedPassing s (fun c => p.enClusters.getLsbD (c / 32) && s.plan.dies.getLsbD (c / 128))
      (fun c => p.badCores.getLsbD c || p.remCores.getLsbD c) 512
      (fun c => if h : c < 512 then [.core ⟨c, h⟩, .array ⟨c, h⟩, .cluster ⟨c / 32, by omega⟩] else [])
    ++ markedPassing s (fun q => p.enPorts.getLsbD q && s.plan.dies.getLsbD (q / 4)) (fun q => p.badPorts.getLsbD q || p.remPorts.getLsbD q) 16
      fun q => if h : q < 16 then [.port ⟨q, h⟩] else []
  else []

/-- The units that a stage tests. -/
def covers (stage : Nat) : TestUnit → Bool
  | .core _ => stage == 2 || stage == 7
  | .array _ => stage == 7
  | .cluster _ => stage == 7
  | .stack _ => stage == 3 || stage == 4
  | .channel _ => stage == 5
  | .kiln _ => stage == 7
  | .port _ => stage == 7 || stage == 8
  | .baseDie _ => stage == 1 || stage == 2

/-- The subcode of a stage's records for a unit (Tables 18.6, 18.18). -/
def stageSub (stage : Nat) (u : TestUnit) : Nat := if stage ≤ 2 then 7 else runSub u

/-- The channel that holds a DDR5 address, as a unit under test (R324). -/
def channelAt (a : Nat) : TestUnit := .channel (Fin.ofNat 12 (2 * ((a - ddrBase) / pairRegion) + nbits (a - ddrBase) 12 12))

/-- What a memory test finds, by unit: uncorrectable lines and corrected errors. The warm read pass of S5 meets the lines that the
contents have (R423). -/
def testLines (s : State) (stage : Nat) (r : StageInput) : List (TestUnit × Nat × Nat) :=
  r.lines.filter (fun q => covers stage q.1)
  ++ (if stage = 5 ∧ s.boot.warm then
        (s.badLines.filter inDdr).map (fun l => (channelAt l, 1, 0)) ++ (s.softLines.filter inDdr).map fun l => (channelAt l, 0, 1)
      else [])

/-- Uncorrectable lines and corrected errors that a stage's tests found. -/
def foundUncorr (s : State) (stage : Nat) (r : StageInput) : Nat := ((testLines s stage r).map (·.2.1)).foldl (· + ·) 0
/-- See `foundUncorr`. -/
def foundCorrected (s : State) (stage : Nat) (r : StageInput) : Nat := ((testLines s stage r).map (·.2.2)).foldl (· + ·) 0

/-- The units that a stage's memory test removes: on any uncorrectable line, or on more than 2^20 corrected errors (R421). DEDUCED, log entry 43. -/
def memoryFails (s : State) (stage : Nat) (r : StageInput) : List TestUnit :=
  let l := testLines s stage r
  let total : TestUnit → Nat := fun u => ((l.filter fun q => q.1 == u).map fun q => q.2.2).foldl (· + ·) 0
  ((l.filter fun (q : TestUnit × Nat × Nat) => decide (0 < q.2.1 ∨ 2 ^ 20 < total q.1)).map fun q => q.1).dedup

/-- A stage judges its units: failures first, then the marked units whose last test this is. DEDUCED, log entry 43. -/
def judge (stage : Nat) (r : StageInput) (s : State) : Found :=
  let f := ((r.fails.filter (covers stage) ++ memoryFails s stage r).dedup).foldl (fun f u => failTest stage (stageSub stage u) f u) { s := s }
  (markedOf f.s stage).foldl (fun f u => passMarked stage (stageSub stage u) f u) f

/-! ### The end of a stage (R414, R415) -/

/-- The stage report (Table 18.4). -/
def stageReport (s : State) (n outcome : Nat) (dur : W64) (f : Found) (d1 d2 : Nat) : Record :=
  .raw (leBytes 1 0 ++ leBytes 1 1 ++ leBytes 1 n ++ leBytes 1 outcome ++ leBytes 4 s.plan.serial.toNat ++ leBytes 8 s.clock.beat
    ++ leBytes 8 dur.toNat ++ leBytes 4 f.removed ++ leBytes 4 f.disag ++ leBytes 8 d1 ++ leBytes 8 d2 ++ leBytes 8 s.part.serialNo.toNat ++ leBytes 8 0)

/-- Whether too little is left to serve (R414). -/
def tooLittle (s : State) : Bool :=
  s.plan.clusters == 0 || s.plan.hstacks == 0 || s.plan.channels == 0 || decide (goodCount s.plan < s.boot.manifest.floor)

/-- A stage ends: its report, and the next stage or the halt, which keeps the field-removal record. DEDUCED, log entry 43. -/
def endStage (n next : Nat) (r : StageInput) (halt : Bool) (f : Found) (d1 d2 : Nat) : State :=
  let s := f.s
  let out := if halt then 2 else if f.removed = 0 then 0 else 1
  let s := { s with boot := { s.boot with stage := n, next := next, state := if halt then 2 else s.boot.state }
                    part := if halt then storeRemoval s.part (s.plan.serial + 1) else s.part }
  reportMC s (stageReport s n out r.durationUs f d1 d2)

/-- Whether stage n runs now. -/
def stageDue (s : State) (n : Nat) : Bool := s.boot.state == 0 && s.boot.next == n

/-- Run a stage that judges units. DEDUCED, log entry 43. -/
def judgedStage (n : Nat) (r : StageInput) (s : State) (haltToo : State → Bool) (after : State → State) (words : State → Nat × Nat) : State :=
  let f := judge n r s
  let f := { f with s := after f.s }
  let w := words f.s
  endStage n (n + 1) r (haltToo f.s || tooLittle f.s) f w.1 w.2

/-! ### S0 (R409 to R412, R444, R460, R463) -/

/-- Whether every field of a configuration record is within its range (R412). DEDUCED, log entry 44. -/
def recordInRange (m : Manifest) : Bool :=
  m.fwStage.toNat % 0x4000000 == 0 && decide (m.fwStage.toNat < hbmRegion) && bits m.svcMin 63 24 == 0
    && decide (bits m.svcMin 23 16 ≤ 16 ∧ bits m.svcMin 15 8 ≤ 8 ∧ bits m.svcMin 7 0 ≤ 6)

/-- The owner key that verifies the configuration record: in Bisque and Glaze the one in force, else none, and the vendor's does (R435,
Table 19.1). DEDUCED, log entry 44. -/
def recordKey (p : Part) : Option (BitVec 256) := if p.fuseB ∧ !p.fuseS ∧ !p.fuseD then p.owners.getLast? else none

/-- Whether a manifest slot is valid (R410 to R412): both signatures verify, every object is of a kind of Table 18.2 and its digest matches
the bytes read, the configuration record is signed by the key that the life-cycle state asks for (R435), and it is in range. DEDUCED, log
entry 44. DEDUCED, log entry 44. -/
def slotValid (p : Part) (m : Manifest) : Bool :=
  m.valid && m.recordSigner == recordKey p && m.objects.all (fun o => decide (1 ≤ o.kind ∧ o.kind ≤ 5) && digest32 o.bytes == o.digest) && recordInRange m

/-- The slot used: none, A (false) or B (true). -/
def slotUsed (p : Part) : Option Bool :=
  if slotValid p p.slotA && (!slotValid p p.slotB || decide (p.slotB.version.toNat ≤ p.slotA.version.toNat)) then some false
  else if slotValid p p.slotB then some true
  else none

/-- Record the slots that are not valid, by their flash offsets (Table 18.1). -/
def noteSlots (s : State) : State :=
  let s := if slotValid s.part s.part.slotA then s else refuse s 0x40 0x1000 0
  if slotValid s.part s.part.slotB then s else refuse s 0x40 0x21000 0

/-- The floor plan of the fuses, the configuration record, the identity of the part. -/
def readPart (s : State) (b : Bool) : State :=
  let m := if b then s.part.slotB else s.part.slotA
  let quick := s.boot.warm || m.quick
  let last := s.part.lastPlan.getD {}
  let s := { s with part := loadRemoval s.part }
  let s := { s with boot := { s.boot with quick := quick, slotB := b, manifest := m, failed := [] }
                    plan := (planOfFuses s.part last.serial (if s.boot.warm then 2 else if quick then 1 else 0)).at last.beat
                    service := { s.service with minReg := m.svcMin } }
  match s.part.seed with
  | some v => if s.part.fuseB && !s.part.fuseS then setIdentity s v else s
  | none => s

/-- `STAGE_S0` (R411): the Gwemosin port comes up, the manifest is chosen; without one, or with a regulator that does not answer, the
start halts. The cached bottom tree is checked (R444). -/
def execStageS0 (r : StageInput) (s : State) : Out State :=
  if !stageDue s 0 then .next s
  else
    let s := noteSlots (bringUp s 16 3)
    let s := if r.cacheBad then { s with life := { s.life with active := false } } else s
    let flash := if r.xspi8d then 0 else 4
    match slotUsed s.part with
    | none => .next (endStage 0 1 r true { s := s } 0 flash)
    | some b =>
      let s := readPart s b
      let s := match r.regulatorAbsent with
        | some a => reportMC s (.fault { cls := 0xE, sub := 0xA, ukind := 0xD, w3 := BitVec.ofNat 64 a.toNat, beat := beatW s })
        | none => s
      let other := slotValid s.part (if b then s.part.slotA else s.part.slotB)
      .next (endStage 0 (if s.boot.warm then 2 else 1) r (r.regulatorAbsent.isSome || tooLittle s) { s := s } s.boot.manifest.version.toNat
        ((if b then 1 else 0) + (if other then 2 else 0) + flash))

/-! ### S1 to S5 -/

/-- Whether base die 0, which carries the MC, is out. -/
def noDie0 (s : State) : Bool := !s.plan.dies.getLsbD 0

/-- `STAGE_S1` (R416): internal domains power up; a failing base die is removed. -/
def execStageS1 (r : StageInput) (s : State) : Out State :=
  .next (if stageDue s 1 then judgedStage 1 r s noDie0 id (fun _ => (0, 0)) else s)

/-- `STAGE_S2` (R416): self-test of base dies, mesh and SRAM. -/
def execStageS2 (r : StageInput) (s : State) : Out State :=
  .next (if stageDue s 2 then judgedStage 2 r s noDie0 id (fun _ => (0, 0)) else s)

/-- Region r goes to the r-th stack present (R321). -/
def assignRegions (s : State) : State :=
  (setBitsOf 8 s.plan.hstacks.toNat).zipIdx.foldl (fun s q => modUnit s q.1 fun m => { m with present := true, region := q.2, capGiB := 48 }) s

/-- `STAGE_S3` (R321): HBM training, then the regions are assigned. -/
def execStageS3 (r : StageInput) (s : State) : Out State :=
  .next (if stageDue s 3 then judgedStage 3 r s (fun _ => false) assignRegions (fun s => (s.plan.hstacks.toNat, foundUncorr s 3 r)) else s)

/-- The tested part of memory reads 0, with no error left (R421). -/
def clearMem (s : State) (hit : Nat → Bool) : State :=
  { s with mem := s.mem.filter fun p => !hit p.1, badLines := s.badLines.filter fun l => !hit l, softLines := s.softLines.filter fun l => !hit l }

/-- The stacks that failed leave their regions unpopulated. -/
def dropStacks (s : State) : State :=
  ((List.range 8).filter fun n => !s.plan.hstacks.getLsbD n).foldl (fun s n => modUnit s n fun m => { m with present := false }) s

/-- `STAGE_S4` (R422): HBM test. -/
def execStageS4 (r : StageInput) (s : State) : Out State :=
  .next (if stageDue s 4 then
    judgedStage 4 r s (fun _ => false) (fun s => clearMem (dropStacks s) inHbm) (fun s => (s.plan.hstacks.toNat, foundUncorr s 4 r)) else s)

/-- The capacity of the module found in a channel. -/
def moduleAt (r : StageInput) (m : Nat) : Nat := r.modulesGiB.getD m 0

/-- Whether channel m's module is one that the device does not support: unbuffered, without ECC, two in the channel, another data rate
than 8,800 MT/s, or a capacity outside the list of capacities (R326). -/
def badModule (r : StageInput) (m : Nat) : Bool :=
  r.unbuffered.getLsbD m || r.noEcc.getLsbD m || r.twoPer.getLsbD m || r.otherRate.getLsbD m
    || !decide (moduleAt r m ∈ [0, 32, 64, 96, 128, 192, 256])

/-- Whether a pair's modules differ in capacity (R323). -/
def unequalModules (r : StageInput) (n : Nat) : Bool := moduleAt r (2 * n) != moduleAt r (2 * n + 1)

/-- Whether a pair's modules break R323 or R326. -/
def badModules (r : StageInput) (n : Nat) : Bool := unequalModules r n || badModule r (2 * n) || badModule r (2 * n + 1)

/-- The module checks of S5: a pair that breaks them leaves the floor plan, with a record for each channel at fault. DEDUCED, log entry 43. -/
def checkModules (r : StageInput) (s : State) : Found :=
  ((List.range 6).filter fun n => inPlan s.plan 3 n && badModules r n).foldl
    (fun f n =>
      let s := { f.s with plan := cutUnit f.s.plan 3 n }
      let bad := [2 * n, 2 * n + 1].filter fun m => unequalModules r n || badModule r m
      { f with s := bad.foldl (fun s m => noteJudged s 5 9 0 0xB (8 + m)) s, removed := f.removed + 2 })
    { s := s }

/-- The channels of the floor plan take their pair and capacity. -/
def placeModules (r : StageInput) (s : State) : State :=
  (setBitsOf 12 s.plan.channels.toNat).foldl
    (fun s m => modUnit s (8 + m) fun q => { q with present := true, region := m / 2, capGiB := moduleAt r m }) s

/-- What the DDR5 test leaves: zeros; after a warm reset the contents, with corrected lines put right (R423). -/
def testDdr (s : State) : State :=
  if s.boot.warm then { s with softLines := s.softLines.filter fun l => !inDdr l } else clearMem s inDdr

/-- Step 1 to 5 of a destruction that a loss of power cut short (R440): the cores and the context table are clean after a reset. DEDUCED, log entry 40. -/
def resumeDestruction (s : State) : State :=
  let ones := BitVec.allOnes 256
  endDestruction { s with part := { s.part with seed := some ones, owners := List.replicate 4 ones } }

/-- `STAGE_S5` (R423): DDR5 training, module checks and test; a destruction cut short is resumed at its end. -/
def execStageS5 (r : StageInput) (s : State) : Out State :=
  if !stageDue s 5 then .next s
  else
    let g := checkModules r s
    let f := judge 5 r g.s
    let s := testDdr (placeModules r { f.s with plan := prunePairs f.s.plan })
    let s := endStage 5 6 r (tooLittle s) { f with s := s, removed := g.removed + f.removed } s.plan.channels.toNat
      (foundCorrected g.s 5 r * 2 ^ 32 + foundUncorr g.s 5 r)
    .next (if destroying s then resumeDestruction s else s)

/-! ### S6 (R418) -/

/-- The objects lie at `FWSTAGE`. DEDUCED, log entry 44. -/
def stageFirmware (s : State) : State := writeMem s s.boot.manifest.fwStage.toNat (s.boot.manifest.firmware ++ s.boot.manifest.runtime)

/-- A unit whose image does not match a second time leaves the floor plan. -/
def failImage (f : Found) (u : TestUnit) : Found :=
  if testInPlan f.s.plan u then
    let s := { f.s with plan := cutTest f.s.plan u }
    { f with s := refuse s 0x41 s.boot.manifest.fwStage 0 (match u with | .core c => BitVec.ofNat 64 c.val | _ => noIndex), removed := f.removed + 1 }
  else f

/-- Whether a unit fetches an image. -/
def fetches : TestUnit → Bool
  | .core _ => true
  | .cluster _ => true
  | _ => false

/-- Every good core holds the core runtime image. -/
def loadRuntime (s : State) : State :=
  let img := s.boot.manifest.runtime
  (goodCores s).foldl (fun s c => modCore s c fun k => { k with image := setBytes [] 0 img, bundles := img.length / 16 }) s

/-- `STAGE_S6` (R418). DEDUCED, log entry 44. -/
def execStageS6 (r : StageInput) (s : State) : Out State :=
  if !stageDue s 6 then .next s
  else
    let f := (r.fails.filter fetches).foldl failImage { s := stageFirmware s }
    let s := loadRuntime f.s
    .next (endStage 6 7 r (tooLittle s) { f with s := s } (goodCount s.plan) r.retried)

/-! ### S7 (R420, R427) -/

/-- Whether two floor plans name the same units. -/
def sameUnits (a b : Plan) : Bool :=
  a.cores == b.cores && a.clusters == b.clusters && a.hstacks == b.hstacks && a.channels == b.channels && a.dies == b.dies && a.ports == b.ports

/-- The serial rises where the floor plan differs from the last one recorded (R427). DEDUCED, log entry 43. -/
def settlePlan (s : State) : State :=
  match s.part.lastPlan with
  | some p => if sameUnits p s.plan then s else planChanged s
  | none => planChanged s

/-- The stacks and channels that a Kiln took along are no longer served. -/
def dropMemory (s : State) : State :=
  ((List.range 12).filter fun m => !s.plan.channels.getLsbD m).foldl (fun s m => modUnit s (8 + m) fun q => { q with present := false }) (dropStacks s)

/-- The ports of the floor plan begin to train (R353). -/
def beginTraining (s : State) : State := (setBitsOf 16 s.plan.ports.toNat).foldl (fun s p => modPort s p fun q => { q with st := 1 }) s

/-- `STAGE_S7` (R420). -/
def execStageS7 (r : StageInput) (s : State) : Out State :=
  if !stageDue s 7 then .next s
  else
    let s := if r.engineFail then noteJudged s 7 5 0 0xD 0 else s
    .next (judgedStage 7 r s (fun _ => r.engineFail) (fun s => beginTraining (settlePlan (dropMemory s)))
      (fun s => (goodCount s.plan, (if goodCount s.plan < gradeCores s then 1 else 0) + (if s.plan.disag = 0 then 2 else 0))))

/-! ### S8 and S9 (R353, R361) -/

/-- The ports that are up. -/
def portsUp (s : State) : Nat := ((List.range 16).map fun p => if 2 ≤ (portOf s p).st then 2 ^ p else 0).foldl (· + ·) 0

/-- What discovery leaves of a port that still trains: up on the lanes that pass, or down after 2 s. -/
def endTraining (r : StageInput) (s : State) (p : Nat) : State :=
  if (portOf s p).st ≠ 1 then s
  else match r.portsUp.find? fun q => q.1.val == p with
    | some q => if lanesUp q.2 = 0 then modPort s p fun t => { t with st := 0 } else bringUp s p (lanesUp q.2)
    | none => modPort s p fun t => { t with st := 0 }

/-- Ports that left the floor plan in S8 are down. -/
def dropPorts (s : State) : State :=
  ((List.range 16).filter fun p => !s.plan.ports.getLsbD p).foldl (fun s p => if (portOf s p).st = 0 then s else setPort s p {}) s

/-- `STAGE_S8` (R353). -/
def execStageS8 (r : StageInput) (s : State) : Out State :=
  .next (if stageDue s 8 then
    judgedStage 8 r s (fun _ => false) (fun s => settlePlan ((List.range 16).foldl (endTraining r) (dropPorts s))) (fun s => (portsUp s, 0)) else s)

/-- `STAGE_S9` (R361): once discovery is complete and the beat is locked, the device is ready. DEDUCED, log entry 44. -/
def execStageS9 (r : StageInput) (s : State) : Out State :=
  if stageDue s 9 ∧ s.fabric.ready ∧ s.fabric.lock then
    .next (endStage 9 10 r false { s := { s with boot := { s.boot with state := 1 } } } 0 0)
  else .next s

end Sys2Proof.Machine
end

