-- ==== Sys2Proof/Machine/Power.lean ====
section
/-! DEFINITION. Power, arithmetic clock, temperature and the board's lines (R454 to R458, R461, R463). -/

namespace Sys2Proof.Machine

open Sys2Proof

/-- Whether the MC acts: not while the start is halted (R414), nor after `THERMTRIP#` (R458). -/
def mcActs (s : State) : Bool := s.boot.state != 2 && !s.power.therm

/-- One step of 50 MHz down, to no lower than 1.2 GHz. DEDUCED, log entry 45. -/
def stepDown (mhz : Nat) : Nat := Max.max 1200 (mhz - 50)
/-- One step up, to no higher than the grade clock. DEDUCED, log entry 45. -/
def stepUp (s : State) (mhz : Nat) : Nat := Min.min (gradeClk s) (mhz + 50)

/-- What asks for less than the grade clock (Table 20.5). DEDUCED, log entry 45. -/
def clockCause (s : State) : Nat := (if s.power.powMHz < gradeClk s then 1 else 0) + (if s.power.thermMHz < gradeClk s then 2 else 0)

/-- The lower of the two clocks asked for applies (R457): lowered at once, before the voltage; raised only on the regulator's
completion, after the voltage (R456). -/
def applyClock (s : State) : State :=
  let p := s.power
  let want := Min.min p.powMHz p.thermMHz
  let p := { p with wantMHz := want, cause := clockCause s, raising := decide (p.clkMHz < want), clkMHz := Min.min p.clkMHz want }
  { s with power := p }

/-- The power status record (Table 21.4). -/
def powerRec (s : State) (addr : Nat) : Record := statusRec s 7 (leBytes 6 0 ++ leBytes 8 (pwrWord s).toNat ++ leBytes 1 addr) none

/-- `THROT#` (R458): driven low at 1.2 GHz with the junction at 105 °C or the average above the cap, released when neither holds; each
change raises an in-band interrupt (R461). DEDUCED, log entry 45. -/
def throttle (s : State) : State :=
  let p := s.power
  let hot := decide (105 ≤ p.tmax) || decide (p.cap < p.pavg)
  if p.throt then (if hot then s else { s with power := { p with throt := false, ibi := p.ibi + 1 } })
  else if hot ∧ p.clkMHz = 1200 then
    let s := { s with power := { p with throt := true, ibi := p.ibi + 1 } }
    reportMC s (powerRec s 0)
  else s

/-- `POWER_SAMPLE` (R454): the 1 ms average against the cap. DEDUCED, log entry 45. -/
def execPowerSample (r : PowerReading) (s : State) : Out State :=
  if !mcActs s then .next s
  else
    let p := s.power
    let mhz := if p.cap < r.avgW then stepDown p.powMHz else if r.avgW * 100 ≤ p.cap * 95 then stepUp s p.powMHz else p.powMHz
    .next (throttle (applyClock { s with power := { p with pavg := Min.min 65535 r.avgW, powMHz := mhz } }))

/-- `AVS_COMPLETION` (R456): the voltage has risen, and the clock follows. -/
def execAvsCompletion (s : State) : Out State :=
  .next (if mcActs s ∧ s.power.raising then { s with power := { s.power with clkMHz := s.power.wantMHz, raising := false } } else s)

/-- `ACTIVITY_ESTIMATE` (R455): a predicted rise of more than 400 A stretches the clock. -/
def execActivityEstimate (rise : Nat) (s : State) : Out State :=
  .next (if mcActs s then { s with power := { s.power with stretch := decide (400 < rise) } } else s)

/-- The readings with those of absent units at 0 (R461). -/
def readings (s : State) (temps : List Nat) : List Nat :=
  (List.range 28).map fun i =>
    if (i < 16 ∧ s.plan.clusters.getLsbD i) ∨ (16 ≤ i ∧ i < 20 ∧ s.plan.dies.getLsbD (i - 16)) ∨ (20 ≤ i ∧ s.plan.hstacks.getLsbD (i - 20))
    then Min.min 255 (temps.getD i 0) else 0

/-- Store the readings and the hottest of them. -/
def takeTemps (s : State) (temps : List Nat) : State :=
  let s := { s with power := { s.power with temps := readings s temps } }
  { s with power := { s.power with tmax := hottest s } }

/-- The stacks whose request rate is halved: from 95 °C until below 93 °C. -/
def halvedStacks (s : State) : BitVec 8 :=
  (List.range 8).foldl (fun (m : BitVec 8) n =>
    let t := s.power.temps.getD (20 + n) 0
    if 95 ≤ t then m ||| oneBit 8 n else if t < 93 then m &&& ~~~(oneBit 8 n) else m) s.power.halved

/-- `THERMAL_STEP` (R457): one step every 10 µs. -/
def execThermalStep (temps : List Nat) (s : State) : Out State :=
  if !mcActs s then .next s
  else
    let s := takeTemps s temps
    let p := s.power
    let mhz := if 100 ≤ p.tmax then stepDown p.thermMHz else if p.tmax < 99 then stepUp s p.thermMHz else p.thermMHz
    .next (throttle (applyClock { s with power := { p with thermMHz := mhz, halved := halvedStacks s } }))

/-- `THERMTRIP` (R458): at 110 °C the line goes low and every clock stops, until `COLD_RST#`. DEDUCED, log entry 42. -/
def execThermtrip (temps : List Nat) (s : State) : Out State :=
  let t := takeTemps s temps
  .next (if 110 ≤ t.power.tmax then { t with power := { t.power with therm := true } } else s)

/-- A droop event: counted, and told to the Cone (R455). -/
def droop (s : State) : State :=
  { s with power := { s.power with droop := satAdd 16 s.power.droop 1 }, secure := { s.secure with evDroop := s.secure.evDroop + 1 } }

/-- `DROOP_EVENT` (R455). -/
def execDroopEvent (s : State) : Out State := .next (if mcActs s then droop s else s)

/-- `PMB_ALERT` (R463): the alerting regulator's status is read; a fault is a droop event and a power status record. -/
def execPmbAlert (addr : Byte) (bad : Bool) (s : State) : Out State :=
  .next (if mcActs s ∧ bad then let s := droop s; reportMC s (powerRec s addr.toNat) else s)

/-- The telemetry map of the I3C target (R461): 56 bytes. -/
def telemetry (s : State) : List Byte :=
  leBytes 8 (pwrWord s).toNat ++ leBytes 8 (bootWord s).toNat ++ leBytes 8 (lcStat s).toNat
    ++ (List.range 32).map fun i => BitVec.ofNat 8 (s.power.temps.getD i 0)

end Sys2Proof.Machine
end

