-- ==== Sys2Proof/Machine/UnitOps.lean ====
section
/-! DEFINITION. Unit commands (Table 2.9, R60): Turn, Mover, chain, Herd and Kiln instructions as they leave a core; what
the units do with them is in their own files. -/

namespace Sys2Proof.Machine

open Sys2Proof

/-- `TURN` (R119). -/
def execTurn (sl : Slot) (d1 d2 xs : Reg) (t : BitVec 12) (s : State) : Out State :=
  .next (offer s { place := 2, slot := sl, opcode := 0x30, reads := [.x xs, .d d1, .d d2], effect := .turn d1 d2 (slotX s sl xs) t })
/-- `MOV_GO` (R261). -/
def execMovGo (sl : Slot) (xa xb : Reg) (s : State) : Out State :=
  .next (offer s { place := 2, slot := sl, opcode := 0x34, reads := [.x xa, .x xb], effect := .movGo (slotX s sl xa) (slotX s sl xb) })
/-- `MOV_RING` (R269). -/
def execMovRing (sl : Slot) (xa xb : Reg) (s : State) : Out State :=
  .next (offer s { place := 2, slot := sl, opcode := 0x35, newT2 := true, reads := [.x xa, .x xb]
                   effect := .movRing (slotX s sl xa) (slotX s sl xb) })
/-- `MOV_ABORT` (R271). -/
def execMovAbort (sl : Slot) (xa : Reg) (s : State) : Out State :=
  .next (offer s { place := 2, slot := sl, opcode := 0x36, reads := [.x xa], effect := .movAbort (slotX s sl xa) })

/-- The slot of a chain command. -/
def chainSlot (sl : Slot) (d1 d2 d3 xs : Reg) (ctl : W64) (t : BitVec 12) : Staged :=
  { place := 2, slot := sl, opcode := 0x40, newT2 := true, only := some .compute, reads := [.x xs, .d d1, .d d2, .d d3]
    effect := .chain d1 d2 d3 ctl t }

/-- A chain command, deferred where bit 63 of its control word is set (R224, R275). -/
def chainOp (s : State) (sl : Slot) (d1 d2 d3 xs : Reg) (t : BitVec 12) : State := offer s (chainSlot sl d1 d2 d3 xs (slotX s sl xs) t)
/-- `CHAIN` (R275). -/
def execChain (sl : Slot) (d1 d2 d3 xs : Reg) (t : BitVec 12) (s : State) : Out State := .next (chainOp s sl d1 d2 d3 xs t)
/-- `CHAIN_DEFERRED` (R224). -/
def execChainDeferred (sl : Slot) (d1 d2 d3 xs : Reg) (t : BitVec 12) (s : State) : Out State := .next (chainOp s sl d1 d2 d3 xs t)

/-- The slot of a Herd command; d1 must be 0 where the command does not use it (R301, R302). -/
def herdSlot (sl : Slot) (op kind : Nat) (d1 xs : Reg) (w : W64) (t : BitVec 12) : Staged :=
  { place := 2, slot := sl, opcode := op, newT2 := true, badEnc := op == 0x4A && d1 != 0
    reads := .x xs :: (if op = 0x4A then [] else [.d d1]), effect := .herd kind d1 w t }

/-- A Herd command of an opcode. -/
def herdOp (s : State) (sl : Slot) (op : Nat) (d1 xs : Reg) (t : BitVec 12) : State :=
  let w := slotX s sl xs
  offer s (herdSlot sl op (if op = 0x48 then 0 else if op = 0x49 then 1 else if op = 0x4A then 2 + bits w 23 22 else 6) d1 xs w t)
/-- `HERD_ROUTE` (R304). -/
def execHerdRoute (sl : Slot) (d1 xs : Reg) (t : BitVec 12) (s : State) : Out State := .next (herdOp s sl 0x48 d1 xs t)
/-- `HERD_PACK` (R305). -/
def execHerdPack (sl : Slot) (d1 xs : Reg) (t : BitVec 12) (s : State) : Out State := .next (herdOp s sl 0x49 d1 xs t)
/-- `HERD_SEND_OPEN` (R308): `herd.send` with `MODE` 0 in its control word. -/
def execHerdSendOpen (sl : Slot) (d1 xs : Reg) (t : BitVec 12) (s : State) : Out State := .next (herdOp s sl 0x4A d1 xs t)
/-- `HERD_SEND_DISPATCH` (R309): `MODE` 1. -/
def execHerdSendDispatch (sl : Slot) (d1 xs : Reg) (t : BitVec 12) (s : State) : Out State := .next (herdOp s sl 0x4A d1 xs t)
/-- `HERD_SEND_RETURN` (R313): `MODE` 2. -/
def execHerdSendReturn (sl : Slot) (d1 xs : Reg) (t : BitVec 12) (s : State) : Out State := .next (herdOp s sl 0x4A d1 xs t)
/-- `HERD_SEND_CANCEL` (R316): `MODE` 3. -/
def execHerdSendCancel (sl : Slot) (d1 xs : Reg) (t : BitVec 12) (s : State) : Out State := .next (herdOp s sl 0x4A d1 xs t)
/-- `HERD_COMB` (R315). -/
def execHerdComb (sl : Slot) (d1 xs : Reg) (t : BitVec 12) (s : State) : Out State := .next (herdOp s sl 0x4B d1 xs t)

/-- The slot of a Kiln command whose block lies at `off`. `op` numbers the commands as `KilnCmd` does. -/
def kilnSlot (sl : Slot) (opcode op : Nat) (xa : Reg) (off : W64) (t : BitVec 12) : Staged :=
  { place := 2, slot := sl, opcode := opcode, newT2 := true, reads := [.x xa], effect := .kiln op off t }

/-- A Kiln command: xa holds the offset of its block (R60). -/
def kilnOp (s : State) (sl : Slot) (opcode op : Nat) (xa : Reg) (t : BitVec 12) : State := offer s (kilnSlot sl opcode op xa (slotX s sl xa) t)
/-- `KILN_STEP` (R240). -/
def execKilnStep (sl : Slot) (xa : Reg) (t : BitVec 12) (s : State) : Out State := .next (kilnOp s sl 0x50 0 xa t)
/-- `KILN_FIRE` (R255). -/
def execKilnFire (sl : Slot) (xa : Reg) (t : BitVec 12) (s : State) : Out State := .next (kilnOp s sl 0x51 1 xa t)
/-- `KILN_CAST_COUNT` (R186): `kiln.cast`, its block saying `MODE` 0. -/
def execKilnCastCount (sl : Slot) (xa : Reg) (t : BitVec 12) (s : State) : Out State := .next (kilnOp s sl 0x52 4 xa t)
/-- `KILN_CAST_THRESHOLD` (R186): `MODE` 1. -/
def execKilnCastThreshold (sl : Slot) (xa : Reg) (t : BitVec 12) (s : State) : Out State := .next (kilnOp s sl 0x52 4 xa t)
/-- `KILN_GROW` (R188): `kiln.grow`, its block saying `MODE` 0. -/
def execKilnGrow (sl : Slot) (xa : Reg) (t : BitVec 12) (s : State) : Out State := .next (kilnOp s sl 0x53 5 xa t)
/-- `KILN_GROW_FOLD` (R184): `MODE` 1. -/
def execKilnGrowFold (sl : Slot) (xa : Reg) (t : BitVec 12) (s : State) : Out State := .next (kilnOp s sl 0x53 5 xa t)
/-- `KILN_GROW_EMPTY` (R185): `MODE` 2. -/
def execKilnGrowEmpty (sl : Slot) (xa : Reg) (t : BitVec 12) (s : State) : Out State := .next (kilnOp s sl 0x53 5 xa t)
/-- `KILN_SEL` (R190). -/
def execKilnSel (sl : Slot) (xa : Reg) (t : BitVec 12) (s : State) : Out State := .next (kilnOp s sl 0x54 6 xa t)
/-- `KILN_FILL` (R256). -/
def execKilnFill (sl : Slot) (xa : Reg) (t : BitVec 12) (s : State) : Out State := .next (kilnOp s sl 0x55 2 xa t)
/-- `KILN_EXPORT` (R257). -/
def execKilnExport (sl : Slot) (xa : Reg) (t : BitVec 12) (s : State) : Out State := .next (kilnOp s sl 0x56 3 xa t)

end Sys2Proof.Machine
end

