-- ==== Sys2Proof/Machine/Dispatch.lean ====
section
/-! DEFINITION. One arm per command: a direct call of its meaning. -/

namespace Sys2Proof.Machine

open Sys2Proof

/-- The effect of a command on everything but the queue. DESIGN CHOICE, log entry 2. -/
def exec (i : Instr) (s : State) : Host.Outcome State Fault Refusal :=
  match i with
  | .add sl rd rs1 rs2 => Sys2Proof.Machine.execAdd sl rd rs1 rs2 s
  | .sub sl rd rs1 rs2 => Sys2Proof.Machine.execSub sl rd rs1 rs2 s
  | .andW sl rd rs1 rs2 => Sys2Proof.Machine.execAndW sl rd rs1 rs2 s
  | .orW sl rd rs1 rs2 => Sys2Proof.Machine.execOrW sl rd rs1 rs2 s
  | .xorW sl rd rs1 rs2 => Sys2Proof.Machine.execXorW sl rd rs1 rs2 s
  | .sll sl rd rs1 rs2 => Sys2Proof.Machine.execSll sl rd rs1 rs2 s
  | .srl sl rd rs1 rs2 => Sys2Proof.Machine.execSrl sl rd rs1 rs2 s
  | .sra sl rd rs1 rs2 => Sys2Proof.Machine.execSra sl rd rs1 rs2 s
  | .slt sl rd rs1 rs2 => Sys2Proof.Machine.execSlt sl rd rs1 rs2 s
  | .sltu sl rd rs1 rs2 => Sys2Proof.Machine.execSltu sl rd rs1 rs2 s
  | .mul sl rd rs1 rs2 => Sys2Proof.Machine.execMul sl rd rs1 rs2 s
  | .mulh sl rd rs1 rs2 => Sys2Proof.Machine.execMulh sl rd rs1 rs2 s
  | .div sl rd rs1 rs2 => Sys2Proof.Machine.execDiv sl rd rs1 rs2 s
  | .divu sl rd rs1 rs2 => Sys2Proof.Machine.execDivu sl rd rs1 rs2 s
  | .rem sl rd rs1 rs2 => Sys2Proof.Machine.execRem sl rd rs1 rs2 s
  | .remu sl rd rs1 rs2 => Sys2Proof.Machine.execRemu sl rd rs1 rs2 s
  | .addi sl rd rs1 imm => Sys2Proof.Machine.execAddi sl rd rs1 imm s
  | .andi sl rd rs1 imm => Sys2Proof.Machine.execAndi sl rd rs1 imm s
  | .ori sl rd rs1 imm => Sys2Proof.Machine.execOri sl rd rs1 imm s
  | .xori sl rd rs1 imm => Sys2Proof.Machine.execXori sl rd rs1 imm s
  | .slli sl rd rs1 imm => Sys2Proof.Machine.execSlli sl rd rs1 imm s
  | .srli sl rd rs1 imm => Sys2Proof.Machine.execSrli sl rd rs1 imm s
  | .srai sl rd rs1 imm => Sys2Proof.Machine.execSrai sl rd rs1 imm s
  | .slti sl rd rs1 imm => Sys2Proof.Machine.execSlti sl rd rs1 imm s
  | .lui sl rd imm => Sys2Proof.Machine.execLui sl rd imm s
  | .luh sl rd imm => Sys2Proof.Machine.execLuh sl rd imm s
  | .beq sl rs1 rs2 off => Sys2Proof.Machine.execBeq sl rs1 rs2 off s
  | .bne sl rs1 rs2 off => Sys2Proof.Machine.execBne sl rs1 rs2 off s
  | .blt sl rs1 rs2 off => Sys2Proof.Machine.execBlt sl rs1 rs2 off s
  | .bge sl rs1 rs2 off => Sys2Proof.Machine.execBge sl rs1 rs2 off s
  | .bltu sl rs1 rs2 off => Sys2Proof.Machine.execBltu sl rs1 rs2 off s
  | .bgeu sl rs1 rs2 off => Sys2Proof.Machine.execBgeu sl rs1 rs2 off s
  | .jal sl rd imm => Sys2Proof.Machine.execJal sl rd imm s
  | .jalr sl rd rs1 imm => Sys2Proof.Machine.execJalr sl rd rs1 imm s
  | .ld sl rd rs1 imm => Sys2Proof.Machine.execLd sl rd rs1 imm s
  | .lw sl rd rs1 imm => Sys2Proof.Machine.execLw sl rd rs1 imm s
  | .sd sl rd rs1 imm => Sys2Proof.Machine.execSd sl rd rs1 imm s
  | .sw sl rd rs1 imm => Sys2Proof.Machine.execSw sl rd rs1 imm s
  | .csrr sl rd rs1 imm => Sys2Proof.Machine.execCsrr sl rd rs1 imm s
  | .stop sl => Sys2Proof.Machine.execStop sl s
  | .vadd sl vd vs1 vs2 => Sys2Proof.Machine.execVadd sl vd vs1 vs2 s
  | .vsub sl vd vs1 vs2 => Sys2Proof.Machine.execVsub sl vd vs1 vs2 s
  | .vmul sl vd vs1 vs2 => Sys2Proof.Machine.execVmul sl vd vs1 vs2 s
  | .vfma sl vd vs1 vs2 vs3 => Sys2Proof.Machine.execVfma sl vd vs1 vs2 vs3 s
  | .vmax sl vd vs1 vs2 => Sys2Proof.Machine.execVmax sl vd vs1 vs2 s
  | .vmin sl vd vs1 vs2 => Sys2Proof.Machine.execVmin sl vd vs1 vs2 s
  | .vabs sl vd vs1 => Sys2Proof.Machine.execVabs sl vd vs1 s
  | .vneg sl vd vs1 => Sys2Proof.Machine.execVneg sl vd vs1 s
  | .vaddBf sl vd vs1 vs2 => Sys2Proof.Machine.execVaddBf sl vd vs1 vs2 s
  | .vmulBf sl vd vs1 vs2 => Sys2Proof.Machine.execVmulBf sl vd vs1 vs2 s
  | .vfmaBf sl vd vs1 vs2 vs3 => Sys2Proof.Machine.execVfmaBf sl vd vs1 vs2 vs3 s
  | .vmaxBf sl vd vs1 vs2 => Sys2Proof.Machine.execVmaxBf sl vd vs1 vs2 s
  | .vminBf sl vd vs1 vs2 => Sys2Proof.Machine.execVminBf sl vd vs1 vs2 s
  | .vexp sl vd vs1 => Sys2Proof.Machine.execVexp sl vd vs1 s
  | .vlog sl vd vs1 => Sys2Proof.Machine.execVlog sl vd vs1 s
  | .vrsqrt sl vd vs1 => Sys2Proof.Machine.execVrsqrt sl vd vs1 s
  | .vredsum sl vd vs1 => Sys2Proof.Machine.execVredsum sl vd vs1 s
  | .vredmax sl vd vs1 => Sys2Proof.Machine.execVredmax sl vd vs1 s
  | .vredsq sl vd vs1 => Sys2Proof.Machine.execVredsq sl vd vs1 s
  | .vperm sl vd vs1 vs2 => Sys2Proof.Machine.execVperm sl vd vs1 vs2 s
  | .vsplat sl vd vs1 => Sys2Proof.Machine.execVsplat sl vd vs1 s
  | .vcvt sl vd vs1 mod => Sys2Proof.Machine.execVcvt sl vd vs1 mod s
  | .vcmp sl vd vs1 vs2 mod => Sys2Proof.Machine.execVcmp sl vd vs1 vs2 mod s
  | .pand sl vd vs1 vs2 => Sys2Proof.Machine.execPand sl vd vs1 vs2 s
  | .por sl vd vs1 vs2 => Sys2Proof.Machine.execPor sl vd vs1 vs2 s
  | .pnot sl vd vs1 => Sys2Proof.Machine.execPnot sl vd vs1 s
  | .pxor sl vd vs1 vs2 => Sys2Proof.Machine.execPxor sl vd vs1 vs2 s
  | .qwait sl q n => Sys2Proof.Machine.execQwait sl q n s
  | .qwaitRelease c e => Sys2Proof.Machine.execQwaitRelease c e s
  | .qpop sl q r => Sys2Proof.Machine.execQpop sl q r s
  | .qpush sl q r => Sys2Proof.Machine.execQpush sl q r s
  | .qfetch sl q r => Sys2Proof.Machine.execQfetch sl q r s
  | .qstore sl q r => Sys2Proof.Machine.execQstore sl q r s
  | .qdrain sl q r n => Sys2Proof.Machine.execQdrain sl q r n s
  | .vld sl r xs imm => Sys2Proof.Machine.execVld sl r xs imm s
  | .vst sl r xs imm => Sys2Proof.Machine.execVst sl r xs imm s
  | .dld sl r xs imm => Sys2Proof.Machine.execDld sl r xs imm s
  | .dbase sl d xs => Sys2Proof.Machine.execDbase sl d xs s
  | .twait sl t xs => Sys2Proof.Machine.execTwait sl t xs s
  | .twaitYield sl t xs => Sys2Proof.Machine.execTwaitYield sl t xs s
  | .twaitRelease c e => Sys2Proof.Machine.execTwaitRelease c e s
  | .yieldRelease c => Sys2Proof.Machine.execYieldRelease c s
  | .tsig sl t imm => Sys2Proof.Machine.execTsig sl t imm s
  | .tsigX sl t xs => Sys2Proof.Machine.execTsigX sl t xs s
  | .tsigR sl xa xb => Sys2Proof.Machine.execTsigR sl xa xb s
  | .trd sl t xs => Sys2Proof.Machine.execTrd sl t xs s
  | .farr sl t imm => Sys2Proof.Machine.execFarr sl t imm s
  | .bwait sl xs => Sys2Proof.Machine.execBwait sl xs s
  | .bwaitRelease c e => Sys2Proof.Machine.execBwaitRelease c e s
  | .brd sl xs => Sys2Proof.Machine.execBrd sl xs s
  | .wld sl d1 t => Sys2Proof.Machine.execWld sl d1 t s
  | .wldPatch sl d1 d2 t => Sys2Proof.Machine.execWldPatch sl d1 d2 t s
  | .shadowLoadComplete c => Sys2Proof.Machine.execShadowLoadComplete c s
  | .mmaD sl d1 xs => Sys2Proof.Machine.execMmaD sl d1 xs s
  | .mmaS24 sl d1 xs => Sys2Proof.Machine.execMmaS24 sl d1 xs s
  | .mmaMx4 sl d1 xs => Sys2Proof.Machine.execMmaMx4 sl d1 xs s
  | .mmaBf sl d1 xs => Sys2Proof.Machine.execMmaBf sl d1 xs s
  | .passRowResult c => Sys2Proof.Machine.execPassRowResult c s
  | .mmaIsect sl d1 d2 xs => Sys2Proof.Machine.execMmaIsect sl d1 d2 xs s
  | .isectCountStage c => Sys2Proof.Machine.execIsectCountStage c s
  | .isectWalkChoice c => Sys2Proof.Machine.execIsectWalkChoice c s
  | .isectMerge c => Sys2Proof.Machine.execIsectMerge c s
  | .isectDone c => Sys2Proof.Machine.execIsectDone c s
  | .mmaPred sl d1 d2 xs => Sys2Proof.Machine.execMmaPred sl d1 d2 xs s
  | .predSelectionWrite c => Sys2Proof.Machine.execPredSelectionWrite c s
  | .mmaSel sl d1 d2 xs => Sys2Proof.Machine.execMmaSel sl d1 d2 xs s
  | .drain sl d1 d2 xs t => Sys2Proof.Machine.execDrain sl d1 d2 xs t s
  | .drainSpill sl d1 d2 xs t => Sys2Proof.Machine.execDrainSpill sl d1 d2 xs t s
  | .drainSlot c => Sys2Proof.Machine.execDrainSlot c s
  | .drainComplete c => Sys2Proof.Machine.execDrainComplete c s
  | .accrd sl vd xs imm => Sys2Proof.Machine.execAccrd sl vd xs imm s
  | .accclr sl imm => Sys2Proof.Machine.execAccclr sl imm s
  | .resultLand c e => Sys2Proof.Machine.execResultLand c e s
  | .storeVisible c => Sys2Proof.Machine.execStoreVisible c s
  | .bankGrantRetry c e => Sys2Proof.Machine.execBankGrantRetry c e s
  | .scoreboardRangeRetire c n => Sys2Proof.Machine.execScoreboardRangeRetire c n s
  | .turn sl d1 d2 xs t => Sys2Proof.Machine.execTurn sl d1 d2 xs t s
  | .turnComplete k => Sys2Proof.Machine.execTurnComplete k s
  | .movGo sl xa xb => Sys2Proof.Machine.execMovGo sl xa xb s
  | .movRing sl xa xb => Sys2Proof.Machine.execMovRing sl xa xb s
  | .movAbort sl xa => Sys2Proof.Machine.execMovAbort sl xa s
  | .moverDescriptorFetch k ch => Sys2Proof.Machine.execMoverDescriptorFetch k ch s
  | .ringResume k ch => Sys2Proof.Machine.execRingResume k ch s
  | .moverPaceTake k ch => Sys2Proof.Machine.execMoverPaceTake k ch s
  | .moverReadRequest k ch => Sys2Proof.Machine.execMoverReadRequest k ch s
  | .moverWriteCommit k ch => Sys2Proof.Machine.execMoverWriteCommit k ch s
  | .moverDescriptorComplete k ch => Sys2Proof.Machine.execMoverDescriptorComplete k ch s
  | .moverStop k ch => Sys2Proof.Machine.execMoverStop k ch s
  | .relayImageEnter k => Sys2Proof.Machine.execRelayImageEnter k s
  | .relayHop k n => Sys2Proof.Machine.execRelayHop k n s
  | .chain sl d1 d2 d3 xs t => Sys2Proof.Machine.execChain sl d1 d2 d3 xs t s
  | .chainDeferred sl d1 d2 d3 xs t => Sys2Proof.Machine.execChainDeferred sl d1 d2 d3 xs t s
  | .chainFetchStage c k => Sys2Proof.Machine.execChainFetchStage c k s
  | .chainTurnStage c k => Sys2Proof.Machine.execChainTurnStage c k s
  | .chainImageBuild c k => Sys2Proof.Machine.execChainImageBuild c k s
  | .chainPass c k => Sys2Proof.Machine.execChainPass c k s
  | .chainDrainStage c k => Sys2Proof.Machine.execChainDrainStage c k s
  | .chainStoreStage c k => Sys2Proof.Machine.execChainStoreStage c k s
  | .deferredPassPiece c => Sys2Proof.Machine.execDeferredPassPiece c s
  | .deferredDrainPiece c => Sys2Proof.Machine.execDeferredDrainPiece c s
  | .herdRoute sl d1 xs t => Sys2Proof.Machine.execHerdRoute sl d1 xs t s
  | .herdPack sl d1 xs t => Sys2Proof.Machine.execHerdPack sl d1 xs t s
  | .herdSendOpen sl d1 xs t => Sys2Proof.Machine.execHerdSendOpen sl d1 xs t s
  | .herdSendDispatch sl d1 xs t => Sys2Proof.Machine.execHerdSendDispatch sl d1 xs t s
  | .herdSendReturn sl d1 xs t => Sys2Proof.Machine.execHerdSendReturn sl d1 xs t s
  | .herdSendCancel sl d1 xs t => Sys2Proof.Machine.execHerdSendCancel sl d1 xs t s
  | .herdComb sl d1 xs t => Sys2Proof.Machine.execHerdComb sl d1 xs t s
  | .herdCombine k => Sys2Proof.Machine.execHerdCombine k s
  | .herdRowArrival n => Sys2Proof.Machine.execHerdRowArrival n s
  | .herdCountMessage n => Sys2Proof.Machine.execHerdCountMessage n s
  | .herdFinalise k serial half => Sys2Proof.Machine.execHerdFinalise k serial half s
  | .herdReturnArrival n => Sys2Proof.Machine.execHerdReturnArrival n s
  | .herdDoneMessage n => Sys2Proof.Machine.execHerdDoneMessage n s
  | .kilnStep sl xa t => Sys2Proof.Machine.execKilnStep sl xa t s
  | .kilnStepStart n j => Sys2Proof.Machine.execKilnStepStart n j s
  | .kilnRingChunk n j => Sys2Proof.Machine.execKilnRingChunk n j s
  | .kilnStepComplete n j => Sys2Proof.Machine.execKilnStepComplete n j s
  | .kilnFire sl xa t => Sys2Proof.Machine.execKilnFire sl xa t s
  | .kilnFill sl xa t => Sys2Proof.Machine.execKilnFill sl xa t s
  | .kilnExport sl xa t => Sys2Proof.Machine.execKilnExport sl xa t s
  | .kilnCastCount sl xa t => Sys2Proof.Machine.execKilnCastCount sl xa t s
  | .kilnCastThreshold sl xa t => Sys2Proof.Machine.execKilnCastThreshold sl xa t s
  | .kilnGrow sl xa t => Sys2Proof.Machine.execKilnGrow sl xa t s
  | .kilnGrowFold sl xa t => Sys2Proof.Machine.execKilnGrowFold sl xa t s
  | .kilnGrowEmpty sl xa t => Sys2Proof.Machine.execKilnGrowEmpty sl xa t s
  | .kilnSel sl xa t => Sys2Proof.Machine.execKilnSel sl xa t s
  | .maskCommandStart n j => Sys2Proof.Machine.execMaskCommandStart n j s
  | .countedSignalAct src stream => Sys2Proof.Machine.execCountedSignalAct src stream s
  | .localSignalArrive n => Sys2Proof.Machine.execLocalSignalArrive n s
  | .foldComplete k f => Sys2Proof.Machine.execFoldComplete k f s
  | .patrolScrub u => Sys2Proof.Machine.execPatrolScrub u s
  | .calWindowOpen u => Sys2Proof.Machine.execCalWindowOpen u s
  | .calWindowClose u => Sys2Proof.Machine.execCalWindowClose u s
  | .calWindowForced u => Sys2Proof.Machine.execCalWindowForced u s
  | .portTraining p ok => Sys2Proof.Machine.execPortTraining p ok s
  | .portLinkTimeout p => Sys2Proof.Machine.execPortLinkTimeout p s
  | .laneDrop p lane => Sys2Proof.Machine.execLaneDrop p lane s
  | .linkRetrain p => Sys2Proof.Machine.execLinkRetrain p s
  | .ackTimeout p => Sys2Proof.Machine.execAckTimeout p s
  | .creditReturn p => Sys2Proof.Machine.execCreditReturn p s
  | .framePortTake n => Sys2Proof.Machine.execFramePortTake n s
  | .writeFrame p fr => Sys2Proof.Machine.execWriteFrame p fr s
  | .readRequestFrame p fr => Sys2Proof.Machine.execReadRequestFrame p fr s
  | .readResponseFrame p fr => Sys2Proof.Machine.execReadResponseFrame p fr s
  | .writeAckFrame p fr => Sys2Proof.Machine.execWriteAckFrame p fr s
  | .errorResponseFrame p fr => Sys2Proof.Machine.execErrorResponseFrame p fr s
  | .countedSignalFrame p fr => Sys2Proof.Machine.execCountedSignalFrame p fr s
  | .foldArrivalFrame p fr => Sys2Proof.Machine.execFoldArrivalFrame p fr s
  | .foldCompletionFrame p fr => Sys2Proof.Machine.execFoldCompletionFrame p fr s
  | .herdRowFrame p fr => Sys2Proof.Machine.execHerdRowFrame p fr s
  | .herdMessageFrame p fr => Sys2Proof.Machine.execHerdMessageFrame p fr s
  | .linkControlFrame p lc => Sys2Proof.Machine.execLinkControlFrame p lc s
  | .helloSend p => Sys2Proof.Machine.execHelloSend p s
  | .helloFrame p h => Sys2Proof.Machine.execHelloFrame p h s
  | .beatMarkSend p => Sys2Proof.Machine.execBeatMarkSend p s
  | .beatMarkFrame p m => Sys2Proof.Machine.execBeatMarkFrame p m s
  | .beatUpstreamLost => Sys2Proof.Machine.execBeatUpstreamLost s
  | .fabricResponseTimeout n => Sys2Proof.Machine.execFabricResponseTimeout n s
  | .writeResend n => Sys2Proof.Machine.execWriteResend n s
  | .heartbeat => Sys2Proof.Machine.execHeartbeat s
  | .heartbeatMiss => Sys2Proof.Machine.execHeartbeatMiss s
  | .mcCmdqEnqueue blk => Sys2Proof.Machine.execMcCmdqEnqueue blk s
  | .ctxAcquire => Sys2Proof.Machine.execCtxAcquire s
  | .ctxRelease => Sys2Proof.Machine.execCtxRelease s
  | .ctxReleaseScrubKept => Sys2Proof.Machine.execCtxReleaseScrubKept s
  | .ctxReleaseComplete x => Sys2Proof.Machine.execCtxReleaseComplete x s
  | .coreScrubComplete c => Sys2Proof.Machine.execCoreScrubComplete c s
  | .ctxSwitch => Sys2Proof.Machine.execCtxSwitch s
  | .switchAcquire => Sys2Proof.Machine.execSwitchAcquire s
  | .waitLimitExpiry c e => Sys2Proof.Machine.execWaitLimitExpiry c e s
  | .mcFill => Sys2Proof.Machine.execMcFill s
  | .fillComplete n j => Sys2Proof.Machine.execFillComplete n j s
  | .coneTick => Sys2Proof.Machine.execConeTick s
  | .secureRoundArm => Sys2Proof.Machine.execSecureRoundArm s
  | .securePoint x => Sys2Proof.Machine.execSecurePoint x s
  | .regionCopy n => Sys2Proof.Machine.execRegionCopy n s
  | .roundSeal => Sys2Proof.Machine.execRoundSeal s
  | .restore => Sys2Proof.Machine.execRestore s
  | .replicaDigestFrame x rank digest => Sys2Proof.Machine.execReplicaDigestFrame x rank digest s
  | .replicaVerdict x v => Sys2Proof.Machine.execReplicaVerdict x v s
  | .peerCopy x data => Sys2Proof.Machine.execPeerCopy x data s
  | .fenceCommand => Sys2Proof.Machine.execFenceCommand s
  | .sequencerWatchdog k => Sys2Proof.Machine.execSequencerWatchdog k s
  | .serviceDrain => Sys2Proof.Machine.execServiceDrain s
  | .serviceKnownAnswer => Sys2Proof.Machine.execServiceKnownAnswer s
  | .serviceMemoryTest => Sys2Proof.Machine.execServiceMemoryTest s
  | .serviceFirmwareReload => Sys2Proof.Machine.execServiceFirmwareReload s
  | .serviceDeepRecal => Sys2Proof.Machine.execServiceDeepRecal s
  | .serviceReturn => Sys2Proof.Machine.execServiceReturn s
  | .unitDrained kind u => Sys2Proof.Machine.execUnitDrained kind u s
  | .serviceActionStart => Sys2Proof.Machine.execServiceActionStart s
  | .serviceActionEnd res => Sys2Proof.Machine.execServiceActionEnd res s
  | .loadImage => Sys2Proof.Machine.execLoadImage s
  | .signBatch => Sys2Proof.Machine.execSignBatch s
  | .provision => Sys2Proof.Machine.execProvision s
  | .enterGlaze => Sys2Proof.Machine.execEnterGlaze s
  | .ownerUnlock => Sys2Proof.Machine.execOwnerUnlock s
  | .rotateOwnerKey => Sys2Proof.Machine.execRotateOwnerKey s
  | .returnToMaker => Sys2Proof.Machine.execReturnToMaker s
  | .coldReset => Sys2Proof.Machine.execColdReset s
  | .warmReset => Sys2Proof.Machine.execWarmReset s
  | .stageS0 r => Sys2Proof.Machine.execStageS0 r s
  | .stageS1 r => Sys2Proof.Machine.execStageS1 r s
  | .stageS2 r => Sys2Proof.Machine.execStageS2 r s
  | .stageS3 r => Sys2Proof.Machine.execStageS3 r s
  | .stageS4 r => Sys2Proof.Machine.execStageS4 r s
  | .stageS5 r => Sys2Proof.Machine.execStageS5 r s
  | .stageS6 r => Sys2Proof.Machine.execStageS6 r s
  | .stageS7 r => Sys2Proof.Machine.execStageS7 r s
  | .stageS8 r => Sys2Proof.Machine.execStageS8 r s
  | .stageS9 r => Sys2Proof.Machine.execStageS9 r s
  | .powerSample p => Sys2Proof.Machine.execPowerSample p s
  | .avsCompletion => Sys2Proof.Machine.execAvsCompletion s
  | .activityEstimate rise => Sys2Proof.Machine.execActivityEstimate rise s
  | .thermalStep temps => Sys2Proof.Machine.execThermalStep temps s
  | .thermtrip temps => Sys2Proof.Machine.execThermtrip temps s
  | .droopEvent => Sys2Proof.Machine.execDroopEvent s
  | .pmbAlert addr fault => Sys2Proof.Machine.execPmbAlert addr fault s
  | .recordForward => Sys2Proof.Machine.execRecordForward s
  | .seqFpop k w => Sys2Proof.Machine.execSeqFpop k w s
  | .coreStallRead c => Sys2Proof.Machine.execCoreStallRead c s
  | .sbStatRead c => Sys2Proof.Machine.execSbStatRead c s
  | .herdCnt0Read k => Sys2Proof.Machine.execHerdCnt0Read k s
  | .herdCnt1Read k => Sys2Proof.Machine.execHerdCnt1Read k s
  | .memErrRead u => Sys2Proof.Machine.execMemErrRead u s
  | .memCalpRead u => Sys2Proof.Machine.execMemCalpRead u s
  | .portStatRead p => Sys2Proof.Machine.execPortStatRead p s
  | .beatStatRead => Sys2Proof.Machine.execBeatStatRead s
  | .cpStatRead => Sys2Proof.Machine.execCpStatRead s
  | .pwrStatRead => Sys2Proof.Machine.execPwrStatRead s
  | .seqFstatRead k => Sys2Proof.Machine.execSeqFstatRead k s
  | .portCfgAccept p w => Sys2Proof.Machine.execPortCfgAccept p w s
  | .fabCfgReady v => Sys2Proof.Machine.execFabCfgReady v s
  | .ctxDiscClear x w => Sys2Proof.Machine.execCtxDiscClear x w s
  | .registerWrite addr v => Sys2Proof.Machine.execRegisterWrite addr v s
  | .qfetchEntryArrival c => Sys2Proof.Machine.execQfetchEntryArrival c s
  | .storeEngineCommit c => Sys2Proof.Machine.execStoreEngineCommit c s
  | .mcAbort k ch => Sys2Proof.Machine.execMcAbort k ch s
  | .debugCoreHalt c => Sys2Proof.Machine.execDebugCoreHalt c s
  | .mcPathRead addr => Sys2Proof.Machine.execMcPathRead addr s

end Sys2Proof.Machine
end

