-- ==== Sys2Proof/Machine/Bundle.lean ====
section
/-! DEFINITION. The bundles of a core's image as the instructions of their slots: the T2 layout (R45 to R47, Tables 2.1 and 2.2,
opcodes of Tables 2.4 to 2.9) and the T1 layout with the compatibility decoder (R62 to R64, Table 2.11). -/

namespace Sys2Proof.Machine

open Sys2Proof

/-! ### Fields -/

/-- A register field. -/
def regField (w hi lo : Nat) : Reg := Fin.ofNat 32 (nbits w hi lo)
/-- An immediate of the 22 bits at the bottom of a slot. -/
def imm22 (w : Nat) : BitVec 22 := BitVec.ofNat 22 w
/-- An immediate of the 27 bits at the bottom of a slot. -/
def imm27 (w : Nat) : BitVec 27 := BitVec.ofNat 27 w
/-- The tally field at the bottom of a TR or TD slot. -/
def tallyOf (w : Nat) : BitVec 12 := BitVec.ofNat 12 w
/-- The tally field of a TT slot. -/
def tallyTop (w : Nat) : BitVec 12 := BitVec.ofNat 12 (nbits w 31 20)
/-- The slot with the bits that the instruction does not use: hi down to lo (R46, R47). -/
def unused (sl : Slot) (w hi lo : Nat) : Slot := { sl with rsv := sl.rsv + nbits w hi lo }
/-- The slot whose opcode is another than that of the instruction which carries it: 0, or one that no instruction has. -/
def carried (sl : Slot) (w : Nat) : Slot :=
  { sl with opc := some (BitVec.ofNat 8 (w / 2 ^ 32)), rsv := if w / 2 ^ 32 = 0 then sl.rsv + w % 2 ^ 32 else sl.rsv }

/-! ### T2 slots (Tables 2.2, 2.4 to 2.9) -/

/-- The instruction of an S slot of 40 bits. -/
def decodeS (sl : Slot) (w : Nat) : Instr :=
  let a := regField w 31 27
  let b := regField w 26 22
  let c := regField w 21 17
  let sr := unused sl w 16 0
  match w / 2 ^ 32 with
  | 0x01 => .add sr a b c
  | 0x02 => .sub sr a b c
  | 0x03 => .andW sr a b c
  | 0x04 => .orW sr a b c
  | 0x05 => .xorW sr a b c
  | 0x06 => .sll sr a b c
  | 0x07 => .srl sr a b c
  | 0x08 => .sra sr a b c
  | 0x09 => .slt sr a b c
  | 0x0A => .sltu sr a b c
  | 0x0B => .mul sr a b c
  | 0x0C => .mulh sr a b c
  | 0x0D => .div sr a b c
  | 0x0E => .divu sr a b c
  | 0x0F => .rem sr a b c
  | 0x10 => .remu sr a b c
  | 0x11 => .addi sl a b (imm22 w)
  | 0x13 => .andi sl a b (imm22 w)
  | 0x14 => .ori sl a b (imm22 w)
  | 0x15 => .xori sl a b (imm22 w)
  | 0x16 => .slli sl a b (imm22 w)
  | 0x17 => .srli sl a b (imm22 w)
  | 0x18 => .srai sl a b (imm22 w)
  | 0x19 => .slti sl a b (imm22 w)
  | 0x1E => .lui sl a (imm27 w)
  | 0x1F => .luh sl a (imm27 w)
  | 0x20 => .beq sl a b (imm22 w)
  | 0x21 => .bne sl a b (imm22 w)
  | 0x22 => .blt sl a b (imm22 w)
  | 0x23 => .bge sl a b (imm22 w)
  | 0x24 => .bltu sl a b (imm22 w)
  | 0x25 => .bgeu sl a b (imm22 w)
  | 0x26 => .jal sl a (imm27 w)
  | 0x27 => .jalr sl a b (imm22 w)
  | 0x30 => .ld sl a b (imm22 w)
  | 0x31 => .lw sl a b (imm22 w)
  | 0x32 => .sd sl a b (imm22 w)
  | 0x33 => .sw sl a b (imm22 w)
  | 0x38 => .csrr sl a b (imm22 w)
  | 0x3E => .stop (unused sl w 31 0)
  | _ => .add (carried sl w) 0 0 0

/-- The instruction of a V slot of 40 bits. -/
def decodeV (sl : Slot) (w : Nat) : Instr :=
  let d := regField w 31 27
  let a := regField w 26 22
  let b := regField w 21 17
  let two := unused sl w 16 0
  let one := unused sl w 21 0
  match w / 2 ^ 32 with
  | 0x01 => .vadd two d a b
  | 0x02 => .vsub two d a b
  | 0x03 => .vmul two d a b
  | 0x04 => .vfma (unused sl w 11 0) d a b (regField w 16 12)
  | 0x05 => .vmax two d a b
  | 0x06 => .vmin two d a b
  | 0x07 => .vabs one d a
  | 0x08 => .vneg one d a
  | 0x11 => .vaddBf two d a b
  | 0x13 => .vmulBf two d a b
  | 0x14 => .vfmaBf (unused sl w 11 0) d a b (regField w 16 12)
  | 0x15 => .vmaxBf two d a b
  | 0x16 => .vminBf two d a b
  | 0x20 => .vexp one d a
  | 0x21 => .vlog one d a
  | 0x22 => .vrsqrt one d a
  | 0x28 => .vredsum one d a
  | 0x29 => .vredmax one d a
  | 0x2A => .vredsq one d a
  | 0x30 => .vperm two d a b
  | 0x31 => .vsplat one d a
  | 0x38 => .vcvt (unused sl w 21 12) d a (BitVec.ofNat 12 w)
  | 0x3C => .vcmp (unused sl w 16 12) d a b (BitVec.ofNat 12 w)
  | 0x3D => .pand two d a b
  | 0x3E => .por two d a b
  | 0x3F => .pnot one d a
  | 0x40 => .pxor two d a b
  | _ => .vadd (carried sl w) 0 0 0

/-- The instruction of a T slot of 40 bits. A row that names a mode which the instruction's register or block gives (a yielding wait, a
spill, a deferred chain, the modes of `herd.send`, `kiln.cast` and `kiln.grow`) is the same instruction as the row decoded here. -/
def decodeT (sl : Slot) (w : Nat) : Instr :=
  let q : Fin 16 := Fin.ofNat 16 (nbits w 31 28)
  let qr := regField w 27 23
  let n := BitVec.ofNat 7 (nbits w 22 16)
  let a := regField w 31 27
  let b := regField w 26 22
  let c := regField w 21 17
  let e := regField w 16 12
  let tx := regField w 19 15
  let pair := unused (unused sl w 27 23) w 15 0
  let popped := unused sl w 22 0
  let tr := unused sl w 21 0
  let kiln := unused sl w 26 12
  let herd := unused sl w 26 17
  let pass := unused (unused sl w 26 17) w 11 0
  match w / 2 ^ 32 with
  | 0x01 => .qwait pair q n
  | 0x02 => .qpop popped q qr
  | 0x03 => .qpush popped q qr
  | 0x04 => .qfetch popped q qr
  | 0x05 => .qstore popped q qr
  | 0x06 => .qdrain (unused sl w 15 0) q qr n
  | 0x08 => .vld sl a b (imm22 w)
  | 0x09 => .vst sl a b (imm22 w)
  | 0x0C => .dld sl a b (imm22 w)
  | 0x0D => .dbase (unused sl w 21 0) a b
  | 0x10 => .twait (unused sl w 14 0) (tallyTop w) tx
  | 0x11 => .tsig (unused sl w 19 15) (tallyTop w) (BitVec.ofNat 15 w)
  | 0x12 => .tsigX (unused sl w 14 0) (tallyTop w) tx
  | 0x13 => .tsigR tr a b
  | 0x14 => .trd (unused sl w 14 0) (tallyTop w) tx
  | 0x15 => .farr (unused sl w 19 15) (tallyTop w) (BitVec.ofNat 15 w)
  | 0x18 => .bwait (unused (unused sl w 31 20) w 14 0) tx
  | 0x19 => .brd (unused (unused sl w 31 20) w 14 0) tx
  | 0x20 => .wld (unused sl w 26 12) a (tallyOf w)
  | 0x21 => .wldPatch (unused sl w 21 12) a b (tallyOf w)
  | 0x24 => .mmaD pass a e
  | 0x25 => .mmaS24 pass a e
  | 0x26 => .mmaMx4 pass a e
  | 0x27 => .mmaBf pass a e
  | 0x28 => .mmaIsect (unused (unused sl w 21 17) w 11 0) a b e
  | 0x29 => .mmaPred (unused (unused sl w 21 17) w 11 0) a b e
  | 0x2A => .mmaSel (unused (unused sl w 21 17) w 11 0) a b e
  | 0x2C => .drain (unused sl w 21 17) a b e (tallyOf w)
  | 0x2D => .accrd sl a b (imm22 w)
  | 0x2E => .accclr (unused sl w 31 22) (imm22 w)
  | 0x30 => .turn (unused sl w 21 17) a b e (tallyOf w)
  | 0x34 => .movGo tr a b
  | 0x35 => .movRing tr a b
  | 0x36 => .movAbort (unused sl w 26 0) a
  | 0x40 => .chain sl a b c e (tallyOf w)
  | 0x48 => .herdRoute herd a e (tallyOf w)
  | 0x49 => .herdPack herd a e (tallyOf w)
  | 0x4A => .herdSendOpen herd a e (tallyOf w)
  | 0x4B => .herdComb herd a e (tallyOf w)
  | 0x50 => .kilnStep kiln a (tallyOf w)
  | 0x51 => .kilnFire kiln a (tallyOf w)
  | 0x52 => .kilnCastCount kiln a (tallyOf w)
  | 0x53 => .kilnGrow kiln a (tallyOf w)
  | 0x54 => .kilnSel kiln a (tallyOf w)
  | 0x55 => .kilnFill kiln a (tallyOf w)
  | 0x56 => .kilnExport kiln a (tallyOf w)
  | _ => .qwait (carried sl w) 0 0

/-! ### T1 slots (R62 to R64) -/

/-- The formats of T1 slots (Table 2.11). -/
inductive SlotForm where
  | sr | si | sj | vr | tq | tl | tt | tr | td
  deriving DecidableEq, Repr

/-- The format of an opcode in a slot: 0 S, 1 V, 2 T. An opcode that no instruction has is taken in the slot's first format. DEDUCED, log entry 26. -/
def slotForm (place op : Nat) : SlotForm :=
  if place = 0 then
    if op ∈ [0x1E, 0x1F, 0x26] then .sj
    else if op ∈ [0x11, 0x13, 0x14, 0x15, 0x16, 0x17, 0x18, 0x19, 0x20, 0x21, 0x22, 0x23, 0x24, 0x25, 0x27, 0x30, 0x31, 0x32, 0x33, 0x38] then .si
    else .sr
  else if place = 1 then .vr
  else if op ∈ [0x08, 0x09, 0x0C, 0x0D, 0x2D, 0x2E] then .tl
  else if op ∈ [0x10, 0x11, 0x12, 0x14, 0x15, 0x18, 0x19] then .tt
  else if op ∈ [0x13, 0x34, 0x35, 0x36] then .tr
  else if op ∈ [0x20, 0x21, 0x24, 0x25, 0x26, 0x27, 0x28, 0x29, 0x2A, 0x2C, 0x30] then .td
  else .tq

/-- Sign extension of the low m bits of a number to n bits. -/
def widen (m n x : Nat) : Nat := ((BitVec.ofNat m x).signExtend n).toNat

/-- The 40 bits of the T2 slot to which the compatibility decoder maps a T1 slot of 32 bits, its named fields copied (R63), and the
T1 slot's reserved field. `mod` [1:0] of `vcvt` is carried as it is: the fixed conversion of R64 is chosen where it runs. -/
def widenSlot (place w : Nat) : Nat × Nat :=
  let op := nbits w 31 26
  let a := nbits w 25 21
  let b := nbits w 20 16
  let c := nbits w 15 11
  let top := op * 2 ^ 32
  let ab := a * 2 ^ 27 + b * 2 ^ 22
  match slotForm place op with
  | .sr => (top + ab + c * 2 ^ 17, nbits w 10 0)
  | .si => (top + ab + widen 16 22 w, 0)
  | .sj => (top + a * 2 ^ 27 + widen 21 27 w, 0)
  | .vr => (top + ab + c * 2 ^ 17 + nbits w 6 2 * 2 ^ 12 + nbits w 1 0, 0)
  | .tq => (top + nbits w 25 23 * 2 ^ 28 + nbits w 22 18 * 2 ^ 23 + nbits w 17 11 * 2 ^ 16, nbits w 10 0)
  | .tl => (top + ab + widen 16 22 w, 0)
  | .tt => (top + nbits w 25 14 * 2 ^ 20 + nbits w 13 9 * 2 ^ 15 + nbits w 8 0, 0)
  | .tr => (top + ab + nbits w 10 0, nbits w 15 11)
  | .td => (top + ab + c * 2 ^ 12 + nbits w 10 0, 0)

/-! ### Bundles -/

/-- The instructions of a bundle's slots in slot order, each but the last followed by more; a bundle of no-ops alone is one of them (R47).
`ws`: the three slots of 40 bits with the reserved field that each leaves. -/
def slotsOf (sl : Slot) (ws : List (Nat × Nat)) : List Instr :=
  let live := ws.zipIdx.filter fun p => p.1.1 != 0 || p.1.2 != 0
  let live := if live.isEmpty then [((0, 0), 0)] else live
  live.zipIdx.map fun (p, i) =>
    let x := { sl with rsv := sl.rsv + p.1.2, more := decide (i + 1 < live.length) }
    if p.2 = 0 then decodeS x p.1.1 else if p.2 = 1 then decodeV x p.1.1 else decodeT x p.1.1

/-- The instructions of a T2 bundle of 128 bits (R45). -/
def decodeT2 (c : CoreId) (e : Engine) (w : Nat) : List Instr :=
  slotsOf { core := c, eng := e, kind := BitVec.ofNat 2 (nbits w 127 126), vp := Fin.ofNat 8 (nbits w 124 122)
            vneg := decide (nbits w 125 125 = 1), rsv := nbits w 121 120 }
    [(nbits w 119 80, 0), (nbits w 79 40, 0), (nbits w 39 0, 0)]

/-- The instructions of a T1 bundle of 96 bits, through the compatibility decoder (R62, R63). -/
def decodeT1 (c : CoreId) (e : Engine) (w : Nat) : List Instr :=
  slotsOf { core := c, eng := e, vp := Fin.ofNat 8 (nbits w 42 40), vneg := decide (nbits w 39 39 = 1) }
    [widenSlot 0 (nbits w 95 64), widenSlot 1 (nbits w 63 32), widenSlot 2 (nbits w 31 0)]

/-- The instructions of the bundle that an engine fetches next from its core's image, stored little-endian at a stride of 16 bytes, or of
12 in an interlocked core (R45, R62, R417); none where its index is outside the image. DEDUCED, log entry 26. -/
def programBundle (s : State) (c : CoreId) (e : Engine) : List Instr :=
  let k := coreOf s c.val
  let pc := (engOf k e).pc
  if pc < 0 ∨ (k.bundles : Int) ≤ pc then []
  else if interlocked k then decodeT1 c e (numAt (getBytes k.image (pc.toNat * 12) 12) 0 12)
  else decodeT2 c e (numAt (getBytes k.image (pc.toNat * 16) 16) 0 16)

end Sys2Proof.Machine
end

