-- ==== Sys2Proof/Safety.lean ====
section
/-! DEFINITION. The terms in which statements speak: a bundle that comes to issue and passes its checks, what its issue leaves alone,
the canonical form of memory, the state of the signing epochs. -/

namespace Sys2Proof.Machine

open Sys2Proof

/-! ### A bundle of one slot at issue -/

/-- The core and engine of a slot are given by the slot: the state with its staged slots taken. -/
def opened (s : State) (st : Staged) : State := modEng s st.slot.core.val st.slot.eng fun g => { g with staged := [] }

/-- The time of the issue: the issue index in scheduled mode, the clock cycle elsewhere (R18, R29). -/
def issueNow (s : State) (st : Staged) : Nat := engTime (opened s st) (coreOf (opened s st) st.slot.core.val) st.slot.eng

/-- The state in which the bundle is checked: what is due by then has happened (R28, R127, R131, R204). -/
def atIssue (s : State) (st : Staged) : State := bringDue (opened s st) st.slot.core.val st.slot.eng (issueNow s st)

/-- A slot that is a bundle by itself comes to issue as its opcode says: its engine runs and holds nothing, no earlier fault stops the core,
and it meets none of the waits that replace checks in interlocked engines (Table 1.2). -/
def Comes (s : State) (st : Staged) : Prop :=
  st.encoded = st ∧ takes (coreOf s st.slot.core.val) st = true ∧ st.slot.more = false ∧ (engOf (coreOf s st.slot.core.val) st.slot.eng).staged = []
  ∧ (coreOf (opened s st) st.slot.core.val).stopNext = false ∧ (coreOf (atIssue s st) st.slot.core.val).stopNext = false
  ∧ (scheduled (coreOf (atIssue s st) st.slot.core.val) st.slot.eng = true
      ∨ interlockWait (atIssue s st) st.slot.core.val st.slot.eng (issueNow s st) [st] = none)

/-- Every condition that the bundle meets at issue (Table 1.6 and the checks of its units). -/
def faultsAt (s : State) (st : Staged) : List Flt :=
  bundleFlts (atIssue s st) st.slot.core.val st.slot.eng (scheduled (coreOf (atIssue s st) st.slot.core.val) st.slot.eng) (issueNow s st) [st]

/-- A slot that comes to issue, meets no fault condition and no wait of Table 1.4. -/
def Ready (s : State) (st : Staged) : Prop :=
  Comes s st ∧ lowest (faultsAt s st) = none ∧ bundleWait (atIssue s st) st.slot.core.val st.slot.eng (issueNow s st) 0 [st] = none

/-- The engine of a slot. -/
def engAt (s : State) (st : Staged) : Eng := engOf (coreOf s st.slot.core.val) st.slot.eng

/-! ### Frames -/

/-- Between two states nothing but core c differs. -/
def CoreOnly (s t : State) (c : Nat) : Prop := t = { s with cores := t.cores } ∧ ∀ c', c' ≠ c → coreOf t c' = coreOf s c'

/-- Every register of a core that a program names: the three scalar files, vectors, predicates, descriptors, accumulators. -/
def SameFiles (k k' : Core) : Prop :=
  k'.fe.x = k.fe.x ∧ k'.ce.x = k.ce.x ∧ k'.se.x = k.se.x ∧ k'.v = k.v ∧ k'.p = k.p ∧ k'.d = k.d ∧ k'.acc = k.acc

/-- A result on its way after `lat`, where it has a register to go to. -/
def withResult (g : Eng) (n lat : Nat) : Option RegWrite → Eng
  | some w => (match writeName w with
      | some r => { g with pend := g.pend ++ [{ name := r, ready := n + lat, write := w }] }
      | none => g)
  | none => g

/-- From s to t the slot's bundle issued with no effect outside its core and, in it, none but `f`, the result `w` on its way, the
engine's advance to its next bundle, the bank ports that the issue takes and the activation rows that it brings (R134). -/
def IssuedAs (s t : State) (st : Staged) (f : Core → Core) (w : Option RegWrite) : Prop :=
  CoreOnly (atIssue s st) t st.slot.core.val
  ∧ ∃ ports refused passes,
      let k := f (coreOf (atIssue s st) st.slot.core.val)
      coreOf t st.slot.core.val
        = setEng { k with ports := ports, refused := refused, passes := passes } st.slot.eng
            (nextBundle [st] (issueNow s st) (withResult (engOf k st.slot.eng) (issueNow s st) st.lat w))

/-- A slot that is ready issues, and does `f` and sends `w`. -/
def Computes (s : State) (i : Instr) (st : Staged) (f : Core → Core) (w : Option RegWrite) : Prop :=
  Ready s st → ∃ t, exec i s = .next t ∧ IssuedAs s t st f w

/-- A branch or jump that is ready issues; `target`: where its engine goes after the delay issue, none where it is not taken (R53). -/
def Branches (s : State) (i : Instr) (st : Staged) (w : Option RegWrite) (target : Option Int) : Prop :=
  Ready s st → ∃ t, exec i s = .next t ∧ IssuedAs s t st id w
    ∧ (engAt t st).pc = (engAt (atIssue s st) st).pc + 1 ∧ (engAt t st).delay = target

/-! ### A command that leaves its core -/

/-- The bank ports of the issue are taken, and nothing else has happened yet. -/
def Claimed (s a : State) (st : Staged) : Prop :=
  ∃ ports refused, a = modCore (atIssue s st) st.slot.core.val fun k => { k with ports := ports, refused := refused }

/-- After the effects of the bundle's slots: the compute engine's activation rows are read and the engine goes to its next bundle. -/
def finished (st : Staged) (n : Nat) (s : State) : State :=
  modEng (if st.slot.eng = .compute then readRows s st.slot.core.val n else s) st.slot.core.val st.slot.eng (nextBundle [st] n)

/-- A slot that is ready issues, and its effect is `g`. -/
def Through (s : State) (i : Instr) (st : Staged) (g : State → State) : Prop :=
  Ready s st → ∃ a, Claimed s a st ∧ exec i s = .next (finished st (issueNow s st) (g a))

/-! ### A held bundle that comes to issue again -/

/-- The engine no longer holds its bundle. -/
def reopened (s : State) (c : Nat) (e : Engine) : State := modEng s c e fun g => { g with held := none }
/-- The time at which the held bundle is looked at. -/
def retryNow (s : State) (c : Nat) (e : Engine) : Nat := engTime (reopened s c e) (coreOf (reopened s c e) c) e
/-- The state in which it is checked. -/
def atRetry (s : State) (c : Nat) (e : Engine) : State := bringDue (reopened s c e) c e (retryNow s c e)

/-- The cycles of the held bundle's lines that the banks have served (R69). -/
def servedSoFar (s : State) (c : Nat) (e : Engine) : Nat := servedOf (engOf (coreOf s c) e).held

/-- The held bundle b meets no fault condition and no wait any more. -/
def ReadyAgain (s : State) (c : Nat) (e : Engine) (b : List Staged) : Prop :=
  (coreOf (reopened s c e) c).stopNext = false ∧ (coreOf (atRetry s c e) c).stopNext = false
  ∧ (scheduled (coreOf (atRetry s c e) c) e = true ∨ interlockWait (atRetry s c e) c e (retryNow s c e) b = none)
  ∧ lowest (bundleFlts (atRetry s c e) c e (scheduled (coreOf (atRetry s c e) c) e) (retryNow s c e) b) = none
  ∧ bundleWait (atRetry s c e) c e (retryNow s c e) (servedSoFar s c e) b = none

/-- The held bundle issues. -/
def issuedAgain (s : State) (c : Nat) (e : Engine) (b : List Staged) : State :=
  completeBundle (atRetry s c e) c e (retryNow s c e) (servedSoFar s c e) b

/-! ### Invariants -/

/-- The canonical form of the local memory: addresses strictly rising, no entry that an unlisted address would read as. -/
def Memory.wf (m : List Host.Cell) : Bool := mwf 0 m

/-- The signing registers agree with the fuses (R442, R443): the open epoch is one of the 1,024, its fuse is burned, and no more leaves than
the 1,024 of an epoch have been taken. -/
def SigningSound (s : State) : Prop :=
  s.life.active = true → s.life.epoch < 1024 ∧ s.part.epochs.getLsbD s.life.epoch = true ∧ s.life.leaf ≤ 1024

/-- From s to t no leaf comes free again (R443): no epoch fuse is blank again; an epoch open after is the one open before, with no fewer leaves
taken, or one whose fuse was blank. -/
def NoLeafAgain (s t : State) : Prop :=
  (∀ e, s.part.epochs.getLsbD e = true → t.part.epochs.getLsbD e = true)
  ∧ (t.life.active = true →
      (s.life.active = true ∧ t.life.epoch = s.life.epoch ∧ s.life.leaf ≤ t.life.leaf) ∨ s.part.epochs.getLsbD t.life.epoch = false)

end Sys2Proof.Machine
end

