-- ==== Sys2Proof/Certificates/Slice0/Obligations.lean ====
section
/-! DEFINITION. The statements about this model, from the numbered rules of the spec; `OBLIGATIONS.json` lists them. A statement says `exec`
answers a next state, where, and what that state holds; what it does not name as changed it names as unchanged. -/

open Sys2Proof Sys2Proof.Machine

/-! ### Scalar instructions (chapters 1 and 2) -/

/-- R51: the result of every scalar arithmetic, logic, shift, comparison, multiplication and division instruction, and of `lui` and `luh`
(Table 2.4): it goes on its way to rd with the latency of Table 1.3, and nothing else of the machine changes but the engine's advance. -/
def Obligations.ScalarArithmetic : Prop :=
  ∀ (s : State) (sl : Slot) (rd rs1 rs2 : Reg) (imm : BitVec 22) (imm27 : BitVec 27),
    let a := slotX s sl rs1
    let b := slotX s sl rs2
    let m := imm.signExtend 64
    let rr := fun (i : Instr) (op lat : Nat) (v : W64) => Computes s i (rrSlot sl op lat rd rs1 rs2 v) id (some (.x rd v))
    let ri := fun (i : Instr) (op : Nat) (v : W64) => Computes s i (riSlot sl op rd rs1 v) id (some (.x rd v))
    rr (.add sl rd rs1 rs2) 0x01 1 (a + b) ∧ rr (.sub sl rd rs1 rs2) 0x02 1 (a - b)
    ∧ rr (.andW sl rd rs1 rs2) 0x03 1 (a &&& b) ∧ rr (.orW sl rd rs1 rs2) 0x04 1 (a ||| b) ∧ rr (.xorW sl rd rs1 rs2) 0x05 1 (a ^^^ b)
    ∧ rr (.sll sl rd rs1 rs2) 0x06 1 (a <<< (b.toNat % 64)) ∧ rr (.srl sl rd rs1 rs2) 0x07 1 (a >>> (b.toNat % 64))
    ∧ rr (.sra sl rd rs1 rs2) 0x08 1 (a.sshiftRight (b.toNat % 64))
    ∧ rr (.slt sl rd rs1 rs2) 0x09 1 (if a.slt b then 1 else 0) ∧ rr (.sltu sl rd rs1 rs2) 0x0A 1 (if a.ult b then 1 else 0)
    ∧ rr (.mul sl rd rs1 rs2) 0x0B 3 (a * b)
    ∧ (let v := BitVec.ofInt 64 (a.toInt * b.toInt / 2 ^ 64)
       Computes s (.mulh sl rd rs1 rs2) (rrSlot sl 0x0C 3 rd rs1 rs2 v true) id (some (.x rd v)))
    ∧ rr (.div sl rd rs1 rs2) 0x0D 18 (if b = 0 then BitVec.allOnes 64 else a.sdiv b)
    ∧ rr (.divu sl rd rs1 rs2) 0x0E 18 (if b = 0 then BitVec.allOnes 64 else a / b)
    ∧ rr (.rem sl rd rs1 rs2) 0x0F 18 (if b = 0 then a else a.srem b)
    ∧ rr (.remu sl rd rs1 rs2) 0x10 18 (if b = 0 then a else a % b)
    ∧ ri (.addi sl rd rs1 imm) 0x11 (a + m) ∧ ri (.andi sl rd rs1 imm) 0x13 (a &&& m) ∧ ri (.ori sl rd rs1 imm) 0x14 (a ||| m)
    ∧ ri (.xori sl rd rs1 imm) 0x15 (a ^^^ m) ∧ ri (.slli sl rd rs1 imm) 0x16 (a <<< (imm.toNat % 64))
    ∧ ri (.srli sl rd rs1 imm) 0x17 (a >>> (imm.toNat % 64)) ∧ ri (.srai sl rd rs1 imm) 0x18 (a.sshiftRight (imm.toNat % 64))
    ∧ ri (.slti sl rd rs1 imm) 0x19 (if a.slt m then 1 else 0)
    ∧ (let v := imm27.signExtend 64 <<< 22
       Computes s (.lui sl rd imm27) { place := 0, slot := sl, opcode := 0x1E, dest := some (.x rd), effect := .write (.x rd v) } id
         (some (.x rd v)))
    ∧ (let v := BitVec.ofNat 64 ((slotX s sl rd).toNat % 2 ^ 48 + imm27.toNat % 2 ^ 16 * 2 ^ 48)
       Computes s (.luh sl rd imm27) { place := 0, slot := sl, opcode := 0x1F, newT2 := true, badEnc := decide (2 ^ 16 ≤ imm27.toNat),
                                       reads := [.x rd], dest := some (.x rd), effect := .write (.x rd v) } id (some (.x rd v)))

/-- R49: a result for x0 or p0 is discarded and creates no pending write: the instruction issues, and its engine has the same results on
their way and the same registers as before. x0 reads 0, p0 all ones. -/
def Obligations.DiscardedWrites : Prop :=
  ∀ (s : State) (sl : Slot) (rs1 rs2 : Reg) (mod : BitVec 12),
    (let st := rrSlot sl 0x01 1 0 rs1 rs2 (slotX s sl rs1 + slotX s sl rs2)
     Ready s st → ∃ t, exec (.add sl 0 rs1 rs2) s = .next t ∧ (engAt t st).pend = (engAt (atIssue s st) st).pend
       ∧ SameFiles (coreOf (atIssue s st) sl.core.val) (coreOf t sl.core.val))
    ∧ (let st := predicateSlot sl 0x3C 4 false (decide (5 < mod.toNat)) [.v rs1, .v rs2] 0
         (predicateBits s sl 0 fun i => compare32 mod.toNat (slotV s sl rs1 i) (slotV s sl rs2 i))
       Ready s st → ∃ t, exec (.vcmp sl 0 rs1 rs2 mod) s = .next t ∧ (engAt t st).pend = (engAt (atIssue s st) st).pend
         ∧ SameFiles (coreOf (atIssue s st) sl.core.val) (coreOf t sl.core.val))
    ∧ (∀ (g : Eng) (k : Core), xFile g 0 = 0 ∧ pFile k 0 = BitVec.allOnes 256)

/-- R53: a branch whose condition holds, and every jump, sends its engine to the target after one delay issue; one whose condition does not hold
lets the next bundle issue. The link value is the address of the bundle after the delay issue. R53: the bundle in a delay issue executes and the
branch's target follows it; a branch or jump there stops the core (class 0x01, subcode 0x0A); and a `csrr` whose offset lies outside the core's
register block has a window fault and stops it. -/
def Obligations.BranchesAndJumps : Prop :=
  (∀ (s : State) (sl : Slot) (rd rs1 rs2 : Reg) (off : BitVec 22) (imm : BitVec 27),
      let a := slotX s sl rs1
      let b := slotX s sl rs2
      let pc := slotPc s sl
      let link := BitVec.ofInt 64 (pc + 2)
      let goes := fun (i : Instr) (st : Staged) (w : Option RegWrite) (target : Option Int) =>
        Branches s i st w target
        ∧ (Comes s st → (engAt (atIssue s st) st).delay ≠ none →
             (∃ f ∈ faultsAt s st, f.cls = 1 ∧ f.sub = 0x0A) ∧ ∃ t, exec i s = .next t ∧ (coreOf t sl.core.val).faulted = true)
      let br := fun (i : Instr) (op : Nat) (p : Prop) =>
        (p → goes i (branchSlot sl op rs1 rs2 (.jump (pc + off.toInt) none)) none (some (pc + off.toInt)))
        ∧ (¬ p → goes i (branchSlot sl op rs1 rs2 .notTaken) none none)
      br (.beq sl rs1 rs2 off) 0x20 (a = b) ∧ br (.bne sl rs1 rs2 off) 0x21 (a ≠ b)
      ∧ br (.blt sl rs1 rs2 off) 0x22 (a.toInt < b.toInt) ∧ br (.bge sl rs1 rs2 off) 0x23 (b.toInt ≤ a.toInt)
      ∧ br (.bltu sl rs1 rs2 off) 0x24 (a.toNat < b.toNat) ∧ br (.bgeu sl rs1 rs2 off) 0x25 (b.toNat ≤ a.toNat)
      ∧ goes (.jal sl rd imm) { place := 0, slot := sl, opcode := 0x26, dest := some (.x rd), lat := 2,
                                      effect := .jump (pc + imm.toInt) (some (rd, link)) } (some (.x rd link)) (some (pc + imm.toInt))
      ∧ (let target := (a + off.signExtend 64).toInt
         goes (.jalr sl rd rs1 off) { place := 0, slot := sl, opcode := 0x27, reads := [.x rs1], dest := some (.x rd), lat := 2,
                                            effect := .jump target (some (rd, link)) } (some (.x rd link)) (some target)))
  ∧ (∀ (s : State) (sl : Slot) (rd rs1 rs2 : Reg) (target : Int),
      (let st := rrSlot sl 0x01 1 rd rs1 rs2 (slotX s sl rs1 + slotX s sl rs2)
       Ready s st → (engAt (atIssue s st) st).delay = some target →
         ∃ t, exec (.add sl rd rs1 rs2) s = .next t ∧ (engAt t st).pc = target ∧ (engAt t st).delay = none))
  ∧ (∀ (s : State) (sl : Slot) (rd : Reg) (imm : BitVec 22),
      let st : Staged := { place := 0, slot := sl, opcode := 0x38, badEnc := false, dest := some (.x rd), lat := 6, effect := .csrr rd imm.toInt }
      Comes s st → imm.toInt < 0 ∨ coreReg (atIssue s st) sl.core.val imm.toInt.toNat = none →
        (∃ f ∈ faultsAt s st, f.cls = 2) ∧ ∃ t, exec (.csrr sl rd 0 imm) s = .next t ∧ (coreOf t sl.core.val).faulted = true)

/-- Tables 2.4 and 2.6, R52: `ld` and `lw` send the bytes at rs1 + imm22 of the own scratchpad, `vld` and `dld` the kilobyte and the 128 bytes
there, each 8 later; the compute engine sees its own earlier stores (R68), the other engines what has become visible. `csrr` (Table 2.4) sends
the value of the register at offset imm22 of the core's own block (Tables 1.7, 3.4, 16.7) and leaves it as a read leaves it. -/
def Obligations.LoadsAndRegisterReads : Prop :=
  (∀ (s : State) (sl : Slot) (r rs1 : Reg) (imm : BitVec 22),
      let off : Int := (slotX s sl rs1 + imm.signExtend 64).toNat
      let c := sl.core.val
      let byte := fun (st : Staged) (i : Nat) => (engineRd (atIssue s st) c sl.eng).byte (off.toNat + i)
      (let st : Staged := { place := 0, slot := sl, opcode := 0x30, reads := [.x rs1], dest := some (.x r), lat := 8, effect := .load r off 8 }
       Computes s (.ld sl r rs1 imm) st id (some (.x r (BitVec.ofNat 64 (leNat ((List.range 8).map (byte st)))))))
      ∧ (let st : Staged := { place := 0, slot := sl, opcode := 0x31, reads := [.x rs1], dest := some (.x r), lat := 8, effect := .load r off 4 }
         Computes s (.lw sl r rs1 imm) st id (some (.x r (BitVec.ofNat 64 (leNat ((List.range 4).map (byte st)))))))
      ∧ (let st : Staged := { place := 2, slot := sl, opcode := 0x08, only := some .compute, reads := [.x rs1], dest := some (.v r), lat := 8,
                              effect := .vld r off }
         Computes s (.vld sl r rs1 imm) st id
           (some (.v r ((List.range 256).map fun i => (i, BitVec.ofNat 32 (leNat ((List.range 4).map fun j => byte st (4 * i + j))))))))
      ∧ (let st : Staged := { place := 2, slot := sl, opcode := 0x0C, reads := [.x rs1], dest := some (.d r), lat := 8, effect := .dld r off }
         Computes s (.dld sl r rs1 imm) st id (some (.d r ((List.range 128).map (byte st))))))
  ∧ (∀ (s : State) (sl : Slot) (rd : Reg) (imm : BitVec 22),
      let st : Staged := { place := 0, slot := sl, opcode := 0x38, badEnc := false, dest := some (.x rd), lat := 6, effect := .csrr rd imm.toInt }
      Ready s st → ∃ a v t, Claimed s a st ∧ coreReg a sl.core.val imm.toInt.toNat = some v ∧ exec (.csrr sl rd 0 imm) s = .next t
        ∧ IssuedAs s t st (fun k => coreRegRead k imm.toInt.toNat) (some (.x rd v)))

/-- Tables 2.4 and 2.6, R52, R68: a store of the compute engine (`sd`, `sw`, `vst`, `qdrain`) joins the core's stores that are still to become
visible, and memory does not change yet; a store of the fetch or store engine changes the bytes at its address and no other byte. -/
def Obligations.ScratchpadStores : Prop :=
  ∀ (s : State) (sl : Slot) (r rs1 : Reg) (imm : BitVec 22) (q : Fin 16) (n : BitVec 7),
    let off : Int := (slotX s sl rs1 + imm.signExtend 64).toNat
    let c := sl.core.val
    let joins := fun (at_ : Nat) (bs : List Byte) (st : Staged) (k : Core) =>
      ({ k with stores := k.stores ++ [{ off := at_, bytes := bs, cyc := (atIssue s st).clock.cycle }] } : Core)
    let scalar := fun (i : Instr) (op m : Nat) =>
      let bs := leBytes m (slotX s sl r).toNat
      let st : Staged := { place := 0, slot := sl, opcode := op, reads := [.x rs1, .x r], effect := .store off bs }
      (sl.eng = .compute → Computes s i st (joins off.toNat bs st) none)
      ∧ (sl.eng ≠ .compute → Ready s st → ∃ t, exec i s = .next t ∧ SameFiles (coreOf (atIssue s st) c) (coreOf t c)
          ∧ let a := spadAddr (atIssue s st) c off.toNat
            readMem t a m = bs ∧ ∀ x, x < a ∨ a + m ≤ x → readByte t x = readByte (atIssue s st) x)
    scalar (.sd sl r rs1 imm) 0x32 8 ∧ scalar (.sw sl r rs1 imm) 0x33 4
    ∧ (sl.eng = .compute →
        let st : Staged := { place := 2, slot := sl, opcode := 0x09, only := some .compute, reads := [.x rs1, .v r],
                             effect := .store off (slotVBytes s sl r) }
        Computes s (.vst sl r rs1 imm) st (joins off.toNat (slotVBytes s sl r) st) none)
    ∧ (sl.eng = .compute →
        let x := slotX s sl r
        let st : Staged := { place := 2, slot := sl, opcode := 0x06, only := some .compute, reads := [.x r], effect := .qdrain q x n.toNat }
        Computes s (.qdrain sl q r n) st
          (fun k => joins x.toNat (((queueAt k q).take n.toNat).map (padTo 64)).flatten st (setQueue k q ((queueAt k q).drop n.toNat))) none)

/-- R379, Table 2.4: after `stop` the engine issues nothing further; when it was the last of a live context's, one status record of kind 3 goes
to the MC. No register, no byte of memory and no tally changes. R41: when a bundle meets a fault condition at issue, no slot takes effect: the
core stops with every register, queue, tally and byte of memory as it was, its three engines off, `CORE_MODE.HALT` set; and one record of the
condition R17 chooses goes to the MC. -/
def Obligations.StopsAndFaults : Prop :=
  (∀ (s : State) (sl : Slot),
      let st : Staged := { place := 0, slot := sl, opcode := 0x3E, effect := .stop }
      Ready s st → ∃ t, exec (.stop sl) s = .next t ∧ (engAt t st).run = .stopped
        ∧ SameFiles (coreOf (atIssue s st) sl.core.val) (coreOf t sl.core.val)
        ∧ t.mem = (atIssue s st).mem ∧ t.tallies = (atIssue s st).tallies
        ∧ (t.mcq = (atIssue s st).mcq ∨ ∃ x b, ctxOf (coreOf t sl.core.val) = some x ∧ ctxState t x = 2 ∧ ctxStopped t x = true
            ∧ t.mcq = (atIssue s st).mcq.takeAt (atIssue s st).clock.cycle (statusRec t 3 b (some x))))
  ∧ (∀ (s : State) (i : Instr) (st : Staged) (f : Flt),
      let c := st.slot.core.val
      let a := atIssue s st
      exec i s = .next (offer s st) → Comes s st → (coreOf a c).faulted = false → lowest (faultsAt s st) = some f →
        ∃ t, exec i s = .next t ∧ SameFiles (coreOf a c) (coreOf t c) ∧ (coreOf t c).queues = (coreOf a c).queues
          ∧ t.tallies = a.tallies ∧ t.mem = a.mem ∧ (coreOf t c).faulted = true ∧ bit (coreOf t c).coreMode 2 = true
          ∧ (∀ e, (engOf (coreOf t c) e).run = .off ∧ (engOf (coreOf t c) e).held = none ∧ (engOf (coreOf t c) e).staged = [])
          ∧ (∀ c', c' ≠ c → coreOf t c' = coreOf a c')
          ∧ ∃ r : FaultRec, r.cls = f.cls ∧ r.sub = f.sub ∧ r.addr = f.addr ∧ r.flags % 2 = 1
            ∧ (t.mcq = a.mcq.takeAt a.clock.cycle (.fault r) ∨ ∃ q, t.mcq = (a.mcq.takeAt a.clock.cycle (.fault r)).takeAt a.clock.cycle q))

/-- R33: a wait holds the whole bundle: nothing changes but the engine's note of the bundle it holds, what it asks of the banks, and the place of
its ranges among those that wait to be registered (R67, R69, R84), and no further slot is taken. R47, R32: the slots of a bundle gather before it
issues: a slot with more to come is only kept, and where two slots of one bundle name one x register, no slot takes effect and the core stops.
R46, R47: a slot whose opcode is 0x00 is a no-op: its bundle issues and does nothing; one whose opcode no instruction of the slot has stops the
core (class 0x01, subcode 0x07) with no register changed. R45, R62, R63: the bundle of Worked example 2.1 in its T2 form, and in its T1 form
through the compatibility decoder, spells one multiplication and one pop; an image holds bundles at a stride of 16 bytes, or of 12 in an
interlocked core. -/
def Obligations.WaitsAndGathering : Prop :=
  (∀ (s : State) (i : Instr) (st : Staged) (w : WaitCause),
      let a := atIssue s st
      let c := st.slot.core.val
      exec i s = .next (offer s st) → Comes s st → lowest (faultsAt s st) = none →
        bundleWait a c st.slot.eng (issueNow s st) 0 [st] = some w →
        ∃ t h, exec i s = .next t ∧ t = { a with cores := t.cores } ∧ (w ≠ .range → CoreOnly a t c)
          ∧ (∀ c', c' ≠ c → coreOf t c' = { coreOf a c' with waiters := (coreOf t c').waiters })
          ∧ (engAt t st).held = some h ∧ h.cause = w ∧ h.bundle = [st] ∧ h.since = a.clock.beat ∧ h.cyc = a.clock.cycle ∧ (w ≠ .bank → h.served = 0)
          ∧ (engAt t st).idx = (engAt a st).idx ∧ (engAt t st).pc = (engAt a st).pc ∧ SameFiles (coreOf a c) (coreOf t c)
          ∧ ∀ st', st'.slot.core = st.slot.core → st'.slot.eng = st.slot.eng → offer t st' = t)
  ∧ (∀ (s : State) (sl : Slot) (rd rs1 rs2 : Reg),
      (let st := rrSlot sl 0x01 1 rd rs1 rs2 (slotX s sl rs1 + slotX s sl rs2)
       sl.more = true → takes (coreOf s sl.core.val) st = true →
         ∃ t, exec (.add sl rd rs1 rs2) s = .next t ∧ CoreOnly s t sl.core.val ∧ (engAt t st).staged = (engAt s st).staged ++ [st.encoded]
           ∧ (engAt t st).pc = (engAt s st).pc ∧ (engAt t st).idx = (engAt s st).idx
           ∧ SameFiles (coreOf s sl.core.val) (coreOf t sl.core.val))
      ∧ (∀ s1 : Staged, let st : Staged := { place := 2, slot := sl, opcode := 0x19, newT2 := true, dest := some (.x rd), lat := 6, effect := .brd rd }
         rd ≠ 0 → sl.more = false → st.encoded = st → takes (coreOf s sl.core.val) st = true → s1.slot = { sl with more := true } → s1.dest = some (.x rd) →
         (engAt s st).staged = [s1] → (coreOf (opened s st) sl.core.val).stopNext = false → (coreOf (atIssue s st) sl.core.val).stopNext = false →
         scheduled (coreOf (atIssue s st) sl.core.val) sl.eng = true →
         ∃ t, exec (.brd sl rd) s = .next t ∧ (coreOf t sl.core.val).faulted = true
           ∧ SameFiles (coreOf (atIssue s st) sl.core.val) (coreOf t sl.core.val)))
  ∧ (∀ (s : State) (sl : Slot) (o : BitVec 8),
      let slot := fun (i : Instr) (place : Fin 3) =>
        let nop : Staged := { place := place, slot := sl, opcode := 0, effect := .nop }
        let bad : Staged := { place := place, slot := sl, opcode := o.toNat, badEnc := true, effect := .nop }
        (sl.opc = some 0 → Computes s i nop id none)
        ∧ (sl.opc = some o → o ≠ 0 → o.toNat ∉ definedOpcodes place → Comes s bad →
            (∃ f ∈ faultsAt s bad, f.cls = 1 ∧ f.sub = 7)
            ∧ ∃ t, exec i s = .next t ∧ (coreOf t sl.core.val).faulted = true
                ∧ SameFiles (coreOf (atIssue s bad) sl.core.val) (coreOf t sl.core.val))
      slot (.add sl 0 0 0) 0 ∧ slot (.vadd sl 0 0 0) 1 ∧ slot (.qwait sl 0 0) 2)
  ∧ (∀ c : CoreId,
      let sl : Slot := { core := c, eng := .compute, kind := 2 }
      let l := [Instr.vmul { sl with more := true } 2 1 8, .qpop sl 0 4]
      decodeT2 c .compute 0x80000000000003105000000202000000 = l ∧ decodeT1 c .compute 0x000000000C41400008100000 = l)
  ∧ ∀ (s : State) (c : CoreId) (e : Engine) (i : Nat), (engOf (coreOf s c.val) e).pc = i → i < (coreOf s c.val).bundles →
      programBundle s c e = (if interlocked (coreOf s c.val) = true then decodeT1 c e (numAt (getBytes (coreOf s c.val).image (i * 12) 12) 0 12)
        else decodeT2 c e (numAt (getBytes (coreOf s c.val).image (i * 16) 16) 0 16))

/-! ### Vector instructions (chapter 2) -/

/-- R50, R54, Table 2.5: each FP32 operation sends its value for every lane that the predicate selects, 4 later, and nothing for the others.
Arithmetic is that of binary32, rounded once to nearest even; `vabs` and `vneg` change the sign bit only. -/
def Obligations.VectorFp32 : Prop :=
  ∀ (s : State) (sl : Slot) (vd a b c : Reg),
    let on := lanesOn s sl
    let op := fun (i : Instr) (op : Nat) (srcs : List RegName) (f : Nat → W32) =>
      let lanes := on.map fun n => (n, f n)
      Computes s i (vectorSlot sl op 4 false srcs vd lanes) id (some (.v vd lanes))
    let x := slotV s sl a
    let y := slotV s sl b
    let z := slotV s sl c
    op (.vadd sl vd a b) 0x01 [.v a, .v b] (fun n => rnd32 ((f32 (x n)).add (f32 (y n))))
    ∧ op (.vsub sl vd a b) 0x02 [.v a, .v b] (fun n => rnd32 ((f32 (x n)).add (f32 (y n)).negate))
    ∧ op (.vmul sl vd a b) 0x03 [.v a, .v b] (fun n => rnd32 ((f32 (x n)).mul (f32 (y n))))
    ∧ op (.vfma sl vd a b c) 0x04 [.v a, .v b, .v c] (fun n => rnd32 (((f32 (x n)).mul (f32 (y n))).add (f32 (z n))))
    ∧ op (.vmax sl vd a b) 0x05 [.v a, .v b] (fun n => f32Max (x n) (y n))
    ∧ op (.vmin sl vd a b) 0x06 [.v a, .v b] (fun n => f32Min (x n) (y n))
    ∧ op (.vabs sl vd a) 0x07 [.v a] (fun n => x n &&& 0x7FFFFFFF)
    ∧ op (.vneg sl vd a) 0x08 [.v a] (fun n => x n ^^^ 0x80000000)
    ∧ (∀ n, n ∈ on ↔ n < 256 ∧ (slotP s sl sl.vp).getLsbD n ≠ sl.vneg)

/-- R50, R54, Table 2.5: the BF16 operations, 3 later: each half of a selected lane by itself. -/
def Obligations.VectorBf16 : Prop :=
  ∀ (s : State) (sl : Slot) (vd a b c : Reg),
    let op := fun (i : Instr) (op : Nat) (srcs : List RegName) (f : FV → FV → FV → FV) =>
      ∃ lanes : List (Nat × W32), Computes s i (vectorSlot sl op 3 false srcs vd lanes) id (some (.v vd lanes))
        ∧ lanes.map (·.1) = lanesOn s sl
        ∧ ∀ n w, (n, w) ∈ lanes → ∀ h, h < 2 →
            let half := fun (r : Reg) => bf (bits (slotV s sl r n) (16 * h + 15) (16 * h))
            bits w (16 * h + 15) (16 * h) = rndBf (f (half a) (half b) (half c)) % 2 ^ 16
    op (.vaddBf sl vd a b) 0x11 [.v a, .v b] (fun x y _ => x.add y) ∧ op (.vmulBf sl vd a b) 0x13 [.v a, .v b] (fun x y _ => x.mul y)
    ∧ op (.vfmaBf sl vd a b c) 0x14 [.v a, .v b, .v c] (fun x y z => (x.mul y).add z)
    ∧ op (.vmaxBf sl vd a b) 0x15 [.v a, .v b] (fun x y _ => x.max y) ∧ op (.vminBf sl vd a b) 0x16 [.v a, .v b] (fun x y _ => x.min y)

/-- R50, R55, Table 2.5: the functions, 12 later, and the special values of R55: `vexp` of −∞ is +0; `vlog` of ±0 is −∞, of a negative number
NaN; `vrsqrt` of +0 is +∞, of −0 is −∞, of a negative number NaN. Every other result is within 1 ulp of the exact value, which the model computes with
256 fraction bits (log entry 5), and a result too large for FP32 is +∞. Equal operands give equal results. -/
def Obligations.VectorFunctions : Prop :=
  (∀ (s : State) (sl : Slot) (vd a : Reg),
    let op := fun (i : Instr) (op : Nat) (f : W32 → W32) =>
      let lanes := (lanesOn s sl).map fun n => (n, f (slotV s sl a n))
      Computes s i (vectorSlot sl op 12 false [.v a] vd lanes) id (some (.v vd lanes))
    op (.vexp sl vd a) 0x20 exp32 ∧ op (.vlog sl vd a) 0x21 log32 ∧ op (.vrsqrt sl vd a) 0x22 rsqrt32)
  ∧ exp32 0xFF800000 = 0 ∧ log32 0 = 0xFF800000 ∧ log32 0x80000000 = 0xFF800000 ∧ rsqrt32 0 = 0x7F800000 ∧ rsqrt32 0x80000000 = 0xFF800000
  ∧ (∀ x : W32, (0x80000001 : Nat) ≤ x.toNat → x.toNat ≤ 0xFF800000 → log32 x = 0x7FC00000 ∧ rsqrt32 x = 0x7FC00000)
  ∧ (let keeps := fun (exact : FV) (w : W32) => if f32IsFin (rnd32 exact) = true then withinUlps 1 exact w = true else w = rnd32 exact
     ∀ x : W32, (f32IsFin x = true → keeps (expExact (f32 x)) (exp32 x))
       ∧ (0 < x.toNat → x.toNat < 0x7F800000 → keeps (logExact (f32 x)) (log32 x) ∧ keeps (rsqrtExact (f32 x)) (rsqrt32 x)))

/-- R56, Table 2.5: a reduction by the pairwise tree of stages 128, 64, …, 1, 9 later: lane 0 takes the result and lanes 1 to 255 take 0; a lane
that is off contributes +0 to the sums and −∞ to the maximum; `vredsq` rounds each square first. -/
def Obligations.VectorReductions : Prop :=
  ∀ (s : State) (sl : Slot) (vd a : Reg),
    let red := fun (i : Instr) (op : Nat) (t2 : Bool) (f : W32 → W32) (unit : W32) (join : W32 → W32 → W32) =>
      ∃ stage : Nat → Nat → W32, ∃ lanes : List (Nat × W32),
        Computes s i (vectorSlot sl op 9 t2 [.v a] vd lanes) id (some (.v vd lanes))
        ∧ (∀ n, n < 256 → stage 0 n = if (slotP s sl sl.vp).getLsbD n ≠ sl.vneg then f (slotV s sl a n) else unit)
        ∧ (∀ k n, k < 8 → n < 2 ^ (7 - k) → stage (k + 1) n = join (stage k n) (stage k (n + 2 ^ (7 - k))))
        ∧ lanes = (0, stage 8 0) :: (List.range 255).map fun n => (n + 1, 0)
    red (.vredsum sl vd a) 0x28 false id 0 f32Add ∧ red (.vredmax sl vd a) 0x29 false id 0xFF800000 f32Max
    ∧ red (.vredsq sl vd a) 0x2A true (fun x => f32Mul x x) 0 f32Add

/-- Table 2.5: `vperm` sends lane (vs2 lane i)[7:0] of vs1 to lane i, `vsplat` bits 31 to 0 of a scalar register to every selected lane; `vcvt`
of a supported pair and part converts every selected lane, and an unsupported one stops the core with a format fault (R57). R57: the parts of a
conversion between 32, 16 and 8 bits; a narrowing replaces the elements of its part and keeps the rest of the lane, a widening takes them from
its part. -/
def Obligations.VectorMovesAndConversion : Prop :=
  (∀ (s : State) (sl : Slot) (vd a b : Reg) (mod : BitVec 12),
      let on := lanesOn s sl
      (let lanes := on.map fun n => (n, slotV s sl a ((slotV s sl b n).toNat % 256))
       Computes s (.vperm sl vd a b) (vectorSlot sl 0x30 3 false [.v a, .v b] vd lanes) id (some (.v vd lanes)))
      ∧ (let lanes := on.map fun n => (n, BitVec.ofNat 32 (slotX s sl a).toNat)
         Computes s (.vsplat sl vd a) (vectorSlot sl 0x31 3 false [.x a] vd lanes) id (some (.v vd lanes)))
      ∧ (let (sf, df, p) := cvtFields (coreOf s sl.core.val) mod
         let st := fun (bad : Option Nat) (lanes : List (Nat × W32)) =>
           ({ place := 1, slot := sl, opcode := 0x38, badEnc := bits mod 9 8 != 0, badFmt := bad, reads := .v a :: predReads sl,
              dest := some (.v vd), lat := 3, effect := .write (.v vd lanes) } : Staged)
         (p < cvtParts sf df →
            let lanes := on.map fun n => (n, cvtLane sf df p (slotV s sl vd n) (slotV s sl a n))
            Computes s (.vcvt sl vd a mod) (st none lanes) id (some (.v vd lanes)))
         ∧ (cvtParts sf df ≤ p → Comes s (st (some mod.toNat) []) →
            ∃ t, exec (.vcvt sl vd a mod) s = .next t ∧ (coreOf t sl.core.val).faulted = true
              ∧ SameFiles (coreOf (atIssue s (st (some mod.toNat) [])) sl.core.val) (coreOf t sl.core.val))))
  ∧ ((∀ src dst, cvtCode src = true → cvtCode dst = true → elemBits src ≠ elemBits dst →
        cvtParts src dst * Nat.min (elemBits src) (elemBits dst) = Nat.max (elemBits src) (elemBits dst))
    ∧ (∀ src dst, cvtCode src = false ∨ cvtCode dst = false ∨ elemBits src = elemBits dst → cvtParts src dst = 0)
    ∧ (∀ (old x : W32) (p : Nat), p < 2 →
        bits (cvtLane 0 1 p old x) (16 * p + 15) (16 * p) = elemEnc 1 (elemVal 0 x.toNat) % 2 ^ 16
        ∧ bits (cvtLane 0 1 p old x) (16 * (1 - p) + 15) (16 * (1 - p)) = bits old (16 * (1 - p) + 15) (16 * (1 - p))
        ∧ (cvtLane 1 0 p old x).toNat = elemEnc 0 (elemVal 1 (bits x (16 * p + 15) (16 * p))) % 2 ^ 32))

/-- R50, Table 2.5: `vcmp` and the predicate logic write the bits of the lanes they run on and keep the others; an unordered comparison gives 0,
except `ne`, which gives 1. -/
def Obligations.Predicates : Prop :=
  (∀ (s : State) (sl : Slot) (vd a b : Reg) (mod : BitVec 12),
    let p := fun (r : Reg) => slotP s sl (Fin.ofNat 8 r.val)
    let op := fun (i : Instr) (op lat : Nat) (t2 bad : Bool) (srcs : List RegName) (f : Nat → Bool) =>
      ∃ w : BitVec 256, Computes s i (predicateSlot sl op lat t2 bad srcs vd w) id (some (.p (Fin.ofNat 8 vd.val) w))
        ∧ ∀ n, n < 256 → w.getLsbD n = if (slotP s sl sl.vp).getLsbD n ≠ sl.vneg then f n else (p vd).getLsbD n
    let up := fun (r : Reg) => decide (8 ≤ r.val)
    op (.vcmp sl vd a b mod) 0x3C 4 false (decide (5 < mod.toNat)) [.v a, .v b] (fun n => compare32 mod.toNat (slotV s sl a n) (slotV s sl b n))
    ∧ op (.pand sl vd a b) 0x3D 3 false (up a || up b) [.p (Fin.ofNat 8 a.val), .p (Fin.ofNat 8 b.val)]
        (fun n => (p a).getLsbD n && (p b).getLsbD n)
    ∧ op (.por sl vd a b) 0x3E 3 false (up a || up b) [.p (Fin.ofNat 8 a.val), .p (Fin.ofNat 8 b.val)]
        (fun n => (p a).getLsbD n || (p b).getLsbD n)
    ∧ op (.pnot sl vd a) 0x3F 3 false (up a) [.p (Fin.ofNat 8 a.val)] (fun n => !(p a).getLsbD n)
    ∧ op (.pxor sl vd a b) 0x40 3 true (up a || up b) [.p (Fin.ofNat 8 a.val), .p (Fin.ofNat 8 b.val)]
        (fun n => (p a).getLsbD n ^^ (p b).getLsbD n))
  ∧ ∀ (a b : W32) (k : Nat), f32IsNan a = true ∨ f32IsNan b = true → compare32 k a b = (k == 1)

/-! ### Queues, descriptors, tallies, folds and the beat (chapters 1, 2 and 12) -/

/-- R22, R58, Table 2.6: `qpop` takes the 16 oldest entries, entry n into lanes 16n to 16n + 15 with the lowest-addressed bytes in the lowest lane;
`qpush` places the 16 entries of a register behind those present; the order of the others is kept. -/
def Obligations.QueuePopAndPush : Prop :=
  ∀ (s : State) (sl : Slot) (q : Fin 16) (r : Reg), sl.eng = .compute →
    let k := sl.core.val
    (let st : Staged := { place := 2, slot := sl, opcode := 0x02, only := some .compute, dest := some (.v r), effect := .qpop q r }
     let es := queueAt (coreOf (atIssue s st) k) q
     Computes s (.qpop sl q r) st (fun c => setQueue c q (es.drop 16))
       (some (.v r ((List.range 256).map fun i => (i, BitVec.ofNat 32 (numAt (padTo 64 (es.getD (i / 16) [])) (4 * (i % 16)) 4))))))
    ∧ (let es := (List.range 16).map fun j => ((List.range 16).map fun i => leBytes 4 (slotV s sl r (16 * j + i)).toNat).flatten
       Computes s (.qpush sl q r) { place := 2, slot := sl, opcode := 0x03, only := some .compute, reads := [.v r],
                                    effect := .qpush q (slotVBytes s sl r) }
         (fun c => setQueue c q (queueAt c q ++ es)) none)

/-- R23: `qwait` with n from 1 to 64 issues when n entries are present, for the queue's consumer, or n are free, for its producer, and changes
nothing but the engine's advance. R23, R21: a `qwait` or `qdrain` with a count of 0 or above 64 has the queue fault 0x02, and an engine that is
neither end of the queue 0x01, so that the instruction stops its core. -/
def Obligations.QueueWaitsAndFaults : Prop :=
  (∀ (s : State) (sl : Slot) (q : Fin 16) (n : BitVec 7),
      let st : Staged := { place := 2, slot := sl, opcode := 0x01, effect := .qwait q n.toNat }
      Computes s (.qwait sl q n) st id none
      ∧ ∀ p c, queueEnds (coreOf s sl.core.val) q = some (p, c) → p ≠ c → p = sl.eng ∨ c = sl.eng →
          (conditionWait s sl.core.val sl.eng [st] = none
            ↔ if p = sl.eng then (queueAt (coreOf s sl.core.val) q).length + n.toNat ≤ 64 else n.toNat ≤ (queueAt (coreOf s sl.core.val) q).length))
  ∧ (∀ (s : State) (sl : Slot) (q : Fin 16) (r : Reg) (n : BitVec 7),
      (let st : Staged := { place := 2, slot := sl, opcode := 0x01, effect := .qwait q n.toNat }
       Comes s st → (n = 0 ∨ (64 : Nat) < n.toNat → (∃ f ∈ faultsAt s st, f.cls = 7 ∧ f.sub = 2)
             ∧ ∃ t, exec (.qwait sl q n) s = .next t ∧ (coreOf t sl.core.val).faulted = true)
         ∧ (1 ≤ n.toNat → n.toNat ≤ 64 → (∀ p c, queueEnds (coreOf (atIssue s st) sl.core.val) q = some (p, c) → p ≠ sl.eng ∧ c ≠ sl.eng) →
              (∃ f ∈ faultsAt s st, f.cls = 7 ∧ f.sub = 1) ∧ ∃ t, exec (.qwait sl q n) s = .next t ∧ (coreOf t sl.core.val).faulted = true))
      ∧ (let st : Staged := { place := 2, slot := sl, opcode := 0x06, only := some .compute, reads := [.x r], effect := .qdrain q (slotX s sl r) n.toNat }
         Comes s st → n = 0 ∨ (64 : Nat) < n.toNat → (∃ f ∈ faultsAt s st, f.cls = 7 ∧ f.sub = 2)
           ∧ ∃ t, exec (.qdrain sl q r n) s = .next t ∧ (coreOf t sl.core.val).faulted = true
             ∧ queueAt (coreOf t sl.core.val) q = queueAt (coreOf (atIssue s st) sl.core.val) q))

/-- R58, R118, Table 2.6: `qfetch` and `qstore` put the tensor of their slot behind the streams of the fetch and the store engine, to move through
the queue; `dbase` sends the slot's image with its first eight bytes replaced. -/
def Obligations.StreamsAndDescriptorBase : Prop :=
  ∀ (s : State) (sl : Slot) (q : Fin 16) (r xs : Reg),
    let c := sl.core.val
    (let st : Staged := { place := 2, slot := sl, opcode := 0x04, only := some .fetch, reads := [.d r], effect := .qfetch q r }
     sl.eng = .fetch → Ready s st → ∃ t m, exec (.qfetch sl q r) s = .next t ∧ SameFiles (coreOf (atIssue s st) c) (coreOf t c)
       ∧ (coreOf t c).fe.streams.length = (coreOf (atIssue s st) c).fe.streams.length + 1
       ∧ (coreOf t c).fe.streams.getLast? = some (.move m) ∧ m.q = q ∧ m.image = dVal (coreOf (atIssue s st) c) .fetch r ∧ t.mem = (atIssue s st).mem)
    ∧ (let st : Staged := { place := 2, slot := sl, opcode := 0x05, only := some .store, reads := [.d r], effect := .qstore q r }
       sl.eng = .store → Ready s st → ∃ t, exec (.qstore sl q r) s = .next t ∧ SameFiles (coreOf (atIssue s st) c) (coreOf t c)
         ∧ (coreOf t c).se.streams = (coreOf (atIssue s st) c).se.streams ++ [.move { q := q, image := dVal (coreOf (atIssue s st) c) .store r }]
         ∧ t.mem = (atIssue s st).mem)
    ∧ (let st : Staged := { place := 2, slot := sl, opcode := 0x0D, newT2 := true, reads := [.x xs], dest := some (.d r), effect := .dbase r (slotX s sl xs) }
       Computes s (.dbase sl r xs) st id
         (some (.d r (leBytes 8 (slotX s sl xs).toNat ++ (dVal (coreOf (atIssue s st) c) sl.eng r).drop 8))))

/-- R284, R286, R287, R40: a signal to a tally of the own cluster advances it by its amount in the step in which it issues, and no other tally; one
to another cluster goes over the network; a store engine's waits behind the stores it has issued; one that would pass the 48-bit range
leaves the tally as it is, and the core stops. -/
def Obligations.LocalSignals : Prop :=
  ∀ (s : State) (sl : Slot) (v : BitVec 12) (imm : BitVec 15) (xs : Reg) (p : Nat),
    let c := sl.core.val
    let x := slotX s sl xs
    let sig := fun (i : Instr) (st : Staged) (amount : Nat) =>
      let a := atIssue s st
      Ready s st → translate a c v = some p →
        (sl.eng ≠ .store ∨ ((coreOf a c).se.streams = [] ∧ storesDone a c = true) →
          ∃ t, exec i s = .next t ∧ SameFiles (coreOf a c) (coreOf t c) ∧ t.mem = a.mem
            ∧ (p / 4096 = c / 32 → tallyAt a p + amount < 2 ^ 48 →
                tallyAt t p = tallyAt a p + amount ∧ (∀ r, r ≠ p → tallyAt t r = tallyAt a r) ∧ t.mcq = a.mcq)
            ∧ (p / 4096 = c / 32 → 2 ^ 48 ≤ tallyAt a p + amount → t.tallies = a.tallies
                ∧ ((coreOf t c).faulted = true ∨ (coreOf t c).stopNext = true))
            ∧ (p / 4096 ≠ c / 32 → t.tallies = a.tallies ∧ ∃ l, t.localSigs = a.localSigs ++ [l] ∧ l.phys = p ∧ l.amount = amount))
        ∧ (sl.eng = .store → (coreOf a c).se.streams ≠ [] →
          ∃ t, exec i s = .next t ∧ t.tallies = a.tallies
            ∧ (coreOf t c).se.streams = (coreOf a c).se.streams ++ [.signal v amount (coreOf a c).se.pc])
    sig (.tsig sl v imm) { place := 2, slot := sl, opcode := 0x11, effect := .tsig v imm.toNat (imm == 0) } imm.toNat
    ∧ sig (.tsigX sl v xs) { place := 2, slot := sl, opcode := 0x12, newT2 := true, reads := [.x xs],
                             effect := .tsig v (x.toNat % 2 ^ 48) (x.toNat % 2 ^ 48 == 0 || bits x 63 48 != 0) } (x.toNat % 2 ^ 48)

/-- R291, R292, R295: a counted signal of the fetch or compute engine that names a live context of this device with its key, and a tally whose range
accepts remote signals, is held for its stream; no tally changes yet. One that this device refuses is counted in the live context's
refusal counter and stops the core. Where the device has no room for it, it waits in the transmit queue. -/
def Obligations.CountedSignals : Prop :=
  ∀ (s : State) (sl : Slot) (xa xb : Reg) (x v : Nat),
    let c := sl.core.val
    let w := slotX s sl xa
    let st : Staged := { place := 2, slot := sl, opcode := 0x13, reads := [.x xa, .x xb], effect := .tsigR w (slotX s sl xb) }
    let a := atIssue s st
    let key := a.fabric.devaddr.toNat * 4096 + (0x200 + c)
    sl.eng ≠ .store → Ready s st → isHere a (bits w 63 48) = true → signalTarget (bits w 47 0) = (x, v) → ctxState a x = 2 →
      (signalRoom a a.fabric.devaddr.toNat (0x200 + c) = true → (rsigTally a x v).isSome = true → coreKey a c = ctxKey a x →
        ∃ t h, exec (.tsigR sl xa xb) s = .next t ∧ t.tallies = a.tallies
          ∧ SameFiles (coreOf a c) (coreOf t c) ∧ t.mem = a.mem
          ∧ mget {} t.srcs key = { mget {} a.srcs key with held := (mget {} a.srcs key).held ++ [h] }
          ∧ h.ctx = x ∧ h.t = BitVec.ofNat 12 v ∧ h.bytes = (slotX s sl xb).toNat % 2 ^ 48 ∧ h.agent = .engine sl.eng
          ∧ h.cmd = BitVec.ofInt 64 (engAt a st).pc)
      ∧ (signalRoom a a.fabric.devaddr.toNat (0x200 + c) = true → (rsigTally a x v).isSome = false ∨ coreKey a c ≠ ctxKey a x →
        ∃ t, exec (.tsigR sl xa xb) s = .next t ∧ t.tallies = a.tallies
          ∧ t.srcs = a.srcs ∧ bits (cw t x 0xF8) 31 16 = Nat.min 65535 (bits (cw a x 0xF8) 31 16 + 1)
          ∧ ((coreOf t c).faulted = true ∨ (coreOf t c).stopNext = true))
      ∧ (signalRoom a a.fabric.devaddr.toNat (0x200 + c) = false → ∃ t q, exec (.tsigR sl xa xb) s = .next t ∧ t.tallies = a.tallies
          ∧ t.srcs = a.srcs ∧ t.mem = a.mem ∧ SameFiles (coreOf a c) (coreOf t c) ∧ t.fabric.waiting = a.fabric.waiting ++ [q]
          ∧ q.frame.typ = 6 ∧ q.frame.dst = a.fabric.devaddr ∧ q.frame.addr.toNat = bits w 47 0 ∧ q.frame.skey = coreKey a c)

/-- R285, R34, R33, R287, R359: a `twait` or `bwait` whose condition holds costs one issue and changes nothing else, but that the compute engine has
then waited for the chains that name the tally (R37); the condition is that the tally
is at or above xs[47:0] with xs[62:48] 0, or the beat at or above xs. `trd` sends the tally's 48 bits and `brd` the beat, 6 later. -/
def Obligations.WaitsAndReads : Prop :=
  ∀ (s : State) (sl : Slot) (v : BitVec 12) (xs : Reg),
    let c := sl.core.val
    let x := slotX s sl xs
    (let st := waitSlot sl v xs x
     ((sl.eng ≠ .compute ∨ interlocked (coreOf (atIssue s st) c) = true ∨ bit x 63 = false) →
        let f := fun (k : Core) => if sl.eng = .compute then { k with unwaited := k.unwaited.filter fun u => u.tally != v } else k
        Computes s (.twait sl v xs) st f none ∧ Computes s (.twaitYield sl v xs) st f none)
     ∧ (sl.eng = .compute → interlocked (coreOf (atIssue s st) c) = false → bit x 63 = true →
        let f := fun (k : Core) => { k with unwaited := k.unwaited.filter fun u => u.tally != v, voided := true }
        Computes s (.twaitYield sl v xs) st f none ∧ Computes s (.twait sl v xs) st f none)
     ∧ ∀ p, bit x 63 = false → translate s c v = some p →
        (conditionWait s c sl.eng [st] = none ↔ bits x 62 48 = 0 ∧ bits x 47 0 ≤ tallyAt s p))
    ∧ (let st : Staged := { place := 2, slot := sl, opcode := 0x18, newT2 := true, reads := [.x xs], effect := .bwait x }
       Computes s (.bwait sl xs) st id none ∧ (conditionWait s c sl.eng [st] = none ↔ x.toNat ≤ s.clock.beat))
    ∧ (let st : Staged := { place := 2, slot := sl, opcode := 0x14, dest := some (.x xs), lat := 6, effect := .trd xs v }
       ∀ p, translate (atIssue s st) c v = some p →
         Computes s (.trd sl v xs) st id (some (.x xs (BitVec.ofNat 64 (tallyAt (atIssue s st) p)))))
    ∧ (let st : Staged := { place := 2, slot := sl, opcode := 0x19, newT2 := true, dest := some (.x xs), lat := 6, effect := .brd xs }
       Computes s (.brd sl xs) st id (some (.x xs (BitVec.ofNat 64 (atIssue s st).clock.beat))))


/-! ### The array, the intersect front-end and the drain (chapters 5, 6 and 8) -/

/-- R126, R127, R132, R136, R141: an array pass that issues at n takes M rows of activations, its tile being the loaded one where `SWAP` is set and
the active one elsewhere, and occupies the array until n + max(M, 1); a pass of 0 rows only swaps. `mma.pred` with `SELECT` also owes a
selection record, readable at n + M + 111 (R142). No other core and nothing outside the core changes. -/
def Obligations.ArrayPass : Prop :=
  ∀ (s : State) (sl : Slot) (d1 d2 xs : Reg), sl.eng = .compute →
    let c := sl.core.val
    let w := slotX s sl xs
    let swap := bit w 22
    let pass := fun (i : Instr) (st : Staged) (op : Nat) =>
      let k := coreOf (atIssue s st) c
      let n := issueNow s st
      let d := Desc.of (dVal k .compute d1)
      Ready s st → ∃ t, exec i s = .next t ∧ CoreOnly (atIssue s st) t c
        ∧ (coreOf t c).arrayUntil = n + Nat.max (passRows d) 1
        ∧ (coreOf t c).active = (if swap then k.shadow else k.active) ∧ (swap = true → (coreOf t c).unswapped = false)
        ∧ (coreOf t c).shadow = k.shadow ∧ (coreOf t c).acc = k.acc ∧ (coreOf t c).v = k.v ∧ (coreOf t c).ce.x = k.ce.x
        ∧ mget 0 (coreOf t c).passCount (bits w 16 16) = (if bit w 21 then 1 else Nat.min 4097 (mget 0 k.passCount (bits w 16 16) + 1))
        ∧ (passRows d = 0 → (coreOf t c).passes.length = k.passes.length)
        ∧ (passRows d ≠ 0 → ∃ p, (coreOf t c).passes.getLast? = some p ∧ (coreOf t c).passes.length = k.passes.length + 1
            ∧ p.op = op ∧ p.issue = n ∧ p.first = 96 ∧ p.rows = passRows d ∧ p.row0 = bits w 8 0 ∧ p.set = bits w 16 16 ∧ p.init = bit w 21
            ∧ p.tile = (coreOf t c).active ∧ p.act = dVal k .compute d1 ∧ p.landed = 0)
        ∧ (¬ (op = 0x29 ∧ bit w 23 = true) → (coreOf t c).selWrites = k.selWrites)
        ∧ (op = 0x29 → bit w 23 = true → ∃ q, (coreOf t c).selWrites = k.selWrites ++ [q] ∧ q.d2 = dVal k .compute d2 ∧ q.rows = passRows d
            ∧ q.pcol = bits w 19 17 ∧ q.selk = bits w 55 48 ∧ q.thr = bits w 47 32 ∧ q.set = bits w 16 16 ∧ q.issue = n
            ∧ q.ready = n + passRows d + 111 ∧ (passRows d ≠ 0 → q.bytes = []))
    pass (.mmaD sl d1 xs) (arraySlot sl 0x24 false [d1] xs (.pass 0x24 d1 w)) 0x24
    ∧ pass (.mmaS24 sl d1 xs) (arraySlot sl 0x25 false [d1] xs (.pass 0x25 d1 w)) 0x25
    ∧ pass (.mmaMx4 sl d1 xs) (arraySlot sl 0x26 true [d1] xs (.pass 0x26 d1 w)) 0x26
    ∧ pass (.mmaBf sl d1 xs) (arraySlot sl 0x27 false [d1] xs (.pass 0x27 d1 w)) 0x27
    ∧ pass (.mmaPred sl d1 d2 xs) (arraySlot sl 0x29 true (if bit w 23 then [d1, d2] else [d1]) xs (.pred d1 d2 w)) 0x29

/-- R129 to R131, R139, R143: a weight load that issues at w leaves its tile swappable at w + 32, or w + 40 with a patch, and counts its relay tally;
`mma.sel` gathers, swaps in and streams, its first row readable at n + 128, and takes the array and the shadow load unit for 32 + M; one
that meets a bad selection record stops the core with the shadow pair zero. -/
def Obligations.WeightLoads : Prop :=
  ∀ (s : State) (sl : Slot) (d1 d2 xs : Reg) (v : BitVec 12), sl.eng = .compute →
    let c := sl.core.val
    let load := fun (i : Instr) (st : Staged) (lat : Nat) (patched : Bool) =>
      let k := coreOf (atIssue s st) c
      Ready s st → ∃ t l, exec i s = .next t ∧ CoreOnly (atIssue s st) t c ∧ (coreOf t c).load = some l ∧ l.ready = issueNow s st + lat
        ∧ l.relay = decide (v ≠ 0) ∧ l.patched = patched ∧ (coreOf t c).unswapped = true ∧ (coreOf t c).shadowUntil = issueNow s st + lat
        ∧ (coreOf t c).active = k.active ∧ (coreOf t c).acc = k.acc ∧ (coreOf t c).v = k.v
        ∧ (l.fault ≠ none → (coreOf t c).shadow = [])
        ∧ (∀ r : Nat, mget 0 (coreOf t c).relayCnt r = mget 0 k.relayCnt r + if r = v.toNat ∧ v ≠ 0 then 1 else 0)
    load (.wld sl d1 v) { place := 2, slot := sl, opcode := 0x20, only := some .compute, reads := if v = 0 then [.d d1] else [],
                          effect := .wld d1 none v } 32 false
    ∧ load (.wldPatch sl d1 d2 v) { place := 2, slot := sl, opcode := 0x21, newT2 := true, only := some .compute,
                                    reads := .d d2 :: (if v = 0 then [.d d1] else []), effect := .wld d1 (some d2) v } 40 true
    ∧ (let w := slotX s sl xs
       let st := arraySlot sl 0x2A true [d1, d2, wslotOf w] xs (.sel d1 d2 w)
       let k := coreOf (atIssue s st) c
       let m := passRows (Desc.of (dVal k .compute d1))
       Ready s st → ∃ a t, Claimed s a st ∧ exec (.mmaSel sl d1 d2 xs) s = .next t ∧ (coreOf t c).acc = k.acc ∧ (coreOf t c).unswapped = false
         ∧ (match gatherTile a c (Desc.of (dVal k .compute d2)) (Desc.of (dVal k .compute (wslotOf w))) (bits w 26 24) with
            | .ok (tile, _) => (coreOf t c).active = tile ∧ (coreOf t c).arrayUntil = issueNow s st + 32 + m
                ∧ (coreOf t c).shadowUntil = issueNow s st + 32 + m
                ∧ (m ≠ 0 → ∃ p, (coreOf t c).passes.getLast? = some p ∧ p.op = 0x2A ∧ p.first = 128 ∧ p.rows = m ∧ p.tile = tile)
            | .error _ => (coreOf t c).shadow = [] ∧ ((coreOf t c).faulted = true ∨ (coreOf t c).stopNext = true)))

/-- R145, R149, R151, R198, R204, R205, R210: `mma.isect` and `drain` start their unit: the isect in round 0 of `EXT4` ÷ 64, the drain with its slots from
its issue on; a spill sets the set's pass count to 0 (R211). `accrd` sends rows x to x + 3, 5 later, and `accclr` zeroes one set and its pass
count, and leaves the other set. -/
def Obligations.ArrayUnitsStart : Prop :=
  ∀ (s : State) (sl : Slot) (d1 d2 xs : Reg) (v : BitVec 12) (imm : BitVec 22), sl.eng = .compute →
    let c := sl.core.val
    let w := slotX s sl xs
    (let st := arraySlot sl 0x28 true [d1, d2] xs (.isect d1 d2 w)
     let k := coreOf (atIssue s st) c
     Ready s st → ∃ t x, exec (.mmaIsect sl d1 d2 xs) s = .next t ∧ CoreOnly (atIssue s st) t c ∧ (coreOf t c).isect = some x ∧ x.ctl = w
       ∧ x.a = dVal k .compute d1 ∧ x.b = dVal k .compute d2 ∧ x.counted = 0 ∧ x.merged = 0 ∧ x.next = none ∧ x.cur = none ∧ x.outs = []
       ∧ x.failed = false ∧ x.kt = ((Desc.of x.a).dim 4).ext / 64
       ∧ (coreOf t c).acc = k.acc ∧ (coreOf t c).active = k.active ∧ (coreOf t c).shadow = k.shadow)
    ∧ (let st := arraySlot sl 0x2C false (drainNames w d1 d2) xs (.drain d1 d2 w v)
       let k := coreOf (atIssue s st) c
       let drains := fun (i : Instr) => Ready s st → ∃ t d, exec i s = .next t ∧ CoreOnly (atIssue s st) t c
         ∧ (coreOf t c).drains = k.drains ++ [d] ∧ d.ctl = w ∧ d.tally = v ∧ d.issue = issueNow s st ∧ d.slot = 0 ∧ d.chain = none
         ∧ d.d1 = dVal k .compute d1 ∧ d.d2 = dVal k .compute d2
         ∧ (coreOf t c).drainUntil = issueNow s st + d.costs.foldl (· + ·) 0 ∧ (coreOf t c).acc = k.acc
         ∧ (∀ n ∈ d.costs, 1 ≤ n)
         ∧ mget 0 (coreOf t c).passCount (bits w 9 9) = (if bits w 34 33 = 1 ∨ bits w 34 33 = 2 then 0 else mget 0 k.passCount (bits w 9 9))
       drains (.drain sl d1 d2 xs v) ∧ drains (.drainSpill sl d1 d2 xs v))
    ∧ (let st : Staged := { place := 2, slot := sl, opcode := 0x2D, only := some .compute, badEnc := bits imm 21 1 != 0, reads := [.x xs],
                            dest := some (.v d1), lat := 5, effect := .accrd d1 (bits imm 0 0) w }
       Computes s (.accrd sl d1 xs imm) st id
         (some (.v d1 ((List.range 256).map fun i => (i, accAt (coreOf (atIssue s st) c) (bits imm 0 0) (w.toNat + i / 64) (i % 64))))))
    ∧ (let st : Staged := { place := 2, slot := sl, opcode := 0x2E, only := some .compute, badEnc := bits imm 21 1 != 0, effect := .accclr (bits imm 0 0) }
       Ready s st → ∃ t, exec (.accclr sl imm) s = .next t ∧ CoreOnly (atIssue s st) t c
         ∧ mget 0 (coreOf t c).passCount (bits imm 0 0) = 0
         ∧ (∀ row col, row < 512 → col < 64 → accAt (coreOf t c) (bits imm 0 0) row col = 0
             ∧ accAt (coreOf t c) (1 - bits imm 0 0) row col = accAt (coreOf (atIssue s st) c) (1 - bits imm 0 0) row col)
         ∧ (coreOf t c).v = (coreOf (atIssue s st) c).v)

/-- R125, R126, R127, R141, R143, Table 5.2: the oldest row on its way lands once it is due: each of its 64 elements becomes the contribution, or its
old value plus it, rounded once; an unselected column of `mma.sel` takes +0 or keeps its value; a predictor row takes the integer score, or adds
it with wrap. Every other accumulator element keeps its value, and the selection made on the pass takes its scores when the last row lands
(R142). R131, R132, R142, R144: a load that has become swappable ends: it frees the relay's image and the unit, and a fault found in it stops the core;
one that has not stays as it is; a selection record that is due and gets its bank ports is written at its place, and no other byte of memory changes. -/
def Obligations.PassRowsAndEnds : Prop :=
  (∀ (s : State) (c : CoreId) (p : Pass),
      let k := coreOf s c.val
      let row := rowValues (Desc.of p.act) (p.readRows.getD p.landed [])
      let base := p.set * 32768 + passAccRow p p.landed * 64
      k.ce.run = .running → (k.passes.find? fun q => q.landed < q.readRows.length) = some p →
        (dueNow s c.val (p.issue + p.first + p.landed) p.chain = false → exec (.passRowResult c) s = .next s)
        ∧ (dueNow s c.val (p.issue + p.first + p.landed) p.chain = true →
        ∃ t, exec (.passRowResult c) s = .next t ∧ CoreOnly s t c.val
          ∧ (∀ col, col < 64 → mget 0 (coreOf t c.val).acc (base + col) =
              if p.isPred then (if p.init then score p row col else mget 0 k.acc (base + col) + score p row col)
              else if p.op ≠ 0x2A ∨ (p.masks.getD p.landed 0).testBit col then
                (if p.init then contribution p row col else f32Add (mget 0 k.acc (base + col)) (contribution p row col))
              else (if p.init then 0 else mget 0 k.acc (base + col)))
          ∧ (∀ x, x < base ∨ base + 64 ≤ x → mget 0 (coreOf t c.val).acc x = mget 0 k.acc x)
          ∧ (p.chain = none ∨ p.landed + 1 < p.rows → ∃ q ∈ (coreOf t c.val).passes, q = { p with landed := p.landed + 1 })
          ∧ (∀ w ∈ k.selWrites, w.issue = p.issue → p.isPred = true → w.bytes = [] → p.rows ≤ p.landed + 1 →
              { w with bytes := selectionRecord (coreOf t c.val) w } ∈ (coreOf t c.val).selWrites)
          ∧ (coreOf t c.val).v = k.v ∧ (coreOf t c.val).ce = k.ce))
  ∧ (∀ (s : State) (c : CoreId),
      let k := coreOf s c.val
      (∀ l, k.load = some l → k.chainLoad = none → dueNow s c.val l.ready = false → ∃ t, exec (.shadowLoadComplete c) s = .next t ∧ CoreOnly s t c.val
         ∧ coreOf t c.val = k)
      ∧ (∀ l, k.load = some l → k.chainLoad = none → dueNow s c.val l.ready = true → l.fault = none →
         ∃ t, exec (.shadowLoadComplete c) s = .next t ∧ CoreOnly s t c.val ∧ (coreOf t c.val).load = none
         ∧ (coreOf t c.val).relayBuf = (if l.relay then k.relayBuf.drop 1 else k.relayBuf) ∧ (coreOf t c.val).shadow = k.shadow
         ∧ (coreOf t c.val).acc = k.acc)
      ∧ (∀ l f, k.load = some l → k.chainLoad = none → dueNow s c.val l.ready = true → l.fault = some f →
         ∃ t, exec (.shadowLoadComplete c) s = .next t ∧ (coreOf t c.val).load = none
         ∧ ((coreOf t c.val).faulted = true ∨ (coreOf t c.val).stopNext = true) ∧ (coreOf t c.val).acc = k.acc ∧ t.mem = s.mem)
      ∧ (∀ w rest, k.selWrites = w :: rest → w.bytes ≠ [] → dueNow s c.val w.ready = true → ((Desc.of w.d2).dim 4).stride = 1 →
         let off := ((Desc.of w.d2).unitAt 0).2.toNat
         let a := spadAddr s c.val off
         (portsOf k off w.bytes.length true).any (portTaken k s.clock.cycle .select) = false →
         ∃ t, exec (.predSelectionWrite c) s = .next t ∧ (coreOf t c.val).selWrites = rest ∧ (coreOf t c.val).acc = k.acc
           ∧ readMem t a w.bytes.length = w.bytes
           ∧ ∀ b, b < a ∨ a + w.bytes.length ≤ b → readByte t b = readByte s b))

/-- R152 to R159, R163: the rounds of an isect. A count stage that gets its bank ports forms the two presence maps of the next round, or meets a fault of
its operands, which stops the core, the isect ending with the last round in hand; a choice of the walk adds contributions that are each the
exact sum over the matches of one element, rounded once, whichever lane forms them; the merge writes or adds those of the oldest walked round,
and only it writes the accumulator. -/
def Obligations.IsectRounds : Prop :=
  ∀ (s : State) (c : CoreId) (x : Isect), (coreOf s c.val).isect = some x →
    let k := coreOf s c.val
    let set := bits x.ctl 16 16
    let row0 := bits x.ctl 8 0
    let tile := fun (img : List Byte) => readTile (bankRd s c.val .isect) (Desc.of img) false ((Desc.of img).base.toNat % 2 ^ 48) x.counted
    let off := fun (img : List Byte) => bits (BitVec.ofNat 64 ((bankRd s c.val .isect).num ((Desc.of img).base.toNat % 2 ^ 48 + 8 * x.counted) 8)) 47 0
    let spans := countSpans (Desc.of x.a) x.counted (tile x.a) (off x.a) ++ countSpans (Desc.of x.b) x.counted (tile x.b) (off x.b)
    let sums := fun (r q : IsectRound) => q.round = r.round ∧ ∀ e, mget 0 q.contrib e = mget 0 r.contrib e
      ∨ ∃ i j, e = i * 64 + j ∧ mget 0 q.contrib e = isectSum (Desc.of x.a).fmt (Desc.of x.b).fmt r i j
    (x.failed = true ∨ x.next ≠ none ∨ x.kt ≤ x.counted → exec (.isectCountStage c) s = .next s)
    ∧ (x.failed = false → x.next = none → x.counted < x.kt →
       (spanPorts k spans false).any (portTaken k s.clock.cycle .isect) = false →
       ∃ t, exec (.isectCountStage c) s = .next t ∧ (coreOf t c.val).acc = k.acc ∧ t.mem = s.mem ∧ t.tallies = s.tallies
       ∧ (match tile x.a, tile x.b with
          | .ok ta, .ok tb => CoreOnly s t c.val ∧ ∃ y r, (coreOf t c.val).isect = some y ∧ y.counted = x.counted + 1 ∧ y.merged = x.merged ∧ y.cur = x.cur
              ∧ y.outs = x.outs ∧ y.ctl = x.ctl ∧ y.next = some r ∧ r.round = x.counted ∧ r.contrib = [] ∧ r.mapA = tileMap ta ∧ r.mapB = tileMap tb
          | _, _ => ((coreOf t c.val).faulted = true ∨ (coreOf t c.val).stopNext = true)
              ∧ (x.cur = none → x.outs = [] → (coreOf t c.val).isect = none)))
    ∧ (∃ t y, exec (.isectWalkChoice c) s = .next t ∧ CoreOnly s t c.val ∧ (coreOf t c.val).isect = some y ∧ (coreOf t c.val).acc = k.acc
       ∧ y.counted = x.counted ∧ y.merged = x.merged ∧ y.failed = x.failed
       ∧ (∀ r, x.cur = some r → y.next = x.next ∧ ∃ q, sums r q ∧ ((y.cur = some q ∧ y.outs = x.outs) ∨ (y.cur = none ∧ y.outs = x.outs ++ [q])))
       ∧ (∀ r, x.cur = none → x.next = some r → x.outs.length ≤ 1 →
           y.next = none ∧ ∃ q, sums r q ∧ ((y.cur = some q ∧ y.outs = x.outs) ∨ (y.cur = none ∧ y.outs = x.outs ++ [q])))
       ∧ (x.cur = none → x.next = none ∨ 2 ≤ x.outs.length → y = x))
    ∧ (∀ r rest, x.outs = r :: rest → row0 ≤ 448 → ∃ t, exec (.isectMerge c) s = .next t
       ∧ (x.failed = false → CoreOnly s t c.val ∧ (coreOf t c.val).isect = some { x with outs := rest, merged := x.merged + 1 })
       ∧ (x.failed = true → x.next = none → x.cur = none → rest = [] → (coreOf t c.val).isect = none)
       ∧ (∀ i j, i < 64 → j < 64 → accAt (coreOf t c.val) set (row0 + i) j =
            (if r.round = 0 ∧ bit x.ctl 21 = true then mget 0 r.contrib (i * 64 + j) else f32Add (accAt k set (row0 + i) j) (mget 0 r.contrib (i * 64 + j))))
       ∧ ∀ e, e < set * 32768 + row0 * 64 ∨ set * 32768 + row0 * 64 + 4096 ≤ e → mget 0 (coreOf t c.val).acc e = mget 0 k.acc e)
    ∧ (x.kt ≤ x.merged → ∀ p, translate s c.val (BitVec.ofNat 12 (bits x.ctl 63 52)) = some p → tallyAt s p + 1 < 2 ^ 48 →
       ∃ t, exec (.isectDone c) s = .next t ∧ (coreOf t c.val).isect = none ∧ (coreOf t c.val).acc = k.acc ∧ t.mem = s.mem
         ∧ tallyAt t p = tallyAt s p + 1 ∧ ∀ r, r ≠ p → tallyAt t r = tallyAt s r)
    ∧ (x.merged < x.kt → exec (.isectDone c) s = .next s)

/-- R204, R206, R210, R211: a slot of a spill, once it begins, writes its row's 64 sums, in binary64, to the buffer and to no other byte, and clears the row to +0 and no
other element; a drain whose slots are done leaves the unit, its ranges retire, its `SCOPE` 1 entry is written, and its tally advances by 1.
R201: the non-linearities 2 to 5 and their derivatives have the limits given, a NaN gives the canonical NaN, and every other result is within 2 ulp of
the exact value, which the model computes with 256 fraction bits (log entry 5). -/
def Obligations.DrainSlots : Prop :=
  (let keeps := fun (exact : FV) (w : W32) => if f32IsFin (rnd32 exact) = true then withinUlps 2 exact w = true else w = rnd32 exact
   ∀ (a : Nat) (x : W32), 2 ≤ a → a ≤ 5 →
     (f32IsFin x = true → keeps (actExact a (f32 x)) (actVal a x) ∧ keeps (derExact a (f32 x)) (actPrime a x))
     ∧ (f32IsNan x = true → actVal a x = 0x7FC00000 ∧ ∀ y, actDer a y x = 0x7FC00000)
     ∧ actVal a 0x7F800000 = (if a ≤ 3 then 0x7F800000 else 0x3F800000)
     ∧ actVal a 0xFF800000 = (if a ≤ 3 then 0x80000000 else if a = 4 then 0 else 0xBF800000)
     ∧ actPrime a 0x7F800000 = (if a ≤ 3 then 0x3F800000 else 0) ∧ actPrime a 0xFF800000 = 0)
  ∧ ∀ (s : State) (c : CoreId) (d : Drain),
    let k := coreOf s c.val
    let w := d.ctl
    let set := bits w 9 9
    let row := bits w 8 0 + d.slot
    (nextDrain k = some d → dueNow s c.val (slotStart d d.slot) d.chain = true → d.out = [] → bits w 34 33 = 1 ∨ bits w 34 33 = 2 → bits w 36 35 = 3 → row < 512 →
       let a := spadAddr s c.val (pbSpill d.par + 512 * d.slot)
       let sum := fun col => rnd64 (if bits w 34 33 = 2 then f32 (accAt k set row col)
         else (f64 (spillAt s c.val d.par d.slot col)).add (f32 (accAt k set row col)))
       ∃ t, exec (.drainSlot c) s = .next t
         ∧ (∀ col, col < 64 → readMem t (a + 8 * col) 8 = leBytes 8 (sum col).toNat ∧ accAt (coreOf t c.val) set row col = 0)
         ∧ (∀ b, b < a ∨ a + 512 ≤ b → readByte t b = readByte s b)
         ∧ (∀ e, e < set * 32768 + row * 64 ∨ set * 32768 + row * 64 + 64 ≤ e → mget 0 (coreOf t c.val).acc e = mget 0 k.acc e)
         ∧ (∃ q ∈ (coreOf t c.val).drains, q = { d with slot := d.slot + 1 }))
    ∧ (nextDrain k = some d → dueNow s c.val (slotStart d d.slot) d.chain = false → exec (.drainSlot c) s = .next s)
    ∧ (k.drains.head? = some d → d.costs.length ≤ d.slot → dueNow s c.val (drainEnd d) d.chain = true → d.out = [] → d.chain = none → ∀ p, translate s c.val d.tally = some p → tallyAt s p + 1 < 2 ^ 48 →
       ∃ t, exec (.drainComplete c) s = .next t ∧ d ∉ (coreOf t c.val).drains ∧ tallyAt t p = tallyAt s p + 1
         ∧ (∀ r, r ≠ p → tallyAt t r = tallyAt s r) ∧ (coreOf t c.val).acc = k.acc
         ∧ (if dStat w ≠ 0 ∧ pbScope d.par = true then
              let a := spadAddr s c.val (pbStat d.par)
              readMem t a 16 = statEntry w (pbFirst d.par) ((spadRd s c.val .drain).bytes (pbStat d.par) 16) d.stat ∧ ∀ b, b < a ∨ a + 16 ≤ b → readByte t b = readByte s b
            else t.mem = s.mem))

/-! ### Releases, landings and grants (chapters 1 and 3) -/

/-- R23, R33, R34, R227, R285, R67: a held bundle whose condition has come to hold issues when its cause is looked at again, by the event of that cause; a
bundle that is only a wait then costs one issue and changes no register. A bundle that the banks refused asks again in a later cycle, not in the same one. -/
def Obligations.HeldBundleReleases : Prop :=
  ∀ (s : State) (c : CoreId) (e : Engine) (h : Held), (engOf (coreOf s c.val) e).held = some h →
    (ReadyAgain s c.val e h.bundle →
      (h.cause = .queue → exec (.qwaitRelease c e) s = .next (issuedAgain s c.val e h.bundle))
      ∧ (h.cause = .tally false → exec (.twaitRelease c e) s = .next (issuedAgain s c.val e h.bundle))
      ∧ (h.cause = .tally true → e = .compute → exec (.yieldRelease c) s = .next (issuedAgain s c.val e h.bundle))
      ∧ (h.cause = .beat → exec (.bwaitRelease c e) s = .next (issuedAgain s c.val e h.bundle)))
    ∧ (h.cause = .bank → h.cyc < s.clock.cycle → ReadyAgain s c.val e h.bundle → exec (.bankGrantRetry c e) s = .next (issuedAgain s c.val e h.bundle))
    ∧ (h.cause = .bank → s.clock.cycle ≤ h.cyc → exec (.bankGrantRetry c e) s = .next s)
    ∧ (∀ st q n, h.bundle = [st] → st.effect = .qwait q n →
        let t := issuedAgain s c.val e h.bundle
        (engOf (coreOf t c.val) e).held = none ∧ (engOf (coreOf t c.val) e).idx = (engOf (coreOf (atRetry s c.val e) c.val) e).idx + 1
        ∧ SameFiles (coreOf (atRetry s c.val e) c.val) (coreOf t c.val) ∧ t.mem = (atRetry s c.val e).mem ∧ t.tallies = (atRetry s c.val e).tallies)

/-- R28, R29, R49: the oldest result of an engine that paces itself reaches its register once it is readable, and not before, and is no longer on its
way; x0 and p0 discard it. No other register of that file changes. -/
def Obligations.ResultsLand : Prop :=
  (∀ (s : State) (c : CoreId) (e : Engine) (p : Pending),
    let k := coreOf s c.val
    (engOf k e).pend.find? (fun q => !q.landed) = some p → scheduled k e = false → (engOf k e).held = none →
      (s.clock.cycle < p.ready → exec (.resultLand c e) s = .next s)
      ∧ (p.ready ≤ s.clock.cycle → ∃ t, exec (.resultLand c e) s = .next t ∧ CoreOnly s t c.val
        ∧ (engOf (coreOf t c.val) e).pend = (engOf k e).pend.filter (fun q => q ≠ p)
        ∧ (∀ r v, p.write = .x r v → xFile (engOf (coreOf t c.val) e) r = (if r = 0 then 0 else v)
            ∧ (∀ r', r' ≠ r → xFile (engOf (coreOf t c.val) e) r' = xFile (engOf k e) r') ∧ (coreOf t c.val).v = k.v ∧ (coreOf t c.val).p = k.p
            ∧ (coreOf t c.val).d = k.d)
        ∧ (∀ r i v, p.write = .v r [(i, v)] → i < 256 → vLane (coreOf t c.val) r i = v
            ∧ (∀ r' j, j < 256 → r' ≠ r ∨ j ≠ i → vLane (coreOf t c.val) r' j = vLane k r' j) ∧ (coreOf t c.val).p = k.p)
        ∧ (∀ r w, p.write = .p r w → pFile (coreOf t c.val) r = (if r = 0 then BitVec.allOnes 256 else w) ∧ (coreOf t c.val).v = k.v)
        ∧ (∀ r bs, p.write = .d r bs → bs.length = 128 → dImage (coreOf t c.val) r = bs ∧ ∀ r', r' ≠ r → dImage (coreOf t c.val) r' = dImage k r')))

/-- R68: the oldest store of the compute engine becomes visible 8 cycles after its issue, and not before: its bytes stand in memory at their place and every other byte is unchanged. R85,
R27, R86, Tables 1.12 and 3.9: a range whose agent's last access is done retires whole, and what it held is looked at again; where nothing waits,
nothing else changes. A read of `CORE_STALL` answers both counters and clears them; one of `SB_STAT` answers `HIGH` and `USED` and sets `HIGH` to
`USED`. -/
def Obligations.StoresRangesAndCounters : Prop :=
  (∀ (s : State) (c : CoreId) (st : PendStore) (rest : List PendStore), (coreOf s c.val).stores = st :: rest →
      (s.clock.cycle < st.cyc + 8 → exec (.storeVisible c) s = .next s)
      ∧ (st.cyc + 8 ≤ s.clock.cycle → ∃ t, exec (.storeVisible c) s = .next t ∧ (coreOf t c.val).stores = rest ∧ readMem t (spadAddr s c.val st.off) st.bytes.length = st.bytes
        ∧ (∀ a, a < spadAddr s c.val st.off ∨ spadAddr s c.val st.off + st.bytes.length ≤ a → readByte t a = readByte s a)
        ∧ SameFiles (coreOf s c.val) (coreOf t c.val) ∧ t.tallies = s.tallies))
  ∧ (∀ (s : State) (c : CoreId),
      let k := coreOf s c.val
      (∀ i r, k.ranges[i]? = some r → r.done = true → turnsOf s (c.val / 32) = [] → kilnCmds s (14 + c.val / 32) = [] → k.chains = [] → k.waiters = [] →
        (herdOf s (c.val / 32)).cmds = [] →
        (∀ e h, (engOf k e).held = some h → h.cause ≠ .range) →
        ∃ t, exec (.scoreboardRangeRetire c i) s = .next t ∧ CoreOnly s t c.val ∧ coreOf t c.val = { k with ranges := k.ranges.eraseIdx i, olds := k.olds.filter fun o => o.agent != r.agent })
      ∧ (∃ t, exec (.coreStallRead c) s = .next t ∧ t.host.data = some (BitVec.ofNat 64 (k.waitCyc * 2 ^ 32 + k.holdCyc))
          ∧ coreOf t c.val = { k with waitCyc := 0, holdCyc := 0 } ∧ t.mem = s.mem ∧ t.tallies = s.tallies)
      ∧ (∃ t, exec (.sbStatRead c) s = .next t ∧ t.host.data = some (BitVec.ofNat 64 (k.sbHigh * 2 ^ 16 + k.ranges.length))
          ∧ coreOf t c.val = { k with sbHigh := k.ranges.length } ∧ t.mem = s.mem ∧ t.tallies = s.tallies))


/-! ### Unit commands, the Turn unit, the Mover (chapters 2, 4, 10, 11 and 13) -/

/-- R60, R119, R261, R269, R271, R275, R301, R237: a unit command that is ready leaves its core for its unit with the values that its registers hold at
issue, and its engine goes on: a Turn to the cluster's queue, `mov.` to a channel of the cluster, a chain to its core's queue, a Herd command to
its unit, a Kiln command to the command path of its cluster. -/
def Obligations.UnitCommandsIssue : Prop :=
  ∀ (s : State) (sl : Slot) (d1 d2 d3 xa xb : Reg) (v : BitVec 12),
    let c := sl.core.val
    let x := slotX s sl xa
    let g := c / 32 * 128 + bits x 6 0
    let img := fun (a : State) (r : Reg) => dVal (coreOf a c) sl.eng r
    let st0 := fun (op : Nat) (rs : List RegName) (ef : Effect) => ({ place := 2, slot := sl, opcode := op, reads := .x xa :: rs, effect := ef } : Staged)
    let st2 := fun (op : Nat) (rs : List RegName) (ef : Effect) => { st0 op rs ef with newT2 := true }
    let kiln := fun (i : Instr) (opcode op : Nat) => Through s i (st2 opcode [] (.kiln op x v)) (fun a => kilnIssue a c op sl.eng x v)
    let herd := fun (i : Instr) (opcode op : Nat) (bad : Bool) (rs : List RegName) =>
      Through s i { st2 opcode rs (.herd op d1 x v) with badEnc := bad } (fun a => herdIssue a c op (img a d1) x v)
    let chain := fun (i : Instr) => Through s i { st2 0x40 [.d d1, .d d2, .d d3] (.chain d1 d2 d3 x v) with only := some .compute }
      (fun a => chainIssue a c (img a d1) (img a d2) (img a d3) d3.val x v)
    let go := fun (h : Chan) => ({ h with st := if h.ring.isSome then 2 else 1, head := slotX s sl xb, pace := 0, desc := none, cause := 0, fault := none, got := [] } : Chan)
    Through s (.turn sl d1 d2 xa v) (st0 0x30 [.d d1, .d d2] (.turn d1 d2 x v)) (fun a => turnIssue a c (img a d1) (img a d2) x v)
    ∧ Through s (.movGo sl xa xb) (st0 0x34 [.x xb] (.movGo x (slotX s sl xb))) (fun a => setChan a g (go (chanOf a g)))
    ∧ Through s (.movRing sl xa xb) (st2 0x35 [.x xb] (.movRing x (slotX s sl xb)))
        (fun a => if slotX s sl xb = 0 then setChan a g { chanOf a g with ring := none } else bindRing a g (slotX s sl xb))
    ∧ Through s (.movAbort sl xa) (st0 0x36 [] (.movAbort x)) (fun a => abortChan a g 1)
    ∧ chain (.chain sl d1 d2 d3 xa v) ∧ chain (.chainDeferred sl d1 d2 d3 xa v)
    ∧ herd (.herdRoute sl d1 xa v) 0x48 0 false [.d d1] ∧ herd (.herdPack sl d1 xa v) 0x49 1 false [.d d1]
    ∧ (let b := decide (d1 ≠ 0)
       (bits x 23 22 = 0 → herd (.herdSendOpen sl d1 xa v) 0x4A 2 b []) ∧ (bits x 23 22 = 1 → herd (.herdSendDispatch sl d1 xa v) 0x4A 3 b [])
       ∧ (bits x 23 22 = 2 → herd (.herdSendReturn sl d1 xa v) 0x4A 4 b []) ∧ (bits x 23 22 = 3 → herd (.herdSendCancel sl d1 xa v) 0x4A 5 b []))
    ∧ herd (.herdComb sl d1 xa v) 0x4B 6 false [.d d1]
    ∧ kiln (.kilnStep sl xa v) 0x50 0 ∧ kiln (.kilnFire sl xa v) 0x51 1 ∧ kiln (.kilnCastCount sl xa v) 0x52 4
    ∧ kiln (.kilnCastThreshold sl xa v) 0x52 4 ∧ kiln (.kilnGrow sl xa v) 0x53 5 ∧ kiln (.kilnGrowFold sl xa v) 0x53 5
    ∧ kiln (.kilnGrowEmpty sl xa v) 0x53 5 ∧ kiln (.kilnSel sl xa v) 0x54 6 ∧ kiln (.kilnFill sl xa v) 0x55 2 ∧ kiln (.kilnExport sl xa v) 0x56 3

/-- R60, R224, R301, R320, R237: what the units do with a command that arrives. A Turn or a chain takes a credit and stands at the end of its
queue, and waits there behind one that is under way; a Herd command waits in its unit's queue while the unit cannot take it (R67, R84); a Herd or
Kiln command refused at its checks returns its credit, advances no tally, writes no byte and does not stop its core; a Kiln command whose block
another agent holds waits at the command path, among the registrations that wait. R119, R121: a Turn whose
permutation is the identity and whose padded extents match reads position n for position n; a command whose writes have committed leaves the
queue, advances its tally by 1 and returns its credit, and the unit looks at the next. -/
def Obligations.UnitsTakeAndComplete : Prop :=
  (∀ (a : State) (c : Nat) (i1 i2 i3 : List Byte) (w : W64) (v : BitVec 12) (r op : Nat) (e : Engine),
      (∀ q rest, turnsOf a (c / 32) = q :: rest → (q.ready || q.chain.isSome) = true →
         let t := turnIssue a c i1 i2 w v
         turnsOf t (c / 32) = q :: rest ++ [{ core := c, d1 := i1, d2 := i2, ctl := w, tally := v }]
         ∧ mget 0 (coreOf t c).used 0 = mget 0 (coreOf a c).used 0 + 1 ∧ SameFiles (coreOf a c) (coreOf t c) ∧ t.mem = a.mem ∧ t.tallies = a.tallies)
      ∧ ((∃ x ∈ (coreOf a c).chains, x.deferred = false) → bit w 63 = false →
           (∀ x ∈ (coreOf a c).chains, x.accepted = true ∧ x.serial ≠ (coreOf a c).chainSer) →
         let t := chainIssue a c i1 i2 i3 r w v
         (∃ x, (coreOf t c).chains = (coreOf a c).chains ++ [x] ∧ x.accepted = false ∧ x.d1 = i1 ∧ x.d2 = i2 ∧ x.d3 = i3 ∧ x.ctl = w ∧ x.tally = v
            ∧ x.serial = (coreOf a c).chainSer)
         ∧ mget 0 (coreOf t c).used 1 = mget 0 (coreOf a c).used 1 + 1 ∧ SameFiles (coreOf a c) (coreOf t c) ∧ t.mem = a.mem ∧ t.tallies = a.tallies)
      ∧ ((herdOf a (c / 32)).cmds = [] →
         let cmd : HerdCmd := { id := (herdOf a (c / 32)).serial, core := c, ctx := ctxOf (coreOf a c), op := op, ctl := w, off := bits w 20 0, tally := v, d1 := i1 }
         let b := modHerd (modCore a c fun k => takeCredit k 2) (c / 32) fun h => { h with serial := h.serial + 1, cmds := [cmd] }
         let r := herdTake b (c / 32) cmd
         let t := herdIssue a c op i1 w v
         (r.1 = false → (herdOf t (c / 32)).cmds = [cmd] ∧ mget 0 (coreOf t c).used 2 = mget 0 (coreOf a c).used 2 + 1
            ∧ SameFiles (coreOf a c) (coreOf t c) ∧ t.mem = a.mem ∧ t.tallies = a.tallies)
         ∧ (∀ f, r.1 = true → f.cls ≠ 9 → lowest (herdFlts r.2 c op i1 w v) = some f →
            (∀ cl, mget 0 (coreOf t c).used cl = mget 0 (coreOf a c).used cl) ∧ t.tallies = a.tallies ∧ t.mem = a.mem
            ∧ (herdOf t (c / 32)).pairs = (herdOf a (c / 32)).pairs ∧ (herdOf t (c / 32)).cmds = []
            ∧ (coreOf t c).faulted = (coreOf a c).faulted ∧ (coreOf t c).stopNext = (coreOf a c).stopNext ∧ SameFiles (coreOf a c) (coreOf t c)))
      ∧ (w.toNat % 64 ≠ 0 →
         let t := kilnIssue a c op e w v
         (∀ cl, mget 0 (coreOf t c).used cl = mget 0 (coreOf a c).used cl) ∧ t.tallies = a.tallies ∧ t.mem = a.mem ∧ t.kilns = a.kilns
         ∧ (coreOf t c).faulted = (coreOf a c).faulted ∧ (coreOf t c).stopNext = (coreOf a c).stopNext ∧ SameFiles (coreOf a c) (coreOf t c))
      ∧ (w.toNat % 64 = 0 → spadFlt (coreOf a c) w.toNat 192 = none → kilnCmds a (14 + c / 32) = [] →
         canRegister (coreOf a c) .kiln [(w.toNat, 128, false)] = false →
         let t := kilnIssue a c op e w v
         kilnCmds t (14 + c / 32) = [{ op := op, core := c, eng := e, ctx := ctxOf (coreOf a c), off := w.toNat, tally := v }]
         ∧ (∃ w ∈ (coreOf t c).waiters, w.agent = .kiln) ∧ (coreOf t c).ranges = (coreOf a c).ranges
         ∧ mget 0 (coreOf t c).used 3 = mget 0 (coreOf a c).used 3 + 1 ∧ SameFiles (coreOf a c) (coreOf t c) ∧ t.mem = a.mem ∧ t.tallies = a.tallies))
  ∧ ((∀ (w : W64) (i1 i2 : List Byte) (n : Nat), turnPerm w = [0, 1, 2, 3, 4] →
       (∀ k, k < 5 → ((Desc.of i2).dim k).pext = ((Desc.of i1).dim k).pext) → turnSource w (Desc.of i1) (Desc.of i2) n = n)
    ∧ ∀ (s : State) (k : ClusterId) (q : TurnCmd) (rest : List TurnCmd), turnsOf s k.val = q :: rest → q.ready = true → awaiting s q.core .turn = false →
        ∃ u, exec (.turnComplete k) s = .next (turnService u k.val) ∧ turnsOf u k.val = rest ∧ u.mem = s.mem
          ∧ (∀ x, (coreOf u x).ranges = (retireList (coreOf s x) (agentAt q.core .turn x)
               (rangesAt (turnRanges s q.core (Desc.of q.d1) (Desc.of q.d2)) x)).ranges)
          ∧ mget 0 (coreOf u q.core).used 0 = mget 0 (coreOf s q.core).used 0 - 1 ∧ SameFiles (coreOf s q.core) (coreOf u q.core)
          ∧ (∀ p, translate s q.core q.tally = some p → tallyAt s p + 1 < 2 ^ 48 → tallyAt u p = tallyAt s p + 1 ∧ ∀ r, r ≠ p → tallyAt u r = tallyAt s r)
          ∧ (rest = [] → turnService u k.val = u))

/-- R262, R268, R270, R271, R84, R87: a running channel fetches the descriptor at its head, reads what it names, registers its ranges or waits behind
those in the way (none where it is unfenced), and waits for a pace
where it says so; one bound to a ring whose level is at or below `STOP` pauses, and resumes at `START`; a pace is taken one at a time; an abort
of the MC stops a paused channel at once and lets a running one finish what it has issued. None of these writes a tally. R267, R268: a descriptor
that has issued and completed everything ends: its event advances its tally by `EINC` in its own cluster, its pace event raises the named
channel's pace by 1, its ranges retire, and the channel goes to `MD_NEXT`, or is idle where that is 0. -/
def Obligations.MoverControl : Prop :=
  (∀ (s : State) (k : ClusterId) (ch : Fin 128),
      let g := k.val * 128 + ch.val
      let h := chanOf s g
      let ga := h.head
      let s1 := (chanAsk s g [(ga, 64)]).2
      let m := chanBytes s1 g ga 64
      let s2 := (chanAsk s1 g (mdReads s1 g m)).2
      let tables := if mdKind m = 0 ∨ mdKind m = 3 then mdTables s2 g (chanBytes s2 g (mdSrc m) 128) else []
      let s3 := (chanAsk s2 g tables).2
      let src := if mdKind m = 0 ∨ mdKind m = 3 then chanBytes s3 g (mdSrc m) 128 else []
      let dst := if mdKind m = 0 then chanBytes s3 g (mdDst m) 128 else []
      let rs := mdRanges s3 g m
      (h.st = 1 → h.desc = none → h.ring = none → lowest (mdPlaceFlts s g ga 64 64 6) = none →
         (chanAsk s g [(ga, 64)]).1 = true → lineFlt (chanRd s1 g ga) (bits ga 47 0) 64 = none →
         (chanAsk s1 g (mdReads s1 g m)).1 = true → (chanAsk s2 g tables).1 = true → lowest (mdFlts s3 g ga m) = none →
         (canRegisterMany s3 (chanCore s3 g) (.mover g) rs = false →
            exec (.moverDescriptorFetch k ch) s = .next (queueMany s3 (chanCore s3 g) (.mover g) rs))
         ∧ (canRegisterMany s3 (chanCore s3 g) (.mover g) rs = true →
         ∃ t, exec (.moverDescriptorFetch k ch) s = .next t ∧ t = { registerMany s3 (chanCore s3 g) (.mover g) rs with chans := t.chans }
           ∧ t.mem = s.mem ∧ t.tallies = s.tallies
           ∧ (chanOf t g).desc = some m ∧ (chanOf t g).st = (if bit (mdCtl m) 58 = true then 3 else 1) ∧ (chanOf t g).src = src ∧ (chanOf t g).dst = dst
           ∧ (chanOf t g).ranges = rs ∧ (bit (mdCtl m) 59 = true → rs = [])
           ∧ (chanOf t g).unit = 0 ∧ (chanOf t g).bytes = 0 ∧ (chanOf t g).pace = h.pace ∧ (chanOf t g).head = ga ∧ ∀ o, o ≠ g → chanOf t o = chanOf s o))
      ∧ (∀ b l, h.st = 1 → h.desc = none → h.ring = some b → ringLevel s g b = some l → l ≤ numAt b 8 4 →
         exec (.moverDescriptorFetch k ch) s = .next (setChan s g { h with st := 2 }))
      ∧ (∀ b l, h.st = 2 → h.ring = some b → ringLevel s g b = some l →
         exec (.ringResume k ch) s = .next (if numAt b 12 4 ≤ l then setChan s g { h with st := 1 } else s))
      ∧ (h.st = 3 → exec (.moverPaceTake k ch) s = .next (if h.pace = 0 then s else setChan s g { h with st := 1, pace := h.pace - 1 }))
      ∧ (∃ t, exec (.mcAbort k ch) s = .next t ∧ t.tallies = s.tallies
          ∧ (chanFree h = true → t = s)
          ∧ (h.st = 1 → h.desc ≠ none → t = setChan s g { h with st := 4, cause := 4 })
          ∧ (h.st = 2 ∨ h.st = 3 → (chanOf t g).st = 5 ∧ (chanOf t g).cause = 4 ∧ (chanOf t g).desc = none ∧ (chanOf t g).reqs = [])))
  ∧ (∀ (s : State) (k : ClusterId) (ch : Fin 128) (m : List Byte),
      let g := k.val * 128 + ch.val
      let h := chanOf s g
      let w := mdCtl m
      let o := k.val * 128 + bits w 43 37
      h.desc = some m → h.st = 1 → chanWhole s g h m = true → mdRsig m = 0 →
        (bit w 57 = true → ∃ p, translateCtx s ((chanCtx h).getD 0) (chanCore s g) (BitVec.ofNat 12 (bits w 55 44)) = some p ∧ p / 4096 = k.val
          ∧ tallyAt s p + bits w 31 0 < 2 ^ 48) → (bit w 56 = true → (chanOf s o).pace < 2 ^ 32 - 1) →
        ∃ t, exec (.moverDescriptorComplete k ch) s = .next t ∧ (chanOf t g).desc = none ∧ (chanOf t g).head = mdNext m ∧ (chanOf t g).ranges = []
          ∧ (chanOf t g).st = (if mdNext m = 0 then 0 else 1) ∧ t.mem = s.mem
          ∧ (∀ r, tallyAt t r = tallyAt s r + (if bit w 57 = true ∧ translateCtx s ((chanCtx h).getD 0) (chanCore s g) (BitVec.ofNat 12 (bits w 55 44)) = some r
               then bits w 31 0 else 0))
          ∧ (o ≠ g → (chanOf t o).pace = (chanOf s o).pace + (if bit w 56 = true then 1 else 0)))

/-- R266, R272, R273: a list element's next request takes at most the rest of its 512-byte block and reads it, where the bank ports are granted; the
oldest request whose data are here writes them and nothing else; one that goes to another device counts as committed only when its writes have
been acknowledged; a write in a line that R329 refuses ends the channel; a channel that stops writes its status record to `CH_SADDR`, holds no
descriptor, and reads as aborted, or as faulted after a fault. -/
def Obligations.MoverTransfers : Prop :=
  ∀ (s : State) (k : ClusterId) (ch : Fin 128),
    let g := k.val * 128 + ch.val
    let h := chanOf s g
    let c := chanCore s g
    (∀ m a len, h.desc = some m → h.st = 1 → tagsHeld h < 64 → mdKind m = 1 → h.unit < (sgList m).2 → h.entry = some (a, len) → h.off < len →
       isHere s (bits a 63 48) = true →
       let at_ := bits a 47 0 + h.off
       let n := Nat.min (512 - at_ % 512) (len - h.off)
       accessFlt s g .here at_ n false = none →
       ((askSpace s c (.mover g) .here false [(at_, n)]).1 = false →
          exec (.moverReadRequest k ch) s = .next (askSpace s c (.mover g) .here false [(at_, n)]).2)
       ∧ ((askSpace s c (.mover g) .here false [(at_, n)]).1 = true → lineFlt (memRd s (.mover g)) at_ n = none →
       ∃ t q, exec (.moverReadRequest k ch) s = .next t ∧ (chanOf t g).reqs = h.reqs ++ [q] ∧ q.data = some ((memRd s (.mover g)).bytes at_ n)
         ∧ q.ends = decide (h.off + n = len) ∧ q.acks = none
         ∧ (q.pieces.map fun p => (p.dest, p.len)) = [(some (bits (mdDst m + BitVec.ofNat 64 h.contig) 47 0 + h.off), n)]
         ∧ (chanOf t g).off = h.off + n ∧ (chanOf t g).unit = (if h.off + n = len then h.unit + 1 else h.unit)
         ∧ t.mem = s.mem ∧ t.tallies = s.tallies ∧ ∀ o, o ≠ g → chanOf t o = chanOf s o))
    ∧ (∀ q rest bs a n, h.reqs = q :: rest → q.acks = none → q.data = some bs → bs.length = n → q.pieces = [⟨some a, n⟩] →
         (h.dst.isEmpty = true ∨ (Desc.of h.dst).accw = false) → h.desc.map mdKind ≠ some 3 → ownRoom s (chanStream g) = true →
       (q.dev = some 0xFFFF → accessFlt s g .here a n true = none → (askSpace s c (.mover g) .here true [(a, n)]).1 = true →
         ((∀ w ∈ lineWrites [(a, bs)], partialBad s w.1 w.2.length = none) →
           ∃ t, exec (.moverWriteCommit k ch) s = .next t ∧ readMem t a n = bs ∧ (∀ b, b < a ∨ a + n ≤ b → readByte t b = readByte s b)
            ∧ (chanOf t g).reqs = rest ∧ (chanOf t g).bytes = h.bytes + n ∧ (chanOf t g).st = h.st ∧ t.tallies = s.tallies
            ∧ ∀ x, SameFiles (coreOf s x) (coreOf t x))
         ∧ ((∃ w ∈ lineWrites [(a, bs)], partialBad s w.1 w.2.length ≠ none) →
           ∃ t, exec (.moverWriteCommit k ch) s = .next t ∧ (chanOf t g).cause = 3 ∧ (chanOf t g).reqs = []
            ∧ ((chanOf t g).st = 4 ∨ (chanOf t g).st = 6) ∧ t.tallies = s.tallies))
       ∧ (∀ dv, q.dev = some dv → dv ≠ 0xFFFF → 0 < n →
           ∃ t, exec (.moverWriteCommit k ch) s = .next t ∧ (chanOf t g).reqs = { q with acks := some ((n + 511) / 512) } :: rest
            ∧ (chanOf t g).bytes = h.bytes ∧ t.mem = s.mem ∧ t.tallies = s.tallies ∧ t.cores = s.cores
            ∧ t.fabric.waiting.length = s.fabric.waiting.length + (n + 511) / 512))
    ∧ (chanMayStop s g = true → ∃ t, exec (.moverStop k ch) s = .next t ∧ (chanOf t g).st = (if h.cause = 3 then 6 else 5) ∧ (chanOf t g).desc = none
       ∧ (chanOf t g).reqs = [] ∧ (chanOf t g).ranges = [] ∧ t.tallies = s.tallies
       ∧ (isHere s (bits h.saddr 63 48) = true → memFlt s (coreOf s c) (bits h.saddr 63 48) (bits h.saddr 47 0) 64 true = none →
            (∀ w ∈ lineWrites [(bits h.saddr 47 0, chanStatus s g)], partialBad s w.1 w.2.length = none) →
            readMem t (bits h.saddr 47 0) 64 = chanStatus s g
            ∧ ∀ b, b < bits h.saddr 47 0 ∨ bits h.saddr 47 0 + 64 ≤ b → readByte t b = readByte s b))

/-! ### Streams and chains (chapters 1, 2, 11 and 9) -/

/-- R38, R40, R58, R118: the next entry of the oldest `qfetch` goes to the end of its queue where there is room, and waits where there is none; the next
entry of the oldest `qstore` leaves the front of its queue and its bytes are written at its place in the tensor. Each needs its bank ports: refused,
the stream is held and only the refusal is noted (R67, R70). -/
def Obligations.StreamsMove : Prop :=
  ∀ (s : State) (c : CoreId) (m : Stream),
    let k := coreOf s c.val
    let d := Desc.of m.image
    (∀ rest bs, k.fe.streams = .move m :: rest → (queueAt k m.q).length < 64 → (∀ dv, d.space s ≠ .far dv) → usesCache s c.val d = false →
       d.entry (streamRd s c.val m) m.next = some (.ok bs) →
       let ask := askSpace s c.val (.engine .fetch) (d.space s) false ((entryLines d (streamRd s c.val m) m.next).dedup.map fun l => (l, 64))
       (ask.1 = false → exec (.qfetchEntryArrival c) s = .next ask.2)
       ∧ (ask.1 = true → ∃ t, exec (.qfetchEntryArrival c) s = .next t ∧ queueAt (coreOf t c.val) m.q = queueAt k m.q ++ [padTo 64 bs]
         ∧ (∀ q, q ≠ m.q → queueAt (coreOf t c.val) q = queueAt k q) ∧ SameFiles k (coreOf t c.val) ∧ t.mem = s.mem ∧ t.tallies = s.tallies))
    ∧ (∀ rest, k.fe.streams = .move m :: rest → 64 ≤ (queueAt k m.q).length → exec (.qfetchEntryArrival c) s = .next s)
    ∧ (∀ bs rest, k.se.streams = [.move m] → queueAt k m.q = bs :: rest → d.space s = .spad → d.sparse = false → d.accw = false → d.unitCount ≠ 0 →
         d.entries ≠ 0 → ownRoom s c.val = true →
       let ws := d.entryWrites m.next (padTo 64 bs)
       let ask := askSpace s c.val (.engine .store) .spad true (ws.map fun w => (w.1, w.2.length))
       (ask.1 = false → exec (.storeEngineCommit c) s = .next ask.2)
       ∧ (ask.1 = true → ∃ t, exec (.storeEngineCommit c) s = .next t ∧ queueAt (coreOf t c.val) m.q = rest
         ∧ t.mem = (applyWr s .spad c.val (.engine .store) ws).mem ∧ t.tallies = s.tallies ∧ SameFiles k (coreOf t c.val)
         ∧ (coreOf t c.val).se.streams = (if d.entries ≤ m.next + 1 then [] else [.move { m with next := m.next + 1 }])))
    ∧ (k.se.streams = [.move m] → queueAt k m.q = [] → d.unitCount ≠ 0 → d.entries ≠ 0 → exec (.storeEngineCommit c) s = .next s)

/-- R276, R279: the stages of a chain, each for the next pass. The fetch stage reads the operands, at most two passes ahead, and turned operands take
their place in the Turn unit's queue; the Turn stage permutes them when their turn there has come (R121, R278: where it meets elements that
cannot be decoded the chain ends and its core stops); the build stage stages the tile image and the activation block; the pass loads, swaps and issues; the
last drain starts when every row has landed; the chain whose output is written leaves its queue and advances its tally. R226, R227: while the
compute engine waits at a yielding wait whose tally has not reached its target, or has stopped, the oldest deferred chain that has a piece ready
runs one: a shadow load and pass, or a drain or spill; nothing runs while the engine runs, or once the tally has reached it. -/
def Obligations.ChainStages : Prop :=
  (∀ (s : State) (c : CoreId) (i : Nat) (ch : Chain), chainAt s c.val i = some ch →
      let k := coreOf s c.val
      (ch.fetched = chPasses ch ∨ ch.fetched = ch.passed + 2 → exec (.chainFetchStage c i) s = .next s)
      ∧ (let p := ch.fetched
         let w := chWeights ch p
         let a := chActs ch p
         let at_ := BitVec.ofNat 64 (bits ch.ctl 52 42 * 1024)
         let ask := fun (x : State) (d : Desc) => match d.bounds false with
           | some (o, n) => askSpace x c.val (chainFetchAg c.val ch) (d.space x) false [(o.toNat, n)]
           | none => (true, x)
         let r1 := ask s w
         let r2 := ask r1.2 a
         ∀ wr ar, mayFetch s c.val ch = true → cbRtal ch = 0 → (cbTurn ch 0x30).isSome = true → (cbTurn ch 0x38).isSome = true →
           lowest (w.check s c.val {} at_ ++ a.check s c.val {} at_) = none → r1.1 = true →
           (r2.1 = false → exec (.chainFetchStage c i) s = .next r2.2)
           ∧ (r2.1 = true → elemWords r2.2 c.val w = .ok wr → elemWords r2.2 c.val a = .ok ar →
             ∃ t, exec (.chainFetchStage c i) s = .next t
               ∧ chainAt t c.val i = some { ch with fetched := p + 1, wRaw := mset [] ch.wRaw p wr.1, aRaw := mset [] ch.aRaw p ar.1
                                                    bad := mset none ch.bad p wr.2 }
               ∧ turnsOf t (c.val / 32) = turnsOf s (c.val / 32)
                   ++ [{ core := c.val, d1 := [], d2 := [], ctl := 0, tally := 0, chain := some ch.serial }]
               ∧ t.mem = s.mem ∧ t.tallies = s.tallies ∧ SameFiles k (coreOf t c.val)))
      ∧ (∀ q rest w, ch.turned < ch.fetched → turnsOf s (c.val / 32) = q :: rest → q.core = c.val → q.chain = some ch.serial →
           cbTurn ch 0x30 = some w →
         (mget none ch.bad ch.turned = none → cbTurn ch 0x38 = none →
          let a' := mset [] ch.aRaw ch.turned (mget [] ch.aRaw ch.turned)
          ∃ u, exec (.chainTurnStage c i) s
             = .next (turnService (setTurns (putChain s c.val { ch with turned := ch.turned + 1, wRaw := mset [] ch.wRaw ch.turned u, aRaw := a' })
                 (c.val / 32) rest) (c.val / 32))
           ∧ u.length = ({ Desc.of ch.d1 with dims := turnedDims (Desc.of ch.d1) (some w) } : Desc).elemCount
           ∧ ∀ n, n < u.length → u.getD n 0 = (mget [] ch.wRaw ch.turned).getD
               (turnSource w (Desc.of ch.d1) { Desc.of ch.d1 with dims := turnedDims (Desc.of ch.d1) (some w) } n) 0)
         ∧ (∀ r, mget none ch.bad ch.turned = some r → ∃ u, exec (.chainTurnStage c i) s = .next (turnService u (c.val / 32))
             ∧ (∀ x ∈ (coreOf u c.val).chains, x.serial ≠ ch.serial) ∧ u.tallies = s.tallies
             ∧ ((coreOf u c.val).faulted = true ∨ (coreOf u c.val).stopNext = true)))
      ∧ ((∀ q rest, turnsOf s (c.val / 32) = q :: rest → q.core ≠ c.val ∨ q.chain ≠ some ch.serial) → exec (.chainTurnStage c i) s = .next s)
      ∧ (let xs := (mget [] ch.wRaw ch.built).map (BitVec.ofNat 8)
         let ys := (mget [] ch.aRaw ch.built).map (BitVec.ofNat 8)
         let p := ch.built
         ch.built < ch.fetched → mget none ch.bad p = none → cbTurn ch 0x30 = none → cbTurn ch 0x38 = none → cbRtal ch = 0 → isImages (chWeights ch ch.built) = true → xs.length = tileBytes →
         ∃ t, exec (.chainImageBuild c i) s = .next t ∧ readMem t (spadAddr s c.val (cbAst ch p)) ys.length = ys
           ∧ (cbAst ch p + ys.length ≤ cbWst ch p ∨ cbWst ch p + tileBytes ≤ cbAst ch p → readMem t (spadAddr s c.val (cbWst ch p)) tileBytes = xs)
           ∧ (∀ a, (a < spadAddr s c.val (cbAst ch p) ∨ spadAddr s c.val (cbAst ch p) + ys.length ≤ a)
                → (a < spadAddr s c.val (cbWst ch p) ∨ spadAddr s c.val (cbWst ch p) + tileBytes ≤ a) → readByte t a = readByte s a)
           ∧ t.tallies = s.tallies ∧ SameFiles k (coreOf t c.val) ∧ (coreOf t c.val).passes = k.passes)
      ∧ (let tile := mget [] ch.images ch.passed
         let base := BitVec.ofNat 64 (cbWst ch ch.passed)
         ch.deferred = false → spillDue ch = false → ch.passed < ch.built → ch.draining = false → arrayFree s c.val = true → cbRtal ch = 0 →
           lowest (tileHdrFlt tile base ++ tileMetaFlt tile (List.range (tileNcol tile)) base) = none → tileNin tile = chNin ch →
           (pairOk (cbAop ch) (tileFmt tile) (Desc.of (chActImage ch ch.passed)).fmt && modeOk (cbAop ch) (setBits (cbWord ch 8) 21 21 (if ch.passed = 0 ∧ bit (cbWord ch 8) 21 = true then 1 else 0)) (tileS24 tile)) = true →
         ∃ t p, exec (.chainPass c i) s = .next t ∧ CoreOnly s t c.val ∧ (coreOf t c.val).passes = k.passes ++ [p] ∧ p.rows = cbRows ch ∧ p.op = cbAop ch
           ∧ p.tile = tile ∧ p.chain = some ch.serial ∧ (coreOf t c.val).active = tile ∧ (coreOf t c.val).hasTile = true ∧ SameFiles k (coreOf t c.val))
      ∧ (ch.deferred = false → drainReady ch = true → chainLanded k ch = true → k.drains = [] →
           lowest ((drainFlts s c.val s.clock.cycle (chOutImage ch) ch.aux 0 0 (chDrainCtl ch) ch.tally true 0).filter fun f => f.cls != 1 || f.sub == 0xB) = none →
         ∃ t d, exec (.chainDrainStage c i) s = .next t ∧ (coreOf t c.val).drains = [d] ∧ d.chain = some ch.serial ∧ d.ctl = chDrainCtl ch ∧ d.slot = 0
           ∧ CoreOnly s t c.val ∧ SameFiles k (coreOf t c.val))
      ∧ (ch.drained = true → ch.stored = true → awaiting s c.val (.chain (if ch.deferred then 1 else 0)) = false →
         ∃ u, exec (.chainStoreStage c i) s = .next (chainService u c.val) ∧ (∀ x ∈ (coreOf u c.val).chains, x.serial ≠ ch.serial) ∧ u.mem = s.mem
           ∧ (∀ p, translate s c.val ch.tally = some p → tallyAt s p + 1 < 2 ^ 48 → tallyAt u p = tallyAt s p + 1 ∧ (∀ r, r ≠ p → tallyAt u r = tallyAt s r)
                ∧ (coreOf u c.val).unwaited = (if ch.deferred then k.unwaited else k.unwaited ++ [⟨bits (cbWord ch 8) 16 16, ch.tally⟩]))
           ∧ SameFiles k (coreOf u c.val)))
  ∧ (∀ (s : State) (c : CoreId),
      let k := coreOf s c.val
      (piecesMayStart s c.val = true
        ↔ k.faulted = false ∧ (k.ce.run = .stopped ∨ ∃ v x, yieldWait k = some (v, x) ∧ tallyMet s c.val v (BitVec.ofNat 64 (bits x 62 0)) = false))
      ∧ (piecesMayStart s c.val = false → exec (.deferredPassPiece c) s = .next s ∧ exec (.deferredDrainPiece c) s = .next s)
      ∧ (∀ ch, nextPiece s c.val = some ch →
          ch ∈ k.chains ∧ ch.deferred = true ∧ ch.accepted = true
          ∧ exec (.deferredPassPiece c) s = .next (if passPieceReady s c.val ch = true then chainPassNow s c.val ch else s)
          ∧ exec (.deferredDrainPiece c) s
              = .next (if drainPieceReady k ch = true then chainDrainStart s c.val ch (if drainReady ch then chDrainCtl ch else chSpillCtl ch) else s))
      ∧ (∀ ch, ch.deferred = true → ch.accepted = true → ch.passed < ch.built → ch.draining = false → spillDue ch = false → arrayFree s c.val = true → cbRtal ch = 0 →
          let tile := mget [] ch.images ch.passed
          let base := BitVec.ofNat 64 (cbWst ch ch.passed)
          let w := setBits (cbWord ch 8) 21 21 (if ch.passed = 0 ∧ bit (cbWord ch 8) 21 = true then 1 else 0)
          lowest (tileHdrFlt tile base ++ tileMetaFlt tile (List.range (tileNcol tile)) base) = none → tileNin tile = chNin ch →
          (pairOk (cbAop ch) (tileFmt tile) (Desc.of (chActImage ch ch.passed)).fmt && modeOk (cbAop ch) w (tileS24 tile)) = true →
          let t := chainPassNow s c.val ch
          CoreOnly s t c.val ∧ SameFiles k (coreOf t c.val) ∧ (coreOf t c.val).passCount = k.passCount
          ∧ ∃ p, (coreOf t c.val).passes = k.passes ++ [p] ∧ p.chain = some ch.serial ∧ p.rows = cbRows ch))

/-! ### Signals, folds and the relay (chapters 11 and 12) -/

/-- R287, R284, R280, R281: a signal of the local network advances its tally when it arrives; where the tally would pass its range it keeps its value, and the core that signalled
stops, or the Mover channel ends on the fault; the
next relayed image enters when the one before it has reached core 0; an image that reaches a core goes to its buffer where the core is a
receiver with room, and its relay tally advances. -/
def Obligations.LocalNetworkArrivals : Prop :=
  (∀ (s : State) (i : Nat) (q : LocalSig), s.localSigs[i]? = some q →
     ∃ t, exec (.localSignalArrive i) s = .next t ∧ t.localSigs = s.localSigs.eraseIdx i ∧ (∀ r, r ≠ q.phys → tallyAt t r = tallyAt s r)
       ∧ (tallyAt s q.phys + q.amount < 2 ^ 48 → tallyAt t q.phys = tallyAt s q.phys + q.amount ∧ t.mem = s.mem ∧ t.cores = s.cores ∧ t.mcq = s.mcq)
       ∧ (2 ^ 48 ≤ tallyAt s q.phys + q.amount → q.chan = none → tallyAt t q.phys = tallyAt s q.phys
            ∧ ((coreOf t q.core).faulted = true ∨ (coreOf t q.core).stopNext = true))
       ∧ (∀ g, 2 ^ 48 ≤ tallyAt s q.phys + q.amount → q.chan = some g → chanFree (chanOf s g) = false →
            tallyAt t q.phys = tallyAt s q.phys ∧ (chanOf t g).cause = 3))
  ∧ ∀ (s : State) (k : ClusterId),
      let r := relayOf s k.val
      (∀ im rest, r.toEnter = im :: rest → (∀ x, r.ring.getLast? = some x → 1 ≤ x.pos) →
         ∃ t, exec (.relayImageEnter k) s = .next t ∧ (relayOf t k.val).ring = r.ring ++ [im] ∧ (relayOf t k.val).toEnter = rest ∧ t = { s with relays := t.relays })
      ∧ (∀ im rest x, r.toEnter = im :: rest → r.ring.getLast? = some x → x.pos = 0 → exec (.relayImageEnter k) s = .next s)
      ∧ (∀ i im, r.ring[i]? = some im → (∀ j x, i = j + 1 → r.ring[j]? = some x → im.pos + 2 ≤ x.pos) →
         let c := k.val * 32 + im.pos
         let takes := im.mask.getLsbD im.pos = true ∧ ctxOf (coreOf s c) = chanCtx (chanOf s im.chan) ∧ goodCore s c = true
         (takes → (coreOf s c).relayBuf.length < 2 → ∃ t, exec (.relayHop k i) s = .next t ∧ (coreOf t c).relayBuf = (coreOf s c).relayBuf ++ [im]
            ∧ (∀ p, translate s c im.tally = some p → tallyAt s p + 1 < 2 ^ 48 → tallyAt t p = tallyAt s p + 1) ∧ t.mem = s.mem
            ∧ (relayOf t k.val).ring = if im.pos = 31 then r.ring.eraseIdx i else r.ring.set i { im with pos := im.pos + 1 })
         ∧ (takes → 2 ≤ (coreOf s c).relayBuf.length → exec (.relayHop k i) s = .next s)
         ∧ (¬ takes → ∃ t, exec (.relayHop k i) s = .next t ∧ t = { s with relays := t.relays }
            ∧ (relayOf t k.val).ring = if im.pos = 31 then r.ring.eraseIdx i else r.ring.set i { im with pos := im.pos + 1 }))

/-- R293, R284, R297, R357: the oldest counted signal that a stream holds acts once the bytes counted cover it, takes them from the count and
advances its tally by 1; before that nothing happens; where the tally would pass its range it keeps its value, and a core of this device that
sent the signal stops. A round of a cluster's fold that is full advances every tally named by its arrivals, once
for each arrival that names it, and the slot is ready for the next round; a fold of a fabric group sends its completions to its children. R297:
an arrival sets the core's bit of the fold's round and notes the tally it names; no tally advances before the round completes. -/
def Obligations.SignalsActAndFolds : Prop :=
  ((∀ (s : State) (src : BitVec 16) (stream : BitVec 12),
       let key := src.toNat * 4096 + stream.toNat
       let e := mget {} s.srcs key
       (∀ x rest, e.held = x :: rest → e.uncredited < x.bytes → exec (.countedSignalAct src stream) s = .next s)
       ∧ (∀ x rest p, e.held = x :: rest → x.bytes ≤ e.uncredited → rsigTally s x.ctx x.t.toNat = some p →
          ∃ t, exec (.countedSignalAct src stream) s = .next t ∧ (∀ r, r ≠ p → tallyAt t r = tallyAt s r)
            ∧ (tallyAt s p + 1 < 2 ^ 48 → tallyAt t p = tallyAt s p + 1 ∧ t.mem = s.mem ∧ t.cores = s.cores
                ∧ mget {} t.srcs key = { uncredited := e.uncredited - x.bytes, held := rest } ∧ ∀ o, o ≠ key → mget {} t.srcs o = mget {} s.srcs o)
            ∧ (2 ^ 48 ≤ tallyAt s p + 1 → tallyAt t p = tallyAt s p ∧ (src ≠ s.fabric.devaddr → t.cores = s.cores)
                ∧ (src = s.fabric.devaddr → stream.toNat < 0x400 →
                    (coreOf t (stream.toNat % 0x200)).faulted = true ∨ (coreOf t (stream.toNat % 0x200)).stopNext = true))))
    ∧ ∀ (s : State) (k : ClusterId) (f : Fin 16),
        let v := foldOf s k.val f.val
        (foldReady s k.val f.val = false → exec (.foldComplete k f) s = .next s)
        ∧ (foldReady s k.val f.val = true → foldScope v = 1 →
            ∃ t, exec (.foldComplete k f) s = .next t ∧ foldOf t k.val f.val = { v with arrived := 0, named := [], rounds := v.rounds + 1, kids := [], sentUp := false }
              ∧ (∀ p, tallyAt s p + (v.named.map (·.phys)).count p < 2 ^ 48 → tallyAt t p = tallyAt s p + (v.named.map (·.phys)).count p)
              ∧ ((∀ p, tallyAt s p + (v.named.map (·.phys)).count p < 2 ^ 48) → t.mem = s.mem ∧ t.cores = s.cores ∧ t.fabric = s.fabric))
        ∧ (foldReady s k.val f.val = true → foldScope v = 3 → ∃ t, exec (.foldComplete k f) s = .next t
            ∧ (t.fabric.waiting.drop s.fabric.waiting.length).map (fun w => (w.frame.typ, w.frame.dst))
                = (groupChildren s (bits v.grp 11 0)).map (fun d => (8, BitVec.ofNat 16 d))))
  ∧ (∀ (s : State) (sl : Slot) (v : BitVec 12) (imm : BitVec 15) (p : Nat),
      let c := sl.core.val
      let f := bits imm 3 0
      let st : Staged := { place := 2, slot := sl, opcode := 0x15, badEnc := bits imm 14 4 != 0, effect := .farr v f }
      let a := atIssue s st
      Ready s st → translate a c v = some p → ∃ t, exec (.farr sl v imm) s = .next t ∧ t.tallies = a.tallies
        ∧ (foldOf t (c / 32) f).arrived = (foldOf a (c / 32) f).arrived ||| BitVec.ofNat 32 (2 ^ (c % 32))
        ∧ (foldOf t (c / 32) f).named = (foldOf a (c / 32) f).named
            ++ [{ core := c, eng := sl.eng, pc := (engAt a st).pc, phys := p, amount := 1, virt := v }]
        ∧ SameFiles (coreOf a c) (coreOf t c) ∧ t.mem = a.mem)
/-! ### Herd and Kiln (chapters 7, 10 and 13) -/

/-- R309, R310, R311: at its home a row from a source that is on the list and whose count message has not acted is kept where there is room or where it stands
before the last row kept, which it then replaces; its bytes go to the place it is kept at and nowhere else; it waits while its stream has no
room (R295). A count message that differs from
the rows received, or whose sender is no source, is refused and counted, and the pair is as it was. -/
def Obligations.HerdAtHome : Prop :=
  (∀ (x : HerdExpert) (tag : W64) (score : W32), x.kept.length ≤ x.cap →
     let r := keepArrival x tag score
     r.1.demand = x.demand + 1 ∧ r.1.cap = x.cap ∧ r.1.entry = x.entry ∧ r.1.kept.length ≤ x.cap
     ∧ (x.kept.length < x.cap → r.2 = some x.kept.length ∧ r.1.kept.length = x.kept.length + 1 ∧ r.1.drop0 = x.drop0)
     ∧ (∀ w, x.kept.length = x.cap → x.kept.getLast? = some w →
          if herdBefore ⟨tag, score, 0⟩ w then r.2 = some w.pos ∧ r.1.kept = keptInsert ⟨tag, score, w.pos⟩ x.kept.dropLast
          else r.2 = none ∧ r.1.kept = x.kept))
  ∧ ∀ (s : State) (i : Nat) (m : HerdMsg) (p : HerdPair),
      let k := m.cluster
      let src := m.srcDev * 16 + m.srcCl
      let serial := bits m.tag 63 52
      let half := bit m.tag 51
      s.herdMsgs[i]? = some m → pairAt s k serial half = some p →
      (m.kind = 0 → (streamRoom s m.srcDev (herdStream m.srcCl) && ownRoom s (herdStream k)) = false → exec (.herdRowArrival i) s = .next s)
      ∧ (∀ x, m.kind = 0 → (streamRoom s m.srcDev (herdStream m.srcCl) && ownRoom s (herdStream k)) = true → mget none p.experts m.expert = some x → m.skey = ctxKey s p.ctx → src ∈ p.sources → src ∉ p.counts → p.final = false →
         let r := keepArrival x m.tag m.score
         let a := fun (q : Nat) => bits (wordAt x.entry 8) 47 0 + q * hbRw p.blk
         ∃ u q, exec (.herdRowArrival i) s = .next (herdAnswer u m true) ∧ u.herdMsgs = s.herdMsgs.eraseIdx i ∧ pairAt u k serial half = some q
           ∧ mget none q.experts m.expert = some r.1 ∧ mget 0 q.rowsFrom src = mget 0 p.rowsFrom src + 1 ∧ q.counts = p.counts ∧ u.tallies = s.tallies
           ∧ (r.2 = none → u.mem = s.mem)
           ∧ (∀ n, r.2 = some n → (∀ w ∈ lineWrites [(a n, m.row)], partialBad s w.1 w.2.length = none) → readMem u (a n) m.row.length = m.row
               ∧ ∀ b, b < a n ∨ a n + m.row.length ≤ b → readByte u b = readByte s b))
      ∧ (m.kind = 1 → rowsBefore s m = false → rowsMissing s m = false → m.skey = ctxKey s p.ctx → src ∈ p.sources → src ∉ p.counts →
         mget 0 p.rowsFrom src = m.count →
         ∃ u q, exec (.herdCountMessage i) s = .next (herdAnswer u m true) ∧ pairAt u k serial half = some q ∧ q.counts = p.counts ++ [src] ∧ q.experts = p.experts
           ∧ u.mem = s.mem ∧ u.tallies = s.tallies)
      ∧ (m.kind = 1 → rowsBefore s m = false → rowsMissing s m = false → (src ∉ p.sources ∨ mget 0 p.rowsFrom src ≠ m.count) →
         ∃ u, exec (.herdCountMessage i) s = .next (herdAnswer u m false) ∧ pairAt u k serial half = some p ∧ u.mem = s.mem ∧ u.tallies = s.tallies
           ∧ (herdOf u k).refused = satAdd 32 (herdOf s k).refused 1)

/-- R312, R313, R314, R315: when every source's count message has acted, finalisation puts each expert's rows in the order of their sources and advances
`RTAL`; at the source a row that has not come before is written at its place and marked in the return map, and a second one is refused
with the bytes as they were; a done message whose count is right is noted; the combine of a command whose homes are all done writes its
tensor and then waits for its writes; R301: a command whose writes have all committed writes its result, returns its credit, advances its tally by
1 and leaves the unit, a combine's pair with it; where the bank ports are refused it asks again. -/
def Obligations.HerdReturnsAndFinalises : Prop :=
  (∀ (s : State) (i : Nat) (m : HerdMsg) (p : HerdPair),
     let k := m.cluster
     let home := m.srcDev * 16 + m.srcCl
     let b := p.blk
     let n := bits m.tag 30 15 * hbK b + bits m.tag 14 12
     let mapW := wordAt b 0x58 + BitVec.ofNat 64 n
     let rowW := wordAt b 0x50 + BitVec.ofNat 64 (n * hbOw b)
     let mapA := bits mapW 47 0
     let rowA := bits rowW 47 0
     s.herdMsgs[i]? = some m → pairAt s k (bits m.tag 63 52) (bit m.tag 51) = some p → m.skey = ctxKey s p.ctx →
     (m.kind = 2 → (streamRoom s m.srcDev (herdStream m.srcCl) && ownRoom s (herdStream k)) = true → bits m.tag 30 15 < hbT b → bits m.tag 14 12 < hbK b →
        isHere s (bits mapW 63 48) = true → isHere s (bits rowW 63 48) = true →
        ((memRd s).byte mapA ≠ 1 → (∀ w ∈ lineWrites [(rowA, m.row)], partialBad s w.1 w.2.length = none) → partialBad s mapA 1 = none →
            mapA < rowA ∨ rowA + m.row.length ≤ mapA →
          ∃ u, exec (.herdReturnArrival i) s = .next (herdAnswer u m true) ∧ readMem u rowA m.row.length = m.row ∧ readByte u mapA = 1
            ∧ (∀ a, a ≠ mapA → a < rowA ∨ rowA + m.row.length ≤ a → readByte u a = readByte s a) ∧ u.tallies = s.tallies)
        ∧ ((memRd s).byte mapA = 1 → ∃ u, exec (.herdReturnArrival i) s = .next (herdAnswer u m true) ∧ u.mem = s.mem ∧ u.herds = s.herds
            ∧ u.tallies = s.tallies))
     ∧ (m.kind = 3 → rowsBefore s m = false → rowsMissing s m = false → mget 0 p.retFrom home = m.count →
        ∃ u q, exec (.herdDoneMessage i) s = .next (herdAnswer u m true) ∧ pairAt u k (bits m.tag 63 52) (bit m.tag 51) = some q
          ∧ q.dones = p.dones ++ [home] ∧ u.mem = s.mem ∧ u.tallies = s.tallies))
  ∧ (∀ (s : State) (k : ClusterId) (serial : BitVec 12) (half : Bool) (p : HerdPair), pairAt s k.val serial.toNat half = some p → p.final = false →
       p.broken = false → s.badLines = [] → ownRoom s (herdStream k.val) = true → p.experts ≠ [] → (∀ q ∈ p.sources, q ∈ p.counts) →
       ∃ t q, exec (.herdFinalise k serial half) s = .next t ∧ pairAt t k.val serial.toNat half = some q ∧ q.final = true ∧ q.counts = p.counts
         ∧ (∀ e, mget none q.experts e = (mget none p.experts e).map fun x => { x with kept := finalOrder x.kept })
         ∧ ∀ r, translate s p.core (hbRtal p.blk) = some r → tallyAt s r + 1 < 2 ^ 48 → tallyAt t r = tallyAt s r + 1 ∧ ∀ o, o ≠ r → tallyAt t o = tallyAt s o)
  ∧ (∀ (s : State) (k : ClusterId) (q : HerdCmd) (p : HerdPair), (herdOf s k.val).cmds = [q] → q.fetched = true → q.op = 6 → q.words = none →
      pairAt s k.val (hbSerial q.blk) (hbHalf q.blk) = some p → (∀ h ∈ q.homes, h ∈ p.dones) →
      let r := combineTake s q
      let a := ((herdArrays 6 q.blk).filter fun x => !x.2.2).foldl (fun s x => noteAt s x.1 x.2.1) r.2
      let tk := hbT q.blk * hbK q.blk
      (r.1 = false → exec (.herdCombine k) s = .next r.2)
      ∧ (∀ u n, r.1 = true → herdCombineRun a q = (u, none, n) →
          ∃ v, exec (.herdCombine k) s = .next (settleSends v k.val) ∧ (herdOf v k.val).cmds = [{ q with words := some [0, tk, n, tk - n] }]
            ∧ v.mem = u.mem ∧ v.tallies = s.tallies))
  ∧ ∀ (s : State) (k : ClusterId) (q : HerdCmd) (ws : List Nat),
      let ag : Agent := .herd (q.id + 1)
      let at_ := q.off + 0x80
      let t := herdDone s k.val q
      q.words = some ws → ws.length ≤ 8 →
      heldBy (coreOf s q.core) ag (at_ / 64 * 64) (roundUp (at_ + 64) 64) true = false → ownRoom s (herdStream k.val) = true →
      ((askPorts s q.core ag (portsOf (coreOf s q.core) at_ 64 true)).1 = false → t = (askPorts s q.core ag (portsOf (coreOf s q.core) at_ 64 true)).2)
      ∧ ((askPorts s q.core ag (portsOf (coreOf s q.core) at_ 64 true)).1 = true →
        readMem t (spadAddr t q.core at_) (8 * ws.length) = ws.flatMap (leBytes 8)
        ∧ (∀ x ∈ (herdOf t k.val).cmds, x.id ≠ q.id) ∧ (q.op = 6 → pairAt t k.val (hbSerial q.blk) (hbHalf q.blk) = none)
        ∧ mget 0 (coreOf t q.core).used 2 = mget 0 (coreOf s q.core).used 2 - 1
        ∧ ∀ r, translate s q.core q.tally = some r → tallyAt s r + 1 < 2 ^ 48 → tallyAt t r = tallyAt s r + 1 ∧ ∀ o, o ≠ r → tallyAt t o = tallyAt s o)

/-- R244, Table 10.5: the update of one parameter. The gradient is scaled by the clip factor; the sign rule takes its sign; momentum and Adam
keep their moments; the master loses η times the update plus its decay, each operation rounded to FP32. R242, R246, R247, R254, R256, R237, R180,
R259: `KILN_STEP_START` completes where the norm tally has reached its target: the norm of the slots and the clip factor are taken, and, with no
ring, no uncorrectable line, no firing and every record of the mask right, every element is updated and the command stands written; a ring waits
for its chunks. `KILN_RING_CHUNK` completes where the producer has signalled a chunk that is not the last: its values are received and `RCONS` advances by 1.
`KILN_STEP_COMPLETE` writes the digest and the step number and ends the command. `MASK_COMMAND_START` completes where pass 1 finds no fault: the
arrays and the header are written and the command stands written with its result. `FILL_COMPLETE` ends an MC fill with its status record. Each in
every state that meets the conditions named. A command ends with its result area, its tally and its credit; a fault ends it with its credit back
and no tally. -/
def Obligations.KilnUpdatesAndEvents : Prop :=
  (∀ (q : KilnCmd) (w m v g : W32),
      let eta := ksHi q 0x40
      let wd := ksLo q 0x60
      let gc := f32Mul g q.clip
      let new := fun (u : W32) => f32Sub w (f32Add (f32Mul eta u) (f32Mul wd w))
      let m4 := f32Add (f32Mul (ksHi q 0x48) m) (f32Mul (ksHi q 0x50) gc)
      let v4 := f32Add (f32Mul (ksLo q 0x48) v) (f32Mul (ksLo q 0x50) (f32Mul gc gc))
      (ksRule q = 0 → updateRule q w m v g = (new gc, m, v))
      ∧ (ksRule q = 1 → f32IsNan gc = false → updateRule q w m v g
          = (new (if f32Lt 0 gc then 0x3F800000 else if f32Lt gc 0 then 0xBF800000 else 0), m, v))
      ∧ (ksRule q = 2 → updateRule q w m v g = (new (if q.norm = 0 then 0 else f32Mul gc (f32Div 0x3F800000 q.norm)), m, v))
      ∧ (ksRule q = 3 → updateRule q w m v g = (new (f32Add (f32Mul (ksHi q 0x48) m) gc), f32Add (f32Mul (ksHi q 0x48) m) gc, v))
      ∧ (ksRule q = 4 → updateRule q w m v g
          = (new (f32Div (f32Mul m4 (ksHi q 0x58)) (f32Add (f32Sqrt (f32Mul v4 (ksLo q 0x58))) (ksHi q 0x60))), m4, v4)))
  ∧ (∀ (s : State) (n : Fin 14) (i : Nat) (q : KilnCmd), (kilnCmds s n.val)[i]? = some q →
      let hf := kilnTensor s q
      let sl := normSlots s q
      let qs := sl.foldl (fun a e => f32Add a e.2) 0
      let cnt := sl.foldl (fun a e => a + e.1) 0
      let lim := ksLo q 0x40
      let clip := if ksRule q = 1 ∨ ksRule q = 2 then 0x3F800000
        else if (f32 lim).isZero = false ∧ f32Lt lim (f32Sqrt qs) = true then f32Div lim (f32Sqrt qs) else 0x3F800000
      let sound := s.badLines = [] ∧ ∀ e ∈ streamOf s hf.1, ∃ x, e = .ok x
      (∀ p, q.op = 0 → q.phase = 1 → kilnTally s q (ksNtally q) = some p → tallyAt s p < bits (kb q 0x20) 47 0 → exec (.kilnStepStart n i) s = .next s)
      ∧ (∀ p, q.op = 0 → q.phase = 1 → kilnTally s q (ksNtally q) = some p → bits (kb q 0x20) 47 0 ≤ tallyAt s p → mhTenant hf.1 = false →
           (globalRd s (kb q 0x18)).bad (loc (kb q 0x18)) (16 * ksNslot q) = none → f32IsFin qs = true → (bits (kb q 0x28) 47 0 = 0 ∨ bits (kb q 0x28) 47 0 = cnt) →
           (ksRing q = true → (∀ e ∈ sl, segChunks e.1 ≤ ksRch q) → nextSeg sl sl.length 0 < sl.length →
              ∃ t, exec (.kilnStepStart n i) s = .next t ∧ t.mem = s.mem ∧ t.tallies = s.tallies
                ∧ (kilnCmds t n.val)[i]? = some { q with norm := f32Sqrt qs, clip := clip, n := cnt, slots := sl, phase := 2, seg := nextSeg sl sl.length 0 })
           ∧ (ksRing q = false → ksNofire q = true → sound →
              ∃ t r, exec (.kilnStepStart n i) s = .next t ∧ (kilnCmds t n.val)[i]? = some r ∧ r.phase = 3 ∧ r.norm = f32Sqrt qs ∧ r.clip = clip ∧ r.n = cnt
                ∧ r.done = q.done + (streamOf s hf.1).length ∧ t.tallies = s.tallies))
      ∧ (∀ pp pc, kilnTally s q (ksRprod q) = some pp → kilnTally s q (ksRcons q) = some pc → q.op = 0 → q.phase = 2 →
           let nj := (q.slots.getD q.seg (0, 0)).1
           let a := loc (kb q 0x10) + tallyAt s pc % ksRch q * 4096
           let m := Nat.min 1024 (nj - 1024 * q.chunk)
           (tallyAt s pp < bits (kb q 0x38) 47 0 + q.seg + 1 → exec (.kilnRingChunk n i) s = .next s)
           ∧ (bits (kb q 0x38) 47 0 + q.seg + 1 ≤ tallyAt s pp → tallyAt s pc + 1 < 2 ^ 48 → ksNofire q = true → sound → q.seg < q.slots.length →
                (q.chunk + 1 < segChunks nj ∨ nextSeg q.slots q.slots.length (q.seg + 1) < q.slots.length) →
                ∃ t r, exec (.kilnRingChunk n i) s = .next t ∧ (kilnCmds t n.val)[i]? = some r ∧ r.got = q.got + m
                  ∧ tallyAt t pc = tallyAt s pc + 1 ∧ (∀ o, o ≠ pc → tallyAt t o = tallyAt s o)
                  ∧ r.phase = 2
                  ∧ (q.chunk + 1 < segChunks nj → r.chunk = q.chunk + 1 ∧ r.seg = q.seg)
                  ∧ (segChunks nj ≤ q.chunk + 1 → r.chunk = 0 ∧ r.seg = nextSeg q.slots q.slots.length (q.seg + 1)))
           ∧ (bits (kb q 0x38) 47 0 + q.seg + 1 ≤ tallyAt s pp → lineFlt (memRd s) a 4096 = none → q.chunk + 1 < segChunks nj → q.seg < q.slots.length →
                tallyAt s pc + 1 < 2 ^ 48 → ∀ u r,
                let s1 := advance (noteSpans s [(a, 4096)]) pc 1
                runStream n.val hf.1 hf.2 (fun x => if q.got ≤ x ∧ x < q.got + m then some (BitVec.ofNat 32 (numAt (readMem s a 4096) (4 * (x - q.got)) 4)) else none)
                  (dropDone q.done (streamOf s1 hf.1)) s1 q = (u, .ok r) →
                exec (.kilnRingChunk n i) s = .next (putKilnCmd u n.val i { r with got := q.got + m, chunk := q.chunk + 1, seg := q.seg })))
      ∧ (q.op = 0 → q.phase = 3 → kilnFree s n.val q = true → s.badLines = [] →
           let ask := askPorts s q.core .kiln (kilnPorts s q)
           let u := (kilnWrite ask.2 n.val q.core (kb q 0x70) (foldedCell s q)).1
           let v := (kilnWrite u n.val q.core (kilnHdr q + 0x18) (leBytes 8 (ksStep q))).1
           let words := [q.done, q.nonfin, q.norm.toNat * 2 ^ 32 + q.clip.toNat, q.n, q.tiles, numAt (foldedCell s q) 0 8]
           let d := dropKilnCmd v n.val i
           (ask.1 = false → exec (.kilnStepComplete n i) s = .next ask.2)
           ∧ (ask.1 = true → exec (.kilnStepComplete n i) s
                = .next (kilnServiceAll (kilnDone (match q.ctx with | some x => stepDone d x | none => d) n.val { q with words := words }))
              ∧ (isHere s (bits (kb q 0x70) 63 48) = true → readMem u (loc (kb q 0x70)) 64 = foldedCell s q)
              ∧ (isHere s (bits (kilnHdr q + 0x18) 63 48) = true → readMem v (loc (kilnHdr q + 0x18)) 8 = leBytes 8 (ksStep q))
              ∧ v.tallies = s.tallies))
      ∧ (∀ m, 4 ≤ q.op → q.phase = 1 →
           let hga := wordAt q.blk 8
           let h := readMem s (loc hga) 128
           let s1 := noteArrays s ((hga, 128) :: passOneArrays q.op q.blk h)
           s.badLines = [] → lowest (passOneFlts s1 q.op q.blk h) = none → decideMask s1 q.op q.blk h = .ok m →
           (mcChanges q.op (mcMode q.blk) = false ∨ q.fire = []) →
           ∃ u, exec (.maskCommandStart n i) s = .next (kilnService u n.val) ∧ u.tallies = s.tallies
             ∧ (kilnCmds u n.val)[i]? = some { q with words := maskWords (commitHeader q.op q.blk h m) m, phase := 3 }
             ∧ (isHere s (bits hga 63 48) = true → m.grownAt = [] → readMem u (loc hga) 128 = commitHeader q.op q.blk h m))
      ∧ (q.mc = true → q.phase = 3 →
           let body := leBytes 6 0 ++ leBytes 8 (loc (kb q 0)) ++ leBytes 8 (kb q 8).toNat
           ∃ u, exec (.fillComplete n i) s = .next (kilnService u n.val)
             ∧ u = reportMC (dropKilnCmd s n.val i) (statusRec (dropKilnCmd s n.val i) 9 body none)
             ∧ kilnCmds u n.val = (kilnCmds s n.val).eraseIdx i ∧ u.mem = s.mem ∧ u.tallies = s.tallies ∧ u.cores = s.cores)
      ∧ (let t := kilnDone s n.val q
         (∀ p, kilnTally s q q.tally = some p → tallyAt s p + 1 < 2 ^ 48 → tallyAt t p = tallyAt s p + 1 ∧ ∀ r, r ≠ p → tallyAt t r = tallyAt s r)
         ∧ (q.mc = false → ctxOf (coreOf s q.core) = q.ctx → q.words.length ≤ 8 →
              readMem t (spadAddr s q.core (q.off + 0x80)) (8 * q.words.length) = q.words.flatMap (leBytes 8)
              ∧ mget 0 (coreOf t q.core).used 3 = mget 0 (coreOf s q.core).used 3 - 1))
      ∧ ∀ f, (kilnFault s (some n.val) q f).tallies = s.tallies ∧ (kilnFault s (some n.val) q f).mem = s.mem)


/-! ### Memory units (chapter 14) -/

/-- R328, R330, R334 to R336, Tables 14.3 to 14.6: a beat's scrub reads the lines due, writes back those that can be corrected and leaves the others; in a window
its lines are carried over. A window opens for the lowest unit of a tier that is due, at most one at a time, its next one a period later; it
closes with its beat noted; a forced one opens after 16 × `LIMIT` beats, in the same turn and no sooner than the beat after another closed, and
counts as late. A read of `MEM_ERR` or `MEM_CALP` answers the
counts and clears them. -/
def Obligations.MemoryUnits : Prop :=
  ∀ (s : State) (u : Fin 20),
    let m := unitOf s u.val
    let n := m.carried + m.scrub.toNat
    (scrubDue s u.val = true → m.cal = true → exec (.patrolScrub u) s = .next (setUnit s u.val { m with carried := n, lastScrub := s.clock.beat }))
    ∧ (scrubDue s u.val = true → m.cal = false → ∃ t, exec (.patrolScrub u) s = .next t ∧ (unitOf t u.val).carried = 0
        ∧ (unitOf t u.val).scrubAt = (m.scrubAt + n) % Nat.max 1 (unitLineCount s u.val) ∧ (unitOf t u.val).lastScrub = s.clock.beat
        ∧ t.softLines = s.softLines.filter (fun l => !scrubs s u.val m.scrubAt n l) ∧ t.badLines = s.badLines ∧ t.mem = s.mem ∧ t.tallies = s.tallies ∧ t.cores = s.cores)
    ∧ (windowOpens s u.val = true → exec (.calWindowOpen u) s = .next (setUnit s u.val { openWindow m m.dueLate with caln := m.caln + m.period.setWidth 64 })
        ∧ (∀ v ∈ tierOf u.val, (unitOf s v).cal = false) ∧ m.caln.toNat ≤ s.clock.beat
        ∧ (∀ v ∈ tierOf u.val, v < u.val → windowDue s v = false ∧ forcedDue s v = false) ∧ (m.dueLate = true → tierLast s u.val < s.clock.beat))
    ∧ (windowOpens s u.val = false → exec (.calWindowOpen u) s = .next s)
    ∧ (m.cal = true → ∃ t, exec (.calWindowClose u) s = .next t ∧ unitOf t u.val = { m with cal := false, lastCal := s.clock.beat } ∧ t = { s with units := t.units }
        ∧ ∀ v, (unitOf t v).cal = if v = u.val then false else (unitOf s v).cal)
    ∧ (forcedDue s u.val = true → firstDue s u.val = true → tierLast s u.val < s.clock.beat →
        exec (.calWindowForced u) s = .next (setUnit s u.val (openWindow m true)) ∧ m.lastCal + 16 * m.limit.toNat ≤ s.clock.beat
        ∧ ∀ v ∈ tierOf u.val, (unitOf s v).cal = false)
    ∧ ((forcedDue s u.val = false ∨ firstDue s u.val = false ∨ s.clock.beat ≤ tierLast s u.val) → exec (.calWindowForced u) s = .next s)
    ∧ (∃ t, exec (.memErrRead u) s = .next t ∧ t.host.data = some (BitVec.ofNat 64 (m.uncorr * 2 ^ 32 + m.corr)) ∧ unitOf t u.val = { m with uncorr := 0, corr := 0 }
        ∧ t = { s with units := t.units, host := t.host })
    ∧ (∃ t, exec (.memCalpRead u) s = .next t ∧ t.host.data = some (BitVec.ofNat 64 (m.late * 2 ^ 48 + m.limit.toNat * 2 ^ 32 + m.period.toNat))
        ∧ unitOf t u.val = { m with late := 0 } ∧ t = { s with units := t.units, host := t.host })

/-! ### The fabric (chapter 15) -/

/-- R339, R340, R343, R344, R345, R353: a training port of the floor plan sends its lane check and comes up on the largest lane set that passes at both
ends, with full credits and its numbers at 0 where the link is new; a hello leaves where its credits are there, and one whose CRC fails asks for
itself again; a port without a link after its time is down; a lane that is dropped, 8 negative acknowledgements for one number, bytes beyond
the credits and a silent neighbour retrain the link, and each is counted; a port that goes down discards what it held and what stood queued
for it. -/
def Obligations.LinkStates : Prop :=
  ∀ (s : State) (p : Fin 16),
    let q := portOf s p.val
    let retrained := fun (t : State) => (portOf t p.val).st = 1 ∧ (portOf t p.val).retrain = satAdd 16 q.retrain 1 ∧ t.secure.evRetr = s.secure.evRetr + 1
      ∧ (portOf t p.val).unacked = q.unacked ∧ t.mem = s.mem ∧ t.tallies = s.tallies ∧ t.cores = s.cores
    let ready := fun (ok : BitVec 4) => lanesUp (ok &&& ~~~q.dropped &&& q.peer.getD 15)
    (∀ ok, q.st = 1 → s.plan.ports.getLsbD p.val = true → ready ok ≠ 0 → q.linked = false →
       ∃ t, exec (.portTraining p ok) s = .next t ∧ t.fabric.sentCtl = s.fabric.sentCtl ++ [(p.val, { lanes := some ok })] ∧ (portOf t p.val).st = 2
         ∧ (portOf t p.val).lanes = ready ok ∧ (portOf t p.val).credits = [1024, 768, 128, 64] ∧ (portOf t p.val).sendSeq = 0
         ∧ (portOf t p.val).recvSeq = 0 ∧ (portOf t p.val).unacked = [] ∧ (∀ o, o ≠ p.val → portOf t o = portOf s o) ∧ t = { s with fabric := t.fabric })
    ∧ (∀ ok, q.st = 1 → s.plan.ports.getLsbD p.val = true → ready ok ≠ 0 → q.linked = true →
       ∃ t, exec (.portTraining p ok) s = .next t ∧ (portOf t p.val).st = 2 ∧ (portOf t p.val).unacked = q.unacked ∧ (portOf t p.val).sendSeq = q.sendSeq
         ∧ t.fabric.sent = s.fabric.sent ++ q.unacked.map fun f => (p.val, f))
    ∧ (∀ ok, q.st = 1 → s.plan.ports.getLsbD p.val = true → ready ok = 0 → ∃ t, exec (.portTraining p ok) s = .next t ∧ portOf t p.val = q
         ∧ t.fabric.sentCtl = s.fabric.sentCtl ++ [(p.val, { lanes := some ok })])
    ∧ (∀ ok, lanesUp ok = 15 ∨ lanesUp ok = 3 ∨ lanesUp ok = 1 ∨ lanesUp ok = 0)
    ∧ (q.st = 1 → q.linked = false → exec (.portLinkTimeout p) s = .next (setPort s p.val { q with st := 0, lanes := 0 }))
    ∧ (q.st = 1 → q.linked = true → ∃ u, exec (.portLinkTimeout p) s
          = .next (((q.unacked ++ (s.fabric.waiting.filter (queuedFor s p.val)).map (·.frame)).filter fun f => isRequest f.typ.toNat).foldl
              (fun a f => returnError a f 5 p.val) u)
        ∧ u.fabric.waiting = s.fabric.waiting.filter (fun w => !queuedFor s p.val w) ∧ (portOf u p.val).st = 0 ∧ (portOf u p.val).unacked = [] ∧ (portOf u p.val).linked = false ∧ u.secure.evLoss = s.secure.evLoss + 1)
    ∧ (∀ lane : Fin 4, 2 ≤ q.st → q.lanes.getLsbD lane.val = true → (q.retrains.filter fun b => decide (s.clock.beat < b + 1000000)).length < 2 →
        ∃ t, exec (.laneDrop p lane) s = .next t ∧ retrained t ∧ (portOf t p.val).dropped = q.dropped ||| BitVec.ofNat 4 (2 ^ lane.val))
    ∧ (2 ≤ q.st → (8 ≤ q.naks ∨ q.excess = true) → (q.retrains.filter fun b => decide (s.clock.beat < b + 1000000)).length < 2 →
        ∃ t, exec (.linkRetrain (p.castLE (by decide))) s = .next t ∧ retrained t)
    ∧ (2 ≤ q.st → q.unacked ≠ [] → q.lastRx < s.clock.beat → (q.retrains.filter fun b => decide (s.clock.beat < b + 1000000)).length < 2 →
        ∃ t, exec (.ackTimeout (p.castLE (by decide))) s = .next t ∧ retrained t)
    ∧ (2 ≤ q.st → (q.lastHello = 0 ∨ q.lastHello + 1000 ≤ s.clock.beat + 1) →
        (ctlFits q = true → ∃ t, exec (.helloSend p) s = .next t ∧ t.fabric.sentHello = s.fabric.sentHello ++ [(p.val, helloOf s p.val)]
            ∧ (portOf t p.val).lastHello = s.clock.beat + 1 ∧ (portOf t p.val).credits = (spendCtl q).credits)
        ∧ (ctlFits q = false → exec (.helloSend p) s = .next s))
    ∧ (∀ h, 2 ≤ q.st → h.crcOk = false → exec (.helloFrame p h) s = .next (sendNak s p.val))
    ∧ (∀ h, 2 ≤ q.st → h.crcOk = true → vcUsed s p.val 3 + ctlCredits ≤ 64 →
        let owed := addAt q.owed 3 ctlCredits
        (q.known = false → exec (.helloFrame p h) s
           = .next (setPort s p.val { q with owed := owed, neigh := h.serial, neighP := h.port.setWidth 64, known := true }))
        ∧ (q.known = true → (q.neigh ≠ h.serial ∨ q.neighP ≠ h.port.setWidth 64) → ∃ t, exec (.helloFrame p h) s = .next t ∧ (portOf t p.val).st = 3))

/-- R343, R344, R345, R347 to R351: a queued frame that has a route and room takes its port with the next number, spends its credits and is kept until it is
acknowledged; one without a route leaves the queue with a record; acknowledgements release what they cover and bring credits up to the
receiver's buffers; the credits owed go back once the link-control frame
that names them has its own; a write goes again when its time has come; a request without an answer after `TMO` beats is
no longer waited for, and not before. -/
def Obligations.FramesLeave : Prop :=
  (∀ (s : State) (i : Nat) (w : Queued), s.fabric.waiting[i]? = some w → behindOther s i w = false → streamFull s w.frame = false → w.inPort = 17 →
     (∀ p esc, routeFrame s w = .port p esc →
        let q := portOf s p
        let f := { { w.frame with esc := esc, lseq := q.sendSeq } with crc := frameCrc { w.frame with esc := esc, lseq := q.sendSeq } }
        ∃ t, exec (.framePortTake i) s = .next t ∧ t.fabric.waiting = s.fabric.waiting.eraseIdx i ∧ t.fabric.sent = s.fabric.sent ++ [(p, f)]
          ∧ (portOf t p).unacked = q.unacked ++ [f] ∧ (portOf t p).sendSeq = q.sendSeq + 1
          ∧ (portOf t p).credits = q.credits.set f.vc.toNat (q.credits.getD f.vc.toNat 0 - frameCredits f) ∧ (∀ o, o ≠ p → portOf t o = portOf s o)
          ∧ t.mem = s.mem ∧ t.tallies = s.tallies ∧ t.cores = s.cores)
     ∧ (routeFrame s w = .wait → exec (.framePortTake i) s = .next s)
     ∧ (routeFrame s w = .none → ∃ u, exec (.framePortTake i) s = .next (noRoute u w.frame) ∧ u = { s with fabric := { s.fabric with waiting := s.fabric.waiting.eraseIdx i } })
     ∧ (routeFrame s w = .here → mustWait s w.frame = false → ∃ u, exec (.framePortTake i) s = .next (deliver u 17 w.frame)
          ∧ u = { s with fabric := { s.fabric with waiting := s.fabric.waiting.eraseIdx i } }))
  ∧ (∀ (s : State) (p : Fin 17) (lc : LinkCtl) (n : BitVec 20), 2 ≤ (portOf s p.val).st → lc.crcOk = true → lc.ack = some n → lc.nak = none →
      vcUsed s p.val 3 + ctlCredits ≤ 64 → (portOf s p.val).ctl = [] →
      let q := portOf s p.val
      ∃ t, exec (.linkControlFrame p lc) s = .next t ∧ (portOf t p.val).unacked = q.unacked.filter (fun f => decide (2 ^ 19 ≤ (n - f.lseq).toNat))
        ∧ (∀ vc, vc < q.credits.length → (portOf t p.val).credits.getD vc 0 = Nat.min (vcSize vc) (q.credits.getD vc 0 + lc.credits.getD vc 0))
        ∧ (∀ o, o ≠ p.val → portOf t o = portOf s o) ∧ t.fabric.sent = s.fabric.sent ∧ t.mem = s.mem)
  ∧ (∀ (s : State) (p : Fin 17), s.fabric.parked = [] → s.fabric.reorder = [] → (portOf s p.val).ctl = [] →
      let q := portOf s p.val
      ∃ t, exec (.creditReturn p) s = .next t
        ∧ (q.owed.all (· == 0) = true ∨ q.st < 2 → t = s)
        ∧ (q.owed.all (· == 0) = false → 2 ≤ q.st → ctlFits q = true →
            portOf t p.val = { spendCtl q with owed := [0, 0, 0, 0] } ∧ t.fabric.sentCtl = s.fabric.sentCtl ++ [(p.val, { credits := q.owed })])
        ∧ (q.owed.all (· == 0) = false → 2 ≤ q.st → ctlFits q = false →
            portOf t p.val = { q with owed := [0, 0, 0, 0], ctl := [{ credits := q.owed }] } ∧ t.fabric.sentCtl = s.fabric.sentCtl))
  ∧ (∀ (s : State) (i b : Nat) (f : Frame), s.fabric.resend[i]? = some (b, f) →
      (s.clock.beat < b → exec (.writeResend i) s = .next s)
      ∧ (b ≤ s.clock.beat → ∃ t, exec (.writeResend i) s = .next t ∧ t.fabric.waiting = s.fabric.waiting ++ [{ frame := f }]
          ∧ t.fabric.resend = s.fabric.resend.eraseIdx i ∧ t.fabric.outst = s.fabric.outst ∧ t.mem = s.mem))
  ∧ ∀ (s : State) (i : Nat) (o : Outstanding), s.fabric.outst[i]? = some o →
      (s.clock.beat < o.sent + s.fabric.tmo.toNat → exec (.fabricResponseTimeout i) s = .next s)
      ∧ (o.sent + s.fabric.tmo.toNat ≤ s.clock.beat → ∃ u f, u = { s with fabric := { s.fabric with outst := s.fabric.outst.eraseIdx i } } ∧ f.cls = 0xA ∧ f.sub = 6
          ∧ exec (.fabricResponseTimeout i) s = .next (settleUnit (failUnit u o f) o))

/-- R340, R343, R344, R346, R350 to R352, R292, R357, R309: a frame with its number next, its CRC right and room in the receiver is acknowledged on its link; one
for this device acts as its type says: a write lands in `SSEQ` order at its place and is answered, a read is answered with its bytes, a
response ends the wait of its request, a counted signal is held behind its stream, a fold message counts or completes, a Herd message
goes to its unit. A frame whose CRC is wrong, or whose type is reserved, changes nothing but what the link layer asks for; one already taken changes nothing. -/
def Obligations.FrameArrivals : Prop :=
  ∀ (s : State) (p : Fin 17) (f : Frame),
    let q := portOf s p.val
    let taken := p.val < 16 ∧ q.st = 2 ∧ badFrame f = false ∧ f.lseq = q.recvSeq ∧ vcUsed s p.val f.vc.toNat + frameCredits f ≤ vcSize f.vc.toNat ∧ s.fabric.ready = true
      ∧ f.src ≠ 0xFFFF ∧ f.dst = s.fabric.devaddr ∧ s.fabric.parked = [] ∧ mustWait s f = false ∧ s.boot.state ≠ 2
    let a := drained (sendCtl (setPort s p.val { q with recvSeq := q.recvSeq + 1, waitNak := false }) p.val { ack := some f.lseq }) p.val f
    let ad := f.addr.toNat
    (2 ≤ q.st → badFrame f = true → f.typ = 1 → exec (.writeFrame p f) s = .next (sendNak s p.val))
    ∧ (2 ≤ q.st → reservedTyp f = true → exec (.writeFrame p f) s = .next (sendNak s p.val) ∧ exec (.readResponseFrame p f) s = .next (sendNak s p.val))
    ∧ (2 ≤ q.st → badFrame f = false → f.typ = 1 → f.lseq ≠ q.recvSeq → (q.recvSeq - f.lseq).toNat < 2 ^ 19 → exec (.writeFrame p f) s = .next s)
    ∧ (taken → f.typ = 1 → f.sseq = (windowOf a f).next → (windowOf a f).early = [] → imported a p.val f f.len.toNat true = true → reachable a p.val f f.len.toNat = true →
         inCsr ad = false → (∀ w ∈ lineWrites [(ad, f.payload)], partialBad s w.1 w.2.length = none) →
       ∃ t r, exec (.writeFrame p f) s = .next t ∧ readMem t ad f.payload.length = f.payload ∧ (∀ b, b < ad ∨ ad + f.payload.length ≤ b → readByte t b = readByte s b)
         ∧ (windowOf t f).next = f.sseq + 1 ∧ t.fabric.waiting = s.fabric.waiting ++ [r] ∧ r.frame.typ = 4 ∧ r.frame.dst = f.src ∧ r.frame.sseq = f.sseq
         ∧ t.tallies = s.tallies ∧ (∀ x, SameFiles (coreOf s x) (coreOf t x)) ∧ (inSpad ad = false → t.cores = s.cores))
    ∧ (taken → f.typ = 2 → f.aux.toNat ≤ 512 → imported a p.val f f.aux.toNat false = true → reachable a p.val f f.aux.toNat = true → f.mcf = false → inCsr ad = false →
         inSpad ad = false → badIn s ad f.aux.toNat = none →
       ∃ t r, exec (.readRequestFrame p f) s = .next t ∧ t.fabric.waiting = s.fabric.waiting ++ [r] ∧ r.frame.typ = 3 ∧ r.frame.dst = f.src ∧ r.frame.tag = f.tag
         ∧ r.frame.payload = (memRd s (frameAgent f)).bytes ad f.aux.toNat ∧ t.mem = s.mem ∧ t.tallies = s.tallies ∧ t.cores = s.cores)
    ∧ (taken → f.typ = 3 → ∀ o, outstFor a f = some o → o.frame.typ = 2 → exec (.readResponseFrame p f) s = .next (giveData (dropOutst a f) o f.payload))
    ∧ (taken → f.typ = 4 → ∀ o, outstFor a f = some o → o.frame.typ ≠ 2 → exec (.writeAckFrame p f) s = .next (settleUnit (dropOutst a f) o))
    ∧ (taken → f.typ = 5 → ∀ o, outstFor a f = some o →
        (bits f.aux 7 0 = 6 → ∃ t, exec (.errorResponseFrame p f) s = .next t ∧ t.fabric.resend = s.fabric.resend ++ [(s.clock.beat + 1, o.frame)]
           ∧ t.fabric.outst = s.fabric.outst ∧ t.mem = s.mem)
        ∧ ∀ flt, bits f.aux 7 0 ≠ 6 → errorFlt a o (bits f.aux 7 0) p.val ad = some flt →
            exec (.errorResponseFrame p f) s = .next (settleUnit (failUnit (dropOutst a f) o flt) o))
    ∧ (taken → f.typ = 6 → 0x300080000000 ≤ ad → ad ≤ 0x30009FFFFFF8 →
        let x := (signalTarget ad).1
        let key := f.src.toNat * 4096 + f.stream.toNat
        (ctxState s x = 2 → (rsigTally s x (signalTarget ad).2).isSome = true → f.skey = ctxKey s x →
           ∃ t r h, exec (.countedSignalFrame p f) s = .next t ∧ (mget {} t.srcs key).held = (mget {} s.srcs key).held ++ [h] ∧ h.ctx = x ∧ h.bytes = f.aux.toNat
             ∧ t.tallies = s.tallies ∧ t.mem = s.mem ∧ t.fabric.waiting = s.fabric.waiting ++ [r] ∧ r.frame.typ = 4)
        ∧ (ctxState s x ≠ 2 → ∃ t r, exec (.countedSignalFrame p f) s = .next t ∧ t.srcs = s.srcs ∧ t.tallies = s.tallies ∧ t.mem = s.mem
             ∧ t.fabric.waiting = s.fabric.waiting ++ [r] ∧ r.frame.typ = 5 ∧ bits r.frame.aux 7 0 = 7))
    ∧ (taken → f.typ = 7 → ∀ k, foldPlace s (foldNum f) (foldGroup f) = some k →
        let h := foldHome k (foldOf s k (foldNum f))
        ∃ t, exec (.foldArrivalFrame p f) s = .next t ∧ f.src ∈ (foldOf t h (foldNum f)).kids ∧ (∀ d ∈ (foldOf s h (foldNum f)).kids, d ∈ (foldOf t h (foldNum f)).kids)
          ∧ (foldOf t h (foldNum f)).arrived = (foldOf s h (foldNum f)).arrived ∧ t.tallies = s.tallies ∧ t.mem = s.mem)
    ∧ (taken → f.typ = 8 → ∀ k, foldPlace s (foldNum f) (foldGroup f) = some k →
        let h := foldHome k (foldOf s k (foldNum f))
        ((foldOf s h (foldNum f)).sentUp = true → exec (.foldCompletionFrame p f) s
           = .next (foldMessages (completeRound a k (foldNum f)) 8 (foldNum f) (foldGroup f) (groupChildren a (foldGroup f))))
        ∧ ((foldOf s h (foldNum f)).sentUp = false → exec (.foldCompletionFrame p f) s = .next a))
    ∧ (taken → f.typ = 9 → fromHerd f = true → f.aux.toNat ≤ 480 → f.payload.length = 16 + f.aux.toNat → bits f.addr 47 8 = 0 →
        (herdOf s (bits f.addr 3 0)).parts = [] →
        ∃ t m, exec (.herdRowFrame p f) s = .next t ∧ t.herdMsgs = s.herdMsgs ++ [m] ∧ m.row = f.payload.drop 16 ∧ m.cluster = bits f.addr 3 0
          ∧ m.kind = (if bit f.addr 4 = true then 2 else 0) ∧ m.tag = wordAt f.payload 0 ∧ m.skey = f.skey ∧ m.srcDev = f.src.toNat ∧ t.mem = s.mem ∧ t.tallies = s.tallies)
    ∧ (taken → f.typ = 0xA → fromHerd f = true →
        ∃ t m, exec (.herdMessageFrame p f) s = .next t ∧ t.herdMsgs = s.herdMsgs ++ [m] ∧ m.kind = (if bit f.addr 4 = true then 3 else 1) ∧ m.count = f.aux.toNat
          ∧ m.cluster = bits f.addr 3 0 ∧ t.mem = s.mem ∧ t.tallies = s.tallies)

/-- R359 to R362, R366: an up port sends a mark every 64 beats with the device's time, where its credits are there; a mark of the upstream corrects the rate by no more than 200 ppm and sets `LOCK`
after 16 good ones in a row; after 16 missed marks the device turns to its second upstream, or holds; a heartbeat is answered, and one
missed is counted. -/
def Obligations.BeatAndHeartbeats : Prop :=
  ∀ (s : State) (p : Fin 17),
    let q := portOf s p.val
    let f := s.fabric
    (2 ≤ q.st → (p.val ≠ 16 ∨ beatRoot s = true) → (q.lastMark = 0 ∨ q.lastMark + 64 ≤ s.clock.beat + 1) →
       (ctlFits q = true → ∃ t, exec (.beatMarkSend p) s = .next t ∧ t.fabric.sentMark = f.sentMark ++ [(p.val, timeNs s)]
          ∧ (portOf t p.val).lastMark = s.clock.beat + 1 ∧ (portOf t p.val).credits = (spendCtl q).credits ∧ t.clock = s.clock)
       ∧ (ctlFits q = false → exec (.beatMarkSend p) s = .next s))
    ∧ (∀ m, 2 ≤ q.st → m.crcOk = false → exec (.beatMarkFrame p m) s = .next (sendNak s p.val))
    ∧ (∀ m, 2 ≤ q.st → m.crcOk = true → vcUsed s p.val 3 + ctlCredits ≤ 64 → f.src ≠ 0 → (p.val = upstream s ∨ p.val = (firstUp s).1) →
       let off := markOff2 m
       let good := -80 < off ∧ off < 80
       ∃ t, exec (.beatMarkFrame p m) s = .next t ∧ t.fabric.rate = rateFor off ∧ -20000 ≤ t.fabric.rate ∧ t.fabric.rate ≤ 20000 ∧ t.fabric.hold = false
         ∧ t.fabric.goodRun = (if good then f.goodRun + 1 else 0) ∧ (t.fabric.lock = true ↔ good ∧ (f.lock = true ∨ 16 ≤ f.goodRun + 1)) ∧ t.fabric.lastUp = s.clock.beat
         ∧ (p.val = (firstUp s).1 → t.fabric.src = (firstUp s).2) ∧ t.clock = s.clock ∧ t.mem = s.mem)
    ∧ (∀ m, 2 ≤ q.st → m.crcOk = true → vcUsed s p.val 3 + ctlCredits ≤ 64 → f.src ≠ 0 → p.val ≠ upstream s → p.val ≠ (firstUp s).1 →
       ∃ t, exec (.beatMarkFrame p m) s = .next t ∧ t = setPort s p.val (portOf t p.val) ∧ (portOf t p.val).st = q.st ∧ (portOf t p.val).delay.toNat = (clampInt 0 0xFFFF (markDelay2 m / 2)).toNat)
    ∧ (f.src ≠ 0 → f.hold = false → f.lastUp + 1024 ≤ s.clock.beat →
       ∃ t, exec .beatUpstreamLost s = .next t ∧ t.fabric.lost = satAdd 16 f.lost 1 ∧ t.fabric.goodRun = 0 ∧ t.secure.evLoss = s.secure.evLoss + 1
         ∧ (if f.src ≠ 2 ∧ beatUp2en s = true then t.fabric.src = 2 ∧ t.fabric.hold = false else t.fabric.hold = true ∧ t.fabric.lock = false ∧ t.fabric.src = f.src))
    ∧ (∃ t, exec .heartbeat s = .next t ∧ t.fabric.lastHb = s.clock.beat ∧ t.fabric.hbAnswered = f.hbAnswered + 1 ∧ t.secure.missRun = 0 ∧ t.mem = s.mem)
    ∧ (s.clock.beat < f.lastHb + 2 * bits f.hbp 31 0 → exec .heartbeatMiss s = .next s)
    ∧ (f.lastHb + 2 * bits f.hbp 31 0 ≤ s.clock.beat → ∃ t, exec .heartbeatMiss s = .next t ∧ t.fabric.miss = satAdd 32 f.miss 1
         ∧ t.fabric.lastHb = f.lastHb + bits f.hbp 31 0 ∧ t.secure.missRun = satAdd 16 s.secure.missRun 1)

/-! ### Tenant contexts (chapter 16) -/

/-- R371, R372, R373, R289: a block that the MC's queue takes waits behind those present, and is refused where 64 wait; an acquire whose checks pass makes its context
live on the cores named, whose engines start at their entries, with the tallies that its ranges reach at 0 and every other tally as it
was; a core whose scratchpad was divided and no longer is reads 0 in banks 16 to 31 (R73); one that fails a check has no effect but its refusal
(that a non-zero reserved field fails one is the model's choice, log entry 51). -/
def Obligations.AcquireContexts : Prop :=
  (∀ (s : State) (b : List Byte), s.boot.state ≠ 2 → (hasBeat (blkOp (padTo 128 b)) = true ∨ blkOp (padTo 128 b) = 0x20 ∨ blkOp (padTo 128 b) = 0x21) →
     exec (.mcCmdqEnqueue b) s = .next (if 64 ≤ s.cmdq.length then refuse s 0x20 0x300020000000 (BitVec.ofNat 64 (blkOp (padTo 128 b)))
       else { s with cmdq := s.cmdq ++ [padTo 128 b] }))
  ∧ ∀ (s : State) (b : List Byte), headBlock s 1 = some b →
      let x := aqCtx b
      let cs := aqCores b
      (aqReserved b = false → mayAcquire s x b false none = true →
        ∃ t, exec .ctxAcquire s = .next t ∧ ctxState t x = 2 ∧ t.cmdq = s.cmdq.drop 1
          ∧ (∀ a, inSpad a = false → readByte t a = readByte s a)
          ∧ ((∀ c ∈ cs, bit (coreOf s c).spw 0 = true → bit (cw s x 0x10) 0 = true) → t.mem = s.mem)
          ∧ (∀ c ∈ cs, bit (coreOf s c).spw 0 = true → bit (cw s x 0x10) 0 = false →
               ∀ p < 0x200000, 16 ≤ bankOfPhys (coreOf t c) p → readByte t (spadBase + c * 0x400000 + p) = 0)
          ∧ (∀ c ∈ cs, ctxOf (coreOf t c) = some x ∧ (coreOf t c).faulted = false ∧ (coreOf t c).fe.run = .running ∧ (coreOf t c).ce.run = .running
               ∧ (coreOf t c).se.run = .running ∧ (coreOf t c).fe.pc = bits (coreOf s c).coreEntry 59 40 ∧ (coreOf t c).ce.pc = bits (coreOf s c).coreEntry 39 20
               ∧ (coreOf t c).se.pc = bits (coreOf s c).coreEntry 19 0 ∧ (coreOf t c).spw = cw s x 0x10)
          ∧ (∀ c, c ∉ cs → coreOf t c = coreOf s c)
          ∧ (∀ p, tallyAt t p = if reaches s x cs p then 0 else tallyAt s p)
          ∧ (∀ y, y ≠ x → ctxState t y = ctxState s y))
      ∧ (aqReserved b = true ∨ mayAcquire s x b false none = false → exec .ctxAcquire s = .next (refuseCmd s 0x24 b))

/-- R380, R381, R383, R384, R386: a release waits while a core of its context runs and `FORCE` is 0; it then takes the context from live to releasing and its cores to
their scrub; the context is parked, with its record, when its last command has ended; a scrub leaves every store of the core zero; a
release that kept its cores is scrubbed by the later one; a switch releases one context and acquires the other after the scrubs
(a non-zero reserved field of the block is refused: the model's choice, log entry 51). -/
def Obligations.ReleaseContexts : Prop :=
  (∀ (s : State) (b : List Byte), headBlock s 2 = some b → aqReserved b = false → isKeptRelease s b = false → (aqKeeps b = true → makerOpen s = true) →
     let x := aqCtx b
     (ctxState s x ≠ 2 → exec .ctxRelease s = .next (refuseCmd s 0x23 b))
     ∧ (ctxState s x = 2 → releaseWaits s x (aqForce b) = true → exec .ctxRelease s = .next s)
     ∧ (ctxState s x = 2 → releaseWaits s x (aqForce b) = false →
          ∃ t, exec .ctxRelease s = .next t ∧ ctxState t x = 3
            ∧ (∀ c ∈ coresOf s x, (coreOf t c).scrub = (if aqKeeps b = true then .kept x else .scrubbing) ∧ (coreOf t c).fe.run = .off
                 ∧ (coreOf t c).ce.run = .off ∧ (coreOf t c).se.run = .off)
            ∧ ∃ r ∈ t.releases, r.ctx = x ∧ r.cores = coresOf s x))
  ∧ (∀ (s : State) (b : List Byte), headBlock s 2 = some b → aqReserved b = false → isKeptRelease s b = true →
       ∃ t, exec .ctxReleaseScrubKept s = .next t ∧ ctxState t (aqCtx b) = 1 ∧ bit (cw t (aqCtx b) 0) 60 = false ∧ t.cmdq = s.cmdq.drop 1 ∧ t.mem = s.mem
         ∧ (∀ p ∈ t.cores, p.2.scrub ≠ .kept (aqCtx b)) ∧ t.tallies = s.tallies)
  ∧ (∀ (s : State) (b : List Byte), headBlock s 2 = some b → aqReserved b = true → exec .ctxRelease s = .next (refuseCmd s 0x23 b))
  ∧ (∀ (s : State) (x : CtxId) (r : Release), s.releases.find? (fun q => q.ctx == x.val) = some r →
       (ctxBusy s r = true → exec (.ctxReleaseComplete x) s = .next s)
       ∧ (ctxBusy s r = false → ∃ t, exec (.ctxReleaseComplete x) s = .next t ∧ ctxState t x.val = 1 ∧ t.releases = s.releases.filter (fun q => q.ctx != x.val)
            ∧ t.mem = s.mem ∧ t.tallies = s.tallies ∧ t.cores = s.cores))
  ∧ (∀ (s : State) (c : CoreId), (coreOf s c.val).scrub = .scrubbing → coreQuiet s c.val = true →
       let lo := 0x200000000000 + c.val * 0x400000
       ∃ t, exec (.coreScrubComplete c) s = .next t
         ∧ (let k := coreOf t c.val
            k.scrub = .clean ∧ ctxOf k = none ∧ k.fe.x = [] ∧ k.ce.x = [] ∧ k.se.x = [] ∧ k.v = [] ∧ k.p = [] ∧ k.d = [] ∧ k.acc = [] ∧ k.queues = [] ∧ k.ranges = []
            ∧ k.active = [] ∧ k.shadow = [] ∧ k.waitCyc = 0 ∧ k.holdCyc = 0 ∧ bit k.coreMode 2 = false ∧ k.coreEntry = (coreOf s c.val).coreEntry)
         ∧ (∀ a, lo ≤ a → a < lo + 0x200000 → readByte t a = 0) ∧ (∀ a, a < lo ∨ lo + 0x200000 ≤ a → readByte t a = readByte s a)
         ∧ (∀ o, o ≠ c.val → coreOf t o = coreOf s o) ∧ t.tallies = s.tallies)
  ∧ (∀ (s : State) (b : List Byte), headBlock s 3 = some b → aqReserved b = false → aqKeeps b = false → ctxState s (aqCtx b) = 2 →
       aqCores b = sortBy (fun a b => decide (a ≤ b)) (coresOf s (aqCtx b)) →
       (releaseWaits s (aqCtx b) (aqForce b) = true → exec .ctxSwitch s = .next s)
       ∧ (releaseWaits s (aqCtx b) (aqForce b) = false →
           let u := release (popCmd s) (aqCtx b) false
           exec .ctxSwitch s = .next (if mayAcquire u (aqCtxn b) b true (some (aqCtx b)) then { u with switches := u.switches ++ [b] }
             else refuse u 0x24 0x300020000000 3)))
  ∧ ∀ (s : State) (b : List Byte) (rest : List (List Byte)), s.switches = b :: rest →
      ((∃ c ∈ aqCores b, (coreOf s c).scrub ≠ .clean) → exec .switchAcquire s = .next s)
      ∧ ((∀ c ∈ aqCores b, (coreOf s c).scrub = .clean ∧ goodCore s c = true) → (wordAt b 8).toNat < s.clock.beat → ctxState s (aqCtx b) ≠ 3 →
          exec .switchAcquire s = .next (acquire { s with switches := rest } (aqCtxn b) b)
          ∧ ctxState (acquire { s with switches := rest } (aqCtxn b) b) (aqCtxn b) = 2)

/-- R375, R256, R441: a wait held longer than `WLIM` × 1,000 beats stops its core with `DISC` on its context, and not before; a fill by the MC goes to the Kiln of its
destination; debug stops a core where it is open, and is refused where it is closed. -/
def Obligations.LimitsAndDebug : Prop :=
  (∀ (s : State) (c : CoreId) (e : Engine) (h : Held) (x : Nat), (engOf (coreOf s c.val) e).held = some h → ctxOf (coreOf s c.val) = some x →
     (h.cause = .queue ∨ ∃ y, h.cause = .tally y) → ctxWlim s x ≠ 0 →
     (s.clock.beat ≤ h.since + ctxWlim s x * 1000 → exec (.waitLimitExpiry c e) s = .next s)
     ∧ (h.since + ctxWlim s x * 1000 < s.clock.beat → ∃ t, exec (.waitLimitExpiry c e) s = .next t ∧ (coreOf t c.val).faulted = true ∧ ctxDisc t x = true
          ∧ (∃ r : FaultRec, r.cls = 8 ∧ r.sub = 0x0C ∧ r.unit = c.val ∧ r.ukind = engKind e ∧ (r.w1, r.w2, r.w3) = waitWords s c.val h.bundle
               ∧ (t.mcq = s.mcq.takeAt s.clock.cycle (.fault r) ∨ ∃ q, t.mcq = (s.mcq.takeAt s.clock.cycle (.fault r)).takeAt s.clock.cycle q))
          ∧ t.mem = s.mem ∧ t.tallies = s.tallies ∧ ∀ o, o ≠ c.val → coreOf t o = coreOf s o))
  ∧ (∀ (s : State) (c : CoreId) (e : Engine) (h : Held), (engOf (coreOf s c.val) e).held = some h → h.cause = .beat →
       exec (.waitLimitExpiry c e) s = .next s)
  ∧ (∀ (s : State) (b : List Byte), headBlock s 0x15 = some b →
       let dst := 0xFFFF * 2 ^ 48 + bits (wordAt b 0x10) 47 0
       ∃ q, exec .mcFill s = .next (kilnSubmit (popCmd s) q) ∧ q.op = 2 ∧ q.mc = true ∧ q.ctx = none ∧ kb q 0 = BitVec.ofNat 64 dst
         ∧ kb q 8 = wordAt b 0x18 ∧ kb q 0x10 = wordAt b 0x20)
  ∧ ∀ (s : State) (c : CoreId),
      (debugOpen s = true → ∃ t, exec (.debugCoreHalt c) s = .next t ∧ (coreOf t c.val).faulted = true
         ∧ (∀ x, ctxOf (coreOf s c.val) = some x → ctxDisc t x = true) ∧ t.mem = s.mem ∧ t.tallies = s.tallies ∧ ∀ o, o ≠ c.val → coreOf t o = coreOf s o)
      ∧ (debugOpen s = false → exec (.debugCoreHalt c) s = .next (refuse s 0x54 0 0))

/-! ### Registers (chapters 1, 12, 15, 16 and 21) -/

/-- R15, R43, R73, R82, R289, R353, R354, R369, R472: a write on the MC path takes effect where the register can take it and is refused where a rule holds it: a core's registers
while a context holds it, a tally that a live context reaches; `DISC` clears by writing 1 and by nothing else; a halted device takes none. -/
def Obligations.RegisterWrites : Prop :=
  (∀ (s : State) (a : BitVec 48) (v : W64), (s.boot.state = 2 ∨ regAt a.toNat = none) → exec (.registerWrite a v) s = .next s)
  ∧ (∀ (s : State) (a : BitVec 48) (v : W64) (c off : Nat), s.boot.state ≠ 2 → regAt a.toNat = some (.core c off) → coreRegRw off = true →
      ((ctxOf (coreOf s c)).isSome = true →
         exec (.registerWrite a v) s = .next (refuse s 1 (BitVec.ofNat 64 (0x300004000000 + c * 0x10000 + off)) (BitVec.ofNat 64 off)))
      ∧ (ctxOf (coreOf s c) = none → off ≠ 0x40 → exec (.registerWrite a v) s = .next (modCore s c fun k => coreRegWrite k off v))
      ∧ (ctxOf (coreOf s c) = none → off = 0x40 → badSpw v = false →
          let lo := spadBase + c * 0x400000
          ∃ t, exec (.registerWrite a v) s = .next t ∧ (coreOf t c).spw = v &&& spwMask ∧ (∀ o, o ≠ c → coreOf t o = coreOf s o)
            ∧ (∀ a, a < lo ∨ lo + 0x200000 ≤ a → readByte t a = readByte s a)
            ∧ (bit (coreOf s c).spw 0 = true → bit v 0 = false → ∀ p < 0x200000, 16 ≤ bankOfPhys (coreOf t c) p → readByte t (lo + p) = 0)
            ∧ (bit (coreOf s c).spw 0 = false ∨ bit v 0 = true → t.mem = s.mem))
      ∧ (ctxOf (coreOf s c) = none → off = 0x40 → badSpw v = true →
           exec (.registerWrite a v) s = .next (refuse s 2 (BitVec.ofNat 64 (0x300004000000 + c * 0x10000 + off)) (BitVec.ofNat 64 off))))
  ∧ (∀ (s : State) (a : BitVec 48) (v : W64) (p : Nat), s.boot.state ≠ 2 → regAt a.toNat = some (.tally p) →
      (tallyLive s p = true → exec (.registerWrite a v) s = .next (refuse s 1
         (BitVec.ofNat 64 (0x30000C000000 + p / 4096 * 0x10000 + p % 4096 * 8)) (BitVec.ofNat 64 (p % 4096 * 8))))
      ∧ (tallyLive s p = false → ∃ t, exec (.registerWrite a v) s = .next t ∧ tallyAt t p = v.toNat % 2 ^ 48 ∧ (∀ r, r ≠ p → tallyAt t r = tallyAt s r)
           ∧ t = { s with tallies := t.tallies }))
  ∧ (∀ (s : State) (p : Fin 16) (v : W64), s.boot.state ≠ 2 →
      exec (.portCfgAccept p v) s = .next (if bit v 0 = true ∧ (portOf s p.val).st = 3 then setPort s p.val { portOf s p.val with st := 2 } else s))
  ∧ (∀ (s : State) (v : W64), s.boot.state ≠ 2 → ∃ t, exec (.fabCfgReady v) s = .next t ∧ t.fabric.ready = bit v 63 ∧ t.fabric.tmo.toNat = bits v 47 32
      ∧ t.fabric.devaddr = (if anyLive s then s.fabric.devaddr else v.setWidth 16) ∧ t.mem = s.mem ∧ t.cores = s.cores)
  ∧ (∀ (s : State) (x : CtxId) (v : W64), s.boot.state ≠ 2 → ctxThere s x.val = true → 2 ≤ ctxState s x.val → bits v 63 62 = ctxState s x.val →
      bits v 31 0 = bits (cw s x.val 0) 31 0 →
      ∃ t, exec (.ctxDiscClear x v) s = .next t ∧ ctxDisc t x.val = (if bit v 61 = true then false else ctxDisc s x.val) ∧ ctxState t x.val = ctxState s x.val
        ∧ ctxWlim t x.val = bits v 47 32 ∧ t = { s with ctxs := t.ctxs })
  ∧ ∀ (s : State) (k : ClusterId) (v : W64), s.boot.state ≠ 2 →
      let q := mget {} s.seqs k.val
      ∃ t, exec (.seqFpop k v) s = .next t ∧ (mget {} t.seqs k.val).held = (if bit v 0 = true then q.held.drop 1 else q.held) ∧ (mget {} t.seqs k.val).lost = q.lost
        ∧ t = { s with seqs := t.seqs }

/-- R318, R344, R362, R366, R382, R440, R455, R469, R471: a read on the MC path answers the register's value and clears the counts that it clears, and nothing else; a read of what
the life-cycle state closes answers nothing and is refused; a read of memory answers its 8 bytes; the MC's head record goes out on the
Gwemosin port when that has the credits. -/
def Obligations.RegisterReads : Prop :=
  (∀ (s : State) (k : ClusterId),
     let q := mget {} s.seqs k.val
     let h := herdOf s k.val
     (∃ t, exec (.seqFstatRead k) s = .next t ∧ t.host.data = some (BitVec.ofNat 64 (q.lost * 2 ^ 16 + q.held.length)) ∧ mget {} t.seqs k.val = { q with lost := 0 }
        ∧ t = { s with seqs := t.seqs, host := t.host })
     ∧ (∃ t, exec (.herdCnt0Read k) s = .next t ∧ t.host.data = some (BitVec.ofNat 64 (h.dropped * 2 ^ 32 + h.kept)) ∧ herdOf t k.val = { h with dropped := 0, kept := 0 }
        ∧ t = { s with herds := t.herds, host := t.host })
     ∧ (∃ t, exec (.herdCnt1Read k) s = .next t ∧ t.host.data = some (BitVec.ofNat 64 (h.stale * 2 ^ 32 + h.refused)) ∧ herdOf t k.val = { h with stale := 0, refused := 0 }
        ∧ t = { s with herds := t.herds, host := t.host }))
  ∧ (∀ (s : State) (p : Fin 16), ∃ t, exec (.portStatRead p) s = .next t ∧ t.host.data = some (portWord (portOf s p.val))
       ∧ portOf t p.val = { portOf s p.val with retrain := 0, replay := 0 } ∧ ∀ o, o ≠ p.val → portOf t o = portOf s o)
  ∧ (∀ s : State, (∃ t, exec .beatStatRead s = .next t ∧ t.host.data = some (beatWord s) ∧ t.fabric = { s.fabric with lost := 0 } ∧ t.mem = s.mem)
       ∧ (∃ t, exec .cpStatRead s = .next t ∧ t.host.data = some (BitVec.ofNat 64 s.fabric.miss) ∧ t.fabric = { s.fabric with miss := 0 } ∧ t.mem = s.mem)
       ∧ (∃ t, exec .pwrStatRead s = .next t ∧ t.host.data = some (pwrWord s) ∧ t.power = { s.power with droop := 0 } ∧ t.mem = s.mem))
  ∧ (∀ (s : State) (a : BitVec 48),
       (∀ sub, readClosed s a.toNat = some sub → exec (.mcPathRead a) s
          = .next (refuse s sub (a.setWidth 64) (if inCsr a.toNat then BitVec.ofNat 64 (a.toNat % 0x10000) else 0)))
       ∧ (readClosed s a.toNat = none → inCsr a.toNat = false → populatedRange s a.toNat 8 = true → (inSpad a.toNat = false → badIn s a.toNat 8 = none) →
            ∃ t, exec (.mcPathRead a) s = .next t ∧ t.host.data = some (wordAt (readMem s a.toNat 8) 0) ∧ t.mem = s.mem ∧ t.cores = s.cores ∧ t.tallies = s.tallies)
       ∧ (∀ r v, readClosed s a.toNat = none → inCsr a.toNat = true → regAt a.toNat = some r → regVal s r = some v →
            ∃ t, exec (.mcPathRead a) s = .next t ∧ t.host.data = some v ∧ t.mem = s.mem ∧ t.tallies = s.tallies))
  ∧ ∀ (s : State) (r : Record) (rest : List Record), s.mcq.held = r :: rest →
      (2 ≤ (portOf s 16).st → 4 ≤ (portOf s 16).credits.getD 2 0 → 2 < (portOf s 16).credits.length →
         ∃ t, exec .recordForward s = .next t ∧ t.mcq.held = rest ∧ t.host.vc2 = s.host.vc2 ++ [r] ∧ (portOf t 16).credits.getD 2 0 = (portOf s 16).credits.getD 2 0 - 4)
      ∧ ((portOf s 16).credits.getD 2 0 < 4 → exec .recordForward s = .next s)

/-! ### Securing state, replicas, fences, service (chapters 17 and 18) -/

/-- R388, R389, R390, R394, R395, R396, R397, R393: a Cone tick forms the points from the events since the last and clears them; it arms a round when the level has
reached `SEC`. An armed round names the regions of the plan under a number above every earlier one, with the regions of parked contexts
ready; a plan that breaks the rules is refused, and one or a command with a reserved field that is not 0 (the model's choice, log entry 51). A live context that has stopped is at its secure point. A region is copied once, after the
Kiln commands in progress, with the digests of its shards; an error in it drops its context. The seal is the digest of the manifest, and is written
when every region is copied or dropped. -/
def Obligations.RoundsSecureState : Prop :=
  (∀ s : State, (s.clock.beat < s.secure.lastTick + 1000 ∨ s.boot.state = 2) → exec .coneTick s = .next s)
  ∧ (∀ s : State, s.secure.lastTick + 1000 ≤ s.clock.beat → s.boot.state ≠ 2 →
       let c := s.secure
       let pts := if 16 ≤ c.missRun then 65535 else Nat.min 65535 (c.points - c.points / 16 + coneInput s + bits c.ext 7 0)
       ∃ t, exec .coneTick s = .next t ∧ t.secure.points = pts ∧ t.secure.lastTick = s.clock.beat ∧ t.secure.evUnc = 0 ∧ t.secure.evCorr = c.evCorr % 1024
         ∧ t.secure.evDroop = 0 ∧ t.secure.evRetr = 0 ∧ t.secure.evLoss = 0 ∧ t.secure.evMiss = 0 ∧ t.mem = s.mem ∧ t.tallies = s.tallies ∧ t.ctxs = s.ctxs
         ∧ (c.round = none → badPlan s (planRegions s) = false → oddPlan s = false → bits c.cfg 63 61 ≤ Nat.min 7 (pts / Nat.max 1 (bits c.cfg 47 32)) →
              ∃ r, t.secure.round = some r ∧ r.regions.map (·.regId) = (planRegions s).map (·.regId))
         ∧ (c.round = none → Nat.min 7 (pts / Nat.max 1 (bits c.cfg 47 32)) < bits c.cfg 63 61 → bits c.cfg 31 0 = 0 → t.secure.round = none ∧ t.mcq = s.mcq))
  ∧ (∀ (s : State) (b : List Byte), headBlock s 0x10 = some b →
       (armReserved b = true → exec .secureRoundArm s = .next (refuse (popCmd s) 0x32 0x300020000000 0x10))
       ∧ (armReserved b = false → s.secure.round ≠ none → exec .secureRoundArm s = .next (popCmd s))
       ∧ (s.secure.round = none → badPlan s (planRegions s) = true ∨ oddPlan s = true → bit (wordAt b 0) 51 = false →
            exec .secureRoundArm s = .next (refuse (popCmd s) 0x32 0x300020000000 0x10))
       ∧ (armReserved b = false → s.secure.round = none → badPlan s (planRegions s) = false → oddPlan s = false → bit (wordAt b 0) 51 = false →
            ∃ t r, exec .secureRoundArm s = .next t ∧ t.secure.round = some r ∧ s.secure.roundNo < r.number ∧ r.emergency = false ∧ t.cmdq = s.cmdq.drop 1
              ∧ r.regions.map (·.regId) = (planRegions s).map (·.regId) ∧ t.mem = s.mem ∧ t.mcq = s.mcq
              ∧ ∀ g ∈ r.regions, g.copied = false ∧ (g.ready = true ↔ g.devWide = true ∨ (ctxState s g.ctx ≠ 2 ∧ ctxDisc s g.ctx = false))
                  ∧ (g.dropped = true ↔ g.devWide = false ∧ ctxState s g.ctx ≠ 2 ∧ ctxDisc s g.ctx = true)))
  ∧ (∀ (s : State) (x : CtxId), (¬ (ctxState s x.val = 2 ∧ ctxStopped s x.val = true) → exec (.securePoint x) s = .next s)
       ∧ (∀ r, ctxState s x.val = 2 → ctxStopped s x.val = true → s.secure.round = some r →
            ∃ t r', exec (.securePoint x) s = .next t ∧ t = { s with secure := { s.secure with round := some r' } } ∧ r'.number = r.number
              ∧ r'.regions = r.regions.map fun g =>
                  if g.ctx = x.val ∧ g.devWide = false ∧ g.ready = false ∧ g.dropped = false then
                    (if ctxDisc s x.val = true then { g with dropped := true } else { g with ready := true }) else g))
  ∧ (∀ (s : State) (i : Nat) (r : Round) (g : Region), s.secure.round = some r → r.regions[i]? = some g →
       (g.ready = false ∨ g.copied = true ∨ g.dropped = true ∨ (g.devWide = false ∧ kilnBusy s g.ctx = true) → exec (.regionCopy i) s = .next s)
       ∧ (g.ready = true → g.copied = false → g.dropped = false → (g.devWide = true ∨ kilnBusy s g.ctx = false) →
            (badIn s g.regSrc g.regLen = none →
               let off := 0x600000 + ((r.regions.filter (·.copied)).map (·.regLen)).foldl (· + ·) 0
               let bs := readMem s g.regSrc g.regLen
               let g' := { g with copied := true, imgOff := off, digests := (chunks 0x4000000 bs).map digest32 }
               ∃ u, exec (.regionCopy i) s = .next (kilnServiceAll u) ∧ u.secure.round = some { r with regions := r.regions.set i g' }
                 ∧ (keepOn s = true → partnerOn s = false → readMem u (slotLocal s r.slotL + off) g.regLen = bs
                      ∧ ∀ a, a < slotLocal s r.slotL + off ∨ slotLocal s r.slotL + off + g.regLen ≤ a → readByte u a = readByte s a))
            ∧ (∀ l, badIn s g.regSrc g.regLen = some l → g.devWide = false →
               ∃ u, exec (.regionCopy i) s = .next (kilnServiceAll u) ∧ ctxDisc u g.ctx = true ∧ u.mem = s.mem
                 ∧ ∃ r', u.secure.round = some r' ∧ r'.partly = true ∧ ∀ q ∈ r'.regions, q.ctx = g.ctx → q.devWide = false → q.dropped = true)))
  ∧ ∀ (s : State) (r : Round), s.secure.round = some r → s.gates = [] →
      ((∃ g ∈ r.regions, g.copied = false ∧ g.dropped = false) → exec .roundSeal s = .next s)
      ∧ ((∀ g ∈ r.regions, g.copied = true ∨ g.dropped = true) → r.sealing = false → keepOn s = true → partnerOn s = false → partnerBusy s = false →
          let a := slotLocal s r.slotL
          ∃ t man, exec .roundSeal s = .next t ∧ t.secure.round = none ∧ t.secure.roundNo = r.number ∧ t.secure.last = BitVec.ofNat 64 s.clock.beat
            ∧ t.secure.lok = true ∧ t.secure.pok = false ∧ t.secure.lslot = r.slotL ∧ 64 ≤ man.length ∧ readMem t (a + 0x40) man.length = man
            ∧ readMem t a 32 = digest32 man ∧ readMem t (a + 0x20) 8 = leBytes 8 r.number ∧ readMem t (a + 0x28) 8 = leBytes 8 s.clock.beat
            ∧ t.tallies = s.tallies ∧ t.ctxs = s.ctxs)

/-- R398, R399, R400, R401, R402: a restore whose source holds no image is refused; an accepted one bars its contexts; a shard is written where its digest matches, and
without a match or another copy the restore ends with the contexts barred; at its end the contexts are open again. A replica's digest is
kept, or goes up the tree; the root decides once it holds every digest, as the majority says; a member that diverged takes a copy, whose own
digest must match, or restores. -/
def Obligations.RestoresAndReplicas : Prop :=
  (∀ (s : State) (b : List Byte), headBlock s 0x11 = some b →
     let local_ := rsSrc b < 2 ∧ keepOn s = true
     (awaiting s 0 (.remote 2) = true → exec .restore s = .next s)
     ∧ (awaiting s 0 (.remote 2) = false → s.secure.restore = none → local_ →
          ((∀ g ∈ localSlots s, imgSealed s g = false) →
             ∃ t, exec .restore s = .next t ∧ t.mcq = (refuse (popCmd s) 0x33 0x300020000000 0x11).mcq ∧ t.cmdq = s.cmdq.drop 1 ∧ t.mem = s.mem ∧ t.ctxs = s.ctxs)
          ∧ (∀ ga, rsChoose s b = some ga → badRestore s b ga = false → rsFab b = false →
             let xs := rsCtxs (rsPlan s b)
             ∃ t, exec .restore s = .next t ∧ t.secure.restore = some { base := ga, ctxs := xs } ∧ t.mem = s.mem ∧ t.cmdq = s.cmdq
               ∧ (∀ x ∈ xs, ctxDisc t x = true ∧ ctxState t x = 1 ∧ x ∈ t.secure.restoring) ∧ ∀ x, x ∉ xs → ∀ o, o < 256 → cw t x o = cw s x o))
     ∧ (∀ r g q, awaiting s 0 (.remote 2) = false → s.secure.restore = some r → isHere s (r.base / 2 ^ 48) = true → (rsPlan s b)[r.region]? = some g →
          imgFind s r.base g.regId = some q →
          let o := r.shard * 0x4000000
          let n := Nat.min 0x4000000 (g.regLen - o)
          let bs := imgBytes s r.base (q.2.2.1 + o) n
          (digest32 bs = imgDigest s r.base (q.2.2.2 + r.shard) →
             ∃ t, exec .restore s = .next t ∧ readMem t (g.regSrc + o) n = bs ∧ (∀ a, a < g.regSrc + o ∨ g.regSrc + o + n ≤ a → readByte t a = readByte s a)
               ∧ (∃ r', t.secure.restore = some r' ∧ r'.base = r.base ∧ r'.ctxs = r.ctxs ∧ r'.others = r.others
                    ∧ (g.regLen ≤ o + n → r'.region = r.region + 1 ∧ r'.shard = 0) ∧ (o + n < g.regLen → r'.region = r.region ∧ r'.shard = r.shard + 1))
               ∧ t.ctxs = s.ctxs ∧ t.cmdq = s.cmdq)
          ∧ (digest32 bs ≠ imgDigest s r.base (q.2.2.2 + r.shard) → rsAlt b = false →
             ∃ t, exec .restore s = .next t ∧ t.secure.restore = none ∧ t.ctxs = s.ctxs ∧ t.cmdq = s.cmdq.drop 1 ∧ t.secure.restoring = s.secure.restoring))
     ∧ (∀ r, awaiting s 0 (.remote 2) = false → s.secure.restore = some r → (rsPlan s b)[r.region]? = none →
          ∃ t, exec .restore s = .next t ∧ t.secure.restore = none ∧ t.cmdq = s.cmdq.drop 1 ∧ t.mem = s.mem
            ∧ (∀ x ∈ r.ctxs, ctxDisc t x = false ∧ ctxState t x = ctxState s x ∧ x ∉ t.secure.restoring)
            ∧ ∀ x, x ∉ r.ctxs → ∀ o, o < 256 → cw t x o = cw s x o))
  ∧ (∀ (s : State) (x : CtxId) (rank : BitVec 16) (d : List Byte),
       (replOn s = false → exec (.replicaDigestFrame x rank d) s = .next s)
       ∧ (replOn s = true → gateOf s x.val = none →
            exec (.replicaDigestFrame x rank d) s = .next { s with secure := { s.secure with early := s.secure.early ++ [(x.val, rank.toNat, d)] } })
       ∧ (∀ g, replOn s = true → gateOf s x.val = some g → ∃ t g', exec (.replicaDigestFrame x rank d) s = .next t ∧ gateOf t x.val = some g'
            ∧ t = { s with gates := t.gates } ∧ (∀ y, y ≠ x.val → gateOf t y = gateOf s y)
            ∧ g'.from_ = (if replRoot s = true then g.from_ ++ [(rank.toNat, d)] else g.from_)
            ∧ g'.sentUp = (if replRoot s = true then g.sentUp else g.sentUp ++ [(rank.toNat, d)])))
  ∧ (∀ (s : State) (x : CtxId) (g : Gate) (v : Verdict), gateOf s x.val = some g → g.restoring = false → g.giver = none →
       let n := replMembers s
       (replRoot s = true → allDigests s g = false → exec (.replicaVerdict x v) s = .next s)
       ∧ (replRoot s = true → allDigests s g = true → replRank s < n → (∀ r, r < n → digestOf g r = g.digest) →
            (v ≠ .pass → exec (.replicaVerdict x v) s = .next s)
            ∧ (v = .pass → ∃ u, exec (.replicaVerdict x v) s = .next (kilnServiceAll u) ∧ gateOf u x.val = none ∧ u.mem = s.mem ∧ u.ctxs = s.ctxs ∧ u.mcq = s.mcq
                 ∧ u.secure.verdicts = s.secure.verdicts ++ ((List.range n).filter (· != replRank s)).map fun r => (x.val, r, .pass)))
       ∧ (∀ m, replRoot s = true → allDigests s g = true → 3 ≤ n → replRank s < n → majority g n = some m → digestOf g (replRank s) ≠ m →
            (∀ giver, v = .takeCopy giver m → giver = BitVec.ofNat 16 (((List.range n).find? fun q => digestOf g q == m).getD 0) →
               ∃ t, exec (.replicaVerdict x v) s = .next t ∧ gateOf t x.val = some { g with giver := some (giver, m) } ∧ t.mem = s.mem)
            ∧ (v = .pass → exec (.replicaVerdict x v) s = .next s))
       ∧ (replRoot s = false →
            (v = .pass → ∃ u, exec (.replicaVerdict x v) s = .next (kilnServiceAll u) ∧ gateOf u x.val = none ∧ u.mem = s.mem ∧ u.ctxs = s.ctxs)
            ∧ (∀ giver e, v = .takeCopy giver e → ∃ t, exec (.replicaVerdict x v) s = .next t ∧ gateOf t x.val = some { g with giver := some (giver, e) } ∧ t.mem = s.mem
                 ∧ (replMembers s ≠ 2 → t.ctxs = s.ctxs))
            ∧ (∀ w, v = .restore w → ∃ t, exec (.replicaVerdict x v) s = .next t ∧ gateOf t x.val = some { g with restoring := true } ∧ ctxDisc t x.val = true
                 ∧ t.mem = s.mem)))
  ∧ ∀ (s : State) (x : CtxId) (g : Gate) (w : BitVec 16) (e data : List Byte) (r : Region), gateOf s x.val = some g → g.giver = some (w, e) →
      (planRegions s).filter (fun q => q.ctx == x.val) = [r] → data.length = r.regLen →
      let s1 := writeMem s r.regSrc data
      (stepDigest s1 x.val g.serial = e → ∃ u, exec (.peerCopy x data) s = .next (kilnServiceAll u) ∧ gateOf u x.val = none
         ∧ readMem u r.regSrc r.regLen = data ∧ (∀ a, a < r.regSrc ∨ r.regSrc + r.regLen ≤ a → readByte u a = readByte s a) ∧ u.ctxs = s.ctxs)
      ∧ (stepDigest s1 x.val g.serial ≠ e → ∃ t, exec (.peerCopy x data) s = .next t ∧ ctxDisc t x.val = true
         ∧ gateOf t x.val = some { g with giver := none, restoring := true } ∧ readMem t r.regSrc r.regLen = data)

/-- R403, R404, R426, R427, R429, R430, R431, R432, R419: a fenced core leaves the floor plan, whose serial rises by 1, its contexts are marked and it stops; a fenced cluster takes its cores
along. A service request is refused where it is invalid or would pass the minimum, and otherwise closes its unit, which is drained once
nothing uses it; one action runs at a time; a memory test leaves zeros and no other byte changed; a failed test fences the unit. A load
fills the image stores of its cores where the digest matches and empties them where it does not. -/
def Obligations.FencesAndService : Prop :=
  (∀ (s : State) (b : List Byte), headBlock s 0x12 = some b →
     let u := bits (wordAt b 0) 8 0
     (badFence s b = true → exec .fenceCommand s = .next (refuseCmd s 0x34 b))
     ∧ (badFence s b = false → bits (wordAt b 0) 15 13 = 0 →
          ∃ t, exec .fenceCommand s = .next t ∧ (∀ c, t.plan.cores.getLsbD c = (s.plan.cores.getLsbD c && c != u)) ∧ t.plan.serial = s.plan.serial + 1
            ∧ t.part.remCores.getLsbD u = true ∧ (∀ x, ctxOf (coreOf s u) = some x → ctxDisc t x = true ∧ (coreOf t u).faulted = true)
            ∧ (∀ c, c ≠ u → coreOf t c = coreOf s c) ∧ SameFiles (coreOf s u) (coreOf t u) ∧ t.mem = s.mem ∧ t.tallies = s.tallies))
  ∧ (∀ (s : State) (k : ClusterId),
       (s.boot.state ≠ 1 ∨ s.plan.clusters.getLsbD k.val = false → exec (.sequencerWatchdog k) s = .next s)
       ∧ (s.boot.state = 1 → s.plan.clusters.getLsbD k.val = true →
            ∃ u, exec (.sequencerWatchdog k) s = .next (endClusterCmds u k.val) ∧ u.plan.clusters.getLsbD k.val = false ∧ u.plan.serial = s.plan.serial + 1
              ∧ (∀ c, u.plan.cores.getLsbD c = (s.plan.cores.getLsbD c && c / 32 != k.val))
              ∧ (∀ c x, c / 32 = k.val → ctxOf (coreOf s c) = some x → ctxDisc u x = true ∧ (coreOf u c).faulted = true)
              ∧ (∀ c, c / 32 ≠ k.val → coreOf u c = coreOf s c) ∧ u.mem = s.mem ∧ u.tallies = s.tallies))
  ∧ (∀ (s : State) (b : List Byte) (i : Instr) (a : Nat), headBlock s 0x13 = some b → (i, a) ∈ [(.serviceDrain, 1), (.serviceKnownAnswer, 2),
         (.serviceMemoryTest, 3), (.serviceFirmwareReload, 4), (.serviceDeepRecal, 5), (.serviceReturn, 6)] →
       let key := (svKind b, svUnit b)
       (1 ≤ svAction b → svAction b ≤ 6 → svAction b ≠ a → exec i s = .next s)
       ∧ (svAction b = a →
            (badService s b = true → exec i s = .next (refuseCmd s 0x43 b))
            ∧ (badService s b = false → belowMin s b = true → exec i s = .next (refuseCmd s 0x42 b))
            ∧ (badService s b = false → belowMin s b = false → ∃ t, exec i s = .next t ∧ t.service.reqs = s.service.reqs ++ [svcReq b]
                 ∧ (key ∈ t.service.closing ∨ key ∈ t.service.drained) ∧ t.cmdq = s.cmdq.drop 1 ∧ t.mem = s.mem ∧ t.cores = s.cores ∧ t.plan = s.plan)))
  ∧ (∀ (s : State) (kind : Fin 3) (u : Fin 16), (kind.val, u.val) ∈ s.service.closing →
       ((∃ x ∈ busyCtxs s, usesUnit s x kind.val u.val = true) ∨ unitBusy s kind.val u.val = true → exec (.unitDrained kind u) s = .next s)
       ∧ ((∀ x ∈ busyCtxs s, usesUnit s x kind.val u.val = false) → unitBusy s kind.val u.val = false →
            ∃ t, exec (.unitDrained kind u) s = .next t ∧ (kind.val, u.val) ∈ t.service.drained ∧ (kind.val, u.val) ∉ t.service.closing
              ∧ t.service.reqs = s.service.reqs ∧ t = { s with service := t.service }))
  ∧ (∀ (s : State), (s.service.running ≠ none → exec .serviceActionStart s = .next s)
       ∧ ∀ q, s.service.running = none → nextAction s = some q →
           (2 ≤ q.action → q.action ≤ 5 → ∃ t, exec .serviceActionStart s = .next t ∧ t.service.running = some q ∧ t.service.reqs = s.service.reqs.erase q
              ∧ t = { s with service := t.service })
           ∧ (q.action = 6 → ∃ t, exec .serviceActionStart s = .next t ∧ (q.kind, q.unit) ∉ t.service.drained ∧ t.service.reqs = s.service.reqs.erase q
              ∧ t.mem = s.mem ∧ t.cores = s.cores ∧ t.plan = s.plan))
  ∧ (∀ (s : State) (q : SvcReq) (res : ActionResult), s.service.running = some q →
       let lo := (regionOf s q.kind q.unit).1
       let n := (regionOf s q.kind q.unit).2
       (res.pass = true → q.action = 3 → ∃ t, exec (.serviceActionEnd res) s = .next t ∧ t.service.running = none
          ∧ (∀ a, lo ≤ a → a < lo + n → readByte t a = 0) ∧ (∀ a, a < lo ∨ lo + n ≤ a → readByte t a = readByte s a)
          ∧ (q.ret = true → (q.kind, q.unit) ∉ t.service.drained) ∧ (q.ret = false → t.service.drained = s.service.drained) ∧ t.plan = s.plan)
       ∧ (res.pass = false → q.action = 2 ∨ q.action = 3 → ∃ u, exec (.serviceActionEnd res) s = .next (fence u (q.kind + 1) q.unit 0x20 res.digest)
          ∧ u.service.running = none ∧ u.plan = s.plan ∧ u.mem = s.mem ∧ u.cores = s.cores))
  ∧ ∀ (s : State) (b : List Byte), headBlock s 0x14 = some b →
      let img := readMem s (ldSrc b) (ldLen b)
      let ok := inHbm (ldSrc b) = true ∧ populatedRange s (ldSrc b) (ldLen b) = true ∧ digest32 img = ldDig b
      (badLoad s b = true → exec .loadImage s = .next (refuseCmd s 0x45 b))
      ∧ (badLoad s b = false → badIn s (ldSrc b) (ldLen b) = none →
          ∃ t, exec .loadImage s = .next t ∧ t.cmdq = s.cmdq.drop 1 ∧ t.mem = s.mem ∧ t.tallies = s.tallies ∧ (∀ c, c ∉ ldCores b → coreOf t c = coreOf s c)
            ∧ (ok → ∀ c ∈ ldCores b, coreOf t c = { coreOf s c with image := setBytes [] 0 img, bundles := ldLen b / bundleSize s b })
            ∧ (¬ ok → ∀ c ∈ ldCores b, coreOf t c = { coreOf s c with image := [], bundles := 0 }))

/-! ### Life cycle and signing (chapter 19) -/

/-- R437 to R441, Table 19.2: a command object of a kind that the state allows, with the header of R438 and a valid signature, has the effect of its kind: identity
and B; G; owner unlock; the next owner slot; the beginning of the destruction. One that fails either is refused with no effect but a record,
and so is one whose block has a non-zero reserved field (that this is a failing object is the model's choice, log entry 37); one that meets a line that
cannot be corrected leaves that line's record alone (R17).
The destruction ends with every populated byte of memory at 0, no context, an empty log ring and D burned. -/
def Obligations.SignedTransitions : Prop :=
  (∀ (s : State) (b : List Byte), headBlock s 0x21 = some b → badIn s (objAddr b) (objLen b) = none →
     let o := objBytes s b
     let good := kindAllowed s (objKind o) = true ∧ objReserved b = false ∧ headerOk s o = true ∧ signatureOk s o = true
     (objKind o = 1 → good → s.part.seed = none →
        ∃ t, exec .provision s = .next t ∧ t.part.fuseB = true ∧ t.part.owners = [objDigest o] ∧ t.part.seed ≠ none ∧ lcState t = 1 ∧ t.cmdq = s.cmdq.drop 1
          ∧ t.mem = s.mem ∧ t.cores = s.cores ∧ t.life.active = s.life.active)
     ∧ (objKind o = 2 → good → ∃ t, exec .enterGlaze s = .next t ∧ t.part = { s.part with fuseG := true } ∧ lcState t = 2 ∧ t.cmdq = s.cmdq.drop 1 ∧ t.mem = s.mem)
     ∧ (objKind o = 3 → good → ∃ t, exec .ownerUnlock s = .next t ∧ t.part = s.part ∧ t.life.unlock = true ∧ lcState t = lcState s ∧ t.cmdq = s.cmdq.drop 1
          ∧ t.mem = s.mem)
     ∧ (objKind o = 4 → good →
          (s.part.owners.length < 4 → ∃ t, exec .rotateOwnerKey s = .next t ∧ t.part = { s.part with owners := s.part.owners ++ [objDigest o] } ∧ t.mem = s.mem)
          ∧ (4 ≤ s.part.owners.length → ∃ t, exec .rotateOwnerKey s = .next t ∧ t.part.owners = s.part.owners ∧ t.life = s.life ∧ t.mem = s.mem))
     ∧ (objKind o = 5 → good → destructionDue s = false →
          ∃ t, exec .returnToMaker s = .next t ∧ t.part.fuseS = true ∧ t.part.fuseD = s.part.fuseD ∧ t.part.seed = some (BitVec.allOnes 256)
            ∧ t.part.owners = List.replicate 4 (BitVec.allOnes 256) ∧ lcState t = 3 ∧ t.life.pubRoot = [] ∧ ∀ c, s.plan.cores.getLsbD c = true → (coreOf t c).scrub = .scrubbing)
     ∧ (∀ (i : Instr) (k : Nat), (i, k) ∈ [(.provision, 1), (.enterGlaze, 2), (.ownerUnlock, 3), (.rotateOwnerKey, 4), (.returnToMaker, 5)] → objKind o = k →
          kindAllowed s k = true → objReserved b = true ∨ headerOk s o = false ∨ signatureOk s o = false → destructionDue s = false →
          ∃ t, exec i s = .next t ∧ t.part = { s.part with log := t.part.log } ∧ t.life = s.life ∧ t.cmdq = s.cmdq.drop 1 ∧ t.mem = s.mem ∧ t.cores = s.cores))
  ∧ (∀ (s : State) (b : List Byte) (l : Nat), headBlock s 0x21 = some b → badIn s (objAddr b) (objLen b) = some l →
       exec .provision s = .next (lineFails s l) ∧ (lineFails s l).part = { s.part with log := (lineFails s l).part.log } ∧ (lineFails s l).life = s.life
         ∧ (lineFails s l).cmdq = s.cmdq.drop 1 ∧ (lineFails s l).mcq = (s.mcq.takeAt s.clock.cycle (.fault (uncorrRec s 0xD (uncorrSub l) l 0x300020000000 none))))
  ∧ ∀ s : State, destructionDue s = true →
      ∃ t, exec .returnToMaker s = .next t ∧ t.part.fuseD = true ∧ t.part.fuseS = true ∧ t.part.log = [] ∧ t.ctxs = []
        ∧ (∀ a, (inHbm a = true ∨ inDdr a = true) → populated s a = true → readByte t a = 0)
        ∧ ∀ a, (inHbm a = false ∧ inDdr a = false) ∨ populated s a = false → readByte t a = readByte s a

/-- R442 to R446: without an identity every batch is refused; a batch that breaks the rules is refused; a valid one takes the next leaf of the open epoch, or opens an epoch
by burning a fuse that reads blank, and writes the root record, its signature and the statements to the destination and to no other place. A line that cannot be corrected gives its
one record, class 0x09, the lowest (R17). -/
def Obligations.BatchesSigned : Prop :=
  ∀ (s : State) (b : List Byte), headBlock s 0x20 = some b →
    let parts := batchParts s b
    let n := 96 + 4963 + parts.1.length
    (lcState s = 0 ∨ lcState s = 3 → exec .signBatch s = .next (refuseCmd s 0x51 b))
    ∧ (lcState s = 1 ∨ lcState s = 2 →
        (∀ l, batchBadLine s b = some l → exec .signBatch s = .next (lineFails s l))
        ∧ (batchBadLine s b = none → batchOk s b = false ∨ bkCap b < n ∨ populatedRange s (bkDest b) n = false →
             exec .signBatch s = .next (refuseCmd s 0x55 b))
        ∧ (batchBadLine s b = none → batchOk s b = true → n ≤ bkCap b → populatedRange s (bkDest b) n = true →
            (s.life.active = true → s.life.leaf < 1024 →
               let sig := padTo 4963 (Config.xmssSign (s.part.seed.getD 0) (1024 * s.life.epoch + s.life.leaf) parts.2)
               ∃ t, exec .signBatch s = .next t ∧ t.life = { s.life with leaf := s.life.leaf + 1 } ∧ t.part.epochs = s.part.epochs
                 ∧ readMem t (bkDest b) (parts.2 ++ sig ++ parts.1).length = parts.2 ++ sig ++ parts.1
                 ∧ (∀ x, x < bkDest b ∨ bkDest b + (parts.2 ++ sig ++ parts.1).length ≤ x → readByte t x = readByte s x) ∧ t.cmdq = s.cmdq.drop 1)
            ∧ (∀ u e, (s.life.active = false ∨ 1024 ≤ s.life.leaf) → openEpoch s (List.range 1024) = (u, some e) →
               ∃ t, exec .signBatch s = .next t ∧ t.life.active = true ∧ t.life.epoch = e ∧ t.life.leaf = 1 ∧ t.part.epochs.getLsbD e = true
                 ∧ s.part.epochs.getLsbD e = false ∧ e < 1024 ∧ t.cmdq = s.cmdq.drop 1)
            ∧ (∀ u, (s.life.active = false ∨ 1024 ≤ s.life.leaf) → openEpoch s (List.range 1024) = (u, none) →
               exec .signBatch s = .next (refuseCmd u 0x50 b))))

/-! ### Resets and start-up (chapters 18 and 20) -/

/-- R2, R453, R444, R413, R411, R414, R416, R418, R420 to R427: a cold reset keeps the part alone; a warm one keeps DDR5 and the open epoch too. A stage runs in its turn and at no other time; each
ends with the next in turn or the halt, and a unit that failed in it is out of the floor plan, which never has more units than its grade. S3 gives the stacks present their regions, S4
leaves HBM at 0, S5 leaves DDR5 at 0 unless the reset was warm, S6 loads the runtime, S7 begins the ports' training and S8 ends it, S9 makes
the device ready. -/
def Obligations.ResetsAndStages : Prop :=
  (∀ s : State,
     (∃ t, exec .coldReset s = .next t ∧ t.part = s.part ∧ t.boot = State.reset.boot ∧ t.mem = [] ∧ t.cores = [] ∧ t.ctxs = [] ∧ t.tallies = [] ∧ t.cmdq = []
        ∧ t.clock = State.reset.clock ∧ t.life.active = false ∧ t.life.unlock = false ∧ t.secure = State.reset.secure ∧ t.pending = s.pending)
     ∧ (s.power.therm = true → exec .warmReset s = .next s)
     ∧ (s.power.therm = false → ∃ t, exec .warmReset s = .next t ∧ t.part = s.part ∧ t.boot = { State.reset.boot with warm := true, quick := true }
          ∧ (∀ a, readByte t a = if inDdr a = true then readByte s a else 0) ∧ t.cores = [] ∧ t.ctxs = [] ∧ t.tallies = [] ∧ t.life.active = s.life.active
          ∧ t.life.epoch = s.life.epoch ∧ t.life.leaf = s.life.leaf ∧ t.life.unlock = false ∧ t.pending = s.pending))
  ∧ (∀ (s : State) (r : StageInput) (i : Instr) (n : Nat), (i, n) ∈ [(.stageS0 r, 0), (.stageS1 r, 1), (.stageS2 r, 2), (.stageS3 r, 3), (.stageS4 r, 4),
        (.stageS5 r, 5), (.stageS6 r, 6), (.stageS7 r, 7), (.stageS8 r, 8), (.stageS9 r, 9)] →
       (s.boot.state ≠ 0 ∨ s.boot.next ≠ n → exec i s = .next s)
       ∧ (s.boot.state = 0 → s.boot.next = n → 1 ≤ n → n ≤ 8 → ∃ t, exec i s = .next t ∧ t.boot.stage = n ∧ t.boot.next = n + 1 ∧ (t.boot.state = 0 ∨ t.boot.state = 2)
            ∧ (destroying s = false → (t.boot.state = 2 ↔ tooLittle t = true ∨ (n ≤ 2 ∧ t.plan.dies.getLsbD 0 = false) ∨ (n = 7 ∧ r.engineFail = true)))))
  ∧ (∀ (s : State) (r : StageInput), s.boot.state = 0 → s.boot.next = 0 →
       (slotUsed s.part = none → ∃ t, exec (.stageS0 r) s = .next t ∧ t.boot.state = 2 ∧ t.mem = s.mem)
       ∧ (∀ sb, slotUsed s.part = some sb → r.regulatorAbsent = none →
            ∃ t, exec (.stageS0 r) s = .next t ∧ t.boot.manifest = (if sb = true then s.part.slotB else s.part.slotA) ∧ t.boot.slotB = sb
              ∧ t.boot.next = (if s.boot.warm = true then 2 else 1) ∧ (t.boot.state = 2 ↔ tooLittle t = true) ∧ (portOf t 16).st = 2
              ∧ (let most := fun (a b c : Nat) => if s.part.grade = 0x0A then a else if s.part.grade = 0x0B then b else c
                 (setBitsOf 16 t.plan.clusters.toNat).length ≤ most 16 14 12 ∧ (setBitsOf 8 t.plan.hstacks.toNat).length ≤ most 8 8 6
                 ∧ (setBitsOf 12 t.plan.channels.toNat).length ≤ most 12 12 8 ∧ (setBitsOf 16 t.plan.ports.toNat).length ≤ most 16 12 8)
              ∧ t.service.minReg = t.boot.manifest.svcMin ∧ t.life.active = (s.life.active && !r.cacheBad) ∧ t.mem = s.mem))
  ∧ (∀ (s : State) (r : StageInput), s.boot.state = 0 →
       (∀ d, s.boot.next = 1 → .baseDie d ∈ r.fails → ∃ t, exec (.stageS1 r) s = .next t ∧ t.plan.dies.getLsbD d.val = false)
       ∧ (∀ c, s.boot.next = 2 → .core c ∈ r.fails → ∃ t, exec (.stageS2 r) s = .next t ∧ t.plan.cores.getLsbD c.val = false)
       ∧ (s.boot.next = 3 → ∃ t, exec (.stageS3 r) s = .next t ∧ (∀ u, .stack u ∈ r.fails → t.plan.hstacks.getLsbD u.val = false)
            ∧ ∀ k u, (setBitsOf 8 t.plan.hstacks.toNat)[k]? = some u → (unitOf t u).present = true ∧ (unitOf t u).region = k)
       ∧ (s.boot.next = 4 → ∃ t, exec (.stageS4 r) s = .next t ∧ (∀ u, .stack u ∈ r.fails → t.plan.hstacks.getLsbD u.val = false)
            ∧ (∀ u n k, (.stack u, n, k) ∈ r.lines → 0 < n → t.plan.hstacks.getLsbD u.val = false)
            ∧ (∀ u, u < 8 → t.plan.hstacks.getLsbD u = false → (unitOf t u).present = false)
            ∧ ∀ a, readByte t a = if inHbm a = true then 0 else readByte s a)
       ∧ (s.boot.next = 5 → destroying s = false → ∃ t, exec (.stageS5 r) s = .next t
            ∧ (∀ a, readByte t a = if inDdr a = true ∧ s.boot.warm = false then 0 else readByte s a)
            ∧ (∀ n, n < 6 → badModules r n = true → inPlan t.plan 3 n = false)
            ∧ ∀ m, t.plan.channels.getLsbD m = true → (unitOf t (8 + m)).present = true ∧ (unitOf t (8 + m)).capGiB = r.modulesGiB.getD m 0)
       ∧ (s.boot.next = 6 → let fw := s.boot.manifest.firmware ++ s.boot.manifest.runtime
            ∃ t, exec (.stageS6 r) s = .next t ∧ readMem t s.boot.manifest.fwStage.toNat fw.length = fw
              ∧ (∀ c, t.plan.cores.getLsbD c = true → (coreOf t c).image = setBytes [] 0 s.boot.manifest.runtime
                   ∧ (coreOf t c).bundles = s.boot.manifest.runtime.length / 16)
              ∧ ∀ c, .core c ∈ r.fails → t.plan.cores.getLsbD c.val = false)
       ∧ (s.boot.next = 7 → ∃ t, exec (.stageS7 r) s = .next t ∧ (∀ c, .core c ∈ r.fails ∨ .array c ∈ r.fails → t.plan.cores.getLsbD c.val = false)
            ∧ (∀ k, .cluster k ∈ r.fails → t.plan.clusters.getLsbD k.val = false) ∧ (∀ p, t.plan.ports.getLsbD p = true → (portOf t p).st = 1))
       ∧ (s.boot.next = 8 → ∃ t, exec (.stageS8 r) s = .next t ∧ (∀ p, .port p ∈ r.fails → t.plan.ports.getLsbD p.val = false)
            ∧ ∀ p, p < 16 → (portOf t p).st ≠ 1 ∧ (t.plan.ports.getLsbD p = false → (portOf t p).st = 0)))
  ∧ ∀ (s : State) (r : StageInput), s.boot.state = 0 → s.boot.next = 9 →
      (s.fabric.ready = true → s.fabric.lock = true → ∃ t, exec (.stageS9 r) s = .next t ∧ t.boot.state = 1 ∧ t.boot.stage = 9 ∧ t.mem = s.mem ∧ t.plan = s.plan)
      ∧ (s.fabric.ready = false ∨ s.fabric.lock = false → exec (.stageS9 r) s = .next s)

/-! ### Power (chapter 20) -/

/-- R454 to R458, R461, R463, Table 20.5: a sample above the cap lowers the clock asked for by 50 MHz, to no less than 1.2 GHz, and one at most 95% of it raises it, to no more than the grade
clock; the junction does the same at 100 °C and below 99 °C. The lower of both applies: down at once, up when the regulator has completed.
`THROT#` follows its two causes at 1.2 GHz, `THERMTRIP#` 110 °C. Droops are counted. A halted device does none of it. -/
def Obligations.PowerAndClock : Prop :=
  ∀ s : State,
    let p := s.power
    let g := gradeClk s
    let acts := s.boot.state ≠ 2 ∧ p.therm = false
    let follows := fun (t : State) (pow therm : Nat) =>
      let want := Nat.min pow therm
      t.power.powMHz = pow ∧ t.power.thermMHz = therm ∧ t.power.wantMHz = want ∧ t.power.clkMHz = Nat.min p.clkMHz want
      ∧ t.power.raising = decide (p.clkMHz < want) ∧ t.power.cap = p.cap
      ∧ (t.power.throt = true ↔ (105 ≤ t.power.tmax ∨ p.cap < t.power.pavg) ∧ (p.throt = true ∨ t.power.clkMHz = 1200))
      ∧ (t.power.throt ≠ p.throt → t.power.ibi = p.ibi + 1) ∧ t.mem = s.mem ∧ t.cores = s.cores ∧ t.tallies = s.tallies ∧ t.fabric = s.fabric
    (∀ r, acts → ∃ t, exec (.powerSample r) s = .next t ∧ t.power.pavg = Nat.min 65535 r.avgW ∧ t.power.tmax = p.tmax ∧ t.power.temps = p.temps
        ∧ follows t (if p.cap < r.avgW then Nat.max 1200 (p.powMHz - 50) else if r.avgW * 100 ≤ p.cap * 95 then Nat.min g (p.powMHz + 50) else p.powMHz) p.thermMHz)
    ∧ (∀ l, acts → ∃ t, exec (.thermalStep l) s = .next t ∧ t.power.temps = readings s l ∧ t.power.pavg = p.pavg ∧ (∀ x ∈ readings s l, x ≤ t.power.tmax)
        ∧ (t.power.tmax = 0 ∨ t.power.tmax ∈ readings s l)
        ∧ (∀ n, n < 8 → (95 ≤ (readings s l).getD (20 + n) 0 → t.power.halved.getLsbD n = true) ∧ ((readings s l).getD (20 + n) 0 < 93 → t.power.halved.getLsbD n = false)
             ∧ (93 ≤ (readings s l).getD (20 + n) 0 → (readings s l).getD (20 + n) 0 < 95 → t.power.halved.getLsbD n = p.halved.getLsbD n))
        ∧ follows t p.powMHz (if 100 ≤ t.power.tmax then Nat.max 1200 (p.thermMHz - 50) else if t.power.tmax < 99 then Nat.min g (p.thermMHz + 50) else p.thermMHz))
    ∧ (acts → exec .avsCompletion s = .next (if p.raising = true then { s with power := { p with clkMHz := p.wantMHz, raising := false } } else s))
    ∧ (∀ n, acts → exec (.activityEstimate n) s = .next { s with power := { p with stretch := decide (400 < n) } })
    ∧ (∀ l, ((∃ x ∈ readings s l, 110 ≤ x) → ∃ t, exec (.thermtrip l) s = .next t ∧ t.power.therm = true ∧ t.mem = s.mem ∧ t.cores = s.cores)
         ∧ ((∀ x ∈ readings s l, x < 110) → exec (.thermtrip l) s = .next s))
    ∧ (acts → ∃ t, exec .droopEvent s = .next t ∧ t.power.droop = satAdd 16 p.droop 1 ∧ t.secure.evDroop = s.secure.evDroop + 1 ∧ t.mem = s.mem ∧ t.mcq = s.mcq)
    ∧ (∀ a, acts → (exec (.pmbAlert a false) s = .next s) ∧ ∃ t, exec (.pmbAlert a true) s = .next t ∧ t.power.droop = satAdd 16 p.droop 1
         ∧ (t.mcq.held = s.mcq.held ∨ t.mcq.held.length = s.mcq.held.length + 1) ∧ t.mem = s.mem)
    ∧ (s.boot.state = 2 → ∀ i ∈ [Instr.avsCompletion, .droopEvent], exec i s = .next s)

/-! ### The block as a whole -/

/-- A step runs the command at the front of the queue, with the queue's rest; with no command waiting, one clock cycle passes, and with
`THERMTRIP#` low nothing changes (the model's choice, log entry 1; R458). -/
def Obligations.StepTakesFront : Prop :=
  (∀ (s : State) (c : Instr) (rest : List Instr), s.pending = c :: rest → step s = exec c { s with pending := rest })
  ∧ (∀ s : State, s.pending = [] → step s = .next (cycle s))
  ∧ (∀ s : State, s.pending = [] → s.power.therm = true → step s = .next s)
  ∧ ∀ s : State, s.pending = [] → s.power.therm = false → s.cores = [] → (∀ u, (unitOf s u).recent = []) →
      (∀ k, turnsOf s k = [] ∧ (herdOf s k).cmds = [] ∧ kilnCmds s k = []) → s.fabric.parked = [] → windowsUsed s = 0 →
      let k := clockNext s.clock s.power.clkMHz s.fabric.rate
      step s = .next { s with clock := k } ∧ k.cycle = s.clock.cycle + 1 ∧ s.clock.beat ≤ k.beat ∧ k.beat ≤ s.clock.beat + 1

/-- What the spec states for reset (Tables 1.8 to 1.12, 3.4 to 3.9, 11.1, 12.2, 14.3 to 14.6, 15.7 to 15.10, 16.1, 17.1, 17.2, 19.6, 20.5; R359, R368, R371): `DEVADDR` 0xFFFF, `DSLOT_OWN` the compute
engine's, `SCRUB` 1, `LIMIT` 60,000, `TMO` 10,000, `HBP` 1,000,000, the Cone's fields, every context empty, every tally and channel 0, no epoch
open, nothing queued; and the model's invariants hold there. -/
def Obligations.ResetState : Prop :=
  let z := State.reset
  z.pending = [] ∧ z.cmdq = [] ∧ z.fabric.devaddr = 0xFFFF ∧ z.fabric.tmo = 10000 ∧ z.fabric.hbp = 1000000 ∧ z.fabric.ready = false ∧ z.fabric.lock = false
  ∧ (∀ c r, r < 32 → bits (coreOf z c).dslotOwn (2 * r + 1) (2 * r) = 1)
  ∧ (∀ c, (coreOf z c).coreMode = 0 ∧ (coreOf z c).queueBind = 0 ∧ ctxOf (coreOf z c) = none ∧ (coreOf z c).coreEntry = 0 ∧ (coreOf z c).spw = 0
       ∧ (∀ r, pFile (coreOf z c) 0 = BitVec.allOnes 256 ∧ queueAt (coreOf z c) r = []) ∧ ∀ e, (engOf (coreOf z c) e).run = .off)
  ∧ (∀ u, (unitOf z u).scrub = 1 ∧ (unitOf z u).limit = 60000 ∧ (unitOf z u).corr = 0 ∧ (unitOf z u).uncorr = 0)
  ∧ (∀ p, tallyAt z p = 0) ∧ (∀ x, ctxState z x = 0 ∧ ctxDisc z x = false) ∧ (∀ g, (chanOf z g).st = 0 ∧ (chanOf z g).head = 0) ∧ (∀ p, (portOf z p).st = 0)
  ∧ bits z.secure.cfg 63 61 = 4 ∧ bits z.secure.cfg 60 58 = 7 ∧ bits z.secure.cfg 47 32 = 64 ∧ bits z.secure.cfg 31 0 = 0 ∧ z.secure.points = 0
  ∧ z.life.active = false ∧ z.life.unlock = false ∧ z.clock.beat = 0 ∧ z.boot.state = 0 ∧ z.boot.stage = 0 ∧ z.power.cap = gradeCap z
  ∧ (∀ a, readByte z a = 0) ∧ Memory.wf z.mem = true ∧ SigningSound z

/-- Every step keeps the canonical form of the local memory: whatever command runs, equal memories stay equal data (the model's own
form, log entry 6). -/
def Obligations.MemoryStaysCanonical : Prop :=
  ∀ s t : State, Memory.wf s.mem = true → step s = .next t → Memory.wf t.mem = true

/-- R442, R443, R444: whatever command runs, the open epoch stays one whose fuse is burned, with at most its 1,024 leaves taken; and no leaf taken comes
free again: no command makes a burned fuse blank or opens an epoch whose fuse was burned, and `LEAF` of an open epoch never falls. -/
def Obligations.LeavesNeverReused : Prop :=
  ∀ s t : State, SigningSound s → step s = .next t → SigningSound t ∧ NoLeafAgain s t
end

