-- ==== Sys2Proof/Laws/Float.lean ====
section
/-! SUPPORT. Rounding to FP32 stays within half an ulp, and so the results of R55 and R201 keep their bounds. -/

namespace Sys2Proof.Machine

open Sys2Proof

/-- The number that a finite exact value stands for. -/
def FV.num : FV → ℚ
  | .fin s m e => (if s then -1 else 1) * (m : ℚ) * (2 : ℚ) ^ e
  | _ => 0

/-- An aligned integer, scaled back, is the value. -/
theorem alignedInt_num (s : Bool) (m : Nat) {e e0 : Int} (h : e0 ≤ e) :
    ((alignedInt s m e e0 : Int) : ℚ) = (FV.fin s m e).num * (2 : ℚ) ^ (-e0) := by
  obtain ⟨k, hk⟩ : ∃ k : Nat, e - e0 = k := ⟨(e - e0).toNat, (Int.toNat_of_nonneg (by omega)).symm⟩
  have hp : (2 : ℚ) ^ e * (2 : ℚ) ^ (-e0) = (2 : ℚ) ^ k := by
    rw [← zpow_add₀ (by norm_num), ← zpow_natCast, ← hk]; congr 1
  unfold alignedInt FV.num
  rw [hk, Int.toNat_natCast]
  cases s
  · simp only [Bool.false_eq_true, if_false]; push_cast; rw [mul_assoc, hp]; ring
  · simp only [if_true]; push_cast; rw [mul_assoc, hp]; ring

/-- The exact sum of finite values. -/
theorem exactAdd_num (s t : Bool) (m n : Nat) (e f : Int) :
    ((FV.fin s m e).add (.fin t n f)).isFin = true
      ∧ ((FV.fin s m e).add (.fin t n f)).num = (FV.fin s m e).num + (FV.fin t n f).num := by
  simp only [FV.add]
  split_ifs with h1 h2 h3
  · simp [FV.isFin, FV.num, h1.1, h1.2]
  · simp [FV.isFin, FV.num, h2]
  · simp [FV.isFin, FV.num, h3]
  · refine ⟨rfl, ?_⟩
    have ha := alignedInt_num s m (min_le_left e f)
    have hb := alignedInt_num t n (min_le_right e f)
    set z := alignedInt s m e (min e f) + alignedInt t n f (min e f)
    have hz : (z : ℚ) = ((FV.fin s m e).num + (FV.fin t n f).num) * (2 : ℚ) ^ (-(min e f)) := by
      simp only [z]; push_cast; rw [ha, hb]; ring
    have hn : (z.natAbs : ℚ) = |(z : ℚ)| := by rw [Nat.cast_natAbs, Int.cast_abs]
    have hs : (if decide (z < 0) then (-1 : ℚ) else 1) * (z.natAbs : ℚ) = (z : ℚ) := by
      rw [hn]
      by_cases h : z < 0
      · have : (z : ℚ) < 0 := by exact_mod_cast h
        simp [h, abs_of_neg this]
      · have : (0 : ℚ) ≤ z := by exact_mod_cast (not_lt.mp h)
        simp [h, abs_of_nonneg this]
    show (if decide (z < 0) then (-1 : ℚ) else 1) * (z.natAbs : ℚ) * (2 : ℚ) ^ (min e f) = _
    rw [hs, hz, mul_assoc, ← zpow_add₀ (by norm_num)]
    simp

/-- The order of finite values that are not negative. -/
theorem exactLt_num (m n : Nat) (e f : Int) :
    (FV.fin false m e).lt (.fin false n f) = decide ((FV.fin false m e).num < (FV.fin false n f).num) := by
  simp only [FV.lt]
  have ha := alignedInt_num false m (min_le_left e f)
  have hb := alignedInt_num false n (min_le_right e f)
  have hp : (0 : ℚ) < (2 : ℚ) ^ (-(min e f)) := zpow_pos (by norm_num) _
  congr 1
  apply propext
  constructor
  · intro h
    have : ((alignedInt false m e (min e f) : Int) : ℚ) < (alignedInt false n f (min e f) : Int) := by exact_mod_cast h
    rw [ha, hb] at this
    exact lt_of_mul_lt_mul_right this hp.le
  · intro h
    have := mul_lt_mul_of_pos_right h hp
    rw [← ha, ← hb] at this
    exact_mod_cast this

/-- Rounding an integer away by a shift errs by at most half. -/
theorem shiftRne_error (m s : Nat) : 2 * (shiftRne m s * 2 ^ s) ≤ 2 * m + 2 ^ s ∧ 2 * m ≤ 2 * (shiftRne m s * 2 ^ s) + 2 ^ s := by
  have h1 := Nat.div_add_mod m (2 ^ s)
  have h2 : m % 2 ^ s < 2 ^ s := Nat.mod_lt _ (by positivity)
  unfold shiftRne
  simp only
  split_ifs with h
  · have e : (m / 2 ^ s + 1) * 2 ^ s = 2 ^ s * (m / 2 ^ s) + 2 ^ s := by ring
    rw [e]; omega
  · rw [Nat.mul_comm (m / 2 ^ s)]; omega

/-- The FP32 place at which a magnitude m × 2^e is rounded. -/
def roundPlace (m : Nat) (e : Int) : Int := Max.max ((Nat.log2 m : Int) + e - 23) (-149)

/-- The significand that a magnitude rounds to. -/
def roundMant (m : Nat) (e : Int) : Nat :=
  if roundPlace m e ≤ e then m * 2 ^ (e - roundPlace m e).toNat else shiftRne m (roundPlace m e - e).toNat

/-- The encoding of a rounded magnitude: its place and its significand. -/
theorem roundMag_eq (m : Nat) (e : Int) :
    fmtF32.roundMag m e = (roundPlace m e + 149).toNat * 2 ^ 23 + roundMant m e := by
  have h : (1 : Int) - (fmtF32.bias : Int) - fmtF32.mbits = -149 := by decide
  simp only [Fmt.roundMag, h, roundMant, roundPlace]
  simp [fmtF32, sub_neg_eq_add]

/-- A rounded magnitude errs by at most half a unit of its place. -/
theorem roundMant_error (m : Nat) (e : Int) :
    |(roundMant m e : ℚ) * (2 : ℚ) ^ roundPlace m e - (m : ℚ) * (2 : ℚ) ^ e| ≤ (2 : ℚ) ^ roundPlace m e / 2 := by
  set q := roundPlace m e with hq
  unfold roundMant
  rw [← hq]
  have hp : (0 : ℚ) < (2 : ℚ) ^ q := zpow_pos (by norm_num) _
  split_ifs with h
  · obtain ⟨k, hk⟩ : ∃ k : Nat, e - q = k := ⟨(e - q).toNat, (Int.toNat_of_nonneg (by omega)).symm⟩
    have : (2 : ℚ) ^ e = (2 : ℚ) ^ k * (2 : ℚ) ^ q := by
      rw [← zpow_natCast, ← hk, ← zpow_add₀ (by norm_num)]; congr 1; omega
    rw [hk, Int.toNat_natCast, this]; push_cast
    rw [show (m : ℚ) * 2 ^ k * 2 ^ q - m * (2 ^ k * 2 ^ q) = 0 by ring, abs_zero]; positivity
  · obtain ⟨k, hk⟩ : ∃ k : Nat, q - e = k := ⟨(q - e).toNat, (Int.toNat_of_nonneg (by omega)).symm⟩
    have h2 : (2 : ℚ) ^ q = (2 : ℚ) ^ k * (2 : ℚ) ^ e := by
      rw [← zpow_natCast, ← hk, ← zpow_add₀ (by norm_num)]; congr 1; omega
    have he : (0 : ℚ) < (2 : ℚ) ^ e := zpow_pos (by norm_num) _
    rw [hk, Int.toNat_natCast, h2]
    obtain ⟨a, b⟩ := shiftRne_error m k
    have a' : 2 * ((shiftRne m k : ℚ) * 2 ^ k) ≤ 2 * m + 2 ^ k := by exact_mod_cast a
    have b' : 2 * (m : ℚ) ≤ 2 * ((shiftRne m k : ℚ) * 2 ^ k) + 2 ^ k := by exact_mod_cast b
    rw [show (shiftRne m k : ℚ) * (2 ^ k * 2 ^ e) - m * 2 ^ e = ((shiftRne m k : ℚ) * 2 ^ k - m) * 2 ^ e by ring, abs_mul,
      abs_of_pos he, show (2 : ℚ) ^ k * 2 ^ e / 2 = (2 ^ k / 2) * 2 ^ e by ring]
    apply mul_le_mul_of_nonneg_right _ he.le
    rw [abs_le]; constructor <;> linarith

/-- The significand fits 24 bits, or is the next power of two; it is normal but at the lowest place. -/
theorem roundMant_bounds {m : Nat} (hm : m ≠ 0) (e : Int) :
    roundMant m e ≤ 2 ^ 24 ∧ (roundPlace m e = -149 ∨ 2 ^ 23 ≤ roundMant m e) := by
  have hlo : 2 ^ Nat.log2 m ≤ m := Nat.log2_self_le hm
  have hhi : m < 2 ^ (Nat.log2 m + 1) := Nat.lt_log2_self
  have hq : roundPlace m e = -149 ∨ roundPlace m e = (Nat.log2 m : Int) + e - 23 := by unfold roundPlace; omega
  have hge : (Nat.log2 m : Int) + e - 23 ≤ roundPlace m e := by unfold roundPlace; omega
  generalize hQ : roundPlace m e = q at *
  unfold roundMant
  rw [hQ]
  split_ifs with h
  · obtain ⟨k, hk⟩ : ∃ k : Nat, e - q = k := ⟨(e - q).toNat, (Int.toNat_of_nonneg (by omega)).symm⟩
    rw [hk, Int.toNat_natCast]
    have hk24 : Nat.log2 m + 1 + k ≤ 24 := by omega
    constructor
    · calc m * 2 ^ k ≤ 2 ^ (Nat.log2 m + 1) * 2 ^ k := Nat.mul_le_mul_right _ hhi.le
        _ = 2 ^ (Nat.log2 m + 1 + k) := (pow_add _ _ _).symm
        _ ≤ 2 ^ 24 := Nat.pow_le_pow_right (by norm_num) hk24
    · rcases hq with hq | hq
      · exact .inl hq
      · right
        have : Nat.log2 m + k = 23 := by omega
        calc 2 ^ 23 = 2 ^ Nat.log2 m * 2 ^ k := by rw [← pow_add, this]
          _ ≤ m * 2 ^ k := Nat.mul_le_mul_right _ hlo
  · obtain ⟨k, hk⟩ : ∃ k : Nat, q - e = k := ⟨(q - e).toNat, (Int.toNat_of_nonneg (by omega)).symm⟩
    rw [hk, Int.toNat_natCast]
    have hdiv : m / 2 ^ k < 2 ^ 24 := by
      apply Nat.div_lt_of_lt_mul
      calc m < 2 ^ (Nat.log2 m + 1) := hhi
        _ ≤ 2 ^ (k + 24) := Nat.pow_le_pow_right (by norm_num) (by omega)
        _ = 2 ^ k * 2 ^ 24 := pow_add _ _ _
    have hs : m / 2 ^ k ≤ shiftRne m k ∧ shiftRne m k ≤ m / 2 ^ k + 1 := by
      unfold shiftRne; simp only; split_ifs <;> omega
    constructor
    · omega
    · rcases hq with hq | hq
      · exact .inl hq
      · right
        have hl : Nat.log2 m = k + 23 := by omega
        have : 2 ^ 23 ≤ m / 2 ^ k := by
          rw [Nat.le_div_iff_mul_le (by positivity), ← pow_add]
          rw [hl, Nat.add_comm] at hlo
          exact hlo
        omega

/-- What an encoding built from a place and a significand decodes to. -/
theorem decode_place (s : Bool) {k mant : Nat} (h1 : mant ≤ 2 ^ 24) (h2 : k = 0 ∨ 2 ^ 23 ≤ mant)
    (hmax : k * 2 ^ 23 + mant ≤ fmtF32.maxEnc) :
    ∃ m' e', fmtF32.decode ((if s then fmtF32.signW else 0) + (k * 2 ^ 23 + mant)) = .fin s m' e'
      ∧ (m' : ℚ) * (2 : ℚ) ^ e' = (mant : ℚ) * (2 : ℚ) ^ ((k : Int) - 149) := by
  have hw : fmtF32.signW = 2 ^ 31 := by decide
  have hM : fmtF32.maxEnc = 255 * 2 ^ 23 - 1 := by decide
  rw [hM] at hmax
  rw [hw]
  set mag := k * 2 ^ 23 + mant with hmag
  have hs : (((if s then 2 ^ 31 else 0) + mag) / 2 ^ 31 % 2 == 1) = s := by
    cases s
    · simp only [Bool.false_eq_true, if_false]
      have : (0 + mag) / 2 ^ 31 = 0 := by omega
      rw [this]; rfl
    · simp only [if_true]
      have : (2 ^ 31 + mag) / 2 ^ 31 = 1 := by omega
      rw [this]; rfl
  have hg : ((if s then 2 ^ 31 else 0) + mag) % 2 ^ 31 = mag := by
    cases s
    · simp only [Bool.false_eq_true, if_false]; omega
    · simp only [if_true]; omega
  have hx : mag / 2 ^ 23 < 255 := by omega
  have hdec : fmtF32.decode ((if s then 2 ^ 31 else 0) + mag) =
      (if mag / 2 ^ 23 = 0 then FV.fin s (mag % 2 ^ 23) (-149)
       else .fin s (mag % 2 ^ 23 + 2 ^ 23) ((mag / 2 ^ 23 : Nat) - 150)) := by
    have e1 : (1 : Int) - (fmtF32.bias : Int) - ((23 : Nat) : Int) = -149 := by decide
    have e2 : ∀ x : Int, x - (fmtF32.bias : Int) - ((23 : Nat) : Int) = x - 150 := by intro x; simp [fmtF32]; omega
    have e3 : (mag / 2 ^ 23 == 2 ^ fmtF32.ebits - 1) = false := by
      rw [show fmtF32.ebits = 8 from rfl]
      exact beq_false_of_ne (by omega)
    have e4 : (fmtF32.hasInf, fmtF32.mbits) = (true, 23) := rfl
    simp only [Prod.mk.injEq] at e4
    simp only [Fmt.decode, hw, hs, hg, e4.1, e4.2, e3, Bool.and_false, Bool.false_eq_true, if_false, Bool.not_true, Bool.false_and, e1, e2]
  rw [hdec]
  by_cases c0 : mant < 2 ^ 23
  · have hk : k = 0 := by omega
    have d : mag / 2 ^ 23 = 0 := by omega
    have r : mag % 2 ^ 23 = mant := by omega
    refine ⟨_, _, by rw [if_pos d], ?_⟩
    rw [r, hk]; norm_num
  · by_cases c1 : mant = 2 ^ 24
    · have d : mag / 2 ^ 23 = k + 2 := by omega
      have r : mag % 2 ^ 23 = 0 := by omega
      refine ⟨_, _, by rw [if_neg (by omega)], ?_⟩
      rw [r, d, c1]
      push_cast
      rw [show ((k : Int) + 2 - 150) = (k - 149) + 1 by ring, zpow_add₀ (by norm_num)]
      norm_num; ring
    · have d : mag / 2 ^ 23 = k + 1 := by omega
      have r : mag % 2 ^ 23 + 2 ^ 23 = mant := by omega
      refine ⟨_, _, by rw [if_neg (by omega)], ?_⟩
      rw [r, d]
      push_cast
      rw [show ((k : Int) + 1 - 150) = k - 149 by ring]

/-- An exact value is finite in FP32 when it rounds to a finite one. -/
theorem rnd32_finite {s : Bool} {m : Nat} {e : Int} (hm : m ≠ 0) (h : f32IsFin (rnd32 (.fin s m e)) = true) :
    fmtF32.roundMag m e ≤ fmtF32.maxEnc := by
  by_contra hc
  have hM : fmtF32.maxEnc = 0x7F7FFFFF := by decide
  have hr : fmtF32.round (.fin s m e) = (if s then fmtF32.signW else 0) + (fmtF32.maxEnc + 1) := by
    simp only [Fmt.round, hm, if_false]
    rw [Nat.min_eq_right (by omega)]
  unfold f32IsFin rnd32 f32 at h
  rw [hr] at h
  cases s <;> revert h <;> decide

/-- A value that is finite in FP32 rounds to within half a unit of its place. -/
theorem rnd32_near {s : Bool} {m : Nat} {e : Int} (hm : m ≠ 0) (h : f32IsFin (rnd32 (.fin s m e)) = true) :
    ∃ m' e', f32 (rnd32 (.fin s m e)) = .fin s m' e'
      ∧ |(FV.fin s m' e').num - (FV.fin s m e).num| ≤ (2 : ℚ) ^ roundPlace m e / 2 := by
  have hle := rnd32_finite hm h
  have heq := roundMag_eq m e
  obtain ⟨hb1, hb2⟩ := roundMant_bounds hm e
  have hp : -149 ≤ roundPlace m e := by unfold roundPlace; omega
  obtain ⟨k, hk⟩ : ∃ k : Nat, roundPlace m e + 149 = k := ⟨(roundPlace m e + 149).toNat, (Int.toNat_of_nonneg (by omega)).symm⟩
  rw [hk, Int.toNat_natCast] at heq
  have hr : fmtF32.round (.fin s m e) = (if s then fmtF32.signW else 0) + (k * 2 ^ 23 + roundMant m e) := by
    simp only [Fmt.round, hm, if_false]
    rw [Nat.min_eq_left (by omega), heq]
  have hM : fmtF32.maxEnc = 0x7F7FFFFF := by decide
  have hS : fmtF32.signW = 2 ^ 31 := by decide
  obtain ⟨m', e', hd, hv⟩ := decode_place s (k := k) hb1 (by omega) (by omega)
  refine ⟨m', e', ?_, ?_⟩
  · unfold f32 rnd32
    rw [hr, BitVec.toNat_ofNat, Nat.mod_eq_of_lt (by rw [hS]; cases s <;> simp <;> omega), hd]
  · have hq : (k : Int) - 149 = roundPlace m e := by omega
    rw [hq] at hv
    have hee := roundMant_error m e
    rw [← hv] at hee
    have hs : |(if s then (-1 : ℚ) else 1)| = 1 := by cases s <;> simp
    simp only [FV.num]
    rw [show (if s then (-1 : ℚ) else 1) * m' * 2 ^ e' - (if s then (-1 : ℚ) else 1) * m * 2 ^ e
      = (if s then (-1 : ℚ) else 1) * (m' * 2 ^ e' - m * 2 ^ e) by ring, abs_mul, hs, one_mul]
    exact hee

/-- The magnitude of a finite value. -/
theorem abs_num (v : FV) (h : v.isFin = true) : ∃ m e, v.abs = .fin false m e ∧ (FV.fin false m e).num = |v.num| := by
  cases v with
  | nan _ => cases h
  | inf _ => cases h
  | fin s m e =>
    refine ⟨m, e, rfl, ?_⟩
    have hs : |(if s then (-1 : ℚ) else 1)| = 1 := by cases s <;> simp
    have hp : (0 : ℚ) < (2 : ℚ) ^ e := zpow_pos (by norm_num) _
    simp only [FV.num, abs_mul, hs, abs_of_pos hp, Nat.abs_cast]
    simp

/-- Rounding to nearest keeps every bound of one ulp or more. -/
theorem withinUlps_rnd32 {n : Nat} (hn : 1 ≤ n) {a : FV} (ha : a.isFin = true) (h : f32IsFin (rnd32 a) = true) :
    withinUlps n a (rnd32 a) = true := by
  cases a with
  | nan _ => cases ha
  | inf _ => cases ha
  | fin s m e =>
    obtain ⟨m', e', hv, herr⟩ : ∃ m' e', f32 (rnd32 (.fin s m e)) = .fin s m' e'
        ∧ |(FV.fin s m' e').num - (FV.fin s m e).num| ≤ (2 : ℚ) ^ (ulpExp (.fin s m e)) / 2 := by
      by_cases hm : m = 0
      · subst hm
        refine ⟨0, -149, ?_, ?_⟩
        · have hz : rnd32 (.fin s 0 e) = if s then 0x80000000 else 0 := by cases s <;> rfl
          rw [hz]; cases s <;> decide
        · simp only [FV.num]; simp; positivity
      · have hu : ulpExp (.fin s m e) = roundPlace m e := by simp [ulpExp, roundPlace, hm]
        rw [hu]
        exact rnd32_near hm h
    obtain ⟨hf, hsum⟩ := exactAdd_num s (!s) m' m e' e
    have hsub : ((FV.fin s m' e').sub (.fin s m e)) = (FV.fin s m' e').add (.fin (!s) m e) := rfl
    have hneg : (FV.fin (!s) m e).num = -(FV.fin s m e).num := by cases s <;> simp [FV.num]
    rw [hneg, ← sub_eq_add_neg] at hsum
    obtain ⟨md, ed, habs, hnum⟩ := abs_num _ hf
    unfold withinUlps
    rw [hv]
    simp only [FV.isFin, Bool.true_and, hsub, habs, exactLt_num, hnum, hsum]
    simp only [Bool.not_eq_true', decide_eq_false_iff_not, not_lt]
    refine herr.trans ?_
    set u := ulpExp (.fin s m e)
    have hp : (0 : ℚ) < (2 : ℚ) ^ u := zpow_pos (by norm_num) _
    have hn' : (1 : ℚ) ≤ n := by exact_mod_cast hn
    simp only [FV.num, Bool.false_eq_true, if_false, one_mul]
    nlinarith

/-- What the elementary functions answer keeps its bound (R55, R201). -/
theorem bounded_within {n : Nat} (hn : 1 ≤ n) {a : FV} (ha : a.isFin = true) (h : f32IsFin (rnd32 a) = true) (free : W32) :
    withinUlps n a (bounded n a free) = true := by
  unfold bounded
  split_ifs with hc
  · simp only [Bool.and_eq_true] at hc; exact hc.2
  · exact withinUlps_rnd32 hn ha h

/-- What a bounded result is: within the bound where the exact value is finite in FP32, else the infinity it rounds to. -/
theorem bounded_keeps {n : Nat} (hn : 1 ≤ n) (a : FV) (free : W32) :
    if f32IsFin (rnd32 a) = true then withinUlps n a (bounded n a free) = true else bounded n a free = rnd32 a := by
  split_ifs with h
  · cases a with
    | nan s => exact absurd h (by cases s <;> decide)
    | inf s => exact absurd h (by cases s <;> decide)
    | fin s m e => exact bounded_within hn rfl h free
  · simp [bounded, h]

end Sys2Proof.Machine
end

