-- ==== Sys2Proof/Laws/State.lean ====
section
/-! SUPPORT. The sparse maps of State: a value read back after a write, and every other value unchanged; what each update of a core, an
engine and a context leaves of the rest. -/

namespace Sys2Proof.Machine

open Sys2Proof

/-! ### Sparse maps -/

section Maps

variable {α : Type} (d : α) (m : AMap α) (k j : Nat) (v : α)

@[simp] theorem mget_mdel_same : mget d (mdel k m) k = d := by
  induction m with
  | nil => rfl
  | cons p t ih =>
    obtain ⟨j, w⟩ := p
    unfold mdel
    split
    · exact ih
    · next h => simp only [mget, h, if_false, ih]

theorem mget_mdel_other (h : j ≠ k) : mget d (mdel k m) j = mget d m j := by
  induction m with
  | nil => rfl
  | cons p t ih =>
    obtain ⟨i, w⟩ := p
    by_cases hik : i = k
    · subst hik
      simp only [mdel, if_true, mget, Ne.symm h, if_false, ih]
    · simp only [mdel, hik, if_false, mget, ih]

@[simp] theorem mget_mput_same : mget d (mput k v m) k = v := by
  induction m with
  | nil => simp [mput, mget]
  | cons p t ih =>
    obtain ⟨i, w⟩ := p
    unfold mput
    split
    · simp [mget]
    · split
      · simp [mget]
      · next h1 h2 => simp only [mget, Ne.symm h2, if_false, ih]

theorem mget_mput_other (h : j ≠ k) : mget d (mput k v m) j = mget d m j := by
  induction m with
  | nil => simp [mput, mget, Ne.symm h]
  | cons p t ih =>
    obtain ⟨i, w⟩ := p
    unfold mput
    split
    · simp only [mget, Ne.symm h, if_false]
    · split
      · next h2 => subst h2; simp only [mget, Ne.symm h, if_false]
      · simp only [mget, ih]

/-- A key reads as what was written to it. -/
@[simp] theorem mget_mset_same [DecidableEq α] : mget d (mset d m k v) k = v := by
  unfold mset
  split
  · next h => rw [mget_mdel_same, h]
  · exact mget_mput_same d m k v

/-- Every other key reads as before. -/
theorem mget_mset_other [DecidableEq α] (h : j ≠ k) : mget d (mset d m k v) j = mget d m j := by
  unfold mset
  split
  · exact mget_mdel_other d m k j h
  · exact mget_mput_other d m k j v h

end Maps

/-! ### Cores -/

@[simp] theorem coreOf_setCore (s : State) (c : Nat) (k : Core) : coreOf (setCore s c k) c = k := mget_mset_same _ _ _ _

theorem coreOf_setCore_other (s : State) (c c' : Nat) (k : Core) (h : c' ≠ c) : coreOf (setCore s c k) c' = coreOf s c' :=
  mget_mset_other _ _ _ _ _ h

@[simp] theorem coreOf_modCore (s : State) (c : Nat) (f : Core → Core) : coreOf (modCore s c f) c = f (coreOf s c) :=
  coreOf_setCore s c _

theorem coreOf_modCore_other (s : State) (c c' : Nat) (f : Core → Core) (h : c' ≠ c) : coreOf (modCore s c f) c' = coreOf s c' :=
  coreOf_setCore_other s c c' _ h

@[simp] theorem engOf_setEng (k : Core) (e : Engine) (g : Eng) : engOf (setEng k e g) e = g := by cases e <;> rfl

theorem engOf_setEng_other (k : Core) (e e' : Engine) (g : Eng) (h : e' ≠ e) : engOf (setEng k e g) e' = engOf k e' := by
  cases e <;> cases e' <;> first | rfl | exact absurd rfl h

@[simp] theorem setEng_setEng (k : Core) (e : Engine) (g g' : Eng) : setEng (setEng k e g) e g' = setEng k e g' := by cases e <;> rfl

@[simp] theorem coreOf_modEng (s : State) (c : Nat) (e : Engine) (f : Eng → Eng) :
    coreOf (modEng s c e f) c = setEng (coreOf s c) e (f (engOf (coreOf s c) e)) := coreOf_modCore s c _

theorem coreOf_modEng_other (s : State) (c c' : Nat) (e : Engine) (f : Eng → Eng) (h : c' ≠ c) : coreOf (modEng s c e f) c' = coreOf s c' :=
  coreOf_modCore_other s c c' _ h

/-- An update of a core changes the cores and nothing else. -/
theorem modCore_rest (s : State) (c : Nat) (f : Core → Core) : modCore s c f = { s with cores := (modCore s c f).cores } := rfl

/-! ### Fields that `setCore` leaves -/

@[simp] theorem setCore_pending (s : State) (c : Nat) (k : Core) : (setCore s c k).pending = s.pending := rfl
@[simp] theorem setCore_clock (s : State) (c : Nat) (k : Core) : (setCore s c k).clock = s.clock := rfl
@[simp] theorem setCore_part (s : State) (c : Nat) (k : Core) : (setCore s c k).part = s.part := rfl
@[simp] theorem setCore_plan (s : State) (c : Nat) (k : Core) : (setCore s c k).plan = s.plan := rfl
@[simp] theorem setCore_boot (s : State) (c : Nat) (k : Core) : (setCore s c k).boot = s.boot := rfl
@[simp] theorem setCore_mem (s : State) (c : Nat) (k : Core) : (setCore s c k).mem = s.mem := rfl
@[simp] theorem setCore_badLines (s : State) (c : Nat) (k : Core) : (setCore s c k).badLines = s.badLines := rfl
@[simp] theorem setCore_softLines (s : State) (c : Nat) (k : Core) : (setCore s c k).softLines = s.softLines := rfl
@[simp] theorem setCore_units (s : State) (c : Nat) (k : Core) : (setCore s c k).units = s.units := rfl
@[simp] theorem setCore_turns (s : State) (c : Nat) (k : Core) : (setCore s c k).turns = s.turns := rfl
@[simp] theorem setCore_chans (s : State) (c : Nat) (k : Core) : (setCore s c k).chans = s.chans := rfl
@[simp] theorem setCore_relays (s : State) (c : Nat) (k : Core) : (setCore s c k).relays = s.relays := rfl
@[simp] theorem setCore_herds (s : State) (c : Nat) (k : Core) : (setCore s c k).herds = s.herds := rfl
@[simp] theorem setCore_herdMsgs (s : State) (c : Nat) (k : Core) : (setCore s c k).herdMsgs = s.herdMsgs := rfl
@[simp] theorem setCore_kilns (s : State) (c : Nat) (k : Core) : (setCore s c k).kilns = s.kilns := rfl
@[simp] theorem setCore_tallies (s : State) (c : Nat) (k : Core) : (setCore s c k).tallies = s.tallies := rfl
@[simp] theorem setCore_folds (s : State) (c : Nat) (k : Core) : (setCore s c k).folds = s.folds := rfl
@[simp] theorem setCore_srcs (s : State) (c : Nat) (k : Core) : (setCore s c k).srcs = s.srcs := rfl
@[simp] theorem setCore_localSigs (s : State) (c : Nat) (k : Core) : (setCore s c k).localSigs = s.localSigs := rfl
@[simp] theorem setCore_ctxs (s : State) (c : Nat) (k : Core) : (setCore s c k).ctxs = s.ctxs := rfl
@[simp] theorem setCore_cmdq (s : State) (c : Nat) (k : Core) : (setCore s c k).cmdq = s.cmdq := rfl
@[simp] theorem setCore_switches (s : State) (c : Nat) (k : Core) : (setCore s c k).switches = s.switches := rfl
@[simp] theorem setCore_releases (s : State) (c : Nat) (k : Core) : (setCore s c k).releases = s.releases := rfl
@[simp] theorem setCore_seqs (s : State) (c : Nat) (k : Core) : (setCore s c k).seqs = s.seqs := rfl
@[simp] theorem setCore_mcq (s : State) (c : Nat) (k : Core) : (setCore s c k).mcq = s.mcq := rfl
@[simp] theorem setCore_fabric (s : State) (c : Nat) (k : Core) : (setCore s c k).fabric = s.fabric := rfl
@[simp] theorem setCore_secure (s : State) (c : Nat) (k : Core) : (setCore s c k).secure = s.secure := rfl
@[simp] theorem setCore_gates (s : State) (c : Nat) (k : Core) : (setCore s c k).gates = s.gates := rfl
@[simp] theorem setCore_service (s : State) (c : Nat) (k : Core) : (setCore s c k).service = s.service := rfl
@[simp] theorem setCore_life (s : State) (c : Nat) (k : Core) : (setCore s c k).life = s.life := rfl
@[simp] theorem setCore_power (s : State) (c : Nat) (k : Core) : (setCore s c k).power = s.power := rfl
@[simp] theorem setCore_host (s : State) (c : Nat) (k : Core) : (setCore s c k).host = s.host := rfl
@[simp] theorem setCore_free (s : State) (c : Nat) (k : Core) : (setCore s c k).free = s.free := rfl

/-! ### Fields that `modCore` leaves -/

@[simp] theorem modCore_pending (s : State) (c : Nat) (f : Core → Core) : (modCore s c f).pending = s.pending := setCore_pending s c _
@[simp] theorem modCore_clock (s : State) (c : Nat) (f : Core → Core) : (modCore s c f).clock = s.clock := setCore_clock s c _
@[simp] theorem modCore_part (s : State) (c : Nat) (f : Core → Core) : (modCore s c f).part = s.part := setCore_part s c _
@[simp] theorem modCore_plan (s : State) (c : Nat) (f : Core → Core) : (modCore s c f).plan = s.plan := setCore_plan s c _
@[simp] theorem modCore_boot (s : State) (c : Nat) (f : Core → Core) : (modCore s c f).boot = s.boot := setCore_boot s c _
@[simp] theorem modCore_mem (s : State) (c : Nat) (f : Core → Core) : (modCore s c f).mem = s.mem := setCore_mem s c _
@[simp] theorem modCore_badLines (s : State) (c : Nat) (f : Core → Core) : (modCore s c f).badLines = s.badLines := setCore_badLines s c _
@[simp] theorem modCore_softLines (s : State) (c : Nat) (f : Core → Core) : (modCore s c f).softLines = s.softLines := setCore_softLines s c _
@[simp] theorem modCore_units (s : State) (c : Nat) (f : Core → Core) : (modCore s c f).units = s.units := setCore_units s c _
@[simp] theorem modCore_turns (s : State) (c : Nat) (f : Core → Core) : (modCore s c f).turns = s.turns := setCore_turns s c _
@[simp] theorem modCore_chans (s : State) (c : Nat) (f : Core → Core) : (modCore s c f).chans = s.chans := setCore_chans s c _
@[simp] theorem modCore_relays (s : State) (c : Nat) (f : Core → Core) : (modCore s c f).relays = s.relays := setCore_relays s c _
@[simp] theorem modCore_herds (s : State) (c : Nat) (f : Core → Core) : (modCore s c f).herds = s.herds := setCore_herds s c _
@[simp] theorem modCore_herdMsgs (s : State) (c : Nat) (f : Core → Core) : (modCore s c f).herdMsgs = s.herdMsgs := setCore_herdMsgs s c _
@[simp] theorem modCore_kilns (s : State) (c : Nat) (f : Core → Core) : (modCore s c f).kilns = s.kilns := setCore_kilns s c _
@[simp] theorem modCore_tallies (s : State) (c : Nat) (f : Core → Core) : (modCore s c f).tallies = s.tallies := setCore_tallies s c _
@[simp] theorem modCore_folds (s : State) (c : Nat) (f : Core → Core) : (modCore s c f).folds = s.folds := setCore_folds s c _
@[simp] theorem modCore_srcs (s : State) (c : Nat) (f : Core → Core) : (modCore s c f).srcs = s.srcs := setCore_srcs s c _
@[simp] theorem modCore_localSigs (s : State) (c : Nat) (f : Core → Core) : (modCore s c f).localSigs = s.localSigs := setCore_localSigs s c _
@[simp] theorem modCore_ctxs (s : State) (c : Nat) (f : Core → Core) : (modCore s c f).ctxs = s.ctxs := setCore_ctxs s c _
@[simp] theorem modCore_cmdq (s : State) (c : Nat) (f : Core → Core) : (modCore s c f).cmdq = s.cmdq := setCore_cmdq s c _
@[simp] theorem modCore_switches (s : State) (c : Nat) (f : Core → Core) : (modCore s c f).switches = s.switches := setCore_switches s c _
@[simp] theorem modCore_releases (s : State) (c : Nat) (f : Core → Core) : (modCore s c f).releases = s.releases := setCore_releases s c _
@[simp] theorem modCore_seqs (s : State) (c : Nat) (f : Core → Core) : (modCore s c f).seqs = s.seqs := setCore_seqs s c _
@[simp] theorem modCore_mcq (s : State) (c : Nat) (f : Core → Core) : (modCore s c f).mcq = s.mcq := setCore_mcq s c _
@[simp] theorem modCore_fabric (s : State) (c : Nat) (f : Core → Core) : (modCore s c f).fabric = s.fabric := setCore_fabric s c _
@[simp] theorem modCore_secure (s : State) (c : Nat) (f : Core → Core) : (modCore s c f).secure = s.secure := setCore_secure s c _
@[simp] theorem modCore_gates (s : State) (c : Nat) (f : Core → Core) : (modCore s c f).gates = s.gates := setCore_gates s c _
@[simp] theorem modCore_service (s : State) (c : Nat) (f : Core → Core) : (modCore s c f).service = s.service := setCore_service s c _
@[simp] theorem modCore_life (s : State) (c : Nat) (f : Core → Core) : (modCore s c f).life = s.life := setCore_life s c _
@[simp] theorem modCore_power (s : State) (c : Nat) (f : Core → Core) : (modCore s c f).power = s.power := setCore_power s c _
@[simp] theorem modCore_host (s : State) (c : Nat) (f : Core → Core) : (modCore s c f).host = s.host := setCore_host s c _
@[simp] theorem modCore_free (s : State) (c : Nat) (f : Core → Core) : (modCore s c f).free = s.free := setCore_free s c _

/-! ### Fields that `modEng` leaves -/

@[simp] theorem modEng_pending (s : State) (c : Nat) (e : Engine) (f : Eng → Eng) : (modEng s c e f).pending = s.pending := setCore_pending s c _
@[simp] theorem modEng_clock (s : State) (c : Nat) (e : Engine) (f : Eng → Eng) : (modEng s c e f).clock = s.clock := setCore_clock s c _
@[simp] theorem modEng_part (s : State) (c : Nat) (e : Engine) (f : Eng → Eng) : (modEng s c e f).part = s.part := setCore_part s c _
@[simp] theorem modEng_plan (s : State) (c : Nat) (e : Engine) (f : Eng → Eng) : (modEng s c e f).plan = s.plan := setCore_plan s c _
@[simp] theorem modEng_boot (s : State) (c : Nat) (e : Engine) (f : Eng → Eng) : (modEng s c e f).boot = s.boot := setCore_boot s c _
@[simp] theorem modEng_mem (s : State) (c : Nat) (e : Engine) (f : Eng → Eng) : (modEng s c e f).mem = s.mem := setCore_mem s c _
@[simp] theorem modEng_badLines (s : State) (c : Nat) (e : Engine) (f : Eng → Eng) : (modEng s c e f).badLines = s.badLines := setCore_badLines s c _
@[simp] theorem modEng_softLines (s : State) (c : Nat) (e : Engine) (f : Eng → Eng) : (modEng s c e f).softLines = s.softLines := setCore_softLines s c _
@[simp] theorem modEng_units (s : State) (c : Nat) (e : Engine) (f : Eng → Eng) : (modEng s c e f).units = s.units := setCore_units s c _
@[simp] theorem modEng_turns (s : State) (c : Nat) (e : Engine) (f : Eng → Eng) : (modEng s c e f).turns = s.turns := setCore_turns s c _
@[simp] theorem modEng_chans (s : State) (c : Nat) (e : Engine) (f : Eng → Eng) : (modEng s c e f).chans = s.chans := setCore_chans s c _
@[simp] theorem modEng_relays (s : State) (c : Nat) (e : Engine) (f : Eng → Eng) : (modEng s c e f).relays = s.relays := setCore_relays s c _
@[simp] theorem modEng_herds (s : State) (c : Nat) (e : Engine) (f : Eng → Eng) : (modEng s c e f).herds = s.herds := setCore_herds s c _
@[simp] theorem modEng_herdMsgs (s : State) (c : Nat) (e : Engine) (f : Eng → Eng) : (modEng s c e f).herdMsgs = s.herdMsgs := setCore_herdMsgs s c _
@[simp] theorem modEng_kilns (s : State) (c : Nat) (e : Engine) (f : Eng → Eng) : (modEng s c e f).kilns = s.kilns := setCore_kilns s c _
@[simp] theorem modEng_tallies (s : State) (c : Nat) (e : Engine) (f : Eng → Eng) : (modEng s c e f).tallies = s.tallies := setCore_tallies s c _
@[simp] theorem modEng_folds (s : State) (c : Nat) (e : Engine) (f : Eng → Eng) : (modEng s c e f).folds = s.folds := setCore_folds s c _
@[simp] theorem modEng_srcs (s : State) (c : Nat) (e : Engine) (f : Eng → Eng) : (modEng s c e f).srcs = s.srcs := setCore_srcs s c _
@[simp] theorem modEng_localSigs (s : State) (c : Nat) (e : Engine) (f : Eng → Eng) : (modEng s c e f).localSigs = s.localSigs := setCore_localSigs s c _
@[simp] theorem modEng_ctxs (s : State) (c : Nat) (e : Engine) (f : Eng → Eng) : (modEng s c e f).ctxs = s.ctxs := setCore_ctxs s c _
@[simp] theorem modEng_cmdq (s : State) (c : Nat) (e : Engine) (f : Eng → Eng) : (modEng s c e f).cmdq = s.cmdq := setCore_cmdq s c _
@[simp] theorem modEng_switches (s : State) (c : Nat) (e : Engine) (f : Eng → Eng) : (modEng s c e f).switches = s.switches := setCore_switches s c _
@[simp] theorem modEng_releases (s : State) (c : Nat) (e : Engine) (f : Eng → Eng) : (modEng s c e f).releases = s.releases := setCore_releases s c _
@[simp] theorem modEng_seqs (s : State) (c : Nat) (e : Engine) (f : Eng → Eng) : (modEng s c e f).seqs = s.seqs := setCore_seqs s c _
@[simp] theorem modEng_mcq (s : State) (c : Nat) (e : Engine) (f : Eng → Eng) : (modEng s c e f).mcq = s.mcq := setCore_mcq s c _
@[simp] theorem modEng_fabric (s : State) (c : Nat) (e : Engine) (f : Eng → Eng) : (modEng s c e f).fabric = s.fabric := setCore_fabric s c _
@[simp] theorem modEng_secure (s : State) (c : Nat) (e : Engine) (f : Eng → Eng) : (modEng s c e f).secure = s.secure := setCore_secure s c _
@[simp] theorem modEng_gates (s : State) (c : Nat) (e : Engine) (f : Eng → Eng) : (modEng s c e f).gates = s.gates := setCore_gates s c _
@[simp] theorem modEng_service (s : State) (c : Nat) (e : Engine) (f : Eng → Eng) : (modEng s c e f).service = s.service := setCore_service s c _
@[simp] theorem modEng_life (s : State) (c : Nat) (e : Engine) (f : Eng → Eng) : (modEng s c e f).life = s.life := setCore_life s c _
@[simp] theorem modEng_power (s : State) (c : Nat) (e : Engine) (f : Eng → Eng) : (modEng s c e f).power = s.power := setCore_power s c _
@[simp] theorem modEng_host (s : State) (c : Nat) (e : Engine) (f : Eng → Eng) : (modEng s c e f).host = s.host := setCore_host s c _
@[simp] theorem modEng_free (s : State) (c : Nat) (e : Engine) (f : Eng → Eng) : (modEng s c e f).free = s.free := setCore_free s c _

/-! ### Fields that `setCw` leaves -/

@[simp] theorem setCw_pending (s : State) (x o : Nat) (v : W64) : (setCw s x o v).pending = s.pending := rfl
@[simp] theorem setCw_clock (s : State) (x o : Nat) (v : W64) : (setCw s x o v).clock = s.clock := rfl
@[simp] theorem setCw_part (s : State) (x o : Nat) (v : W64) : (setCw s x o v).part = s.part := rfl
@[simp] theorem setCw_plan (s : State) (x o : Nat) (v : W64) : (setCw s x o v).plan = s.plan := rfl
@[simp] theorem setCw_boot (s : State) (x o : Nat) (v : W64) : (setCw s x o v).boot = s.boot := rfl
@[simp] theorem setCw_mem (s : State) (x o : Nat) (v : W64) : (setCw s x o v).mem = s.mem := rfl
@[simp] theorem setCw_badLines (s : State) (x o : Nat) (v : W64) : (setCw s x o v).badLines = s.badLines := rfl
@[simp] theorem setCw_softLines (s : State) (x o : Nat) (v : W64) : (setCw s x o v).softLines = s.softLines := rfl
@[simp] theorem setCw_units (s : State) (x o : Nat) (v : W64) : (setCw s x o v).units = s.units := rfl
@[simp] theorem setCw_cores (s : State) (x o : Nat) (v : W64) : (setCw s x o v).cores = s.cores := rfl
@[simp] theorem setCw_turns (s : State) (x o : Nat) (v : W64) : (setCw s x o v).turns = s.turns := rfl
@[simp] theorem setCw_chans (s : State) (x o : Nat) (v : W64) : (setCw s x o v).chans = s.chans := rfl
@[simp] theorem setCw_relays (s : State) (x o : Nat) (v : W64) : (setCw s x o v).relays = s.relays := rfl
@[simp] theorem setCw_herds (s : State) (x o : Nat) (v : W64) : (setCw s x o v).herds = s.herds := rfl
@[simp] theorem setCw_herdMsgs (s : State) (x o : Nat) (v : W64) : (setCw s x o v).herdMsgs = s.herdMsgs := rfl
@[simp] theorem setCw_kilns (s : State) (x o : Nat) (v : W64) : (setCw s x o v).kilns = s.kilns := rfl
@[simp] theorem setCw_tallies (s : State) (x o : Nat) (v : W64) : (setCw s x o v).tallies = s.tallies := rfl
@[simp] theorem setCw_folds (s : State) (x o : Nat) (v : W64) : (setCw s x o v).folds = s.folds := rfl
@[simp] theorem setCw_srcs (s : State) (x o : Nat) (v : W64) : (setCw s x o v).srcs = s.srcs := rfl
@[simp] theorem setCw_localSigs (s : State) (x o : Nat) (v : W64) : (setCw s x o v).localSigs = s.localSigs := rfl
@[simp] theorem setCw_cmdq (s : State) (x o : Nat) (v : W64) : (setCw s x o v).cmdq = s.cmdq := rfl
@[simp] theorem setCw_switches (s : State) (x o : Nat) (v : W64) : (setCw s x o v).switches = s.switches := rfl
@[simp] theorem setCw_releases (s : State) (x o : Nat) (v : W64) : (setCw s x o v).releases = s.releases := rfl
@[simp] theorem setCw_seqs (s : State) (x o : Nat) (v : W64) : (setCw s x o v).seqs = s.seqs := rfl
@[simp] theorem setCw_mcq (s : State) (x o : Nat) (v : W64) : (setCw s x o v).mcq = s.mcq := rfl
@[simp] theorem setCw_fabric (s : State) (x o : Nat) (v : W64) : (setCw s x o v).fabric = s.fabric := rfl
@[simp] theorem setCw_secure (s : State) (x o : Nat) (v : W64) : (setCw s x o v).secure = s.secure := rfl
@[simp] theorem setCw_gates (s : State) (x o : Nat) (v : W64) : (setCw s x o v).gates = s.gates := rfl
@[simp] theorem setCw_service (s : State) (x o : Nat) (v : W64) : (setCw s x o v).service = s.service := rfl
@[simp] theorem setCw_life (s : State) (x o : Nat) (v : W64) : (setCw s x o v).life = s.life := rfl
@[simp] theorem setCw_power (s : State) (x o : Nat) (v : W64) : (setCw s x o v).power = s.power := rfl
@[simp] theorem setCw_host (s : State) (x o : Nat) (v : W64) : (setCw s x o v).host = s.host := rfl
@[simp] theorem setCw_free (s : State) (x o : Nat) (v : W64) : (setCw s x o v).free = s.free := rfl

/-! ### Fields that `setCtxState` leaves -/

@[simp] theorem setCtxState_pending (s : State) (x v : Nat) : (setCtxState s x v).pending = s.pending := setCw_pending s x 0 _
@[simp] theorem setCtxState_clock (s : State) (x v : Nat) : (setCtxState s x v).clock = s.clock := setCw_clock s x 0 _
@[simp] theorem setCtxState_part (s : State) (x v : Nat) : (setCtxState s x v).part = s.part := setCw_part s x 0 _
@[simp] theorem setCtxState_plan (s : State) (x v : Nat) : (setCtxState s x v).plan = s.plan := setCw_plan s x 0 _
@[simp] theorem setCtxState_boot (s : State) (x v : Nat) : (setCtxState s x v).boot = s.boot := setCw_boot s x 0 _
@[simp] theorem setCtxState_mem (s : State) (x v : Nat) : (setCtxState s x v).mem = s.mem := setCw_mem s x 0 _
@[simp] theorem setCtxState_badLines (s : State) (x v : Nat) : (setCtxState s x v).badLines = s.badLines := setCw_badLines s x 0 _
@[simp] theorem setCtxState_softLines (s : State) (x v : Nat) : (setCtxState s x v).softLines = s.softLines := setCw_softLines s x 0 _
@[simp] theorem setCtxState_units (s : State) (x v : Nat) : (setCtxState s x v).units = s.units := setCw_units s x 0 _
@[simp] theorem setCtxState_cores (s : State) (x v : Nat) : (setCtxState s x v).cores = s.cores := setCw_cores s x 0 _
@[simp] theorem setCtxState_turns (s : State) (x v : Nat) : (setCtxState s x v).turns = s.turns := setCw_turns s x 0 _
@[simp] theorem setCtxState_chans (s : State) (x v : Nat) : (setCtxState s x v).chans = s.chans := setCw_chans s x 0 _
@[simp] theorem setCtxState_relays (s : State) (x v : Nat) : (setCtxState s x v).relays = s.relays := setCw_relays s x 0 _
@[simp] theorem setCtxState_herds (s : State) (x v : Nat) : (setCtxState s x v).herds = s.herds := setCw_herds s x 0 _
@[simp] theorem setCtxState_herdMsgs (s : State) (x v : Nat) : (setCtxState s x v).herdMsgs = s.herdMsgs := setCw_herdMsgs s x 0 _
@[simp] theorem setCtxState_kilns (s : State) (x v : Nat) : (setCtxState s x v).kilns = s.kilns := setCw_kilns s x 0 _
@[simp] theorem setCtxState_tallies (s : State) (x v : Nat) : (setCtxState s x v).tallies = s.tallies := setCw_tallies s x 0 _
@[simp] theorem setCtxState_folds (s : State) (x v : Nat) : (setCtxState s x v).folds = s.folds := setCw_folds s x 0 _
@[simp] theorem setCtxState_srcs (s : State) (x v : Nat) : (setCtxState s x v).srcs = s.srcs := setCw_srcs s x 0 _
@[simp] theorem setCtxState_localSigs (s : State) (x v : Nat) : (setCtxState s x v).localSigs = s.localSigs := setCw_localSigs s x 0 _
@[simp] theorem setCtxState_cmdq (s : State) (x v : Nat) : (setCtxState s x v).cmdq = s.cmdq := setCw_cmdq s x 0 _
@[simp] theorem setCtxState_switches (s : State) (x v : Nat) : (setCtxState s x v).switches = s.switches := setCw_switches s x 0 _
@[simp] theorem setCtxState_releases (s : State) (x v : Nat) : (setCtxState s x v).releases = s.releases := setCw_releases s x 0 _
@[simp] theorem setCtxState_seqs (s : State) (x v : Nat) : (setCtxState s x v).seqs = s.seqs := setCw_seqs s x 0 _
@[simp] theorem setCtxState_mcq (s : State) (x v : Nat) : (setCtxState s x v).mcq = s.mcq := setCw_mcq s x 0 _
@[simp] theorem setCtxState_fabric (s : State) (x v : Nat) : (setCtxState s x v).fabric = s.fabric := setCw_fabric s x 0 _
@[simp] theorem setCtxState_secure (s : State) (x v : Nat) : (setCtxState s x v).secure = s.secure := setCw_secure s x 0 _
@[simp] theorem setCtxState_gates (s : State) (x v : Nat) : (setCtxState s x v).gates = s.gates := setCw_gates s x 0 _
@[simp] theorem setCtxState_service (s : State) (x v : Nat) : (setCtxState s x v).service = s.service := setCw_service s x 0 _
@[simp] theorem setCtxState_life (s : State) (x v : Nat) : (setCtxState s x v).life = s.life := setCw_life s x 0 _
@[simp] theorem setCtxState_power (s : State) (x v : Nat) : (setCtxState s x v).power = s.power := setCw_power s x 0 _
@[simp] theorem setCtxState_host (s : State) (x v : Nat) : (setCtxState s x v).host = s.host := setCw_host s x 0 _
@[simp] theorem setCtxState_free (s : State) (x v : Nat) : (setCtxState s x v).free = s.free := setCw_free s x 0 _

/-! ### Fields that `setDisc` leaves -/

@[simp] theorem setDisc_pending (s : State) (x : Nat) : (setDisc s x).pending = s.pending := setCw_pending s x 0 _
@[simp] theorem setDisc_clock (s : State) (x : Nat) : (setDisc s x).clock = s.clock := setCw_clock s x 0 _
@[simp] theorem setDisc_part (s : State) (x : Nat) : (setDisc s x).part = s.part := setCw_part s x 0 _
@[simp] theorem setDisc_plan (s : State) (x : Nat) : (setDisc s x).plan = s.plan := setCw_plan s x 0 _
@[simp] theorem setDisc_boot (s : State) (x : Nat) : (setDisc s x).boot = s.boot := setCw_boot s x 0 _
@[simp] theorem setDisc_mem (s : State) (x : Nat) : (setDisc s x).mem = s.mem := setCw_mem s x 0 _
@[simp] theorem setDisc_badLines (s : State) (x : Nat) : (setDisc s x).badLines = s.badLines := setCw_badLines s x 0 _
@[simp] theorem setDisc_softLines (s : State) (x : Nat) : (setDisc s x).softLines = s.softLines := setCw_softLines s x 0 _
@[simp] theorem setDisc_units (s : State) (x : Nat) : (setDisc s x).units = s.units := setCw_units s x 0 _
@[simp] theorem setDisc_cores (s : State) (x : Nat) : (setDisc s x).cores = s.cores := setCw_cores s x 0 _
@[simp] theorem setDisc_turns (s : State) (x : Nat) : (setDisc s x).turns = s.turns := setCw_turns s x 0 _
@[simp] theorem setDisc_chans (s : State) (x : Nat) : (setDisc s x).chans = s.chans := setCw_chans s x 0 _
@[simp] theorem setDisc_relays (s : State) (x : Nat) : (setDisc s x).relays = s.relays := setCw_relays s x 0 _
@[simp] theorem setDisc_herds (s : State) (x : Nat) : (setDisc s x).herds = s.herds := setCw_herds s x 0 _
@[simp] theorem setDisc_herdMsgs (s : State) (x : Nat) : (setDisc s x).herdMsgs = s.herdMsgs := setCw_herdMsgs s x 0 _
@[simp] theorem setDisc_kilns (s : State) (x : Nat) : (setDisc s x).kilns = s.kilns := setCw_kilns s x 0 _
@[simp] theorem setDisc_tallies (s : State) (x : Nat) : (setDisc s x).tallies = s.tallies := setCw_tallies s x 0 _
@[simp] theorem setDisc_folds (s : State) (x : Nat) : (setDisc s x).folds = s.folds := setCw_folds s x 0 _
@[simp] theorem setDisc_srcs (s : State) (x : Nat) : (setDisc s x).srcs = s.srcs := setCw_srcs s x 0 _
@[simp] theorem setDisc_localSigs (s : State) (x : Nat) : (setDisc s x).localSigs = s.localSigs := setCw_localSigs s x 0 _
@[simp] theorem setDisc_cmdq (s : State) (x : Nat) : (setDisc s x).cmdq = s.cmdq := setCw_cmdq s x 0 _
@[simp] theorem setDisc_switches (s : State) (x : Nat) : (setDisc s x).switches = s.switches := setCw_switches s x 0 _
@[simp] theorem setDisc_releases (s : State) (x : Nat) : (setDisc s x).releases = s.releases := setCw_releases s x 0 _
@[simp] theorem setDisc_seqs (s : State) (x : Nat) : (setDisc s x).seqs = s.seqs := setCw_seqs s x 0 _
@[simp] theorem setDisc_mcq (s : State) (x : Nat) : (setDisc s x).mcq = s.mcq := setCw_mcq s x 0 _
@[simp] theorem setDisc_fabric (s : State) (x : Nat) : (setDisc s x).fabric = s.fabric := setCw_fabric s x 0 _
@[simp] theorem setDisc_secure (s : State) (x : Nat) : (setDisc s x).secure = s.secure := setCw_secure s x 0 _
@[simp] theorem setDisc_gates (s : State) (x : Nat) : (setDisc s x).gates = s.gates := setCw_gates s x 0 _
@[simp] theorem setDisc_service (s : State) (x : Nat) : (setDisc s x).service = s.service := setCw_service s x 0 _
@[simp] theorem setDisc_life (s : State) (x : Nat) : (setDisc s x).life = s.life := setCw_life s x 0 _
@[simp] theorem setDisc_power (s : State) (x : Nat) : (setDisc s x).power = s.power := setCw_power s x 0 _
@[simp] theorem setDisc_host (s : State) (x : Nat) : (setDisc s x).host = s.host := setCw_host s x 0 _
@[simp] theorem setDisc_free (s : State) (x : Nat) : (setDisc s x).free = s.free := setCw_free s x 0 _

/-! ### Fields that `writeMem` leaves -/

@[simp] theorem writeMem_pending (s : State) (a : Nat) (bs : List Byte) : (writeMem s a bs).pending = s.pending := rfl
@[simp] theorem writeMem_clock (s : State) (a : Nat) (bs : List Byte) : (writeMem s a bs).clock = s.clock := rfl
@[simp] theorem writeMem_part (s : State) (a : Nat) (bs : List Byte) : (writeMem s a bs).part = s.part := rfl
@[simp] theorem writeMem_plan (s : State) (a : Nat) (bs : List Byte) : (writeMem s a bs).plan = s.plan := rfl
@[simp] theorem writeMem_boot (s : State) (a : Nat) (bs : List Byte) : (writeMem s a bs).boot = s.boot := rfl
@[simp] theorem writeMem_units (s : State) (a : Nat) (bs : List Byte) : (writeMem s a bs).units = s.units := rfl
@[simp] theorem writeMem_cores (s : State) (a : Nat) (bs : List Byte) : (writeMem s a bs).cores = s.cores := rfl
@[simp] theorem writeMem_turns (s : State) (a : Nat) (bs : List Byte) : (writeMem s a bs).turns = s.turns := rfl
@[simp] theorem writeMem_chans (s : State) (a : Nat) (bs : List Byte) : (writeMem s a bs).chans = s.chans := rfl
@[simp] theorem writeMem_relays (s : State) (a : Nat) (bs : List Byte) : (writeMem s a bs).relays = s.relays := rfl
@[simp] theorem writeMem_herds (s : State) (a : Nat) (bs : List Byte) : (writeMem s a bs).herds = s.herds := rfl
@[simp] theorem writeMem_herdMsgs (s : State) (a : Nat) (bs : List Byte) : (writeMem s a bs).herdMsgs = s.herdMsgs := rfl
@[simp] theorem writeMem_kilns (s : State) (a : Nat) (bs : List Byte) : (writeMem s a bs).kilns = s.kilns := rfl
@[simp] theorem writeMem_tallies (s : State) (a : Nat) (bs : List Byte) : (writeMem s a bs).tallies = s.tallies := rfl
@[simp] theorem writeMem_folds (s : State) (a : Nat) (bs : List Byte) : (writeMem s a bs).folds = s.folds := rfl
@[simp] theorem writeMem_srcs (s : State) (a : Nat) (bs : List Byte) : (writeMem s a bs).srcs = s.srcs := rfl
@[simp] theorem writeMem_localSigs (s : State) (a : Nat) (bs : List Byte) : (writeMem s a bs).localSigs = s.localSigs := rfl
@[simp] theorem writeMem_ctxs (s : State) (a : Nat) (bs : List Byte) : (writeMem s a bs).ctxs = s.ctxs := rfl
@[simp] theorem writeMem_cmdq (s : State) (a : Nat) (bs : List Byte) : (writeMem s a bs).cmdq = s.cmdq := rfl
@[simp] theorem writeMem_switches (s : State) (a : Nat) (bs : List Byte) : (writeMem s a bs).switches = s.switches := rfl
@[simp] theorem writeMem_releases (s : State) (a : Nat) (bs : List Byte) : (writeMem s a bs).releases = s.releases := rfl
@[simp] theorem writeMem_seqs (s : State) (a : Nat) (bs : List Byte) : (writeMem s a bs).seqs = s.seqs := rfl
@[simp] theorem writeMem_mcq (s : State) (a : Nat) (bs : List Byte) : (writeMem s a bs).mcq = s.mcq := rfl
@[simp] theorem writeMem_fabric (s : State) (a : Nat) (bs : List Byte) : (writeMem s a bs).fabric = s.fabric := rfl
@[simp] theorem writeMem_secure (s : State) (a : Nat) (bs : List Byte) : (writeMem s a bs).secure = s.secure := rfl
@[simp] theorem writeMem_gates (s : State) (a : Nat) (bs : List Byte) : (writeMem s a bs).gates = s.gates := rfl
@[simp] theorem writeMem_service (s : State) (a : Nat) (bs : List Byte) : (writeMem s a bs).service = s.service := rfl
@[simp] theorem writeMem_life (s : State) (a : Nat) (bs : List Byte) : (writeMem s a bs).life = s.life := rfl
@[simp] theorem writeMem_power (s : State) (a : Nat) (bs : List Byte) : (writeMem s a bs).power = s.power := rfl
@[simp] theorem writeMem_host (s : State) (a : Nat) (bs : List Byte) : (writeMem s a bs).host = s.host := rfl
@[simp] theorem writeMem_free (s : State) (a : Nat) (bs : List Byte) : (writeMem s a bs).free = s.free := rfl

/-! ### Fields that `reportMC` leaves -/

@[simp] theorem reportMC_pending (s : State) (r : Record) : (reportMC s r).pending = s.pending := rfl
@[simp] theorem reportMC_clock (s : State) (r : Record) : (reportMC s r).clock = s.clock := rfl
@[simp] theorem reportMC_plan (s : State) (r : Record) : (reportMC s r).plan = s.plan := rfl
@[simp] theorem reportMC_boot (s : State) (r : Record) : (reportMC s r).boot = s.boot := rfl
@[simp] theorem reportMC_mem (s : State) (r : Record) : (reportMC s r).mem = s.mem := rfl
@[simp] theorem reportMC_badLines (s : State) (r : Record) : (reportMC s r).badLines = s.badLines := rfl
@[simp] theorem reportMC_softLines (s : State) (r : Record) : (reportMC s r).softLines = s.softLines := rfl
@[simp] theorem reportMC_units (s : State) (r : Record) : (reportMC s r).units = s.units := rfl
@[simp] theorem reportMC_cores (s : State) (r : Record) : (reportMC s r).cores = s.cores := rfl
@[simp] theorem reportMC_turns (s : State) (r : Record) : (reportMC s r).turns = s.turns := rfl
@[simp] theorem reportMC_chans (s : State) (r : Record) : (reportMC s r).chans = s.chans := rfl
@[simp] theorem reportMC_relays (s : State) (r : Record) : (reportMC s r).relays = s.relays := rfl
@[simp] theorem reportMC_herds (s : State) (r : Record) : (reportMC s r).herds = s.herds := rfl
@[simp] theorem reportMC_herdMsgs (s : State) (r : Record) : (reportMC s r).herdMsgs = s.herdMsgs := rfl
@[simp] theorem reportMC_kilns (s : State) (r : Record) : (reportMC s r).kilns = s.kilns := rfl
@[simp] theorem reportMC_tallies (s : State) (r : Record) : (reportMC s r).tallies = s.tallies := rfl
@[simp] theorem reportMC_folds (s : State) (r : Record) : (reportMC s r).folds = s.folds := rfl
@[simp] theorem reportMC_srcs (s : State) (r : Record) : (reportMC s r).srcs = s.srcs := rfl
@[simp] theorem reportMC_localSigs (s : State) (r : Record) : (reportMC s r).localSigs = s.localSigs := rfl
@[simp] theorem reportMC_ctxs (s : State) (r : Record) : (reportMC s r).ctxs = s.ctxs := rfl
@[simp] theorem reportMC_cmdq (s : State) (r : Record) : (reportMC s r).cmdq = s.cmdq := rfl
@[simp] theorem reportMC_switches (s : State) (r : Record) : (reportMC s r).switches = s.switches := rfl
@[simp] theorem reportMC_releases (s : State) (r : Record) : (reportMC s r).releases = s.releases := rfl
@[simp] theorem reportMC_seqs (s : State) (r : Record) : (reportMC s r).seqs = s.seqs := rfl
@[simp] theorem reportMC_fabric (s : State) (r : Record) : (reportMC s r).fabric = s.fabric := rfl
@[simp] theorem reportMC_secure (s : State) (r : Record) : (reportMC s r).secure = s.secure := rfl
@[simp] theorem reportMC_gates (s : State) (r : Record) : (reportMC s r).gates = s.gates := rfl
@[simp] theorem reportMC_service (s : State) (r : Record) : (reportMC s r).service = s.service := rfl
@[simp] theorem reportMC_life (s : State) (r : Record) : (reportMC s r).life = s.life := rfl
@[simp] theorem reportMC_power (s : State) (r : Record) : (reportMC s r).power = s.power := rfl
@[simp] theorem reportMC_host (s : State) (r : Record) : (reportMC s r).host = s.host := rfl
@[simp] theorem reportMC_free (s : State) (r : Record) : (reportMC s r).free = s.free := rfl
@[simp] theorem reportMC_part_fuseB (s : State) (r : Record) : (reportMC s r).part.fuseB = s.part.fuseB := by unfold reportMC; split <;> rfl
@[simp] theorem reportMC_part_fuseG (s : State) (r : Record) : (reportMC s r).part.fuseG = s.part.fuseG := by unfold reportMC; split <;> rfl
@[simp] theorem reportMC_part_fuseS (s : State) (r : Record) : (reportMC s r).part.fuseS = s.part.fuseS := by unfold reportMC; split <;> rfl
@[simp] theorem reportMC_part_fuseD (s : State) (r : Record) : (reportMC s r).part.fuseD = s.part.fuseD := by unfold reportMC; split <;> rfl
@[simp] theorem reportMC_part_seed (s : State) (r : Record) : (reportMC s r).part.seed = s.part.seed := by unfold reportMC; split <;> rfl
@[simp] theorem reportMC_part_owners (s : State) (r : Record) : (reportMC s r).part.owners = s.part.owners := by unfold reportMC; split <;> rfl
@[simp] theorem reportMC_part_epochs (s : State) (r : Record) : (reportMC s r).part.epochs = s.part.epochs := by unfold reportMC; split <;> rfl
@[simp] theorem reportMC_part_serialNo (s : State) (r : Record) : (reportMC s r).part.serialNo = s.part.serialNo := by unfold reportMC; split <;> rfl
@[simp] theorem reportMC_part_slotA (s : State) (r : Record) : (reportMC s r).part.slotA = s.part.slotA := by unfold reportMC; split <;> rfl
@[simp] theorem reportMC_part_slotB (s : State) (r : Record) : (reportMC s r).part.slotB = s.part.slotB := by unfold reportMC; split <;> rfl
@[simp] theorem reportMC_part_lastPlan (s : State) (r : Record) : (reportMC s r).part.lastPlan = s.part.lastPlan := by unfold reportMC; split <;> rfl
@[simp] theorem reportMC_part_grade (s : State) (r : Record) : (reportMC s r).part.grade = s.part.grade := by unfold reportMC; split <;> rfl

/-! ### Fields that `refuse` leaves -/

@[simp] theorem refuse_pending (s : State) (sub : Nat) (a w1 w3 : W64) : (refuse s sub a w1 w3).pending = s.pending := reportMC_pending s _
@[simp] theorem refuse_clock (s : State) (sub : Nat) (a w1 w3 : W64) : (refuse s sub a w1 w3).clock = s.clock := reportMC_clock s _
@[simp] theorem refuse_plan (s : State) (sub : Nat) (a w1 w3 : W64) : (refuse s sub a w1 w3).plan = s.plan := reportMC_plan s _
@[simp] theorem refuse_boot (s : State) (sub : Nat) (a w1 w3 : W64) : (refuse s sub a w1 w3).boot = s.boot := reportMC_boot s _
@[simp] theorem refuse_mem (s : State) (sub : Nat) (a w1 w3 : W64) : (refuse s sub a w1 w3).mem = s.mem := reportMC_mem s _
@[simp] theorem refuse_badLines (s : State) (sub : Nat) (a w1 w3 : W64) : (refuse s sub a w1 w3).badLines = s.badLines := reportMC_badLines s _
@[simp] theorem refuse_softLines (s : State) (sub : Nat) (a w1 w3 : W64) : (refuse s sub a w1 w3).softLines = s.softLines := reportMC_softLines s _
@[simp] theorem refuse_units (s : State) (sub : Nat) (a w1 w3 : W64) : (refuse s sub a w1 w3).units = s.units := reportMC_units s _
@[simp] theorem refuse_cores (s : State) (sub : Nat) (a w1 w3 : W64) : (refuse s sub a w1 w3).cores = s.cores := reportMC_cores s _
@[simp] theorem refuse_turns (s : State) (sub : Nat) (a w1 w3 : W64) : (refuse s sub a w1 w3).turns = s.turns := reportMC_turns s _
@[simp] theorem refuse_chans (s : State) (sub : Nat) (a w1 w3 : W64) : (refuse s sub a w1 w3).chans = s.chans := reportMC_chans s _
@[simp] theorem refuse_relays (s : State) (sub : Nat) (a w1 w3 : W64) : (refuse s sub a w1 w3).relays = s.relays := reportMC_relays s _
@[simp] theorem refuse_herds (s : State) (sub : Nat) (a w1 w3 : W64) : (refuse s sub a w1 w3).herds = s.herds := reportMC_herds s _
@[simp] theorem refuse_herdMsgs (s : State) (sub : Nat) (a w1 w3 : W64) : (refuse s sub a w1 w3).herdMsgs = s.herdMsgs := reportMC_herdMsgs s _
@[simp] theorem refuse_kilns (s : State) (sub : Nat) (a w1 w3 : W64) : (refuse s sub a w1 w3).kilns = s.kilns := reportMC_kilns s _
@[simp] theorem refuse_tallies (s : State) (sub : Nat) (a w1 w3 : W64) : (refuse s sub a w1 w3).tallies = s.tallies := reportMC_tallies s _
@[simp] theorem refuse_folds (s : State) (sub : Nat) (a w1 w3 : W64) : (refuse s sub a w1 w3).folds = s.folds := reportMC_folds s _
@[simp] theorem refuse_srcs (s : State) (sub : Nat) (a w1 w3 : W64) : (refuse s sub a w1 w3).srcs = s.srcs := reportMC_srcs s _
@[simp] theorem refuse_localSigs (s : State) (sub : Nat) (a w1 w3 : W64) : (refuse s sub a w1 w3).localSigs = s.localSigs := reportMC_localSigs s _
@[simp] theorem refuse_ctxs (s : State) (sub : Nat) (a w1 w3 : W64) : (refuse s sub a w1 w3).ctxs = s.ctxs := reportMC_ctxs s _
@[simp] theorem refuse_cmdq (s : State) (sub : Nat) (a w1 w3 : W64) : (refuse s sub a w1 w3).cmdq = s.cmdq := reportMC_cmdq s _
@[simp] theorem refuse_switches (s : State) (sub : Nat) (a w1 w3 : W64) : (refuse s sub a w1 w3).switches = s.switches := reportMC_switches s _
@[simp] theorem refuse_releases (s : State) (sub : Nat) (a w1 w3 : W64) : (refuse s sub a w1 w3).releases = s.releases := reportMC_releases s _
@[simp] theorem refuse_seqs (s : State) (sub : Nat) (a w1 w3 : W64) : (refuse s sub a w1 w3).seqs = s.seqs := reportMC_seqs s _
@[simp] theorem refuse_fabric (s : State) (sub : Nat) (a w1 w3 : W64) : (refuse s sub a w1 w3).fabric = s.fabric := reportMC_fabric s _
@[simp] theorem refuse_secure (s : State) (sub : Nat) (a w1 w3 : W64) : (refuse s sub a w1 w3).secure = s.secure := reportMC_secure s _
@[simp] theorem refuse_gates (s : State) (sub : Nat) (a w1 w3 : W64) : (refuse s sub a w1 w3).gates = s.gates := reportMC_gates s _
@[simp] theorem refuse_service (s : State) (sub : Nat) (a w1 w3 : W64) : (refuse s sub a w1 w3).service = s.service := reportMC_service s _
@[simp] theorem refuse_life (s : State) (sub : Nat) (a w1 w3 : W64) : (refuse s sub a w1 w3).life = s.life := reportMC_life s _
@[simp] theorem refuse_power (s : State) (sub : Nat) (a w1 w3 : W64) : (refuse s sub a w1 w3).power = s.power := reportMC_power s _
@[simp] theorem refuse_host (s : State) (sub : Nat) (a w1 w3 : W64) : (refuse s sub a w1 w3).host = s.host := reportMC_host s _
@[simp] theorem refuse_free (s : State) (sub : Nat) (a w1 w3 : W64) : (refuse s sub a w1 w3).free = s.free := reportMC_free s _
@[simp] theorem refuse_part_fuseB (s : State) (sub : Nat) (a w1 w3 : W64) : (refuse s sub a w1 w3).part.fuseB = s.part.fuseB := reportMC_part_fuseB s _
@[simp] theorem refuse_part_fuseG (s : State) (sub : Nat) (a w1 w3 : W64) : (refuse s sub a w1 w3).part.fuseG = s.part.fuseG := reportMC_part_fuseG s _
@[simp] theorem refuse_part_fuseS (s : State) (sub : Nat) (a w1 w3 : W64) : (refuse s sub a w1 w3).part.fuseS = s.part.fuseS := reportMC_part_fuseS s _
@[simp] theorem refuse_part_fuseD (s : State) (sub : Nat) (a w1 w3 : W64) : (refuse s sub a w1 w3).part.fuseD = s.part.fuseD := reportMC_part_fuseD s _
@[simp] theorem refuse_part_seed (s : State) (sub : Nat) (a w1 w3 : W64) : (refuse s sub a w1 w3).part.seed = s.part.seed := reportMC_part_seed s _
@[simp] theorem refuse_part_owners (s : State) (sub : Nat) (a w1 w3 : W64) : (refuse s sub a w1 w3).part.owners = s.part.owners := reportMC_part_owners s _
@[simp] theorem refuse_part_epochs (s : State) (sub : Nat) (a w1 w3 : W64) : (refuse s sub a w1 w3).part.epochs = s.part.epochs := reportMC_part_epochs s _
@[simp] theorem refuse_part_serialNo (s : State) (sub : Nat) (a w1 w3 : W64) : (refuse s sub a w1 w3).part.serialNo = s.part.serialNo := reportMC_part_serialNo s _
@[simp] theorem refuse_part_slotA (s : State) (sub : Nat) (a w1 w3 : W64) : (refuse s sub a w1 w3).part.slotA = s.part.slotA := reportMC_part_slotA s _
@[simp] theorem refuse_part_slotB (s : State) (sub : Nat) (a w1 w3 : W64) : (refuse s sub a w1 w3).part.slotB = s.part.slotB := reportMC_part_slotB s _
@[simp] theorem refuse_part_lastPlan (s : State) (sub : Nat) (a w1 w3 : W64) : (refuse s sub a w1 w3).part.lastPlan = s.part.lastPlan := reportMC_part_lastPlan s _
@[simp] theorem refuse_part_grade (s : State) (sub : Nat) (a w1 w3 : W64) : (refuse s sub a w1 w3).part.grade = s.part.grade := reportMC_part_grade s _

/-! ### Fields that `popCmd` leaves -/

@[simp] theorem popCmd_pending (s : State) : (popCmd s).pending = s.pending := rfl
@[simp] theorem popCmd_clock (s : State) : (popCmd s).clock = s.clock := rfl
@[simp] theorem popCmd_part (s : State) : (popCmd s).part = s.part := rfl
@[simp] theorem popCmd_plan (s : State) : (popCmd s).plan = s.plan := rfl
@[simp] theorem popCmd_boot (s : State) : (popCmd s).boot = s.boot := rfl
@[simp] theorem popCmd_mem (s : State) : (popCmd s).mem = s.mem := rfl
@[simp] theorem popCmd_badLines (s : State) : (popCmd s).badLines = s.badLines := rfl
@[simp] theorem popCmd_softLines (s : State) : (popCmd s).softLines = s.softLines := rfl
@[simp] theorem popCmd_units (s : State) : (popCmd s).units = s.units := rfl
@[simp] theorem popCmd_cores (s : State) : (popCmd s).cores = s.cores := rfl
@[simp] theorem popCmd_turns (s : State) : (popCmd s).turns = s.turns := rfl
@[simp] theorem popCmd_chans (s : State) : (popCmd s).chans = s.chans := rfl
@[simp] theorem popCmd_relays (s : State) : (popCmd s).relays = s.relays := rfl
@[simp] theorem popCmd_herds (s : State) : (popCmd s).herds = s.herds := rfl
@[simp] theorem popCmd_herdMsgs (s : State) : (popCmd s).herdMsgs = s.herdMsgs := rfl
@[simp] theorem popCmd_kilns (s : State) : (popCmd s).kilns = s.kilns := rfl
@[simp] theorem popCmd_tallies (s : State) : (popCmd s).tallies = s.tallies := rfl
@[simp] theorem popCmd_folds (s : State) : (popCmd s).folds = s.folds := rfl
@[simp] theorem popCmd_srcs (s : State) : (popCmd s).srcs = s.srcs := rfl
@[simp] theorem popCmd_localSigs (s : State) : (popCmd s).localSigs = s.localSigs := rfl
@[simp] theorem popCmd_ctxs (s : State) : (popCmd s).ctxs = s.ctxs := rfl
@[simp] theorem popCmd_switches (s : State) : (popCmd s).switches = s.switches := rfl
@[simp] theorem popCmd_releases (s : State) : (popCmd s).releases = s.releases := rfl
@[simp] theorem popCmd_seqs (s : State) : (popCmd s).seqs = s.seqs := rfl
@[simp] theorem popCmd_mcq (s : State) : (popCmd s).mcq = s.mcq := rfl
@[simp] theorem popCmd_fabric (s : State) : (popCmd s).fabric = s.fabric := rfl
@[simp] theorem popCmd_secure (s : State) : (popCmd s).secure = s.secure := rfl
@[simp] theorem popCmd_gates (s : State) : (popCmd s).gates = s.gates := rfl
@[simp] theorem popCmd_service (s : State) : (popCmd s).service = s.service := rfl
@[simp] theorem popCmd_life (s : State) : (popCmd s).life = s.life := rfl
@[simp] theorem popCmd_power (s : State) : (popCmd s).power = s.power := rfl
@[simp] theorem popCmd_host (s : State) : (popCmd s).host = s.host := rfl
@[simp] theorem popCmd_free (s : State) : (popCmd s).free = s.free := rfl

/-! ### Fields that `refuseCmd` leaves -/

@[simp] theorem refuseCmd_pending (s : State) (sub : Nat) (b : List Byte) (w3 : W64) : (refuseCmd s sub b w3).pending = s.pending := reportMC_pending (popCmd s) _
@[simp] theorem refuseCmd_clock (s : State) (sub : Nat) (b : List Byte) (w3 : W64) : (refuseCmd s sub b w3).clock = s.clock := reportMC_clock (popCmd s) _
@[simp] theorem refuseCmd_plan (s : State) (sub : Nat) (b : List Byte) (w3 : W64) : (refuseCmd s sub b w3).plan = s.plan := reportMC_plan (popCmd s) _
@[simp] theorem refuseCmd_boot (s : State) (sub : Nat) (b : List Byte) (w3 : W64) : (refuseCmd s sub b w3).boot = s.boot := reportMC_boot (popCmd s) _
@[simp] theorem refuseCmd_mem (s : State) (sub : Nat) (b : List Byte) (w3 : W64) : (refuseCmd s sub b w3).mem = s.mem := reportMC_mem (popCmd s) _
@[simp] theorem refuseCmd_badLines (s : State) (sub : Nat) (b : List Byte) (w3 : W64) : (refuseCmd s sub b w3).badLines = s.badLines := reportMC_badLines (popCmd s) _
@[simp] theorem refuseCmd_softLines (s : State) (sub : Nat) (b : List Byte) (w3 : W64) : (refuseCmd s sub b w3).softLines = s.softLines := reportMC_softLines (popCmd s) _
@[simp] theorem refuseCmd_units (s : State) (sub : Nat) (b : List Byte) (w3 : W64) : (refuseCmd s sub b w3).units = s.units := reportMC_units (popCmd s) _
@[simp] theorem refuseCmd_cores (s : State) (sub : Nat) (b : List Byte) (w3 : W64) : (refuseCmd s sub b w3).cores = s.cores := reportMC_cores (popCmd s) _
@[simp] theorem refuseCmd_turns (s : State) (sub : Nat) (b : List Byte) (w3 : W64) : (refuseCmd s sub b w3).turns = s.turns := reportMC_turns (popCmd s) _
@[simp] theorem refuseCmd_chans (s : State) (sub : Nat) (b : List Byte) (w3 : W64) : (refuseCmd s sub b w3).chans = s.chans := reportMC_chans (popCmd s) _
@[simp] theorem refuseCmd_relays (s : State) (sub : Nat) (b : List Byte) (w3 : W64) : (refuseCmd s sub b w3).relays = s.relays := reportMC_relays (popCmd s) _
@[simp] theorem refuseCmd_herds (s : State) (sub : Nat) (b : List Byte) (w3 : W64) : (refuseCmd s sub b w3).herds = s.herds := reportMC_herds (popCmd s) _
@[simp] theorem refuseCmd_herdMsgs (s : State) (sub : Nat) (b : List Byte) (w3 : W64) : (refuseCmd s sub b w3).herdMsgs = s.herdMsgs := reportMC_herdMsgs (popCmd s) _
@[simp] theorem refuseCmd_kilns (s : State) (sub : Nat) (b : List Byte) (w3 : W64) : (refuseCmd s sub b w3).kilns = s.kilns := reportMC_kilns (popCmd s) _
@[simp] theorem refuseCmd_tallies (s : State) (sub : Nat) (b : List Byte) (w3 : W64) : (refuseCmd s sub b w3).tallies = s.tallies := reportMC_tallies (popCmd s) _
@[simp] theorem refuseCmd_folds (s : State) (sub : Nat) (b : List Byte) (w3 : W64) : (refuseCmd s sub b w3).folds = s.folds := reportMC_folds (popCmd s) _
@[simp] theorem refuseCmd_srcs (s : State) (sub : Nat) (b : List Byte) (w3 : W64) : (refuseCmd s sub b w3).srcs = s.srcs := reportMC_srcs (popCmd s) _
@[simp] theorem refuseCmd_localSigs (s : State) (sub : Nat) (b : List Byte) (w3 : W64) : (refuseCmd s sub b w3).localSigs = s.localSigs := reportMC_localSigs (popCmd s) _
@[simp] theorem refuseCmd_ctxs (s : State) (sub : Nat) (b : List Byte) (w3 : W64) : (refuseCmd s sub b w3).ctxs = s.ctxs := reportMC_ctxs (popCmd s) _
@[simp] theorem refuseCmd_switches (s : State) (sub : Nat) (b : List Byte) (w3 : W64) : (refuseCmd s sub b w3).switches = s.switches := reportMC_switches (popCmd s) _
@[simp] theorem refuseCmd_releases (s : State) (sub : Nat) (b : List Byte) (w3 : W64) : (refuseCmd s sub b w3).releases = s.releases := reportMC_releases (popCmd s) _
@[simp] theorem refuseCmd_seqs (s : State) (sub : Nat) (b : List Byte) (w3 : W64) : (refuseCmd s sub b w3).seqs = s.seqs := reportMC_seqs (popCmd s) _
@[simp] theorem refuseCmd_fabric (s : State) (sub : Nat) (b : List Byte) (w3 : W64) : (refuseCmd s sub b w3).fabric = s.fabric := reportMC_fabric (popCmd s) _
@[simp] theorem refuseCmd_secure (s : State) (sub : Nat) (b : List Byte) (w3 : W64) : (refuseCmd s sub b w3).secure = s.secure := reportMC_secure (popCmd s) _
@[simp] theorem refuseCmd_gates (s : State) (sub : Nat) (b : List Byte) (w3 : W64) : (refuseCmd s sub b w3).gates = s.gates := reportMC_gates (popCmd s) _
@[simp] theorem refuseCmd_service (s : State) (sub : Nat) (b : List Byte) (w3 : W64) : (refuseCmd s sub b w3).service = s.service := reportMC_service (popCmd s) _
@[simp] theorem refuseCmd_life (s : State) (sub : Nat) (b : List Byte) (w3 : W64) : (refuseCmd s sub b w3).life = s.life := reportMC_life (popCmd s) _
@[simp] theorem refuseCmd_power (s : State) (sub : Nat) (b : List Byte) (w3 : W64) : (refuseCmd s sub b w3).power = s.power := reportMC_power (popCmd s) _
@[simp] theorem refuseCmd_host (s : State) (sub : Nat) (b : List Byte) (w3 : W64) : (refuseCmd s sub b w3).host = s.host := reportMC_host (popCmd s) _
@[simp] theorem refuseCmd_free (s : State) (sub : Nat) (b : List Byte) (w3 : W64) : (refuseCmd s sub b w3).free = s.free := reportMC_free (popCmd s) _
@[simp] theorem refuseCmd_part_fuseB (s : State) (sub : Nat) (b : List Byte) (w3 : W64) : (refuseCmd s sub b w3).part.fuseB = s.part.fuseB := reportMC_part_fuseB (popCmd s) _
@[simp] theorem refuseCmd_part_fuseG (s : State) (sub : Nat) (b : List Byte) (w3 : W64) : (refuseCmd s sub b w3).part.fuseG = s.part.fuseG := reportMC_part_fuseG (popCmd s) _
@[simp] theorem refuseCmd_part_fuseS (s : State) (sub : Nat) (b : List Byte) (w3 : W64) : (refuseCmd s sub b w3).part.fuseS = s.part.fuseS := reportMC_part_fuseS (popCmd s) _
@[simp] theorem refuseCmd_part_fuseD (s : State) (sub : Nat) (b : List Byte) (w3 : W64) : (refuseCmd s sub b w3).part.fuseD = s.part.fuseD := reportMC_part_fuseD (popCmd s) _
@[simp] theorem refuseCmd_part_seed (s : State) (sub : Nat) (b : List Byte) (w3 : W64) : (refuseCmd s sub b w3).part.seed = s.part.seed := reportMC_part_seed (popCmd s) _
@[simp] theorem refuseCmd_part_owners (s : State) (sub : Nat) (b : List Byte) (w3 : W64) : (refuseCmd s sub b w3).part.owners = s.part.owners := reportMC_part_owners (popCmd s) _
@[simp] theorem refuseCmd_part_epochs (s : State) (sub : Nat) (b : List Byte) (w3 : W64) : (refuseCmd s sub b w3).part.epochs = s.part.epochs := reportMC_part_epochs (popCmd s) _
@[simp] theorem refuseCmd_part_serialNo (s : State) (sub : Nat) (b : List Byte) (w3 : W64) : (refuseCmd s sub b w3).part.serialNo = s.part.serialNo := reportMC_part_serialNo (popCmd s) _
@[simp] theorem refuseCmd_part_slotA (s : State) (sub : Nat) (b : List Byte) (w3 : W64) : (refuseCmd s sub b w3).part.slotA = s.part.slotA := reportMC_part_slotA (popCmd s) _
@[simp] theorem refuseCmd_part_slotB (s : State) (sub : Nat) (b : List Byte) (w3 : W64) : (refuseCmd s sub b w3).part.slotB = s.part.slotB := reportMC_part_slotB (popCmd s) _
@[simp] theorem refuseCmd_part_lastPlan (s : State) (sub : Nat) (b : List Byte) (w3 : W64) : (refuseCmd s sub b w3).part.lastPlan = s.part.lastPlan := reportMC_part_lastPlan (popCmd s) _
@[simp] theorem refuseCmd_part_grade (s : State) (sub : Nat) (b : List Byte) (w3 : W64) : (refuseCmd s sub b w3).part.grade = s.part.grade := reportMC_part_grade (popCmd s) _

/-! ### Fields that `takeFree` leaves -/

@[simp] theorem takeFree_pending (s : State) : ((takeFree s).2).pending = s.pending := rfl
@[simp] theorem takeFree_clock (s : State) : ((takeFree s).2).clock = s.clock := rfl
@[simp] theorem takeFree_part (s : State) : ((takeFree s).2).part = s.part := rfl
@[simp] theorem takeFree_plan (s : State) : ((takeFree s).2).plan = s.plan := rfl
@[simp] theorem takeFree_boot (s : State) : ((takeFree s).2).boot = s.boot := rfl
@[simp] theorem takeFree_mem (s : State) : ((takeFree s).2).mem = s.mem := rfl
@[simp] theorem takeFree_badLines (s : State) : ((takeFree s).2).badLines = s.badLines := rfl
@[simp] theorem takeFree_softLines (s : State) : ((takeFree s).2).softLines = s.softLines := rfl
@[simp] theorem takeFree_units (s : State) : ((takeFree s).2).units = s.units := rfl
@[simp] theorem takeFree_cores (s : State) : ((takeFree s).2).cores = s.cores := rfl
@[simp] theorem takeFree_turns (s : State) : ((takeFree s).2).turns = s.turns := rfl
@[simp] theorem takeFree_chans (s : State) : ((takeFree s).2).chans = s.chans := rfl
@[simp] theorem takeFree_relays (s : State) : ((takeFree s).2).relays = s.relays := rfl
@[simp] theorem takeFree_herds (s : State) : ((takeFree s).2).herds = s.herds := rfl
@[simp] theorem takeFree_herdMsgs (s : State) : ((takeFree s).2).herdMsgs = s.herdMsgs := rfl
@[simp] theorem takeFree_kilns (s : State) : ((takeFree s).2).kilns = s.kilns := rfl
@[simp] theorem takeFree_tallies (s : State) : ((takeFree s).2).tallies = s.tallies := rfl
@[simp] theorem takeFree_folds (s : State) : ((takeFree s).2).folds = s.folds := rfl
@[simp] theorem takeFree_srcs (s : State) : ((takeFree s).2).srcs = s.srcs := rfl
@[simp] theorem takeFree_localSigs (s : State) : ((takeFree s).2).localSigs = s.localSigs := rfl
@[simp] theorem takeFree_ctxs (s : State) : ((takeFree s).2).ctxs = s.ctxs := rfl
@[simp] theorem takeFree_cmdq (s : State) : ((takeFree s).2).cmdq = s.cmdq := rfl
@[simp] theorem takeFree_switches (s : State) : ((takeFree s).2).switches = s.switches := rfl
@[simp] theorem takeFree_releases (s : State) : ((takeFree s).2).releases = s.releases := rfl
@[simp] theorem takeFree_seqs (s : State) : ((takeFree s).2).seqs = s.seqs := rfl
@[simp] theorem takeFree_mcq (s : State) : ((takeFree s).2).mcq = s.mcq := rfl
@[simp] theorem takeFree_fabric (s : State) : ((takeFree s).2).fabric = s.fabric := rfl
@[simp] theorem takeFree_secure (s : State) : ((takeFree s).2).secure = s.secure := rfl
@[simp] theorem takeFree_gates (s : State) : ((takeFree s).2).gates = s.gates := rfl
@[simp] theorem takeFree_service (s : State) : ((takeFree s).2).service = s.service := rfl
@[simp] theorem takeFree_life (s : State) : ((takeFree s).2).life = s.life := rfl
@[simp] theorem takeFree_power (s : State) : ((takeFree s).2).power = s.power := rfl
@[simp] theorem takeFree_host (s : State) : ((takeFree s).2).host = s.host := rfl

/-! ### Fields that `giveCredit` leaves -/

@[simp] theorem giveCredit_pending (s : State) (c cl : Nat) : (giveCredit s c cl).pending = s.pending := setCore_pending s c _
@[simp] theorem giveCredit_clock (s : State) (c cl : Nat) : (giveCredit s c cl).clock = s.clock := setCore_clock s c _
@[simp] theorem giveCredit_part (s : State) (c cl : Nat) : (giveCredit s c cl).part = s.part := setCore_part s c _
@[simp] theorem giveCredit_plan (s : State) (c cl : Nat) : (giveCredit s c cl).plan = s.plan := setCore_plan s c _
@[simp] theorem giveCredit_boot (s : State) (c cl : Nat) : (giveCredit s c cl).boot = s.boot := setCore_boot s c _
@[simp] theorem giveCredit_mem (s : State) (c cl : Nat) : (giveCredit s c cl).mem = s.mem := setCore_mem s c _
@[simp] theorem giveCredit_badLines (s : State) (c cl : Nat) : (giveCredit s c cl).badLines = s.badLines := setCore_badLines s c _
@[simp] theorem giveCredit_softLines (s : State) (c cl : Nat) : (giveCredit s c cl).softLines = s.softLines := setCore_softLines s c _
@[simp] theorem giveCredit_units (s : State) (c cl : Nat) : (giveCredit s c cl).units = s.units := setCore_units s c _
@[simp] theorem giveCredit_turns (s : State) (c cl : Nat) : (giveCredit s c cl).turns = s.turns := setCore_turns s c _
@[simp] theorem giveCredit_chans (s : State) (c cl : Nat) : (giveCredit s c cl).chans = s.chans := setCore_chans s c _
@[simp] theorem giveCredit_relays (s : State) (c cl : Nat) : (giveCredit s c cl).relays = s.relays := setCore_relays s c _
@[simp] theorem giveCredit_herds (s : State) (c cl : Nat) : (giveCredit s c cl).herds = s.herds := setCore_herds s c _
@[simp] theorem giveCredit_herdMsgs (s : State) (c cl : Nat) : (giveCredit s c cl).herdMsgs = s.herdMsgs := setCore_herdMsgs s c _
@[simp] theorem giveCredit_kilns (s : State) (c cl : Nat) : (giveCredit s c cl).kilns = s.kilns := setCore_kilns s c _
@[simp] theorem giveCredit_tallies (s : State) (c cl : Nat) : (giveCredit s c cl).tallies = s.tallies := setCore_tallies s c _
@[simp] theorem giveCredit_folds (s : State) (c cl : Nat) : (giveCredit s c cl).folds = s.folds := setCore_folds s c _
@[simp] theorem giveCredit_srcs (s : State) (c cl : Nat) : (giveCredit s c cl).srcs = s.srcs := setCore_srcs s c _
@[simp] theorem giveCredit_localSigs (s : State) (c cl : Nat) : (giveCredit s c cl).localSigs = s.localSigs := setCore_localSigs s c _
@[simp] theorem giveCredit_ctxs (s : State) (c cl : Nat) : (giveCredit s c cl).ctxs = s.ctxs := setCore_ctxs s c _
@[simp] theorem giveCredit_cmdq (s : State) (c cl : Nat) : (giveCredit s c cl).cmdq = s.cmdq := setCore_cmdq s c _
@[simp] theorem giveCredit_switches (s : State) (c cl : Nat) : (giveCredit s c cl).switches = s.switches := setCore_switches s c _
@[simp] theorem giveCredit_releases (s : State) (c cl : Nat) : (giveCredit s c cl).releases = s.releases := setCore_releases s c _
@[simp] theorem giveCredit_seqs (s : State) (c cl : Nat) : (giveCredit s c cl).seqs = s.seqs := setCore_seqs s c _
@[simp] theorem giveCredit_mcq (s : State) (c cl : Nat) : (giveCredit s c cl).mcq = s.mcq := setCore_mcq s c _
@[simp] theorem giveCredit_fabric (s : State) (c cl : Nat) : (giveCredit s c cl).fabric = s.fabric := setCore_fabric s c _
@[simp] theorem giveCredit_secure (s : State) (c cl : Nat) : (giveCredit s c cl).secure = s.secure := setCore_secure s c _
@[simp] theorem giveCredit_gates (s : State) (c cl : Nat) : (giveCredit s c cl).gates = s.gates := setCore_gates s c _
@[simp] theorem giveCredit_service (s : State) (c cl : Nat) : (giveCredit s c cl).service = s.service := setCore_service s c _
@[simp] theorem giveCredit_life (s : State) (c cl : Nat) : (giveCredit s c cl).life = s.life := setCore_life s c _
@[simp] theorem giveCredit_power (s : State) (c cl : Nat) : (giveCredit s c cl).power = s.power := setCore_power s c _
@[simp] theorem giveCredit_host (s : State) (c cl : Nat) : (giveCredit s c cl).host = s.host := setCore_host s c _
@[simp] theorem giveCredit_free (s : State) (c cl : Nat) : (giveCredit s c cl).free = s.free := setCore_free s c _

/-! ### Fields that `setGate` leaves -/

@[simp] theorem setGate_pending (s : State) (x : Nat) (g : Option Gate) : (setGate s x g).pending = s.pending := rfl
@[simp] theorem setGate_clock (s : State) (x : Nat) (g : Option Gate) : (setGate s x g).clock = s.clock := rfl
@[simp] theorem setGate_part (s : State) (x : Nat) (g : Option Gate) : (setGate s x g).part = s.part := rfl
@[simp] theorem setGate_plan (s : State) (x : Nat) (g : Option Gate) : (setGate s x g).plan = s.plan := rfl
@[simp] theorem setGate_boot (s : State) (x : Nat) (g : Option Gate) : (setGate s x g).boot = s.boot := rfl
@[simp] theorem setGate_mem (s : State) (x : Nat) (g : Option Gate) : (setGate s x g).mem = s.mem := rfl
@[simp] theorem setGate_badLines (s : State) (x : Nat) (g : Option Gate) : (setGate s x g).badLines = s.badLines := rfl
@[simp] theorem setGate_softLines (s : State) (x : Nat) (g : Option Gate) : (setGate s x g).softLines = s.softLines := rfl
@[simp] theorem setGate_units (s : State) (x : Nat) (g : Option Gate) : (setGate s x g).units = s.units := rfl
@[simp] theorem setGate_cores (s : State) (x : Nat) (g : Option Gate) : (setGate s x g).cores = s.cores := rfl
@[simp] theorem setGate_turns (s : State) (x : Nat) (g : Option Gate) : (setGate s x g).turns = s.turns := rfl
@[simp] theorem setGate_chans (s : State) (x : Nat) (g : Option Gate) : (setGate s x g).chans = s.chans := rfl
@[simp] theorem setGate_relays (s : State) (x : Nat) (g : Option Gate) : (setGate s x g).relays = s.relays := rfl
@[simp] theorem setGate_herds (s : State) (x : Nat) (g : Option Gate) : (setGate s x g).herds = s.herds := rfl
@[simp] theorem setGate_herdMsgs (s : State) (x : Nat) (g : Option Gate) : (setGate s x g).herdMsgs = s.herdMsgs := rfl
@[simp] theorem setGate_kilns (s : State) (x : Nat) (g : Option Gate) : (setGate s x g).kilns = s.kilns := rfl
@[simp] theorem setGate_tallies (s : State) (x : Nat) (g : Option Gate) : (setGate s x g).tallies = s.tallies := rfl
@[simp] theorem setGate_folds (s : State) (x : Nat) (g : Option Gate) : (setGate s x g).folds = s.folds := rfl
@[simp] theorem setGate_srcs (s : State) (x : Nat) (g : Option Gate) : (setGate s x g).srcs = s.srcs := rfl
@[simp] theorem setGate_localSigs (s : State) (x : Nat) (g : Option Gate) : (setGate s x g).localSigs = s.localSigs := rfl
@[simp] theorem setGate_ctxs (s : State) (x : Nat) (g : Option Gate) : (setGate s x g).ctxs = s.ctxs := rfl
@[simp] theorem setGate_cmdq (s : State) (x : Nat) (g : Option Gate) : (setGate s x g).cmdq = s.cmdq := rfl
@[simp] theorem setGate_switches (s : State) (x : Nat) (g : Option Gate) : (setGate s x g).switches = s.switches := rfl
@[simp] theorem setGate_releases (s : State) (x : Nat) (g : Option Gate) : (setGate s x g).releases = s.releases := rfl
@[simp] theorem setGate_seqs (s : State) (x : Nat) (g : Option Gate) : (setGate s x g).seqs = s.seqs := rfl
@[simp] theorem setGate_mcq (s : State) (x : Nat) (g : Option Gate) : (setGate s x g).mcq = s.mcq := rfl
@[simp] theorem setGate_fabric (s : State) (x : Nat) (g : Option Gate) : (setGate s x g).fabric = s.fabric := rfl
@[simp] theorem setGate_secure (s : State) (x : Nat) (g : Option Gate) : (setGate s x g).secure = s.secure := rfl
@[simp] theorem setGate_service (s : State) (x : Nat) (g : Option Gate) : (setGate s x g).service = s.service := rfl
@[simp] theorem setGate_life (s : State) (x : Nat) (g : Option Gate) : (setGate s x g).life = s.life := rfl
@[simp] theorem setGate_power (s : State) (x : Nat) (g : Option Gate) : (setGate s x g).power = s.power := rfl
@[simp] theorem setGate_host (s : State) (x : Nat) (g : Option Gate) : (setGate s x g).host = s.host := rfl
@[simp] theorem setGate_free (s : State) (x : Nat) (g : Option Gate) : (setGate s x g).free = s.free := rfl

/-! ### Fields that `setTurns` leaves -/

@[simp] theorem setTurns_pending (s : State) (k : Nat) (l : List TurnCmd) : (setTurns s k l).pending = s.pending := rfl
@[simp] theorem setTurns_clock (s : State) (k : Nat) (l : List TurnCmd) : (setTurns s k l).clock = s.clock := rfl
@[simp] theorem setTurns_part (s : State) (k : Nat) (l : List TurnCmd) : (setTurns s k l).part = s.part := rfl
@[simp] theorem setTurns_plan (s : State) (k : Nat) (l : List TurnCmd) : (setTurns s k l).plan = s.plan := rfl
@[simp] theorem setTurns_boot (s : State) (k : Nat) (l : List TurnCmd) : (setTurns s k l).boot = s.boot := rfl
@[simp] theorem setTurns_mem (s : State) (k : Nat) (l : List TurnCmd) : (setTurns s k l).mem = s.mem := rfl
@[simp] theorem setTurns_badLines (s : State) (k : Nat) (l : List TurnCmd) : (setTurns s k l).badLines = s.badLines := rfl
@[simp] theorem setTurns_softLines (s : State) (k : Nat) (l : List TurnCmd) : (setTurns s k l).softLines = s.softLines := rfl
@[simp] theorem setTurns_units (s : State) (k : Nat) (l : List TurnCmd) : (setTurns s k l).units = s.units := rfl
@[simp] theorem setTurns_cores (s : State) (k : Nat) (l : List TurnCmd) : (setTurns s k l).cores = s.cores := rfl
@[simp] theorem setTurns_chans (s : State) (k : Nat) (l : List TurnCmd) : (setTurns s k l).chans = s.chans := rfl
@[simp] theorem setTurns_relays (s : State) (k : Nat) (l : List TurnCmd) : (setTurns s k l).relays = s.relays := rfl
@[simp] theorem setTurns_herds (s : State) (k : Nat) (l : List TurnCmd) : (setTurns s k l).herds = s.herds := rfl
@[simp] theorem setTurns_herdMsgs (s : State) (k : Nat) (l : List TurnCmd) : (setTurns s k l).herdMsgs = s.herdMsgs := rfl
@[simp] theorem setTurns_kilns (s : State) (k : Nat) (l : List TurnCmd) : (setTurns s k l).kilns = s.kilns := rfl
@[simp] theorem setTurns_tallies (s : State) (k : Nat) (l : List TurnCmd) : (setTurns s k l).tallies = s.tallies := rfl
@[simp] theorem setTurns_folds (s : State) (k : Nat) (l : List TurnCmd) : (setTurns s k l).folds = s.folds := rfl
@[simp] theorem setTurns_srcs (s : State) (k : Nat) (l : List TurnCmd) : (setTurns s k l).srcs = s.srcs := rfl
@[simp] theorem setTurns_localSigs (s : State) (k : Nat) (l : List TurnCmd) : (setTurns s k l).localSigs = s.localSigs := rfl
@[simp] theorem setTurns_ctxs (s : State) (k : Nat) (l : List TurnCmd) : (setTurns s k l).ctxs = s.ctxs := rfl
@[simp] theorem setTurns_cmdq (s : State) (k : Nat) (l : List TurnCmd) : (setTurns s k l).cmdq = s.cmdq := rfl
@[simp] theorem setTurns_switches (s : State) (k : Nat) (l : List TurnCmd) : (setTurns s k l).switches = s.switches := rfl
@[simp] theorem setTurns_releases (s : State) (k : Nat) (l : List TurnCmd) : (setTurns s k l).releases = s.releases := rfl
@[simp] theorem setTurns_seqs (s : State) (k : Nat) (l : List TurnCmd) : (setTurns s k l).seqs = s.seqs := rfl
@[simp] theorem setTurns_mcq (s : State) (k : Nat) (l : List TurnCmd) : (setTurns s k l).mcq = s.mcq := rfl
@[simp] theorem setTurns_fabric (s : State) (k : Nat) (l : List TurnCmd) : (setTurns s k l).fabric = s.fabric := rfl
@[simp] theorem setTurns_secure (s : State) (k : Nat) (l : List TurnCmd) : (setTurns s k l).secure = s.secure := rfl
@[simp] theorem setTurns_gates (s : State) (k : Nat) (l : List TurnCmd) : (setTurns s k l).gates = s.gates := rfl
@[simp] theorem setTurns_service (s : State) (k : Nat) (l : List TurnCmd) : (setTurns s k l).service = s.service := rfl
@[simp] theorem setTurns_life (s : State) (k : Nat) (l : List TurnCmd) : (setTurns s k l).life = s.life := rfl
@[simp] theorem setTurns_power (s : State) (k : Nat) (l : List TurnCmd) : (setTurns s k l).power = s.power := rfl
@[simp] theorem setTurns_host (s : State) (k : Nat) (l : List TurnCmd) : (setTurns s k l).host = s.host := rfl
@[simp] theorem setTurns_free (s : State) (k : Nat) (l : List TurnCmd) : (setTurns s k l).free = s.free := rfl

/-! ### Fields that `setFold` leaves -/

@[simp] theorem setFold_pending (s : State) (k f : Nat) (v : Fold) : (setFold s k f v).pending = s.pending := rfl
@[simp] theorem setFold_clock (s : State) (k f : Nat) (v : Fold) : (setFold s k f v).clock = s.clock := rfl
@[simp] theorem setFold_part (s : State) (k f : Nat) (v : Fold) : (setFold s k f v).part = s.part := rfl
@[simp] theorem setFold_plan (s : State) (k f : Nat) (v : Fold) : (setFold s k f v).plan = s.plan := rfl
@[simp] theorem setFold_boot (s : State) (k f : Nat) (v : Fold) : (setFold s k f v).boot = s.boot := rfl
@[simp] theorem setFold_mem (s : State) (k f : Nat) (v : Fold) : (setFold s k f v).mem = s.mem := rfl
@[simp] theorem setFold_badLines (s : State) (k f : Nat) (v : Fold) : (setFold s k f v).badLines = s.badLines := rfl
@[simp] theorem setFold_softLines (s : State) (k f : Nat) (v : Fold) : (setFold s k f v).softLines = s.softLines := rfl
@[simp] theorem setFold_units (s : State) (k f : Nat) (v : Fold) : (setFold s k f v).units = s.units := rfl
@[simp] theorem setFold_cores (s : State) (k f : Nat) (v : Fold) : (setFold s k f v).cores = s.cores := rfl
@[simp] theorem setFold_turns (s : State) (k f : Nat) (v : Fold) : (setFold s k f v).turns = s.turns := rfl
@[simp] theorem setFold_chans (s : State) (k f : Nat) (v : Fold) : (setFold s k f v).chans = s.chans := rfl
@[simp] theorem setFold_relays (s : State) (k f : Nat) (v : Fold) : (setFold s k f v).relays = s.relays := rfl
@[simp] theorem setFold_herds (s : State) (k f : Nat) (v : Fold) : (setFold s k f v).herds = s.herds := rfl
@[simp] theorem setFold_herdMsgs (s : State) (k f : Nat) (v : Fold) : (setFold s k f v).herdMsgs = s.herdMsgs := rfl
@[simp] theorem setFold_kilns (s : State) (k f : Nat) (v : Fold) : (setFold s k f v).kilns = s.kilns := rfl
@[simp] theorem setFold_tallies (s : State) (k f : Nat) (v : Fold) : (setFold s k f v).tallies = s.tallies := rfl
@[simp] theorem setFold_srcs (s : State) (k f : Nat) (v : Fold) : (setFold s k f v).srcs = s.srcs := rfl
@[simp] theorem setFold_localSigs (s : State) (k f : Nat) (v : Fold) : (setFold s k f v).localSigs = s.localSigs := rfl
@[simp] theorem setFold_ctxs (s : State) (k f : Nat) (v : Fold) : (setFold s k f v).ctxs = s.ctxs := rfl
@[simp] theorem setFold_cmdq (s : State) (k f : Nat) (v : Fold) : (setFold s k f v).cmdq = s.cmdq := rfl
@[simp] theorem setFold_switches (s : State) (k f : Nat) (v : Fold) : (setFold s k f v).switches = s.switches := rfl
@[simp] theorem setFold_releases (s : State) (k f : Nat) (v : Fold) : (setFold s k f v).releases = s.releases := rfl
@[simp] theorem setFold_seqs (s : State) (k f : Nat) (v : Fold) : (setFold s k f v).seqs = s.seqs := rfl
@[simp] theorem setFold_mcq (s : State) (k f : Nat) (v : Fold) : (setFold s k f v).mcq = s.mcq := rfl
@[simp] theorem setFold_fabric (s : State) (k f : Nat) (v : Fold) : (setFold s k f v).fabric = s.fabric := rfl
@[simp] theorem setFold_secure (s : State) (k f : Nat) (v : Fold) : (setFold s k f v).secure = s.secure := rfl
@[simp] theorem setFold_gates (s : State) (k f : Nat) (v : Fold) : (setFold s k f v).gates = s.gates := rfl
@[simp] theorem setFold_service (s : State) (k f : Nat) (v : Fold) : (setFold s k f v).service = s.service := rfl
@[simp] theorem setFold_life (s : State) (k f : Nat) (v : Fold) : (setFold s k f v).life = s.life := rfl
@[simp] theorem setFold_power (s : State) (k f : Nat) (v : Fold) : (setFold s k f v).power = s.power := rfl
@[simp] theorem setFold_host (s : State) (k f : Nat) (v : Fold) : (setFold s k f v).host = s.host := rfl
@[simp] theorem setFold_free (s : State) (k f : Nat) (v : Fold) : (setFold s k f v).free = s.free := rfl

/-! ### Fields that `setChan` leaves -/

@[simp] theorem setChan_pending (s : State) (g : Nat) (h : Chan) : (setChan s g h).pending = s.pending := rfl
@[simp] theorem setChan_clock (s : State) (g : Nat) (h : Chan) : (setChan s g h).clock = s.clock := rfl
@[simp] theorem setChan_part (s : State) (g : Nat) (h : Chan) : (setChan s g h).part = s.part := rfl
@[simp] theorem setChan_plan (s : State) (g : Nat) (h : Chan) : (setChan s g h).plan = s.plan := rfl
@[simp] theorem setChan_boot (s : State) (g : Nat) (h : Chan) : (setChan s g h).boot = s.boot := rfl
@[simp] theorem setChan_mem (s : State) (g : Nat) (h : Chan) : (setChan s g h).mem = s.mem := rfl
@[simp] theorem setChan_badLines (s : State) (g : Nat) (h : Chan) : (setChan s g h).badLines = s.badLines := rfl
@[simp] theorem setChan_softLines (s : State) (g : Nat) (h : Chan) : (setChan s g h).softLines = s.softLines := rfl
@[simp] theorem setChan_units (s : State) (g : Nat) (h : Chan) : (setChan s g h).units = s.units := rfl
@[simp] theorem setChan_cores (s : State) (g : Nat) (h : Chan) : (setChan s g h).cores = s.cores := rfl
@[simp] theorem setChan_turns (s : State) (g : Nat) (h : Chan) : (setChan s g h).turns = s.turns := rfl
@[simp] theorem setChan_relays (s : State) (g : Nat) (h : Chan) : (setChan s g h).relays = s.relays := rfl
@[simp] theorem setChan_herds (s : State) (g : Nat) (h : Chan) : (setChan s g h).herds = s.herds := rfl
@[simp] theorem setChan_herdMsgs (s : State) (g : Nat) (h : Chan) : (setChan s g h).herdMsgs = s.herdMsgs := rfl
@[simp] theorem setChan_kilns (s : State) (g : Nat) (h : Chan) : (setChan s g h).kilns = s.kilns := rfl
@[simp] theorem setChan_tallies (s : State) (g : Nat) (h : Chan) : (setChan s g h).tallies = s.tallies := rfl
@[simp] theorem setChan_folds (s : State) (g : Nat) (h : Chan) : (setChan s g h).folds = s.folds := rfl
@[simp] theorem setChan_srcs (s : State) (g : Nat) (h : Chan) : (setChan s g h).srcs = s.srcs := rfl
@[simp] theorem setChan_localSigs (s : State) (g : Nat) (h : Chan) : (setChan s g h).localSigs = s.localSigs := rfl
@[simp] theorem setChan_ctxs (s : State) (g : Nat) (h : Chan) : (setChan s g h).ctxs = s.ctxs := rfl
@[simp] theorem setChan_cmdq (s : State) (g : Nat) (h : Chan) : (setChan s g h).cmdq = s.cmdq := rfl
@[simp] theorem setChan_switches (s : State) (g : Nat) (h : Chan) : (setChan s g h).switches = s.switches := rfl
@[simp] theorem setChan_releases (s : State) (g : Nat) (h : Chan) : (setChan s g h).releases = s.releases := rfl
@[simp] theorem setChan_seqs (s : State) (g : Nat) (h : Chan) : (setChan s g h).seqs = s.seqs := rfl
@[simp] theorem setChan_mcq (s : State) (g : Nat) (h : Chan) : (setChan s g h).mcq = s.mcq := rfl
@[simp] theorem setChan_fabric (s : State) (g : Nat) (h : Chan) : (setChan s g h).fabric = s.fabric := rfl
@[simp] theorem setChan_secure (s : State) (g : Nat) (h : Chan) : (setChan s g h).secure = s.secure := rfl
@[simp] theorem setChan_gates (s : State) (g : Nat) (h : Chan) : (setChan s g h).gates = s.gates := rfl
@[simp] theorem setChan_service (s : State) (g : Nat) (h : Chan) : (setChan s g h).service = s.service := rfl
@[simp] theorem setChan_life (s : State) (g : Nat) (h : Chan) : (setChan s g h).life = s.life := rfl
@[simp] theorem setChan_power (s : State) (g : Nat) (h : Chan) : (setChan s g h).power = s.power := rfl
@[simp] theorem setChan_host (s : State) (g : Nat) (h : Chan) : (setChan s g h).host = s.host := rfl
@[simp] theorem setChan_free (s : State) (g : Nat) (h : Chan) : (setChan s g h).free = s.free := rfl

/-! ### Fields that `modChan` leaves -/

@[simp] theorem modChan_pending (s : State) (g : Nat) (f : Chan → Chan) : (modChan s g f).pending = s.pending := setChan_pending s g _
@[simp] theorem modChan_clock (s : State) (g : Nat) (f : Chan → Chan) : (modChan s g f).clock = s.clock := setChan_clock s g _
@[simp] theorem modChan_part (s : State) (g : Nat) (f : Chan → Chan) : (modChan s g f).part = s.part := setChan_part s g _
@[simp] theorem modChan_plan (s : State) (g : Nat) (f : Chan → Chan) : (modChan s g f).plan = s.plan := setChan_plan s g _
@[simp] theorem modChan_boot (s : State) (g : Nat) (f : Chan → Chan) : (modChan s g f).boot = s.boot := setChan_boot s g _
@[simp] theorem modChan_mem (s : State) (g : Nat) (f : Chan → Chan) : (modChan s g f).mem = s.mem := setChan_mem s g _
@[simp] theorem modChan_badLines (s : State) (g : Nat) (f : Chan → Chan) : (modChan s g f).badLines = s.badLines := setChan_badLines s g _
@[simp] theorem modChan_softLines (s : State) (g : Nat) (f : Chan → Chan) : (modChan s g f).softLines = s.softLines := setChan_softLines s g _
@[simp] theorem modChan_units (s : State) (g : Nat) (f : Chan → Chan) : (modChan s g f).units = s.units := setChan_units s g _
@[simp] theorem modChan_cores (s : State) (g : Nat) (f : Chan → Chan) : (modChan s g f).cores = s.cores := setChan_cores s g _
@[simp] theorem modChan_turns (s : State) (g : Nat) (f : Chan → Chan) : (modChan s g f).turns = s.turns := setChan_turns s g _
@[simp] theorem modChan_relays (s : State) (g : Nat) (f : Chan → Chan) : (modChan s g f).relays = s.relays := setChan_relays s g _
@[simp] theorem modChan_herds (s : State) (g : Nat) (f : Chan → Chan) : (modChan s g f).herds = s.herds := setChan_herds s g _
@[simp] theorem modChan_herdMsgs (s : State) (g : Nat) (f : Chan → Chan) : (modChan s g f).herdMsgs = s.herdMsgs := setChan_herdMsgs s g _
@[simp] theorem modChan_kilns (s : State) (g : Nat) (f : Chan → Chan) : (modChan s g f).kilns = s.kilns := setChan_kilns s g _
@[simp] theorem modChan_tallies (s : State) (g : Nat) (f : Chan → Chan) : (modChan s g f).tallies = s.tallies := setChan_tallies s g _
@[simp] theorem modChan_folds (s : State) (g : Nat) (f : Chan → Chan) : (modChan s g f).folds = s.folds := setChan_folds s g _
@[simp] theorem modChan_srcs (s : State) (g : Nat) (f : Chan → Chan) : (modChan s g f).srcs = s.srcs := setChan_srcs s g _
@[simp] theorem modChan_localSigs (s : State) (g : Nat) (f : Chan → Chan) : (modChan s g f).localSigs = s.localSigs := setChan_localSigs s g _
@[simp] theorem modChan_ctxs (s : State) (g : Nat) (f : Chan → Chan) : (modChan s g f).ctxs = s.ctxs := setChan_ctxs s g _
@[simp] theorem modChan_cmdq (s : State) (g : Nat) (f : Chan → Chan) : (modChan s g f).cmdq = s.cmdq := setChan_cmdq s g _
@[simp] theorem modChan_switches (s : State) (g : Nat) (f : Chan → Chan) : (modChan s g f).switches = s.switches := setChan_switches s g _
@[simp] theorem modChan_releases (s : State) (g : Nat) (f : Chan → Chan) : (modChan s g f).releases = s.releases := setChan_releases s g _
@[simp] theorem modChan_seqs (s : State) (g : Nat) (f : Chan → Chan) : (modChan s g f).seqs = s.seqs := setChan_seqs s g _
@[simp] theorem modChan_mcq (s : State) (g : Nat) (f : Chan → Chan) : (modChan s g f).mcq = s.mcq := setChan_mcq s g _
@[simp] theorem modChan_fabric (s : State) (g : Nat) (f : Chan → Chan) : (modChan s g f).fabric = s.fabric := setChan_fabric s g _
@[simp] theorem modChan_secure (s : State) (g : Nat) (f : Chan → Chan) : (modChan s g f).secure = s.secure := setChan_secure s g _
@[simp] theorem modChan_gates (s : State) (g : Nat) (f : Chan → Chan) : (modChan s g f).gates = s.gates := setChan_gates s g _
@[simp] theorem modChan_service (s : State) (g : Nat) (f : Chan → Chan) : (modChan s g f).service = s.service := setChan_service s g _
@[simp] theorem modChan_life (s : State) (g : Nat) (f : Chan → Chan) : (modChan s g f).life = s.life := setChan_life s g _
@[simp] theorem modChan_power (s : State) (g : Nat) (f : Chan → Chan) : (modChan s g f).power = s.power := setChan_power s g _
@[simp] theorem modChan_host (s : State) (g : Nat) (f : Chan → Chan) : (modChan s g f).host = s.host := setChan_host s g _
@[simp] theorem modChan_free (s : State) (g : Nat) (f : Chan → Chan) : (modChan s g f).free = s.free := setChan_free s g _

/-! ### Fields that `setRelay` leaves -/

@[simp] theorem setRelay_pending (s : State) (k : Nat) (r : Relay) : (setRelay s k r).pending = s.pending := rfl
@[simp] theorem setRelay_clock (s : State) (k : Nat) (r : Relay) : (setRelay s k r).clock = s.clock := rfl
@[simp] theorem setRelay_part (s : State) (k : Nat) (r : Relay) : (setRelay s k r).part = s.part := rfl
@[simp] theorem setRelay_plan (s : State) (k : Nat) (r : Relay) : (setRelay s k r).plan = s.plan := rfl
@[simp] theorem setRelay_boot (s : State) (k : Nat) (r : Relay) : (setRelay s k r).boot = s.boot := rfl
@[simp] theorem setRelay_mem (s : State) (k : Nat) (r : Relay) : (setRelay s k r).mem = s.mem := rfl
@[simp] theorem setRelay_badLines (s : State) (k : Nat) (r : Relay) : (setRelay s k r).badLines = s.badLines := rfl
@[simp] theorem setRelay_softLines (s : State) (k : Nat) (r : Relay) : (setRelay s k r).softLines = s.softLines := rfl
@[simp] theorem setRelay_units (s : State) (k : Nat) (r : Relay) : (setRelay s k r).units = s.units := rfl
@[simp] theorem setRelay_cores (s : State) (k : Nat) (r : Relay) : (setRelay s k r).cores = s.cores := rfl
@[simp] theorem setRelay_turns (s : State) (k : Nat) (r : Relay) : (setRelay s k r).turns = s.turns := rfl
@[simp] theorem setRelay_chans (s : State) (k : Nat) (r : Relay) : (setRelay s k r).chans = s.chans := rfl
@[simp] theorem setRelay_herds (s : State) (k : Nat) (r : Relay) : (setRelay s k r).herds = s.herds := rfl
@[simp] theorem setRelay_herdMsgs (s : State) (k : Nat) (r : Relay) : (setRelay s k r).herdMsgs = s.herdMsgs := rfl
@[simp] theorem setRelay_kilns (s : State) (k : Nat) (r : Relay) : (setRelay s k r).kilns = s.kilns := rfl
@[simp] theorem setRelay_tallies (s : State) (k : Nat) (r : Relay) : (setRelay s k r).tallies = s.tallies := rfl
@[simp] theorem setRelay_folds (s : State) (k : Nat) (r : Relay) : (setRelay s k r).folds = s.folds := rfl
@[simp] theorem setRelay_srcs (s : State) (k : Nat) (r : Relay) : (setRelay s k r).srcs = s.srcs := rfl
@[simp] theorem setRelay_localSigs (s : State) (k : Nat) (r : Relay) : (setRelay s k r).localSigs = s.localSigs := rfl
@[simp] theorem setRelay_ctxs (s : State) (k : Nat) (r : Relay) : (setRelay s k r).ctxs = s.ctxs := rfl
@[simp] theorem setRelay_cmdq (s : State) (k : Nat) (r : Relay) : (setRelay s k r).cmdq = s.cmdq := rfl
@[simp] theorem setRelay_switches (s : State) (k : Nat) (r : Relay) : (setRelay s k r).switches = s.switches := rfl
@[simp] theorem setRelay_releases (s : State) (k : Nat) (r : Relay) : (setRelay s k r).releases = s.releases := rfl
@[simp] theorem setRelay_seqs (s : State) (k : Nat) (r : Relay) : (setRelay s k r).seqs = s.seqs := rfl
@[simp] theorem setRelay_mcq (s : State) (k : Nat) (r : Relay) : (setRelay s k r).mcq = s.mcq := rfl
@[simp] theorem setRelay_fabric (s : State) (k : Nat) (r : Relay) : (setRelay s k r).fabric = s.fabric := rfl
@[simp] theorem setRelay_secure (s : State) (k : Nat) (r : Relay) : (setRelay s k r).secure = s.secure := rfl
@[simp] theorem setRelay_gates (s : State) (k : Nat) (r : Relay) : (setRelay s k r).gates = s.gates := rfl
@[simp] theorem setRelay_service (s : State) (k : Nat) (r : Relay) : (setRelay s k r).service = s.service := rfl
@[simp] theorem setRelay_life (s : State) (k : Nat) (r : Relay) : (setRelay s k r).life = s.life := rfl
@[simp] theorem setRelay_power (s : State) (k : Nat) (r : Relay) : (setRelay s k r).power = s.power := rfl
@[simp] theorem setRelay_host (s : State) (k : Nat) (r : Relay) : (setRelay s k r).host = s.host := rfl
@[simp] theorem setRelay_free (s : State) (k : Nat) (r : Relay) : (setRelay s k r).free = s.free := rfl

/-! ### Fields that `setHerd` leaves -/

@[simp] theorem setHerd_pending (s : State) (k : Nat) (h : Herd) : (setHerd s k h).pending = s.pending := rfl
@[simp] theorem setHerd_clock (s : State) (k : Nat) (h : Herd) : (setHerd s k h).clock = s.clock := rfl
@[simp] theorem setHerd_part (s : State) (k : Nat) (h : Herd) : (setHerd s k h).part = s.part := rfl
@[simp] theorem setHerd_plan (s : State) (k : Nat) (h : Herd) : (setHerd s k h).plan = s.plan := rfl
@[simp] theorem setHerd_boot (s : State) (k : Nat) (h : Herd) : (setHerd s k h).boot = s.boot := rfl
@[simp] theorem setHerd_mem (s : State) (k : Nat) (h : Herd) : (setHerd s k h).mem = s.mem := rfl
@[simp] theorem setHerd_badLines (s : State) (k : Nat) (h : Herd) : (setHerd s k h).badLines = s.badLines := rfl
@[simp] theorem setHerd_softLines (s : State) (k : Nat) (h : Herd) : (setHerd s k h).softLines = s.softLines := rfl
@[simp] theorem setHerd_units (s : State) (k : Nat) (h : Herd) : (setHerd s k h).units = s.units := rfl
@[simp] theorem setHerd_cores (s : State) (k : Nat) (h : Herd) : (setHerd s k h).cores = s.cores := rfl
@[simp] theorem setHerd_turns (s : State) (k : Nat) (h : Herd) : (setHerd s k h).turns = s.turns := rfl
@[simp] theorem setHerd_chans (s : State) (k : Nat) (h : Herd) : (setHerd s k h).chans = s.chans := rfl
@[simp] theorem setHerd_relays (s : State) (k : Nat) (h : Herd) : (setHerd s k h).relays = s.relays := rfl
@[simp] theorem setHerd_herdMsgs (s : State) (k : Nat) (h : Herd) : (setHerd s k h).herdMsgs = s.herdMsgs := rfl
@[simp] theorem setHerd_kilns (s : State) (k : Nat) (h : Herd) : (setHerd s k h).kilns = s.kilns := rfl
@[simp] theorem setHerd_tallies (s : State) (k : Nat) (h : Herd) : (setHerd s k h).tallies = s.tallies := rfl
@[simp] theorem setHerd_folds (s : State) (k : Nat) (h : Herd) : (setHerd s k h).folds = s.folds := rfl
@[simp] theorem setHerd_srcs (s : State) (k : Nat) (h : Herd) : (setHerd s k h).srcs = s.srcs := rfl
@[simp] theorem setHerd_localSigs (s : State) (k : Nat) (h : Herd) : (setHerd s k h).localSigs = s.localSigs := rfl
@[simp] theorem setHerd_ctxs (s : State) (k : Nat) (h : Herd) : (setHerd s k h).ctxs = s.ctxs := rfl
@[simp] theorem setHerd_cmdq (s : State) (k : Nat) (h : Herd) : (setHerd s k h).cmdq = s.cmdq := rfl
@[simp] theorem setHerd_switches (s : State) (k : Nat) (h : Herd) : (setHerd s k h).switches = s.switches := rfl
@[simp] theorem setHerd_releases (s : State) (k : Nat) (h : Herd) : (setHerd s k h).releases = s.releases := rfl
@[simp] theorem setHerd_seqs (s : State) (k : Nat) (h : Herd) : (setHerd s k h).seqs = s.seqs := rfl
@[simp] theorem setHerd_mcq (s : State) (k : Nat) (h : Herd) : (setHerd s k h).mcq = s.mcq := rfl
@[simp] theorem setHerd_fabric (s : State) (k : Nat) (h : Herd) : (setHerd s k h).fabric = s.fabric := rfl
@[simp] theorem setHerd_secure (s : State) (k : Nat) (h : Herd) : (setHerd s k h).secure = s.secure := rfl
@[simp] theorem setHerd_gates (s : State) (k : Nat) (h : Herd) : (setHerd s k h).gates = s.gates := rfl
@[simp] theorem setHerd_service (s : State) (k : Nat) (h : Herd) : (setHerd s k h).service = s.service := rfl
@[simp] theorem setHerd_life (s : State) (k : Nat) (h : Herd) : (setHerd s k h).life = s.life := rfl
@[simp] theorem setHerd_power (s : State) (k : Nat) (h : Herd) : (setHerd s k h).power = s.power := rfl
@[simp] theorem setHerd_host (s : State) (k : Nat) (h : Herd) : (setHerd s k h).host = s.host := rfl
@[simp] theorem setHerd_free (s : State) (k : Nat) (h : Herd) : (setHerd s k h).free = s.free := rfl

/-! ### Fields that `modHerd` leaves -/

@[simp] theorem modHerd_pending (s : State) (k : Nat) (f : Herd → Herd) : (modHerd s k f).pending = s.pending := setHerd_pending s k _
@[simp] theorem modHerd_clock (s : State) (k : Nat) (f : Herd → Herd) : (modHerd s k f).clock = s.clock := setHerd_clock s k _
@[simp] theorem modHerd_part (s : State) (k : Nat) (f : Herd → Herd) : (modHerd s k f).part = s.part := setHerd_part s k _
@[simp] theorem modHerd_plan (s : State) (k : Nat) (f : Herd → Herd) : (modHerd s k f).plan = s.plan := setHerd_plan s k _
@[simp] theorem modHerd_boot (s : State) (k : Nat) (f : Herd → Herd) : (modHerd s k f).boot = s.boot := setHerd_boot s k _
@[simp] theorem modHerd_mem (s : State) (k : Nat) (f : Herd → Herd) : (modHerd s k f).mem = s.mem := setHerd_mem s k _
@[simp] theorem modHerd_badLines (s : State) (k : Nat) (f : Herd → Herd) : (modHerd s k f).badLines = s.badLines := setHerd_badLines s k _
@[simp] theorem modHerd_softLines (s : State) (k : Nat) (f : Herd → Herd) : (modHerd s k f).softLines = s.softLines := setHerd_softLines s k _
@[simp] theorem modHerd_units (s : State) (k : Nat) (f : Herd → Herd) : (modHerd s k f).units = s.units := setHerd_units s k _
@[simp] theorem modHerd_cores (s : State) (k : Nat) (f : Herd → Herd) : (modHerd s k f).cores = s.cores := setHerd_cores s k _
@[simp] theorem modHerd_turns (s : State) (k : Nat) (f : Herd → Herd) : (modHerd s k f).turns = s.turns := setHerd_turns s k _
@[simp] theorem modHerd_chans (s : State) (k : Nat) (f : Herd → Herd) : (modHerd s k f).chans = s.chans := setHerd_chans s k _
@[simp] theorem modHerd_relays (s : State) (k : Nat) (f : Herd → Herd) : (modHerd s k f).relays = s.relays := setHerd_relays s k _
@[simp] theorem modHerd_herdMsgs (s : State) (k : Nat) (f : Herd → Herd) : (modHerd s k f).herdMsgs = s.herdMsgs := setHerd_herdMsgs s k _
@[simp] theorem modHerd_kilns (s : State) (k : Nat) (f : Herd → Herd) : (modHerd s k f).kilns = s.kilns := setHerd_kilns s k _
@[simp] theorem modHerd_tallies (s : State) (k : Nat) (f : Herd → Herd) : (modHerd s k f).tallies = s.tallies := setHerd_tallies s k _
@[simp] theorem modHerd_folds (s : State) (k : Nat) (f : Herd → Herd) : (modHerd s k f).folds = s.folds := setHerd_folds s k _
@[simp] theorem modHerd_srcs (s : State) (k : Nat) (f : Herd → Herd) : (modHerd s k f).srcs = s.srcs := setHerd_srcs s k _
@[simp] theorem modHerd_localSigs (s : State) (k : Nat) (f : Herd → Herd) : (modHerd s k f).localSigs = s.localSigs := setHerd_localSigs s k _
@[simp] theorem modHerd_ctxs (s : State) (k : Nat) (f : Herd → Herd) : (modHerd s k f).ctxs = s.ctxs := setHerd_ctxs s k _
@[simp] theorem modHerd_cmdq (s : State) (k : Nat) (f : Herd → Herd) : (modHerd s k f).cmdq = s.cmdq := setHerd_cmdq s k _
@[simp] theorem modHerd_switches (s : State) (k : Nat) (f : Herd → Herd) : (modHerd s k f).switches = s.switches := setHerd_switches s k _
@[simp] theorem modHerd_releases (s : State) (k : Nat) (f : Herd → Herd) : (modHerd s k f).releases = s.releases := setHerd_releases s k _
@[simp] theorem modHerd_seqs (s : State) (k : Nat) (f : Herd → Herd) : (modHerd s k f).seqs = s.seqs := setHerd_seqs s k _
@[simp] theorem modHerd_mcq (s : State) (k : Nat) (f : Herd → Herd) : (modHerd s k f).mcq = s.mcq := setHerd_mcq s k _
@[simp] theorem modHerd_fabric (s : State) (k : Nat) (f : Herd → Herd) : (modHerd s k f).fabric = s.fabric := setHerd_fabric s k _
@[simp] theorem modHerd_secure (s : State) (k : Nat) (f : Herd → Herd) : (modHerd s k f).secure = s.secure := setHerd_secure s k _
@[simp] theorem modHerd_gates (s : State) (k : Nat) (f : Herd → Herd) : (modHerd s k f).gates = s.gates := setHerd_gates s k _
@[simp] theorem modHerd_service (s : State) (k : Nat) (f : Herd → Herd) : (modHerd s k f).service = s.service := setHerd_service s k _
@[simp] theorem modHerd_life (s : State) (k : Nat) (f : Herd → Herd) : (modHerd s k f).life = s.life := setHerd_life s k _
@[simp] theorem modHerd_power (s : State) (k : Nat) (f : Herd → Herd) : (modHerd s k f).power = s.power := setHerd_power s k _
@[simp] theorem modHerd_host (s : State) (k : Nat) (f : Herd → Herd) : (modHerd s k f).host = s.host := setHerd_host s k _
@[simp] theorem modHerd_free (s : State) (k : Nat) (f : Herd → Herd) : (modHerd s k f).free = s.free := setHerd_free s k _

/-! ### Fields that `setKiln` leaves -/

@[simp] theorem setKiln_pending (s : State) (n : Nat) (l : List KilnCmd) : (setKiln s n l).pending = s.pending := rfl
@[simp] theorem setKiln_clock (s : State) (n : Nat) (l : List KilnCmd) : (setKiln s n l).clock = s.clock := rfl
@[simp] theorem setKiln_part (s : State) (n : Nat) (l : List KilnCmd) : (setKiln s n l).part = s.part := rfl
@[simp] theorem setKiln_plan (s : State) (n : Nat) (l : List KilnCmd) : (setKiln s n l).plan = s.plan := rfl
@[simp] theorem setKiln_boot (s : State) (n : Nat) (l : List KilnCmd) : (setKiln s n l).boot = s.boot := rfl
@[simp] theorem setKiln_mem (s : State) (n : Nat) (l : List KilnCmd) : (setKiln s n l).mem = s.mem := rfl
@[simp] theorem setKiln_badLines (s : State) (n : Nat) (l : List KilnCmd) : (setKiln s n l).badLines = s.badLines := rfl
@[simp] theorem setKiln_softLines (s : State) (n : Nat) (l : List KilnCmd) : (setKiln s n l).softLines = s.softLines := rfl
@[simp] theorem setKiln_units (s : State) (n : Nat) (l : List KilnCmd) : (setKiln s n l).units = s.units := rfl
@[simp] theorem setKiln_cores (s : State) (n : Nat) (l : List KilnCmd) : (setKiln s n l).cores = s.cores := rfl
@[simp] theorem setKiln_turns (s : State) (n : Nat) (l : List KilnCmd) : (setKiln s n l).turns = s.turns := rfl
@[simp] theorem setKiln_chans (s : State) (n : Nat) (l : List KilnCmd) : (setKiln s n l).chans = s.chans := rfl
@[simp] theorem setKiln_relays (s : State) (n : Nat) (l : List KilnCmd) : (setKiln s n l).relays = s.relays := rfl
@[simp] theorem setKiln_herds (s : State) (n : Nat) (l : List KilnCmd) : (setKiln s n l).herds = s.herds := rfl
@[simp] theorem setKiln_herdMsgs (s : State) (n : Nat) (l : List KilnCmd) : (setKiln s n l).herdMsgs = s.herdMsgs := rfl
@[simp] theorem setKiln_tallies (s : State) (n : Nat) (l : List KilnCmd) : (setKiln s n l).tallies = s.tallies := rfl
@[simp] theorem setKiln_folds (s : State) (n : Nat) (l : List KilnCmd) : (setKiln s n l).folds = s.folds := rfl
@[simp] theorem setKiln_srcs (s : State) (n : Nat) (l : List KilnCmd) : (setKiln s n l).srcs = s.srcs := rfl
@[simp] theorem setKiln_localSigs (s : State) (n : Nat) (l : List KilnCmd) : (setKiln s n l).localSigs = s.localSigs := rfl
@[simp] theorem setKiln_ctxs (s : State) (n : Nat) (l : List KilnCmd) : (setKiln s n l).ctxs = s.ctxs := rfl
@[simp] theorem setKiln_cmdq (s : State) (n : Nat) (l : List KilnCmd) : (setKiln s n l).cmdq = s.cmdq := rfl
@[simp] theorem setKiln_switches (s : State) (n : Nat) (l : List KilnCmd) : (setKiln s n l).switches = s.switches := rfl
@[simp] theorem setKiln_releases (s : State) (n : Nat) (l : List KilnCmd) : (setKiln s n l).releases = s.releases := rfl
@[simp] theorem setKiln_seqs (s : State) (n : Nat) (l : List KilnCmd) : (setKiln s n l).seqs = s.seqs := rfl
@[simp] theorem setKiln_mcq (s : State) (n : Nat) (l : List KilnCmd) : (setKiln s n l).mcq = s.mcq := rfl
@[simp] theorem setKiln_fabric (s : State) (n : Nat) (l : List KilnCmd) : (setKiln s n l).fabric = s.fabric := rfl
@[simp] theorem setKiln_secure (s : State) (n : Nat) (l : List KilnCmd) : (setKiln s n l).secure = s.secure := rfl
@[simp] theorem setKiln_gates (s : State) (n : Nat) (l : List KilnCmd) : (setKiln s n l).gates = s.gates := rfl
@[simp] theorem setKiln_service (s : State) (n : Nat) (l : List KilnCmd) : (setKiln s n l).service = s.service := rfl
@[simp] theorem setKiln_life (s : State) (n : Nat) (l : List KilnCmd) : (setKiln s n l).life = s.life := rfl
@[simp] theorem setKiln_power (s : State) (n : Nat) (l : List KilnCmd) : (setKiln s n l).power = s.power := rfl
@[simp] theorem setKiln_host (s : State) (n : Nat) (l : List KilnCmd) : (setKiln s n l).host = s.host := rfl
@[simp] theorem setKiln_free (s : State) (n : Nat) (l : List KilnCmd) : (setKiln s n l).free = s.free := rfl

/-! ### Fields that `putKilnCmd` leaves -/

@[simp] theorem putKilnCmd_pending (s : State) (n i : Nat) (q : KilnCmd) : (putKilnCmd s n i q).pending = s.pending := setKiln_pending s n _
@[simp] theorem putKilnCmd_clock (s : State) (n i : Nat) (q : KilnCmd) : (putKilnCmd s n i q).clock = s.clock := setKiln_clock s n _
@[simp] theorem putKilnCmd_part (s : State) (n i : Nat) (q : KilnCmd) : (putKilnCmd s n i q).part = s.part := setKiln_part s n _
@[simp] theorem putKilnCmd_plan (s : State) (n i : Nat) (q : KilnCmd) : (putKilnCmd s n i q).plan = s.plan := setKiln_plan s n _
@[simp] theorem putKilnCmd_boot (s : State) (n i : Nat) (q : KilnCmd) : (putKilnCmd s n i q).boot = s.boot := setKiln_boot s n _
@[simp] theorem putKilnCmd_mem (s : State) (n i : Nat) (q : KilnCmd) : (putKilnCmd s n i q).mem = s.mem := setKiln_mem s n _
@[simp] theorem putKilnCmd_badLines (s : State) (n i : Nat) (q : KilnCmd) : (putKilnCmd s n i q).badLines = s.badLines := setKiln_badLines s n _
@[simp] theorem putKilnCmd_softLines (s : State) (n i : Nat) (q : KilnCmd) : (putKilnCmd s n i q).softLines = s.softLines := setKiln_softLines s n _
@[simp] theorem putKilnCmd_units (s : State) (n i : Nat) (q : KilnCmd) : (putKilnCmd s n i q).units = s.units := setKiln_units s n _
@[simp] theorem putKilnCmd_cores (s : State) (n i : Nat) (q : KilnCmd) : (putKilnCmd s n i q).cores = s.cores := setKiln_cores s n _
@[simp] theorem putKilnCmd_turns (s : State) (n i : Nat) (q : KilnCmd) : (putKilnCmd s n i q).turns = s.turns := setKiln_turns s n _
@[simp] theorem putKilnCmd_chans (s : State) (n i : Nat) (q : KilnCmd) : (putKilnCmd s n i q).chans = s.chans := setKiln_chans s n _
@[simp] theorem putKilnCmd_relays (s : State) (n i : Nat) (q : KilnCmd) : (putKilnCmd s n i q).relays = s.relays := setKiln_relays s n _
@[simp] theorem putKilnCmd_herds (s : State) (n i : Nat) (q : KilnCmd) : (putKilnCmd s n i q).herds = s.herds := setKiln_herds s n _
@[simp] theorem putKilnCmd_herdMsgs (s : State) (n i : Nat) (q : KilnCmd) : (putKilnCmd s n i q).herdMsgs = s.herdMsgs := setKiln_herdMsgs s n _
@[simp] theorem putKilnCmd_tallies (s : State) (n i : Nat) (q : KilnCmd) : (putKilnCmd s n i q).tallies = s.tallies := setKiln_tallies s n _
@[simp] theorem putKilnCmd_folds (s : State) (n i : Nat) (q : KilnCmd) : (putKilnCmd s n i q).folds = s.folds := setKiln_folds s n _
@[simp] theorem putKilnCmd_srcs (s : State) (n i : Nat) (q : KilnCmd) : (putKilnCmd s n i q).srcs = s.srcs := setKiln_srcs s n _
@[simp] theorem putKilnCmd_localSigs (s : State) (n i : Nat) (q : KilnCmd) : (putKilnCmd s n i q).localSigs = s.localSigs := setKiln_localSigs s n _
@[simp] theorem putKilnCmd_ctxs (s : State) (n i : Nat) (q : KilnCmd) : (putKilnCmd s n i q).ctxs = s.ctxs := setKiln_ctxs s n _
@[simp] theorem putKilnCmd_cmdq (s : State) (n i : Nat) (q : KilnCmd) : (putKilnCmd s n i q).cmdq = s.cmdq := setKiln_cmdq s n _
@[simp] theorem putKilnCmd_switches (s : State) (n i : Nat) (q : KilnCmd) : (putKilnCmd s n i q).switches = s.switches := setKiln_switches s n _
@[simp] theorem putKilnCmd_releases (s : State) (n i : Nat) (q : KilnCmd) : (putKilnCmd s n i q).releases = s.releases := setKiln_releases s n _
@[simp] theorem putKilnCmd_seqs (s : State) (n i : Nat) (q : KilnCmd) : (putKilnCmd s n i q).seqs = s.seqs := setKiln_seqs s n _
@[simp] theorem putKilnCmd_mcq (s : State) (n i : Nat) (q : KilnCmd) : (putKilnCmd s n i q).mcq = s.mcq := setKiln_mcq s n _
@[simp] theorem putKilnCmd_fabric (s : State) (n i : Nat) (q : KilnCmd) : (putKilnCmd s n i q).fabric = s.fabric := setKiln_fabric s n _
@[simp] theorem putKilnCmd_secure (s : State) (n i : Nat) (q : KilnCmd) : (putKilnCmd s n i q).secure = s.secure := setKiln_secure s n _
@[simp] theorem putKilnCmd_gates (s : State) (n i : Nat) (q : KilnCmd) : (putKilnCmd s n i q).gates = s.gates := setKiln_gates s n _
@[simp] theorem putKilnCmd_service (s : State) (n i : Nat) (q : KilnCmd) : (putKilnCmd s n i q).service = s.service := setKiln_service s n _
@[simp] theorem putKilnCmd_life (s : State) (n i : Nat) (q : KilnCmd) : (putKilnCmd s n i q).life = s.life := setKiln_life s n _
@[simp] theorem putKilnCmd_power (s : State) (n i : Nat) (q : KilnCmd) : (putKilnCmd s n i q).power = s.power := setKiln_power s n _
@[simp] theorem putKilnCmd_host (s : State) (n i : Nat) (q : KilnCmd) : (putKilnCmd s n i q).host = s.host := setKiln_host s n _
@[simp] theorem putKilnCmd_free (s : State) (n i : Nat) (q : KilnCmd) : (putKilnCmd s n i q).free = s.free := setKiln_free s n _

/-! ### Fields that `dropKilnCmd` leaves -/

@[simp] theorem dropKilnCmd_pending (s : State) (n i : Nat) : (dropKilnCmd s n i).pending = s.pending := setKiln_pending s n _
@[simp] theorem dropKilnCmd_clock (s : State) (n i : Nat) : (dropKilnCmd s n i).clock = s.clock := setKiln_clock s n _
@[simp] theorem dropKilnCmd_part (s : State) (n i : Nat) : (dropKilnCmd s n i).part = s.part := setKiln_part s n _
@[simp] theorem dropKilnCmd_plan (s : State) (n i : Nat) : (dropKilnCmd s n i).plan = s.plan := setKiln_plan s n _
@[simp] theorem dropKilnCmd_boot (s : State) (n i : Nat) : (dropKilnCmd s n i).boot = s.boot := setKiln_boot s n _
@[simp] theorem dropKilnCmd_mem (s : State) (n i : Nat) : (dropKilnCmd s n i).mem = s.mem := setKiln_mem s n _
@[simp] theorem dropKilnCmd_badLines (s : State) (n i : Nat) : (dropKilnCmd s n i).badLines = s.badLines := setKiln_badLines s n _
@[simp] theorem dropKilnCmd_softLines (s : State) (n i : Nat) : (dropKilnCmd s n i).softLines = s.softLines := setKiln_softLines s n _
@[simp] theorem dropKilnCmd_units (s : State) (n i : Nat) : (dropKilnCmd s n i).units = s.units := setKiln_units s n _
@[simp] theorem dropKilnCmd_cores (s : State) (n i : Nat) : (dropKilnCmd s n i).cores = s.cores := setKiln_cores s n _
@[simp] theorem dropKilnCmd_turns (s : State) (n i : Nat) : (dropKilnCmd s n i).turns = s.turns := setKiln_turns s n _
@[simp] theorem dropKilnCmd_chans (s : State) (n i : Nat) : (dropKilnCmd s n i).chans = s.chans := setKiln_chans s n _
@[simp] theorem dropKilnCmd_relays (s : State) (n i : Nat) : (dropKilnCmd s n i).relays = s.relays := setKiln_relays s n _
@[simp] theorem dropKilnCmd_herds (s : State) (n i : Nat) : (dropKilnCmd s n i).herds = s.herds := setKiln_herds s n _
@[simp] theorem dropKilnCmd_herdMsgs (s : State) (n i : Nat) : (dropKilnCmd s n i).herdMsgs = s.herdMsgs := setKiln_herdMsgs s n _
@[simp] theorem dropKilnCmd_tallies (s : State) (n i : Nat) : (dropKilnCmd s n i).tallies = s.tallies := setKiln_tallies s n _
@[simp] theorem dropKilnCmd_folds (s : State) (n i : Nat) : (dropKilnCmd s n i).folds = s.folds := setKiln_folds s n _
@[simp] theorem dropKilnCmd_srcs (s : State) (n i : Nat) : (dropKilnCmd s n i).srcs = s.srcs := setKiln_srcs s n _
@[simp] theorem dropKilnCmd_localSigs (s : State) (n i : Nat) : (dropKilnCmd s n i).localSigs = s.localSigs := setKiln_localSigs s n _
@[simp] theorem dropKilnCmd_ctxs (s : State) (n i : Nat) : (dropKilnCmd s n i).ctxs = s.ctxs := setKiln_ctxs s n _
@[simp] theorem dropKilnCmd_cmdq (s : State) (n i : Nat) : (dropKilnCmd s n i).cmdq = s.cmdq := setKiln_cmdq s n _
@[simp] theorem dropKilnCmd_switches (s : State) (n i : Nat) : (dropKilnCmd s n i).switches = s.switches := setKiln_switches s n _
@[simp] theorem dropKilnCmd_releases (s : State) (n i : Nat) : (dropKilnCmd s n i).releases = s.releases := setKiln_releases s n _
@[simp] theorem dropKilnCmd_seqs (s : State) (n i : Nat) : (dropKilnCmd s n i).seqs = s.seqs := setKiln_seqs s n _
@[simp] theorem dropKilnCmd_mcq (s : State) (n i : Nat) : (dropKilnCmd s n i).mcq = s.mcq := setKiln_mcq s n _
@[simp] theorem dropKilnCmd_fabric (s : State) (n i : Nat) : (dropKilnCmd s n i).fabric = s.fabric := setKiln_fabric s n _
@[simp] theorem dropKilnCmd_secure (s : State) (n i : Nat) : (dropKilnCmd s n i).secure = s.secure := setKiln_secure s n _
@[simp] theorem dropKilnCmd_gates (s : State) (n i : Nat) : (dropKilnCmd s n i).gates = s.gates := setKiln_gates s n _
@[simp] theorem dropKilnCmd_service (s : State) (n i : Nat) : (dropKilnCmd s n i).service = s.service := setKiln_service s n _
@[simp] theorem dropKilnCmd_life (s : State) (n i : Nat) : (dropKilnCmd s n i).life = s.life := setKiln_life s n _
@[simp] theorem dropKilnCmd_power (s : State) (n i : Nat) : (dropKilnCmd s n i).power = s.power := setKiln_power s n _
@[simp] theorem dropKilnCmd_host (s : State) (n i : Nat) : (dropKilnCmd s n i).host = s.host := setKiln_host s n _
@[simp] theorem dropKilnCmd_free (s : State) (n i : Nat) : (dropKilnCmd s n i).free = s.free := setKiln_free s n _

/-! ### Fields that `setUnit` leaves -/

@[simp] theorem setUnit_pending (s : State) (u : Nat) (m : MemUnit) : (setUnit s u m).pending = s.pending := rfl
@[simp] theorem setUnit_clock (s : State) (u : Nat) (m : MemUnit) : (setUnit s u m).clock = s.clock := rfl
@[simp] theorem setUnit_part (s : State) (u : Nat) (m : MemUnit) : (setUnit s u m).part = s.part := rfl
@[simp] theorem setUnit_plan (s : State) (u : Nat) (m : MemUnit) : (setUnit s u m).plan = s.plan := rfl
@[simp] theorem setUnit_boot (s : State) (u : Nat) (m : MemUnit) : (setUnit s u m).boot = s.boot := rfl
@[simp] theorem setUnit_mem (s : State) (u : Nat) (m : MemUnit) : (setUnit s u m).mem = s.mem := rfl
@[simp] theorem setUnit_badLines (s : State) (u : Nat) (m : MemUnit) : (setUnit s u m).badLines = s.badLines := rfl
@[simp] theorem setUnit_softLines (s : State) (u : Nat) (m : MemUnit) : (setUnit s u m).softLines = s.softLines := rfl
@[simp] theorem setUnit_cores (s : State) (u : Nat) (m : MemUnit) : (setUnit s u m).cores = s.cores := rfl
@[simp] theorem setUnit_turns (s : State) (u : Nat) (m : MemUnit) : (setUnit s u m).turns = s.turns := rfl
@[simp] theorem setUnit_chans (s : State) (u : Nat) (m : MemUnit) : (setUnit s u m).chans = s.chans := rfl
@[simp] theorem setUnit_relays (s : State) (u : Nat) (m : MemUnit) : (setUnit s u m).relays = s.relays := rfl
@[simp] theorem setUnit_herds (s : State) (u : Nat) (m : MemUnit) : (setUnit s u m).herds = s.herds := rfl
@[simp] theorem setUnit_herdMsgs (s : State) (u : Nat) (m : MemUnit) : (setUnit s u m).herdMsgs = s.herdMsgs := rfl
@[simp] theorem setUnit_kilns (s : State) (u : Nat) (m : MemUnit) : (setUnit s u m).kilns = s.kilns := rfl
@[simp] theorem setUnit_tallies (s : State) (u : Nat) (m : MemUnit) : (setUnit s u m).tallies = s.tallies := rfl
@[simp] theorem setUnit_folds (s : State) (u : Nat) (m : MemUnit) : (setUnit s u m).folds = s.folds := rfl
@[simp] theorem setUnit_srcs (s : State) (u : Nat) (m : MemUnit) : (setUnit s u m).srcs = s.srcs := rfl
@[simp] theorem setUnit_localSigs (s : State) (u : Nat) (m : MemUnit) : (setUnit s u m).localSigs = s.localSigs := rfl
@[simp] theorem setUnit_ctxs (s : State) (u : Nat) (m : MemUnit) : (setUnit s u m).ctxs = s.ctxs := rfl
@[simp] theorem setUnit_cmdq (s : State) (u : Nat) (m : MemUnit) : (setUnit s u m).cmdq = s.cmdq := rfl
@[simp] theorem setUnit_switches (s : State) (u : Nat) (m : MemUnit) : (setUnit s u m).switches = s.switches := rfl
@[simp] theorem setUnit_releases (s : State) (u : Nat) (m : MemUnit) : (setUnit s u m).releases = s.releases := rfl
@[simp] theorem setUnit_seqs (s : State) (u : Nat) (m : MemUnit) : (setUnit s u m).seqs = s.seqs := rfl
@[simp] theorem setUnit_mcq (s : State) (u : Nat) (m : MemUnit) : (setUnit s u m).mcq = s.mcq := rfl
@[simp] theorem setUnit_fabric (s : State) (u : Nat) (m : MemUnit) : (setUnit s u m).fabric = s.fabric := rfl
@[simp] theorem setUnit_secure (s : State) (u : Nat) (m : MemUnit) : (setUnit s u m).secure = s.secure := rfl
@[simp] theorem setUnit_gates (s : State) (u : Nat) (m : MemUnit) : (setUnit s u m).gates = s.gates := rfl
@[simp] theorem setUnit_service (s : State) (u : Nat) (m : MemUnit) : (setUnit s u m).service = s.service := rfl
@[simp] theorem setUnit_life (s : State) (u : Nat) (m : MemUnit) : (setUnit s u m).life = s.life := rfl
@[simp] theorem setUnit_power (s : State) (u : Nat) (m : MemUnit) : (setUnit s u m).power = s.power := rfl
@[simp] theorem setUnit_host (s : State) (u : Nat) (m : MemUnit) : (setUnit s u m).host = s.host := rfl
@[simp] theorem setUnit_free (s : State) (u : Nat) (m : MemUnit) : (setUnit s u m).free = s.free := rfl

/-! ### Fields that `modUnit` leaves -/

@[simp] theorem modUnit_pending (s : State) (u : Nat) (f : MemUnit → MemUnit) : (modUnit s u f).pending = s.pending := setUnit_pending s u _
@[simp] theorem modUnit_clock (s : State) (u : Nat) (f : MemUnit → MemUnit) : (modUnit s u f).clock = s.clock := setUnit_clock s u _
@[simp] theorem modUnit_part (s : State) (u : Nat) (f : MemUnit → MemUnit) : (modUnit s u f).part = s.part := setUnit_part s u _
@[simp] theorem modUnit_plan (s : State) (u : Nat) (f : MemUnit → MemUnit) : (modUnit s u f).plan = s.plan := setUnit_plan s u _
@[simp] theorem modUnit_boot (s : State) (u : Nat) (f : MemUnit → MemUnit) : (modUnit s u f).boot = s.boot := setUnit_boot s u _
@[simp] theorem modUnit_mem (s : State) (u : Nat) (f : MemUnit → MemUnit) : (modUnit s u f).mem = s.mem := setUnit_mem s u _
@[simp] theorem modUnit_badLines (s : State) (u : Nat) (f : MemUnit → MemUnit) : (modUnit s u f).badLines = s.badLines := setUnit_badLines s u _
@[simp] theorem modUnit_softLines (s : State) (u : Nat) (f : MemUnit → MemUnit) : (modUnit s u f).softLines = s.softLines := setUnit_softLines s u _
@[simp] theorem modUnit_cores (s : State) (u : Nat) (f : MemUnit → MemUnit) : (modUnit s u f).cores = s.cores := setUnit_cores s u _
@[simp] theorem modUnit_turns (s : State) (u : Nat) (f : MemUnit → MemUnit) : (modUnit s u f).turns = s.turns := setUnit_turns s u _
@[simp] theorem modUnit_chans (s : State) (u : Nat) (f : MemUnit → MemUnit) : (modUnit s u f).chans = s.chans := setUnit_chans s u _
@[simp] theorem modUnit_relays (s : State) (u : Nat) (f : MemUnit → MemUnit) : (modUnit s u f).relays = s.relays := setUnit_relays s u _
@[simp] theorem modUnit_herds (s : State) (u : Nat) (f : MemUnit → MemUnit) : (modUnit s u f).herds = s.herds := setUnit_herds s u _
@[simp] theorem modUnit_herdMsgs (s : State) (u : Nat) (f : MemUnit → MemUnit) : (modUnit s u f).herdMsgs = s.herdMsgs := setUnit_herdMsgs s u _
@[simp] theorem modUnit_kilns (s : State) (u : Nat) (f : MemUnit → MemUnit) : (modUnit s u f).kilns = s.kilns := setUnit_kilns s u _
@[simp] theorem modUnit_tallies (s : State) (u : Nat) (f : MemUnit → MemUnit) : (modUnit s u f).tallies = s.tallies := setUnit_tallies s u _
@[simp] theorem modUnit_folds (s : State) (u : Nat) (f : MemUnit → MemUnit) : (modUnit s u f).folds = s.folds := setUnit_folds s u _
@[simp] theorem modUnit_srcs (s : State) (u : Nat) (f : MemUnit → MemUnit) : (modUnit s u f).srcs = s.srcs := setUnit_srcs s u _
@[simp] theorem modUnit_localSigs (s : State) (u : Nat) (f : MemUnit → MemUnit) : (modUnit s u f).localSigs = s.localSigs := setUnit_localSigs s u _
@[simp] theorem modUnit_ctxs (s : State) (u : Nat) (f : MemUnit → MemUnit) : (modUnit s u f).ctxs = s.ctxs := setUnit_ctxs s u _
@[simp] theorem modUnit_cmdq (s : State) (u : Nat) (f : MemUnit → MemUnit) : (modUnit s u f).cmdq = s.cmdq := setUnit_cmdq s u _
@[simp] theorem modUnit_switches (s : State) (u : Nat) (f : MemUnit → MemUnit) : (modUnit s u f).switches = s.switches := setUnit_switches s u _
@[simp] theorem modUnit_releases (s : State) (u : Nat) (f : MemUnit → MemUnit) : (modUnit s u f).releases = s.releases := setUnit_releases s u _
@[simp] theorem modUnit_seqs (s : State) (u : Nat) (f : MemUnit → MemUnit) : (modUnit s u f).seqs = s.seqs := setUnit_seqs s u _
@[simp] theorem modUnit_mcq (s : State) (u : Nat) (f : MemUnit → MemUnit) : (modUnit s u f).mcq = s.mcq := setUnit_mcq s u _
@[simp] theorem modUnit_fabric (s : State) (u : Nat) (f : MemUnit → MemUnit) : (modUnit s u f).fabric = s.fabric := setUnit_fabric s u _
@[simp] theorem modUnit_secure (s : State) (u : Nat) (f : MemUnit → MemUnit) : (modUnit s u f).secure = s.secure := setUnit_secure s u _
@[simp] theorem modUnit_gates (s : State) (u : Nat) (f : MemUnit → MemUnit) : (modUnit s u f).gates = s.gates := setUnit_gates s u _
@[simp] theorem modUnit_service (s : State) (u : Nat) (f : MemUnit → MemUnit) : (modUnit s u f).service = s.service := setUnit_service s u _
@[simp] theorem modUnit_life (s : State) (u : Nat) (f : MemUnit → MemUnit) : (modUnit s u f).life = s.life := setUnit_life s u _
@[simp] theorem modUnit_power (s : State) (u : Nat) (f : MemUnit → MemUnit) : (modUnit s u f).power = s.power := setUnit_power s u _
@[simp] theorem modUnit_host (s : State) (u : Nat) (f : MemUnit → MemUnit) : (modUnit s u f).host = s.host := setUnit_host s u _
@[simp] theorem modUnit_free (s : State) (u : Nat) (f : MemUnit → MemUnit) : (modUnit s u f).free = s.free := setUnit_free s u _

/-! ### Fields that `setPort` leaves -/

@[simp] theorem setPort_pending (s : State) (p : Nat) (q : Port) : (setPort s p q).pending = s.pending := rfl
@[simp] theorem setPort_clock (s : State) (p : Nat) (q : Port) : (setPort s p q).clock = s.clock := rfl
@[simp] theorem setPort_part (s : State) (p : Nat) (q : Port) : (setPort s p q).part = s.part := rfl
@[simp] theorem setPort_plan (s : State) (p : Nat) (q : Port) : (setPort s p q).plan = s.plan := rfl
@[simp] theorem setPort_boot (s : State) (p : Nat) (q : Port) : (setPort s p q).boot = s.boot := rfl
@[simp] theorem setPort_mem (s : State) (p : Nat) (q : Port) : (setPort s p q).mem = s.mem := rfl
@[simp] theorem setPort_badLines (s : State) (p : Nat) (q : Port) : (setPort s p q).badLines = s.badLines := rfl
@[simp] theorem setPort_softLines (s : State) (p : Nat) (q : Port) : (setPort s p q).softLines = s.softLines := rfl
@[simp] theorem setPort_units (s : State) (p : Nat) (q : Port) : (setPort s p q).units = s.units := rfl
@[simp] theorem setPort_cores (s : State) (p : Nat) (q : Port) : (setPort s p q).cores = s.cores := rfl
@[simp] theorem setPort_turns (s : State) (p : Nat) (q : Port) : (setPort s p q).turns = s.turns := rfl
@[simp] theorem setPort_chans (s : State) (p : Nat) (q : Port) : (setPort s p q).chans = s.chans := rfl
@[simp] theorem setPort_relays (s : State) (p : Nat) (q : Port) : (setPort s p q).relays = s.relays := rfl
@[simp] theorem setPort_herds (s : State) (p : Nat) (q : Port) : (setPort s p q).herds = s.herds := rfl
@[simp] theorem setPort_herdMsgs (s : State) (p : Nat) (q : Port) : (setPort s p q).herdMsgs = s.herdMsgs := rfl
@[simp] theorem setPort_kilns (s : State) (p : Nat) (q : Port) : (setPort s p q).kilns = s.kilns := rfl
@[simp] theorem setPort_tallies (s : State) (p : Nat) (q : Port) : (setPort s p q).tallies = s.tallies := rfl
@[simp] theorem setPort_folds (s : State) (p : Nat) (q : Port) : (setPort s p q).folds = s.folds := rfl
@[simp] theorem setPort_srcs (s : State) (p : Nat) (q : Port) : (setPort s p q).srcs = s.srcs := rfl
@[simp] theorem setPort_localSigs (s : State) (p : Nat) (q : Port) : (setPort s p q).localSigs = s.localSigs := rfl
@[simp] theorem setPort_ctxs (s : State) (p : Nat) (q : Port) : (setPort s p q).ctxs = s.ctxs := rfl
@[simp] theorem setPort_cmdq (s : State) (p : Nat) (q : Port) : (setPort s p q).cmdq = s.cmdq := rfl
@[simp] theorem setPort_switches (s : State) (p : Nat) (q : Port) : (setPort s p q).switches = s.switches := rfl
@[simp] theorem setPort_releases (s : State) (p : Nat) (q : Port) : (setPort s p q).releases = s.releases := rfl
@[simp] theorem setPort_seqs (s : State) (p : Nat) (q : Port) : (setPort s p q).seqs = s.seqs := rfl
@[simp] theorem setPort_mcq (s : State) (p : Nat) (q : Port) : (setPort s p q).mcq = s.mcq := rfl
@[simp] theorem setPort_secure (s : State) (p : Nat) (q : Port) : (setPort s p q).secure = s.secure := rfl
@[simp] theorem setPort_gates (s : State) (p : Nat) (q : Port) : (setPort s p q).gates = s.gates := rfl
@[simp] theorem setPort_service (s : State) (p : Nat) (q : Port) : (setPort s p q).service = s.service := rfl
@[simp] theorem setPort_life (s : State) (p : Nat) (q : Port) : (setPort s p q).life = s.life := rfl
@[simp] theorem setPort_power (s : State) (p : Nat) (q : Port) : (setPort s p q).power = s.power := rfl
@[simp] theorem setPort_host (s : State) (p : Nat) (q : Port) : (setPort s p q).host = s.host := rfl
@[simp] theorem setPort_free (s : State) (p : Nat) (q : Port) : (setPort s p q).free = s.free := rfl

/-! ### Fields that `modPort` leaves -/

@[simp] theorem modPort_pending (s : State) (p : Nat) (f : Port → Port) : (modPort s p f).pending = s.pending := setPort_pending s p _
@[simp] theorem modPort_clock (s : State) (p : Nat) (f : Port → Port) : (modPort s p f).clock = s.clock := setPort_clock s p _
@[simp] theorem modPort_part (s : State) (p : Nat) (f : Port → Port) : (modPort s p f).part = s.part := setPort_part s p _
@[simp] theorem modPort_plan (s : State) (p : Nat) (f : Port → Port) : (modPort s p f).plan = s.plan := setPort_plan s p _
@[simp] theorem modPort_boot (s : State) (p : Nat) (f : Port → Port) : (modPort s p f).boot = s.boot := setPort_boot s p _
@[simp] theorem modPort_mem (s : State) (p : Nat) (f : Port → Port) : (modPort s p f).mem = s.mem := setPort_mem s p _
@[simp] theorem modPort_badLines (s : State) (p : Nat) (f : Port → Port) : (modPort s p f).badLines = s.badLines := setPort_badLines s p _
@[simp] theorem modPort_softLines (s : State) (p : Nat) (f : Port → Port) : (modPort s p f).softLines = s.softLines := setPort_softLines s p _
@[simp] theorem modPort_units (s : State) (p : Nat) (f : Port → Port) : (modPort s p f).units = s.units := setPort_units s p _
@[simp] theorem modPort_cores (s : State) (p : Nat) (f : Port → Port) : (modPort s p f).cores = s.cores := setPort_cores s p _
@[simp] theorem modPort_turns (s : State) (p : Nat) (f : Port → Port) : (modPort s p f).turns = s.turns := setPort_turns s p _
@[simp] theorem modPort_chans (s : State) (p : Nat) (f : Port → Port) : (modPort s p f).chans = s.chans := setPort_chans s p _
@[simp] theorem modPort_relays (s : State) (p : Nat) (f : Port → Port) : (modPort s p f).relays = s.relays := setPort_relays s p _
@[simp] theorem modPort_herds (s : State) (p : Nat) (f : Port → Port) : (modPort s p f).herds = s.herds := setPort_herds s p _
@[simp] theorem modPort_herdMsgs (s : State) (p : Nat) (f : Port → Port) : (modPort s p f).herdMsgs = s.herdMsgs := setPort_herdMsgs s p _
@[simp] theorem modPort_kilns (s : State) (p : Nat) (f : Port → Port) : (modPort s p f).kilns = s.kilns := setPort_kilns s p _
@[simp] theorem modPort_tallies (s : State) (p : Nat) (f : Port → Port) : (modPort s p f).tallies = s.tallies := setPort_tallies s p _
@[simp] theorem modPort_folds (s : State) (p : Nat) (f : Port → Port) : (modPort s p f).folds = s.folds := setPort_folds s p _
@[simp] theorem modPort_srcs (s : State) (p : Nat) (f : Port → Port) : (modPort s p f).srcs = s.srcs := setPort_srcs s p _
@[simp] theorem modPort_localSigs (s : State) (p : Nat) (f : Port → Port) : (modPort s p f).localSigs = s.localSigs := setPort_localSigs s p _
@[simp] theorem modPort_ctxs (s : State) (p : Nat) (f : Port → Port) : (modPort s p f).ctxs = s.ctxs := setPort_ctxs s p _
@[simp] theorem modPort_cmdq (s : State) (p : Nat) (f : Port → Port) : (modPort s p f).cmdq = s.cmdq := setPort_cmdq s p _
@[simp] theorem modPort_switches (s : State) (p : Nat) (f : Port → Port) : (modPort s p f).switches = s.switches := setPort_switches s p _
@[simp] theorem modPort_releases (s : State) (p : Nat) (f : Port → Port) : (modPort s p f).releases = s.releases := setPort_releases s p _
@[simp] theorem modPort_seqs (s : State) (p : Nat) (f : Port → Port) : (modPort s p f).seqs = s.seqs := setPort_seqs s p _
@[simp] theorem modPort_mcq (s : State) (p : Nat) (f : Port → Port) : (modPort s p f).mcq = s.mcq := setPort_mcq s p _
@[simp] theorem modPort_secure (s : State) (p : Nat) (f : Port → Port) : (modPort s p f).secure = s.secure := setPort_secure s p _
@[simp] theorem modPort_gates (s : State) (p : Nat) (f : Port → Port) : (modPort s p f).gates = s.gates := setPort_gates s p _
@[simp] theorem modPort_service (s : State) (p : Nat) (f : Port → Port) : (modPort s p f).service = s.service := setPort_service s p _
@[simp] theorem modPort_life (s : State) (p : Nat) (f : Port → Port) : (modPort s p f).life = s.life := setPort_life s p _
@[simp] theorem modPort_power (s : State) (p : Nat) (f : Port → Port) : (modPort s p f).power = s.power := setPort_power s p _
@[simp] theorem modPort_host (s : State) (p : Nat) (f : Port → Port) : (modPort s p f).host = s.host := setPort_host s p _
@[simp] theorem modPort_free (s : State) (p : Nat) (f : Port → Port) : (modPort s p f).free = s.free := setPort_free s p _

/-! ### Values read back -/

@[simp] theorem unitOf_setUnit (s : State) (u : Nat) (m : MemUnit) : unitOf (setUnit s u m) u = m := mget_mset_same _ _ _ _
@[simp] theorem unitOf_modUnit (s : State) (u : Nat) (f : MemUnit → MemUnit) : unitOf (modUnit s u f) u = f (unitOf s u) := mget_mset_same _ _ _ _
@[simp] theorem portOf_setPort (s : State) (p : Nat) (q : Port) : portOf (setPort s p q) p = q := mget_mset_same _ _ _ _
@[simp] theorem portOf_modPort (s : State) (p : Nat) (f : Port → Port) : portOf (modPort s p f) p = f (portOf s p) := mget_mset_same _ _ _ _
@[simp] theorem chanOf_setChan (s : State) (g : Nat) (h : Chan) : chanOf (setChan s g h) g = h := mget_mset_same _ _ _ _
@[simp] theorem herdOf_setHerd (s : State) (k : Nat) (h : Herd) : herdOf (setHerd s k h) k = h := mget_mset_same _ _ _ _
@[simp] theorem relayOf_setRelay (s : State) (k : Nat) (r : Relay) : relayOf (setRelay s k r) k = r := mget_mset_same _ _ _ _
@[simp] theorem turnsOf_setTurns (s : State) (k : Nat) (l : List TurnCmd) : turnsOf (setTurns s k l) k = l := mget_mset_same _ _ _ _
@[simp] theorem foldOf_setFold (s : State) (k f : Nat) (v : Fold) : foldOf (setFold s k f v) k f = v := mget_mset_same _ _ _ _
@[simp] theorem gateOf_setGate (s : State) (x : Nat) (g : Option Gate) : gateOf (setGate s x g) x = g := mget_mset_same _ _ _ _
@[simp] theorem cw_setCw (s : State) (x o : Nat) (v : W64) : cw (setCw s x o v) x o = v := mget_mset_same _ _ _ _
theorem unitOf_setUnit_other (s : State) (u v : Nat) (m : MemUnit) (h : v ≠ u) : unitOf (setUnit s u m) v = unitOf s v := mget_mset_other _ _ _ _ _ h
theorem portOf_setPort_other (s : State) (p v : Nat) (q : Port) (h : v ≠ p) : portOf (setPort s p q) v = portOf s v := mget_mset_other _ _ _ _ _ h
theorem chanOf_setChan_other (s : State) (g v : Nat) (c : Chan) (h : v ≠ g) : chanOf (setChan s g c) v = chanOf s v := mget_mset_other _ _ _ _ _ h
theorem herdOf_setHerd_other (s : State) (k v : Nat) (q : Herd) (h : v ≠ k) : herdOf (setHerd s k q) v = herdOf s v := mget_mset_other _ _ _ _ _ h
theorem relayOf_setRelay_other (s : State) (k v : Nat) (r : Relay) (h : v ≠ k) : relayOf (setRelay s k r) v = relayOf s v := mget_mset_other _ _ _ _ _ h
theorem turnsOf_setTurns_other (s : State) (k v : Nat) (l : List TurnCmd) (h : v ≠ k) : turnsOf (setTurns s k l) v = turnsOf s v := mget_mset_other _ _ _ _ _ h
theorem gateOf_setGate_other (s : State) (x v : Nat) (g : Option Gate) (h : v ≠ x) : gateOf (setGate s x g) v = gateOf s v := mget_mset_other _ _ _ _ _ h

/-- A word of one context descriptor changes no word of another, and no other word of its own. -/
theorem cw_setCw_other (s : State) (x y o p : Nat) (v : W64) (ho : o < 256) (hp : p < 256) (h : y ≠ x ∨ p / 8 ≠ o / 8) :
    cw (setCw s x o v) y p = cw s y p := mget_mset_other _ _ _ _ _ (by omega)

/-- A tally that does not pass its range is advanced. -/
theorem tallyAt_advance (s : State) (p n : Nat) (h : tallyAt s p + n < 2 ^ 48) : tallyAt (advance s p n) p = tallyAt s p + n := by
  unfold advance overflows
  rw [if_neg (by simp; omega)]
  simp only [tallyAt, mget_mset_same, BitVec.toNat_ofNat]
  exact Nat.mod_eq_of_lt h

theorem tallyAt_advance_other (s : State) (p q n : Nat) (h : q ≠ p) : tallyAt (advance s p n) q = tallyAt s q := by
  unfold advance
  split
  · rfl
  · simp only [tallyAt, mget_mset_other _ _ _ _ _ h]

/-- An advance changes tallies only. -/
theorem advance_rest (s : State) (p n : Nat) : advance s p n = { s with tallies := (advance s p n).tallies } := by
  unfold advance; split <;> rfl

end Sys2Proof.Machine
end

