-- ==== Sys2Proof/Laws/Issue.lean ====
section
/-! SUPPORT. What the issue of a bundle can do, said once: a slot that is ready runs its effect and its engine advances. -/

namespace Sys2Proof.Machine

open Sys2Proof

/-- A slot that is ready issues its bundle in the state that is due by then. -/
theorem offer_ready {s : State} {st : Staged} (h : Ready s st) :
    offer s st = completeBundle (atIssue s st) st.slot.core.val st.slot.eng (issueNow s st) 0 [st] := by
  obtain ⟨⟨h0, h1, h2, h3, h4, h5, h6⟩, h7, h8⟩ := h
  unfold faultsAt at h7
  have e1 : (modEng s st.slot.core.val st.slot.eng fun g => { g with staged := [] }) = opened s st := rfl
  have e2 : bringDue (opened s st) st.slot.core.val st.slot.eng (issueNow s st) = atIssue s st := rfl
  have e3 : engTime (opened s st) (coreOf (opened s st) st.slot.core.val) st.slot.eng = issueNow s st := rfl
  have e4 : (if scheduled (coreOf (atIssue s st) st.slot.core.val) st.slot.eng = true then none
      else interlockWait (atIssue s st) st.slot.core.val st.slot.eng (issueNow s st) [st]) = none := by
    rcases h6 with h | h
    · simp [h]
    · simp [h]
  unfold offer issueBundle
  have e5 : servedOf none = 0 := rfl
  simp only [h0, h1, h2, h3, e5, e1, h4, e3, e2, h5, Bool.not_true, if_false, Bool.false_eq_true, List.nil_append, e4, h7, h8]

/-- The issue of a bundle of one slot that is no `stop`: the ports are claimed, the slot takes effect, the engine advances. -/
theorem completeBundle_one {s : State} {st : Staged} (hs : st.effect ≠ .stop) :
    ∃ a, Claimed s a st ∧ completeBundle (atIssue s st) st.slot.core.val st.slot.eng (issueNow s st) 0 [st]
      = finished st (issueNow s st) (runSlotEffect a st.slot.core.val st.slot.eng (issueNow s st) st) := by
  let ps := portRound 0 (bundlePorts (atIssue s st) st.slot.core.val st.slot.eng (issueNow s st) [st])
  let k := claim (coreOf (atIssue s st) st.slot.core.val) (atIssue s st).clock.cycle (.engine st.slot.eng) ps
  refine ⟨modCore (atIssue s st) st.slot.core.val fun q => claim q (atIssue s st).clock.cycle (.engine st.slot.eng) ps,
    ⟨k.ports, k.refused, rfl⟩, ?_⟩
  unfold completeBundle finished
  simp only [List.any_cons, List.any_nil, Bool.or_false, decide_eq_true_eq, hs, if_false, runSlots]
  rfl

/-- A command whose meaning offers a slot that is no `stop` goes through what the slot does. -/
theorem through_of {s : State} {i : Instr} {st : Staged} {g : State → State} (he : exec i s = .next (offer s st))
    (hs : st.effect ≠ .stop) (hg : ∀ a, runSlotEffect a st.slot.core.val st.slot.eng (issueNow s st) st = g a) : Through s i st g := by
  intro h
  obtain ⟨a, ha, hb⟩ := completeBundle_one (s := s) hs
  refine ⟨a, ha, ?_⟩
  rw [he, offer_ready h, hb, hg]

/-- A change of a core that leaves its bank ports and the refusals there out of account. -/
def PortFree (f : Core → Core) : Prop :=
  ∀ k ports refused, ∃ ports' refused', f { k with ports := ports, refused := refused } = { f k with ports := ports', refused := refused' }

theorem portFree_id : PortFree id := fun _ p h => ⟨p, h, rfl⟩

/-- A command whose slot changes its own core by `f` and sends `w` computes that. -/
theorem computes_of {s : State} {i : Instr} {st : Staged} {f : Core → Core} {w : Option RegWrite} (he : exec i s = .next (offer s st))
    (hs : st.effect ≠ .stop) (hf : PortFree f)
    (hr : ∀ a, Claimed s a st → ∃ b, runEffect a st.slot.core.val st.slot.eng (issueNow s st) st = (b, w)
      ∧ b = { a with cores := b.cores } ∧ coreOf b st.slot.core.val = f (coreOf a st.slot.core.val)
      ∧ ∀ c', c' ≠ st.slot.core.val → coreOf b c' = coreOf a c') :
    Computes s i st f w := by
  intro h
  obtain ⟨a, ha, hb⟩ := completeBundle_one (s := s) hs
  obtain ⟨d, hd, hd1, hd2, hd3⟩ := hr a ha
  refine ⟨_, by rw [he, offer_ready h, hb], ?_⟩
  obtain ⟨p, ho, hp⟩ := ha
  obtain ⟨p', ho', hq⟩ := hf (coreOf (atIssue s st) st.slot.core.val) p ho
  have hk : coreOf d st.slot.core.val = { f (coreOf (atIssue s st) st.slot.core.val) with ports := p', refused := ho' } := by
    rw [hd2, hp, coreOf_modCore, hq]
  have ho1 : d = { atIssue s st with cores := d.cores } := by
    rw [hd1, hp]; rfl
  have hoth : ∀ c', c' ≠ st.slot.core.val → coreOf d c' = coreOf (atIssue s st) c' := by
    intro c' hc
    rw [hd3 c' hc, hp, coreOf_modCore_other _ _ _ _ hc]
  -- the result goes on its way
  have hrun : ∃ b, runSlotEffect a st.slot.core.val st.slot.eng (issueNow s st) st = b
      ∧ b = { atIssue s st with cores := b.cores }
      ∧ (∀ c', c' ≠ st.slot.core.val → coreOf b c' = coreOf (atIssue s st) c')
      ∧ coreOf b st.slot.core.val = setEng { f (coreOf (atIssue s st) st.slot.core.val) with ports := p', refused := ho' } st.slot.eng
          (withResult (engOf (f (coreOf (atIssue s st) st.slot.core.val)) st.slot.eng) (issueNow s st) st.lat w) := by
    have hself : ∀ k : Core, setEng k st.slot.eng (engOf k st.slot.eng) = k := by intro k; cases st.slot.eng <;> rfl
    have heng : engOf { f (coreOf (atIssue s st) st.slot.core.val) with ports := p', refused := ho' } st.slot.eng
        = engOf (f (coreOf (atIssue s st) st.slot.core.val)) st.slot.eng := by cases st.slot.eng <;> rfl
    refine ⟨_, rfl, ?_⟩
    unfold runSlotEffect
    rw [hd]
    cases w with
    | none =>
      refine ⟨ho1, hoth, ?_⟩
      simp only [hk, withResult]
      rw [← heng, hself]
    | some w =>
      simp only [addPend, withResult]
      cases hw : writeName w with
      | none =>
        refine ⟨ho1, hoth, ?_⟩
        simp only [hk]
        rw [← heng, hself]
      | some r =>
        refine ⟨?_, ?_, ?_⟩
        · simp only [modEng]; rw [modCore_rest, ho1]
        · intro c' hc
          simp only []
          rw [coreOf_modEng_other _ _ _ _ _ hc, hoth c' hc]
        · simp only []
          rw [coreOf_modEng, hk, heng]
  obtain ⟨b, hb1, hb2, hb3, hb4⟩ := hrun
  rw [hb1]
  -- rows and the engine's advance
  unfold finished
  have hrows : ∃ q ps, q = (if st.slot.eng = .compute then readRows b st.slot.core.val (issueNow s st) else b)
      ∧ q = { atIssue s st with cores := q.cores }
      ∧ (∀ c', c' ≠ st.slot.core.val → coreOf q c' = coreOf (atIssue s st) c')
      ∧ coreOf q st.slot.core.val = { coreOf b st.slot.core.val with passes := ps } := by
    by_cases hc : st.slot.eng = .compute
    · refine ⟨readRows b st.slot.core.val (issueNow s st), (coreOf (readRows b st.slot.core.val (issueNow s st)) st.slot.core.val).passes,
        by simp [hc], ?_, ?_, ?_⟩
      · unfold readRows; rw [modCore_rest, hb2]
      · intro c' hcc; unfold readRows; rw [coreOf_modCore_other _ _ _ _ hcc, hb3 c' hcc]
      · unfold readRows; simp only [coreOf_modCore]
    · exact ⟨b, (coreOf b st.slot.core.val).passes, by simp [hc], hb2, hb3, rfl⟩
  obtain ⟨q, ps, hq0, hq1, hq2, hq3⟩ := hrows
  rw [← hq0]
  refine ⟨⟨?_, ?_⟩, p', ho', ps, ?_⟩
  · unfold modEng; rw [modCore_rest, hq1]
  · intro c' hc; rw [coreOf_modEng_other _ _ _ _ _ hc, hq2 c' hc]
  · simp only []
    rw [coreOf_modEng, hq3, hb4]
    cases st.slot.eng <;> rfl

/-- A command whose slot only sends `w` computes that. -/
theorem computes_write {s : State} {i : Instr} {st : Staged} {w : Option RegWrite} (he : exec i s = .next (offer s st)) (hs : st.effect ≠ .stop)
    (hr : ∀ a, Claimed s a st → runEffect a st.slot.core.val st.slot.eng (issueNow s st) st = (a, w)) : Computes s i st id w :=
  computes_of he hs portFree_id fun a ha => ⟨a, hr a ha, rfl, rfl, fun _ _ => rfl⟩

end Sys2Proof.Machine
end

