-- ==== Sys2Proof/Laws/Memory.lean ====
section
/-! SUPPORT. The canonical form of the local memory: every operation over memory keeps it, and what each reads back. -/

namespace Sys2Proof.Machine

open Sys2Proof

/-! ### The canonical form of a sparse map -/

section Form

variable {α : Type} [DecidableEq α] {d : α}

/-- A bound below which no key lies may be lowered. -/
theorem mwfFrom_lower {lo lo' : Option Nat} {m : AMap α} (h : mwfFrom d lo m = true) (hl : ∀ a, lo' = some a → ∃ b, lo = some b ∧ a ≤ b) :
    mwfFrom d lo' m = true := by
  cases m with
  | nil => rfl
  | cons p t =>
    obtain ⟨k, v⟩ := p
    simp only [mwfFrom, Bool.and_eq_true] at h ⊢
    refine ⟨⟨?_, h.1.2⟩, h.2⟩
    cases lo' with
    | none => rfl
    | some a =>
      obtain ⟨b, hb, hab⟩ := hl a rfl
      subst hb
      have := h.1.1
      simp only [decide_eq_true_eq] at this ⊢
      omega

/-- Taking out a key keeps the form. -/
theorem mwfFrom_mdel {k : Nat} {m : AMap α} : ∀ {lo : Option Nat}, mwfFrom d lo m = true → mwfFrom d lo (mdel k m) = true := by
  induction m with
  | nil => intro lo h; exact h
  | cons p t ih =>
    obtain ⟨j, w⟩ := p
    intro lo h
    simp only [mwfFrom, Bool.and_eq_true] at h
    unfold mdel
    split
    · refine ih (mwfFrom_lower h.2 ?_)
      intro a ha
      subst ha
      have := h.1.1
      simp only [decide_eq_true_eq] at this
      exact ⟨j, rfl, by omega⟩
    · simp only [mwfFrom, Bool.and_eq_true]
      exact ⟨h.1, ih h.2⟩

/-- Putting in a value that is not the default keeps the form. -/
theorem mwfFrom_mput {k : Nat} {v : α} (hv : v ≠ d) {m : AMap α} : ∀ {lo : Option Nat}, (∀ a, lo = some a → a < k) → mwfFrom d lo m = true →
    mwfFrom d lo (mput k v m) = true := by
  induction m with
  | nil =>
    intro lo hk _
    cases lo with
    | none => simp [mput, mwfFrom, hv]
    | some a => simp [mput, mwfFrom, hv, hk a rfl]
  | cons p t ih =>
    obtain ⟨j, w⟩ := p
    intro lo hk h
    simp only [mwfFrom, Bool.and_eq_true] at h
    unfold mput
    split
    · next hkj =>
      simp only [mwfFrom, Bool.and_eq_true]
      refine ⟨⟨?_, by simp [hv]⟩, ⟨by simp [hkj], h.1.2⟩, h.2⟩
      cases lo with
      | none => rfl
      | some a => simp [hk a rfl]
    · split
      · next hkj =>
        subst hkj
        simp only [mwfFrom, Bool.and_eq_true]
        exact ⟨⟨h.1.1, by simp [hv]⟩, h.2⟩
      · next h1 h2 =>
        simp only [mwfFrom, Bool.and_eq_true]
        refine ⟨h.1, ih ?_ h.2⟩
        intro a ha
        cases ha
        omega

/-- A write keeps the form. -/
theorem mwf_mset {k : Nat} {v : α} {m : AMap α} (h : mwf d m = true) : mwf d (mset d m k v) = true := by
  unfold mset
  split
  · exact mwfFrom_mdel h
  · next hv => exact mwfFrom_mput hv (fun _ ha => by cases ha) h

/-- Keeping some of the entries keeps the form. -/
theorem mwfFrom_filter {f : Nat × α → Bool} {m : AMap α} : ∀ {lo : Option Nat}, mwfFrom d lo m = true → mwfFrom d lo (m.filter f) = true := by
  induction m with
  | nil => intro lo h; exact h
  | cons p t ih =>
    obtain ⟨j, w⟩ := p
    intro lo h
    simp only [mwfFrom, Bool.and_eq_true] at h
    rw [List.filter_cons]
    split
    · simp only [mwfFrom, Bool.and_eq_true]
      exact ⟨h.1, ih h.2⟩
    · refine ih (mwfFrom_lower h.2 ?_)
      intro a ha
      subst ha
      have := h.1.1
      simp only [decide_eq_true_eq] at this
      exact ⟨j, rfl, by omega⟩

end Form

/-- A key that a filter by keys keeps reads as before, another as the default. -/
theorem mget_filter {α : Type} {d : α} {f : Nat → Bool} {m : AMap α} {k : Nat} : mget d (m.filter fun p => f p.1) k = if f k = true then mget d m k else d := by
  induction m with
  | nil => simp [mget]
  | cons p t ih =>
    obtain ⟨j, w⟩ := p
    rw [List.filter_cons]
    by_cases hj : j = k
    · subst hj
      by_cases hf : f j = true
      · simp [hf, mget]
      · simp only [hf, if_false, Bool.false_eq_true] at ih ⊢
        exact ih
    · by_cases hf : f j = true
      · simp only [hf, if_true, mget, hj, if_false, ih]
      · simp only [hf, if_false, Bool.false_eq_true, mget, hj, ih]

/-! ### The local memory -/

theorem wf_storeCells {bs : List Byte} : ∀ {m : List Host.Cell} {a : Nat}, Memory.wf m = true → Memory.wf (storeCells m a bs) = true := by
  induction bs with
  | nil => intro m a h; exact h
  | cons b t ih => intro m a h; exact ih (mwf_mset h)

/-- A store keeps the canonical form. -/
theorem wf_writeMem {s : State} {a : Nat} {bs : List Byte} (h : Memory.wf s.mem = true) : Memory.wf (writeMem s a bs).mem = true := wf_storeCells h

theorem wf_filter {f : Host.Cell → Bool} {m : List Host.Cell} (h : Memory.wf m = true) : Memory.wf (m.filter f) = true := mwfFrom_filter h

/-- The scrub of a scratchpad keeps it. -/
theorem wf_zeroSpad {s : State} {c : Nat} (h : Memory.wf s.mem = true) : Memory.wf (zeroSpad s c).mem = true := wf_filter h
/-- So does the test of a stack or pair. -/
theorem wf_zeroUnit {s : State} {kind u : Nat} (h : Memory.wf s.mem = true) : Memory.wf (zeroUnit s kind u).mem = true := wf_filter h
/-- So does a destruction. -/
theorem wf_zeroMemory {s : State} (h : Memory.wf s.mem = true) : Memory.wf (zeroMemory s).mem = true := wf_filter h
/-- So does a start-up test. -/
theorem wf_clearMem {s : State} {hit : Nat → Bool} (h : Memory.wf s.mem = true) : Memory.wf (clearMem s hit).mem = true := wf_filter h
/-- Memory after reset has it. -/
theorem wf_reset : Memory.wf State.reset.mem = true := rfl

/-! ### Reading back -/

theorem mget_storeCells_other {bs : List Byte} : ∀ {m : List Host.Cell} {a x : Nat}, x < a ∨ a + bs.length ≤ x →
    mget 0 (storeCells m a bs) x = mget 0 m x := by
  induction bs with
  | nil => intro m a x _; rfl
  | cons b t ih =>
    intro m a x h
    simp only [List.length_cons] at h
    rw [storeCells, ih (by omega), mget_mset_other _ _ _ _ _ (by omega)]

theorem mget_storeCells {bs : List Byte} : ∀ {m : List Host.Cell} {a i : Nat} (h : i < bs.length), mget 0 (storeCells m a bs) (a + i) = bs[i] := by
  induction bs with
  | nil => intro m a i h; simp at h
  | cons b t ih =>
    intro m a i h
    cases i with
    | zero =>
      rw [storeCells, mget_storeCells_other (by omega)]
      simp
    | succ i =>
      rw [storeCells, show a + (i + 1) = (a + 1) + i by omega, ih (by simpa using h)]
      simp

/-- A byte outside the bytes stored reads as before. -/
theorem readByte_writeMem_other {s : State} {a x : Nat} {bs : List Byte} (h : x < a ∨ a + bs.length ≤ x) :
    readByte (writeMem s a bs) x = readByte s x := mget_storeCells_other h

/-- The bytes stored read back. -/
theorem readMem_writeMem {s : State} {a : Nat} {bs : List Byte} : readMem (writeMem s a bs) a bs.length = bs := by
  apply List.ext_getElem
  · simp [readMem]
  · intro i h1 h2
    simp only [readMem, List.getElem_map, List.getElem_range]
    exact mget_storeCells h2

/-- Bytes that no store meets read as before. -/
theorem readMem_writeMem_other {s : State} {a x n : Nat} {bs : List Byte} (h : x + n ≤ a ∨ a + bs.length ≤ x) :
    readMem (writeMem s a bs) x n = readMem s x n := by
  apply List.ext_getElem
  · simp [readMem]
  · intro i h1 h2
    simp only [readMem, List.getElem_map, List.getElem_range, List.length_map, List.length_range] at h1 ⊢
    exact readByte_writeMem_other (by omega)

theorem readByte_zeroSpad {s : State} {c x : Nat} :
    readByte (zeroSpad s c) x = if spadBase + c * 0x400000 ≤ x ∧ x < spadBase + c * 0x400000 + 0x200000 then 0 else readByte s x := by
  unfold readByte zeroSpad
  rw [mget_filter (f := fun k => !decide (spadBase + c * 0x400000 ≤ k ∧ k < spadBase + c * 0x400000 + 0x200000))]
  by_cases h : spadBase + c * 0x400000 ≤ x ∧ x < spadBase + c * 0x400000 + 0x200000 <;> simp [h]

end Sys2Proof.Machine
end

