-- ==== Sys2Proof/WellFormed.lean ====
section
/-! DEFINITION. Which commands are well formed: what the spec fixes about a command's operands and a Lean type does not. -/

namespace Sys2Proof

/-- Bits that an instruction leaves unused are 0 (R46). -/
def slotWf (sl : Slot) : Bool := decide (sl.rsv = 0)

/-- A frame that a row of type `typ` brings: its payload has `LEN` bytes, at most 512, and its type is the row's, or a reserved one,
which the port handles as a CRC failure (R340, Table 15.2). -/
def frameWf (typ : Nat) (f : Frame) : Bool :=
  decide (f.payload.length = f.len.toNat) && decide (f.len.toNat ≤ 512)
    && (decide (f.typ.toNat = typ) || decide (f.typ.toNat = 0 ∨ 0xE ≤ f.typ.toNat))

/-- Credits are returned for the four channels (R343). -/
def linkWf (l : LinkCtl) : Bool := decide (l.credits.length = 0 ∨ l.credits.length = 4)

/-- The phase of a mark is 0 to 999 ns (R359). -/
def markWf (m : BeatMark) : Bool := decide (m.phase < 1000)

/-- The capacities reported are those of twelve channels (R413, R423). -/
def stageWf (r : StageInput) : Bool := decide (r.modulesGiB.length = 0 ∨ r.modulesGiB.length = 12)

/-- A digest has 32 bytes (R400). -/
def verdictWf : Verdict → Bool
  | .pass => true
  | .takeCopy _ d => decide (d.length = 32)
  | .restore _ => true

/-- A command block has 128 bytes, a list of sensor readings 28 entries (R457), a digest 32 bytes; the rest by operand. -/
def wellFormed : Instr → Bool
  | .add sl _ _ _ => slotWf sl
  | .sub sl _ _ _ => slotWf sl
  | .andW sl _ _ _ => slotWf sl
  | .orW sl _ _ _ => slotWf sl
  | .xorW sl _ _ _ => slotWf sl
  | .sll sl _ _ _ => slotWf sl
  | .srl sl _ _ _ => slotWf sl
  | .sra sl _ _ _ => slotWf sl
  | .slt sl _ _ _ => slotWf sl
  | .sltu sl _ _ _ => slotWf sl
  | .mul sl _ _ _ => slotWf sl
  | .mulh sl _ _ _ => slotWf sl
  | .div sl _ _ _ => slotWf sl
  | .divu sl _ _ _ => slotWf sl
  | .rem sl _ _ _ => slotWf sl
  | .remu sl _ _ _ => slotWf sl
  | .addi sl _ _ _ => slotWf sl
  | .andi sl _ _ _ => slotWf sl
  | .ori sl _ _ _ => slotWf sl
  | .xori sl _ _ _ => slotWf sl
  | .slli sl _ _ _ => slotWf sl
  | .srli sl _ _ _ => slotWf sl
  | .srai sl _ _ _ => slotWf sl
  | .slti sl _ _ _ => slotWf sl
  | .lui sl _ _ => slotWf sl
  | .luh sl _ _ => slotWf sl
  | .beq sl _ _ _ => slotWf sl
  | .bne sl _ _ _ => slotWf sl
  | .blt sl _ _ _ => slotWf sl
  | .bge sl _ _ _ => slotWf sl
  | .bltu sl _ _ _ => slotWf sl
  | .bgeu sl _ _ _ => slotWf sl
  | .jal sl _ _ => slotWf sl
  | .jalr sl _ _ _ => slotWf sl
  | .ld sl _ _ _ => slotWf sl
  | .lw sl _ _ _ => slotWf sl
  | .sd sl _ _ _ => slotWf sl
  | .sw sl _ _ _ => slotWf sl
  | .csrr sl _ _ _ => slotWf sl
  | .stop sl => slotWf sl
  | .vadd sl _ _ _ => slotWf sl
  | .vsub sl _ _ _ => slotWf sl
  | .vmul sl _ _ _ => slotWf sl
  | .vfma sl _ _ _ _ => slotWf sl
  | .vmax sl _ _ _ => slotWf sl
  | .vmin sl _ _ _ => slotWf sl
  | .vabs sl _ _ => slotWf sl
  | .vneg sl _ _ => slotWf sl
  | .vaddBf sl _ _ _ => slotWf sl
  | .vmulBf sl _ _ _ => slotWf sl
  | .vfmaBf sl _ _ _ _ => slotWf sl
  | .vmaxBf sl _ _ _ => slotWf sl
  | .vminBf sl _ _ _ => slotWf sl
  | .vexp sl _ _ => slotWf sl
  | .vlog sl _ _ => slotWf sl
  | .vrsqrt sl _ _ => slotWf sl
  | .vredsum sl _ _ => slotWf sl
  | .vredmax sl _ _ => slotWf sl
  | .vredsq sl _ _ => slotWf sl
  | .vperm sl _ _ _ => slotWf sl
  | .vsplat sl _ _ => slotWf sl
  | .vcvt sl _ _ _ => slotWf sl
  | .vcmp sl _ _ _ _ => slotWf sl
  | .pand sl _ _ _ => slotWf sl
  | .por sl _ _ _ => slotWf sl
  | .pnot sl _ _ => slotWf sl
  | .pxor sl _ _ _ => slotWf sl
  | .qwait sl _ _ => slotWf sl
  | .qwaitRelease _ _ => true
  | .qpop sl _ _ => slotWf sl
  | .qpush sl _ _ => slotWf sl
  | .qfetch sl _ _ => slotWf sl
  | .qstore sl _ _ => slotWf sl
  | .qdrain sl _ _ _ => slotWf sl
  | .vld sl _ _ _ => slotWf sl
  | .vst sl _ _ _ => slotWf sl
  | .dld sl _ _ _ => slotWf sl
  | .dbase sl _ _ => slotWf sl
  | .twait sl _ _ => slotWf sl
  | .twaitYield sl _ _ => slotWf sl
  | .twaitRelease _ _ => true
  | .yieldRelease _ => true
  | .tsig sl _ _ => slotWf sl
  | .tsigX sl _ _ => slotWf sl
  | .tsigR sl _ _ => slotWf sl
  | .trd sl _ _ => slotWf sl
  | .farr sl _ _ => slotWf sl
  | .bwait sl _ => slotWf sl
  | .bwaitRelease _ _ => true
  | .brd sl _ => slotWf sl
  | .wld sl _ _ => slotWf sl
  | .wldPatch sl _ _ _ => slotWf sl
  | .shadowLoadComplete _ => true
  | .mmaD sl _ _ => slotWf sl
  | .mmaS24 sl _ _ => slotWf sl
  | .mmaMx4 sl _ _ => slotWf sl
  | .mmaBf sl _ _ => slotWf sl
  | .passRowResult _ => true
  | .mmaIsect sl _ _ _ => slotWf sl
  | .isectCountStage _ => true
  | .isectWalkChoice _ => true
  | .isectMerge _ => true
  | .isectDone _ => true
  | .mmaPred sl _ _ _ => slotWf sl
  | .predSelectionWrite _ => true
  | .mmaSel sl _ _ _ => slotWf sl
  | .drain sl _ _ _ _ => slotWf sl
  | .drainSpill sl _ _ _ _ => slotWf sl
  | .drainSlot _ => true
  | .drainComplete _ => true
  | .accrd sl _ _ _ => slotWf sl
  | .accclr sl _ => slotWf sl
  | .resultLand _ _ => true
  | .storeVisible _ => true
  | .bankGrantRetry _ _ => true
  | .scoreboardRangeRetire _ _ => true
  | .turn sl _ _ _ _ => slotWf sl
  | .turnComplete _ => true
  | .movGo sl _ _ => slotWf sl
  | .movRing sl _ _ => slotWf sl
  | .movAbort sl _ => slotWf sl
  | .moverDescriptorFetch _ _ => true
  | .ringResume _ _ => true
  | .moverPaceTake _ _ => true
  | .moverReadRequest _ _ => true
  | .moverWriteCommit _ _ => true
  | .moverDescriptorComplete _ _ => true
  | .moverStop _ _ => true
  | .relayImageEnter _ => true
  | .relayHop _ _ => true
  | .chain sl _ _ _ _ _ => slotWf sl
  | .chainDeferred sl _ _ _ _ _ => slotWf sl
  | .chainFetchStage _ _ => true
  | .chainTurnStage _ _ => true
  | .chainImageBuild _ _ => true
  | .chainPass _ _ => true
  | .chainDrainStage _ _ => true
  | .chainStoreStage _ _ => true
  | .deferredPassPiece _ => true
  | .deferredDrainPiece _ => true
  | .herdRoute sl _ _ _ => slotWf sl
  | .herdPack sl _ _ _ => slotWf sl
  | .herdSendOpen sl _ _ _ => slotWf sl
  | .herdSendDispatch sl _ _ _ => slotWf sl
  | .herdSendReturn sl _ _ _ => slotWf sl
  | .herdSendCancel sl _ _ _ => slotWf sl
  | .herdComb sl _ _ _ => slotWf sl
  | .herdCombine _ => true
  | .herdRowArrival _ => true
  | .herdCountMessage _ => true
  | .herdFinalise _ _ _ => true
  | .herdReturnArrival _ => true
  | .herdDoneMessage _ => true
  | .kilnStep sl _ _ => slotWf sl
  | .kilnStepStart _ _ => true
  | .kilnRingChunk _ _ => true
  | .kilnStepComplete _ _ => true
  | .kilnFire sl _ _ => slotWf sl
  | .kilnFill sl _ _ => slotWf sl
  | .kilnExport sl _ _ => slotWf sl
  | .kilnCastCount sl _ _ => slotWf sl
  | .kilnCastThreshold sl _ _ => slotWf sl
  | .kilnGrow sl _ _ => slotWf sl
  | .kilnGrowFold sl _ _ => slotWf sl
  | .kilnGrowEmpty sl _ _ => slotWf sl
  | .kilnSel sl _ _ => slotWf sl
  | .maskCommandStart _ _ => true
  | .countedSignalAct _ _ => true
  | .localSignalArrive _ => true
  | .foldComplete _ _ => true
  | .patrolScrub _ => true
  | .calWindowOpen _ => true
  | .calWindowClose _ => true
  | .calWindowForced _ => true
  | .portTraining _ _ => true
  | .portLinkTimeout _ => true
  | .laneDrop _ _ => true
  | .linkRetrain _ => true
  | .ackTimeout _ => true
  | .creditReturn _ => true
  | .framePortTake _ => true
  | .writeFrame _ fr => frameWf 1 fr
  | .readRequestFrame _ fr => frameWf 2 fr
  | .readResponseFrame _ fr => frameWf 3 fr
  | .writeAckFrame _ fr => frameWf 4 fr
  | .errorResponseFrame _ fr => frameWf 5 fr
  | .countedSignalFrame _ fr => frameWf 6 fr
  | .foldArrivalFrame _ fr => frameWf 7 fr
  | .foldCompletionFrame _ fr => frameWf 8 fr
  | .herdRowFrame _ fr => frameWf 9 fr
  | .herdMessageFrame _ fr => frameWf 10 fr
  | .linkControlFrame _ lc => linkWf lc
  | .helloSend _ => true
  | .helloFrame _ _ => true
  | .beatMarkSend _ => true
  | .beatMarkFrame _ m => markWf m
  | .beatUpstreamLost => true
  | .fabricResponseTimeout _ => true
  | .writeResend _ => true
  | .heartbeat => true
  | .heartbeatMiss => true
  | .mcCmdqEnqueue blk => decide (blk.length = 128)
  | .ctxAcquire => true
  | .ctxRelease => true
  | .ctxReleaseScrubKept => true
  | .ctxReleaseComplete _ => true
  | .coreScrubComplete _ => true
  | .ctxSwitch => true
  | .switchAcquire => true
  | .waitLimitExpiry _ _ => true
  | .mcFill => true
  | .fillComplete _ _ => true
  | .coneTick => true
  | .secureRoundArm => true
  | .securePoint _ => true
  | .regionCopy _ => true
  | .roundSeal => true
  | .restore => true
  | .replicaDigestFrame _ _ digest => decide (digest.length = 32)
  | .replicaVerdict _ v => verdictWf v
  | .peerCopy _ _ => true
  | .fenceCommand => true
  | .sequencerWatchdog _ => true
  | .serviceDrain => true
  | .serviceKnownAnswer => true
  | .serviceMemoryTest => true
  | .serviceFirmwareReload => true
  | .serviceDeepRecal => true
  | .serviceReturn => true
  | .unitDrained _ _ => true
  | .serviceActionStart => true
  | .serviceActionEnd _ => true
  | .loadImage => true
  | .signBatch => true
  | .provision => true
  | .enterGlaze => true
  | .ownerUnlock => true
  | .rotateOwnerKey => true
  | .returnToMaker => true
  | .coldReset => true
  | .warmReset => true
  | .stageS0 r => stageWf r
  | .stageS1 r => stageWf r
  | .stageS2 r => stageWf r
  | .stageS3 r => stageWf r
  | .stageS4 r => stageWf r
  | .stageS5 r => stageWf r
  | .stageS6 r => stageWf r
  | .stageS7 r => stageWf r
  | .stageS8 r => stageWf r
  | .stageS9 r => stageWf r
  | .powerSample _ => true
  | .avsCompletion => true
  | .activityEstimate _ => true
  | .thermalStep temps => decide (temps.length = 28)
  | .thermtrip temps => decide (temps.length = 28)
  | .droopEvent => true
  | .pmbAlert _ _ => true
  | .recordForward => true
  | .seqFpop _ _ => true
  | .coreStallRead _ => true
  | .sbStatRead _ => true
  | .herdCnt0Read _ => true
  | .herdCnt1Read _ => true
  | .memErrRead _ => true
  | .memCalpRead _ => true
  | .portStatRead _ => true
  | .beatStatRead => true
  | .cpStatRead => true
  | .pwrStatRead => true
  | .seqFstatRead _ => true
  | .portCfgAccept _ _ => true
  | .fabCfgReady _ => true
  | .ctxDiscClear _ _ => true
  | .registerWrite _ _ => true
  | .qfetchEntryArrival _ => true
  | .storeEngineCommit _ => true
  | .mcAbort _ _ => true
  | .debugCoreHalt _ => true
  | .mcPathRead _ => true

end Sys2Proof
end

