-- ==== Sys2Proof/Tests/Slice0.lean ====
section
/-! SUPPORT. Tests: ill-formed commands refused, small steps checked against the spec's words, and for each statement with hypotheses
a state and operands that meet them. -/

namespace Sys2Proof.Tests

open Sys2Proof Sys2Proof.Machine

set_option Elab.async false

/-! ### States to test on -/

/-- A core of context 0 in scheduled mode, with its engines running, 1,000 bundles and a scratchpad window of 2 MiB. -/
def demoCore : Core :=
  { coreCtx := 0x8000000000000000, fe := { run := .running }, ce := { run := .running }, se := { run := .running }, bundles := 1000
    spw := 0x2000000000, queueBind := 0x5556 }

/-- A device in service with core 0 as given, in the live context 0. -/
def demo (k : Core) : State :=
  { State.reset with
    cores := [(0, k)], ctxs := [(0, 0x8000000000000000)], boot := { State.reset.boot with state := 1, next := 10 }
    plan := { State.reset.plan with cores := BitVec.allOnes 512, clusters := 0xFFFF, hstacks := 0xFF, channels := 0xFFF, ports := 0xFFFF, dies := 15 } }

/-- A slot of an engine of core 0. -/
def slotOf (e : Engine) : Slot := { core := 0, eng := e }

/-- A block at the head of the MC's queue. -/
def withBlock (s : State) (b : List Byte) : State := { s with cmdq := [padTo 128 b] }

/-! ### Ill-formed commands are refused -/

theorem test_wf_slot : wellFormed (.add { slotOf .compute with rsv := 1 } 1 2 3) = false ∧ wellFormed (.add (slotOf .compute) 1 2 3) = true := by decide
theorem test_wf_frame_length : wellFormed (.writeFrame 0 { typ := 1, vc := 0, dst := 0, src := 0, len := 2, payload := [0] }) = false := by decide
theorem test_wf_frame_long : wellFormed (.writeFrame 0 { typ := 1, vc := 0, dst := 0, src := 0, len := 513, payload := List.replicate 513 0 }) = false := by
  decide +kernel
theorem test_wf_frame_type : wellFormed (.writeFrame 0 { typ := 2, vc := 0, dst := 0, src := 0 }) = false
    ∧ wellFormed (.writeFrame 0 { typ := 14, vc := 0, dst := 0, src := 0 }) = true ∧ wellFormed (.writeFrame 0 { typ := 1, vc := 0, dst := 0, src := 0 }) = true := by
  decide
theorem test_wf_link : wellFormed (.linkControlFrame 0 { credits := [1] }) = false ∧ wellFormed (.linkControlFrame 0 { credits := [1, 0, 0, 0] }) = true := by decide
theorem test_wf_mark : wellFormed (.beatMarkFrame 0 { beat := 0, phase := 1000, t2 := 0, t3 := 0, t4 := 0 }) = false
    ∧ wellFormed (.beatMarkFrame 0 { beat := 0, phase := 999, t2 := 0, t3 := 0, t4 := 0 }) = true := by decide
theorem test_wf_block : wellFormed (.mcCmdqEnqueue []) = false ∧ wellFormed (.mcCmdqEnqueue (List.replicate 128 0)) = true := by decide +kernel
theorem test_wf_digest : wellFormed (.replicaDigestFrame 0 0 []) = false ∧ wellFormed (.replicaVerdict 0 (.takeCopy 0 [])) = false
    ∧ wellFormed (.replicaVerdict 0 .pass) = true := by decide
theorem test_wf_stage : wellFormed (.stageS5 { modulesGiB := [32] }) = false ∧ wellFormed (.stageS5 {}) = true := by decide
theorem test_wf_temps : wellFormed (.thermalStep []) = false ∧ wellFormed (.thermtrip []) = false := by decide

/-! ### Witnesses: the issue of a core's instructions -/

/-- Whether a slot is ready, so that a witness can be evaluated. -/
def readyB (s : State) (st : Staged) : Bool :=
  decide ((st.encoded = st ∧ takes (coreOf s st.slot.core.val) st = true ∧ st.slot.more = false
      ∧ (engOf (coreOf s st.slot.core.val) st.slot.eng).staged = []
      ∧ (coreOf (opened s st) st.slot.core.val).stopNext = false ∧ (coreOf (atIssue s st) st.slot.core.val).stopNext = false
      ∧ (scheduled (coreOf (atIssue s st) st.slot.core.val) st.slot.eng = true
          ∨ interlockWait (atIssue s st) st.slot.core.val st.slot.eng (issueNow s st) [st] = none))
    ∧ lowest (faultsAt s st) = none ∧ bundleWait (atIssue s st) st.slot.core.val st.slot.eng (issueNow s st) 0 [st] = none)

theorem ready_iff (s : State) (st : Staged) : Ready s st ↔ readyB s st = true := by
  unfold readyB
  refine ⟨fun h => decide_eq_true h, fun h => ?_⟩
  have r := of_decide_eq_true h
  exact r

theorem test_ready_scalar : Ready (demo demoCore) (rrSlot (slotOf .compute) 0x01 1 1 2 3 0) ∧ Ready (demo demoCore) (rrSlot (slotOf .fetch) 0x01 1 0 2 3 0)
    ∧ Ready (demo demoCore) (riSlot (slotOf .store) 0x11 31 0 0) ∧ Ready (demo demoCore) (rrSlot (slotOf .compute) 0x0D 18 1 2 3 0)
    ∧ Ready (demo demoCore) (rrSlot (slotOf .compute) 0x0C 3 1 2 3 0 true) := by simp only [ready_iff]; decide +kernel

theorem test_ready_branch : Ready (demo demoCore) (branchSlot (slotOf .compute) 0x20 0 0 (.jump 5 none))
    ∧ Ready (demo demoCore) (branchSlot (slotOf .compute) 0x21 0 0 .notTaken) := by simp only [ready_iff]; decide +kernel

theorem test_interlocked_target :
    let s := demo { demoCore with coreMode := 1, ce := { run := .running, target := 3 } }
    interlockWait s 0 .compute 2 [] = some .interlock ∧ interlockWait s 0 .compute 3 [] = none := by decide +kernel

/-- Core 0 with a taken branch's delay issue under way. -/
def inDelay : State := demo { demoCore with ce := { run := .running, pc := 3, delay := some 7 } }

theorem test_ready_delay : Ready inDelay (rrSlot (slotOf .compute) 0x01 1 1 2 3 0)
    ∧ (engAt (atIssue inDelay (rrSlot (slotOf .compute) 0x01 1 1 2 3 0)) (rrSlot (slotOf .compute) 0x01 1 1 2 3 0)).delay = some 7 := by
  simp only [ready_iff]; decide +kernel

theorem test_comes_delay_branch : Comes inDelay (branchSlot (slotOf .compute) 0x20 0 0 (.jump 3 none))
    ∧ (engAt (atIssue inDelay (branchSlot (slotOf .compute) 0x20 0 0 (.jump 3 none))) (branchSlot (slotOf .compute) 0x20 0 0 (.jump 3 none))).delay ≠ none := by
  unfold Comes; decide +kernel

/-- Table 1.7: no register stands at offset 0x1000 of a core's block. -/
def csrrOutside : Staged :=
  { place := 0, slot := slotOf .compute, opcode := 0x38, badEnc := false, dest := some (.x 1), lat := 6, effect := .csrr 1 0x1000 }

theorem test_comes_csrr_outside : Comes (demo demoCore) csrrOutside ∧ coreReg (atIssue (demo demoCore) csrrOutside) 0 0x1000 = none
    ∧ (lowest (faultsAt (demo demoCore) csrrOutside)).isSome = true := by
  unfold Comes; decide +kernel

theorem test_ready_memory : Ready (demo demoCore) { place := 0, slot := slotOf .compute, opcode := 0x30, reads := [.x 0], dest := some (.x 1), lat := 8, effect := .load 1 0 8 }
    ∧ Ready (demo demoCore) { place := 0, slot := slotOf .fetch, opcode := 0x32, reads := [.x 0, .x 1], effect := .store 0 (leBytes 8 0) }
    ∧ Ready (demo demoCore) { place := 0, slot := slotOf .store, opcode := 0x33, reads := [.x 0, .x 1], effect := .store 0 (leBytes 4 0) }
    ∧ Ready (demo demoCore) { place := 0, slot := slotOf .compute, opcode := 0x38, badEnc := false, dest := some (.x 1), lat := 6, effect := .csrr 1 0 } := by
  simp only [ready_iff]; decide +kernel

theorem test_ready_stop : Ready (demo demoCore) { place := 0, slot := slotOf .compute, opcode := 0x3E, effect := .stop } := by simp only [ready_iff]; decide +kernel

/-- A slot that leaves unused bits set (R46). -/
def badSlot : Staged := rrSlot { slotOf .compute with rsv := 1 } 0x01 1 1 2 3 0

theorem test_fault_at_issue : Comes (demo demoCore) badSlot ∧ (coreOf (atIssue (demo demoCore) badSlot) 0).faulted = false
    ∧ (lowest (faultsAt (demo demoCore) badSlot)).isSome = true := by unfold Comes; decide +kernel

/-- A `qwait` for one entry of the empty queue 0, whose consumer the compute engine is. -/
def emptyWait : Staged := { place := 2, slot := slotOf .compute, opcode := 0x01, effect := .qwait 1 1 }

theorem test_wait_at_issue : Comes (demo demoCore) emptyWait ∧ lowest (faultsAt (demo demoCore) emptyWait) = none
    ∧ bundleWait (atIssue (demo demoCore) emptyWait) 0 .compute (issueNow (demo demoCore) emptyWait) 0 [emptyWait] = some .queue := by unfold Comes; decide +kernel

theorem test_gather : takes (demoCore) (rrSlot { slotOf .compute with more := true } 0x01 1 1 2 3 0) = true
    ∧ takes { demoCore with ce := { run := .running, staged := [rrSlot { slotOf .compute with more := true } 0x01 1 1 2 3 0] } }
        { place := 2, slot := slotOf .compute, opcode := 0x19, newT2 := true, dest := some (.x 1), lat := 6, effect := .brd 1 } = true := by decide +kernel

theorem test_ready_vector : Ready (demo demoCore) (vectorSlot (slotOf .compute) 0x01 4 false [.v 1, .v 2] 3 [(0, 0)])
    ∧ Ready (demo demoCore) (vectorSlot (slotOf .compute) 0x11 3 false [.v 1, .v 2] 3 [(0, 0)])
    ∧ Ready (demo demoCore) (vectorSlot (slotOf .compute) 0x20 12 false [.v 1] 3 [(0, 0)])
    ∧ Ready (demo demoCore) (vectorSlot (slotOf .compute) 0x28 9 false [.v 1] 3 [(0, 0)])
    ∧ Ready (demo demoCore) (vectorSlot (slotOf .compute) 0x31 3 false [.x 1] 3 [(0, 0)])
    ∧ Ready (demo demoCore) (predicateSlot (slotOf .compute) 0x3C 4 false false [.v 1, .v 2] 0 0)
    ∧ Ready (demo demoCore) (predicateSlot (slotOf .compute) 0x3D 3 false false [.p 1, .p 2] 3 0) := by simp only [ready_iff]; decide +kernel

theorem test_vcvt_parts : cvtParts 0 1 = 2 ∧ cvtParts 1 0 = 2 ∧ cvtParts 0 0 = 0 ∧ Comes (demo demoCore)
    { place := 1, slot := slotOf .compute, opcode := 0x38, badFmt := some 0, reads := .v 1 :: predReads (slotOf .compute), dest := some (.v 2), lat := 3
      effect := .write (.v 2 []) } := by unfold Comes; decide +kernel

theorem test_nan : f32IsNan 0x7FC00000 = true ∧ f32IsNan 0x7F800000 = false := by decide +kernel

/-- Core 0 with 16 entries in queue 1 and room in queue 0. -/
def queued : State := demo (setQueue demoCore 1 (List.replicate 16 (List.replicate 64 0)))

theorem test_ready_queue : Ready queued { place := 2, slot := slotOf .compute, opcode := 0x02, only := some .compute, dest := some (.v 2), effect := .qpop 1 2 }
    ∧ Ready queued { place := 2, slot := slotOf .compute, opcode := 0x03, only := some .compute, reads := [.v 2], effect := .qpush 0 (slotVBytes queued (slotOf .compute) 2) }
    ∧ Ready queued { place := 2, slot := slotOf .compute, opcode := 0x01, effect := .qwait 1 16 }
    ∧ Ready queued { place := 2, slot := slotOf .compute, opcode := 0x01, effect := .qwait 0 64 } := by simp only [ready_iff]; decide +kernel

theorem test_queue_ends : queueEnds demoCore 1 = some (.fetch, .compute) ∧ queueEnds demoCore 0 = some (.compute, .store) := by decide +kernel

theorem test_queue_faults : Comes queued { place := 2, slot := slotOf .compute, opcode := 0x01, effect := .qwait 1 0 }
    ∧ Comes queued { place := 2, slot := slotOf .compute, opcode := 0x01, effect := .qwait 1 65 }
    ∧ Comes queued { place := 2, slot := slotOf .store, opcode := 0x01, effect := .qwait 1 1 }
    ∧ Comes queued { place := 2, slot := slotOf .compute, opcode := 0x06, only := some .compute, reads := [.x 0], effect := .qdrain 1 0 0 } := by
  unfold Comes; decide +kernel

/-- A descriptor image: control word, `BASE`, strides and extents. -/
def imageOf (ctl base : Nat) (strides exts : List Nat) : List Byte :=
  leBytes 8 (0xFFFF * 2 ^ 48 + base) ++ leBytes 8 ctl ++ (strides.map (leBytes 8)).flatten ++ (exts.map (leBytes 8)).flatten ++ List.replicate 32 0

/-- A plain tensor of own scratchpad: format, window offset, rows and columns of n bytes each. -/
def spadImage (fmt off rows cols n : Nat) : List Byte := imageOf (fmt * 2 ^ 60 + 2 ^ 53) off [0, 0, 0, cols * n, n] [1, 1, 1, rows, cols]

/-- Core 0 with images in its descriptor slots, all owned by engine `own` (0 fetch, 1 compute, 2 store). -/
def withImages (k : Core) (own : Nat) (l : List (List Byte)) : Core :=
  { k with d := setBytes k.d 0 l.flatten, dslotOwn := BitVec.ofNat 64 (own * 0x5555555555555555) }

/-- Core 0 with a FP32 vector of 64 elements in slot 0, for the fetch and the store engine. -/
def fetchCore : Core := withImages demoCore 0 [spadImage 0 0 1 64 4]
/-- See `fetchCore`. -/
def storeCore : Core := withImages demoCore 2 [spadImage 0 0 1 64 4]

theorem test_ready_streams :
    Ready (demo fetchCore) { place := 2, slot := slotOf .fetch, opcode := 0x04, only := some .fetch, reads := [.d 0], effect := .qfetch 1 0 }
    ∧ Ready (demo storeCore) { place := 2, slot := slotOf .store, opcode := 0x05, only := some .store, reads := [.d 0], effect := .qstore 0 0 }
    ∧ Ready (demo demoCore) { place := 2, slot := slotOf .compute, opcode := 0x0D, newT2 := true, reads := [.x 1], dest := some (.d 0), effect := .dbase 0 0 } := by
  simp only [ready_iff]; decide +kernel

/-- Core 0 whose virtual tallies 1 to 16 are tallies 100 to 115 of its cluster, and 17 to 32 those of cluster 1. -/
def tallyCore : Core :=
  { demoCore with ttr := [(0, 0x8001000000000064 ||| 0x10000000000), (1, 0x8011000100000064 ||| 0x20000000000)] }

/-- The same, with context 0 giving its tallies to remote signals. -/
def tallied : State := { demo tallyCore with ctxs := [(0, 0x8000000000000000), (20, 0xA001010000000064)] }

/-- A signal of tally v by an amount. -/
def sigSlot (e : Engine) (v : BitVec 12) (n : Nat) : Staged := { place := 2, slot := slotOf e, opcode := 0x11, effect := .tsig v n (n == 0) }

theorem test_ready_signals : Ready tallied (sigSlot .compute 1 1) ∧ translate (atIssue tallied (sigSlot .compute 1 1)) 0 1 = some 100
    ∧ Ready tallied (sigSlot .compute 17 1) ∧ translate (atIssue tallied (sigSlot .compute 17 1)) 0 17 = some 4196
    ∧ Ready tallied (sigSlot .store 16 1) ∧ storesDone (atIssue tallied (sigSlot .store 16 1)) 0 = true
    ∧ Ready { tallied with tallies := [(100, 0xFFFFFFFFFFFF)] } (sigSlot .compute 1 1)
    ∧ Ready (demo { tallyCore with se := { run := .running, streams := [.move { q := 0, image := spadImage 0 0 1 64 4 }] } }) (sigSlot .store 1 1) := by
  simp only [ready_iff]; decide +kernel

/-- A counted signal to virtual tally v of context 0 of this device. -/
def countedSlot : Staged :=
  { place := 2, slot := slotOf .compute, opcode := 0x13, reads := [.x 1, .x 2], effect := .tsigR (slotX signalling (slotOf .compute) 1) (slotX signalling (slotOf .compute) 2) }
where
  /-- Core 0 with the signal's address in x1. -/
  signalling : State := { tallied with cores := [(0, { tallyCore with ce := { run := .running, x := [(1, 0xFFFF300080000008)] } })] }

theorem test_ready_counted : Ready countedSlot.signalling countedSlot
    ∧ isHere countedSlot.signalling (bits (slotX countedSlot.signalling (slotOf .compute) 1) 63 48) = true
    ∧ signalTarget (bits (slotX countedSlot.signalling (slotOf .compute) 1) 47 0) = (0, 1)
    ∧ ctxState countedSlot.signalling 0 = 2 ∧ (rsigTally countedSlot.signalling 0 1).isSome = true ∧ (rsigTally countedSlot.signalling 0 2).isSome = true
    ∧ (rsigTally countedSlot.signalling 0 17).isSome = false ∧ coreKey countedSlot.signalling 0 = ctxKey countedSlot.signalling 0 := by
  simp only [ready_iff]; decide +kernel

theorem test_ready_waits : Ready tallied (waitSlot (slotOf .compute) 1 0 0) ∧ Ready tallied (waitSlot (slotOf .store) 1 0 0)
    ∧ Ready { tallied with tallies := [(100, 5)] } (waitSlot (slotOf .compute) 1 0 5)
    ∧ Ready tallied { place := 2, slot := slotOf .compute, opcode := 0x18, newT2 := true, reads := [.x 0], effect := .bwait 0 }
    ∧ Ready tallied { place := 2, slot := slotOf .compute, opcode := 0x14, dest := some (.x 1), lat := 6, effect := .trd 1 1 }
    ∧ Ready tallied { place := 2, slot := slotOf .compute, opcode := 0x19, newT2 := true, dest := some (.x 1), lat := 6, effect := .brd 1 }
    ∧ Ready tallied (waitSlot (slotOf .compute) 1 0 0x8000000000000000) := by simp only [ready_iff]; decide +kernel

/-- Fold 0 of cluster 0 defined for context 0, core 0 a participant. -/
def folded : State := { tallied with folds := [(0, { defn := 0x4000000000000000 + 1 })] }

theorem test_ready_fold : Ready folded { place := 2, slot := slotOf .compute, opcode := 0x15, badEnc := false, effect := .farr 1 0 } := by
  simp only [ready_iff]; decide +kernel

/-- The exact values at 1, 2 and 128: of e, ln 2, 1/√2 and e^128; 0x402DF854, 0x3F317218 and 0x3F3504F3 are the nearest FP32 values. -/
theorem test_exact_functions : rnd32 (expExact (f32 0x3F800000)) = 0x402DF854 ∧ rnd32 (logExact (f32 0x40000000)) = 0x3F317218
    ∧ rnd32 (rsqrtExact (f32 0x40000000)) = 0x3F3504F3 ∧ f32IsFin (rnd32 (expExact (f32 0x43000000))) = false
    ∧ withinUlps 1 (expExact (f32 0x3F800000)) 0x402DF855 = true ∧ withinUlps 1 (expExact (f32 0x3F800000)) 0x402DF856 = false := by
  decide +kernel

/-- The exact non-linearities at 1: σ(1), tanh 1 and σ′(1), and the operands of the statements: finite ones and a NaN. -/
theorem test_exact_activations : rnd32 (actExact 4 (f32 0x3F800000)) = 0x3F3B26A8 ∧ rnd32 (actExact 5 (f32 0x3F800000)) = 0x3F42F7D6
    ∧ rnd32 (derExact 4 (f32 0x3F800000)) = 0x3E4954A3 ∧ f32IsFin 0x3F800000 = true ∧ f32IsNan 0x7FC00000 = true := by decide +kernel
/-! ### Witnesses: the array, the intersect front-end, the drain -/

/-- Core 0 with an activation block of r rows of 32 elements in slot 0, format f, read by its compute engine. -/
def actCore (f r n : Nat) : Core := withImages demoCore 1 [spadImage f 0 r 32 n]

theorem test_ready_passes : Ready (demo (actCore 4 1 1)) (arraySlot (slotOf .compute) 0x24 false [0] 1 (.pass 0x24 0 0))
    ∧ Ready (demo (actCore 4 0 1)) (arraySlot (slotOf .compute) 0x24 false [0] 1 (.pass 0x24 0 0x400000))
    ∧ Ready (demo (actCore 4 512 1)) (arraySlot (slotOf .compute) 0x24 false [0] 1 (.pass 0x24 0 0x200000))
    ∧ Ready (demo (actCore 4 1 1)) (arraySlot (slotOf .compute) 0x25 false [0] 1 (.pass 0x25 0 511))
    ∧ Ready (demo (actCore 1 1 2)) (arraySlot (slotOf .compute) 0x27 false [0] 1 (.pass 0x27 0 0x10000)) := by
  simp only [ready_iff]; decide +kernel

/-- Core 0 with a row of MXFP4 and a descriptor of a plain image of n bytes at byte 0x1000. -/
def mxCore (n : Nat) : Core :=
  withImages demoCore 1 [imageOf (8 * 2 ^ 60 + 2 ^ 53) 0 [0, 0, 0, 1024, 0] [1, 1, 1, 1, 32], spadImage 0xA 0 1 32 1, spadImage 0xA 0x1000 1 n 1]

theorem test_ready_predictor : Ready (demo (mxCore 6720)) (arraySlot (slotOf .compute) 0x26 true [0] 1 (.pass 0x26 0 0))
    ∧ Ready (demo (mxCore 6720)) (arraySlot (slotOf .compute) 0x29 true [1] 1 (.pred 1 0 0))
    ∧ Ready (demo (mxCore 5184)) (arraySlot (slotOf .compute) 0x29 true [1, 2] 1 (.pred 1 2 0x800000)) := by simp only [ready_iff]; decide +kernel

theorem test_ready_loads :
    Ready (demo (mxCore 6720)) { place := 2, slot := slotOf .compute, opcode := 0x20, only := some .compute, reads := [.d 2], effect := .wld 2 none 0 }
    ∧ Ready (demo (mxCore 6720)) { place := 2, slot := slotOf .compute, opcode := 0x21, newT2 := true, only := some .compute, reads := [.d 1, .d 2]
                                   effect := .wld 2 (some 1) 0 } := by simp only [ready_iff]; decide +kernel

/-- A relayed image of tally 1 in the buffer of core 0. -/
def relayed : State :=
  { demo { tallyCore with relayBuf := [{ chan := 0, mask := 1, tally := 1, pos := 0, tile := [] }], dslotOwn := 0x5555555555555555 } with tallies := [(100, 1)] }

theorem test_ready_relay_load : Ready relayed { place := 2, slot := slotOf .compute, opcode := 0x20, only := some .compute, effect := .wld 0 none 1 } := by
  simp only [ready_iff]; decide +kernel

/-- Core 0 with no rows of activations, a selection record at 0x1000 and a weight image at 0x4000. -/
def selecting : State :=
  writeMem (demo (withImages demoCore 1 [spadImage 3 0 0 32 1, spadImage 0xA 0x1000 1 5184 1, imageOf (0xA * 2 ^ 60 + 2 ^ 53) 0x4000 [0, 0, 0, 6720, 1] [1, 1, 1, 1, 6720]]))
    (0x200000000000 + 0x4000) (leBytes 8 (3 + 32 * 2 ^ 16 + 2 ^ 32))

set_option maxRecDepth 40000 in
theorem test_ready_select : Ready selecting (arraySlot (slotOf .compute) 0x2A true [0, 1, 2] 1 (.sel 0 1 0x10000000)) ∧ wslotOf 0x10000000 = 2 := by
  simp only [ready_iff]; decide +kernel

/-- A sparse operand of 64 by 64 FP8 elements. -/
def sparseImage (off : Nat) : List Byte :=
  (imageOf (4 * 2 ^ 60 + 2 * 2 ^ 58 + 2 ^ 53) off [0, 0, 0, 0, 0] [1, 1, 1, 64, 64]).take 0x60 ++ leBytes 8 16 ++ List.replicate 24 0

theorem test_ready_units :
    Ready (demo { tallyCore with d := (withImages demoCore 1 [sparseImage 0, sparseImage 0x1000]).d })
      (arraySlot (slotOf .compute) 0x28 true [0, 1] 1 (.isect 0 1 0x0010000000000000))
    ∧ Ready (demo { tallyCore with d := (withImages demoCore 1 [spadImage 0 0 1 64 4]).d }) (arraySlot (slotOf .compute) 0x2C false (drainNames 0 0 0) 1 (.drain 0 0 0 1))
    ∧ Ready (demo { tallyCore with passCount := [(0, 1)] })
        (arraySlot (slotOf .compute) 0x2C false (drainNames 0x1A00100000 0 0) 1 (.drain 0 0 0x1A00100000 1))
    ∧ Ready (demo demoCore) { place := 2, slot := slotOf .compute, opcode := 0x2D, only := some .compute, badEnc := false, reads := [.x 0], dest := some (.v 1), lat := 5
                              effect := .accrd 1 0 0 }
    ∧ Ready (demo demoCore) { place := 2, slot := slotOf .compute, opcode := 0x2E, only := some .compute, badEnc := false, effect := .accclr 1 } := by
  simp only [ready_iff]; decide +kernel

/-! ### Witnesses: what happens in a core -/

/-- A pass of one row of FP8 activations whose row has been read. -/
def onePass : Pass := { op := 0x24, issue := 0, rows := 1, row0 := 0, set := 0, init := true, tile := [], hasHdr := false, act := spadImage 4 0 1 32 1, readRows := [[0]] }

theorem test_pass_row : ({ demoCore with passes := [onePass] }.passes.find? fun q => q.landed < q.readRows.length) = some onePass
    ∧ (let s := fun n => demo { demoCore with passes := [onePass], ce := { run := .running, idx := n } }
       dueNow (s 95) 0 (onePass.issue + onePass.first + onePass.landed) onePass.chain = false
       ∧ dueNow (s 96) 0 (onePass.issue + onePass.first + onePass.landed) onePass.chain = true) := by decide +kernel

/-- Core 0 at issue n with a load that is swappable at issue 32. -/
def loading (n : Nat) (f : Option FaultRec) : State :=
  demo { demoCore with load := some { ready := 32, relay := true, fault := f }, ce := { run := .running, idx := n } }

theorem test_load_ends : (coreOf (loading 32 none) 0).load = some { ready := 32, relay := true } ∧ (coreOf (loading 32 none) 0).chainLoad = none
    ∧ dueNow (loading 31 none) 0 32 = false ∧ dueNow (loading 32 none) 0 32 = true
    ∧ dueNow (loading 32 (some { cls := 0xB, sub := 5, ukind := 4 })) 0 32 = true := by decide +kernel

theorem test_selection_due :
    let w : SelWrite := { d2 := spadImage 0xA 0x1000 1 5184 1, rows := 1, pcol := 0, selk := 1, thr := 0, set := 0, issue := 0, ready := 112, bytes := [1] }
    let s := demo { demoCore with selWrites := [w], ce := { run := .running, idx := 112 } }
    w.bytes ≠ [] ∧ dueNow s 0 w.ready = true ∧ ((Desc.of w.d2).dim 4).stride = 1
    ∧ (portsOf (coreOf s 0) ((Desc.of w.d2).unitAt 0).2.toNat w.bytes.length true).any (portTaken (coreOf s 0) s.clock.cycle .select) = false := by decide +kernel

/-- An isect of one round with both operands at the same place, and a round of it. -/
def walking (n : Nat) : Isect := { a := sparseImage 0, b := sparseImage 0, ctl := 448, issue := 0, kt := 1, counted := n }
/-- See `walking`. -/
def aRound : IsectRound := { round := 0 }

theorem test_isect_stages :
    let s := demo { demoCore with isect := some (walking 0) }
    (walking 0).counted < (walking 0).kt ∧ (walking 1).kt ≤ (walking 1).counted ∧ bits (walking 1).ctl 8 0 ≤ 448
    ∧ (let tile := readTile (bankRd s 0 .isect) (Desc.of (sparseImage 0)) false ((Desc.of (sparseImage 0)).base.toNat % 2 ^ 48) 0
       let off := bits (BitVec.ofNat 64 ((bankRd s 0 .isect).num ((Desc.of (sparseImage 0)).base.toNat % 2 ^ 48) 8)) 47 0
       (match tile with | .ok _ => true | _ => false) = true
       ∧ (spanPorts (coreOf s 0) (countSpans (Desc.of (sparseImage 0)) 0 tile off) false).any (portTaken (coreOf s 0) s.clock.cycle .isect) = false) := by
  decide +kernel

theorem test_isect_rounds : (∃ x : Isect, x.cur = none ∧ x.next = some aRound ∧ x.outs.length ≤ 1) ∧ (∃ x : Isect, x.cur = some aRound)
    ∧ (∃ x : Isect, x.outs = [aRound] ∧ x.failed = true ∧ x.next = none ∧ x.cur = none) ∧ ∃ x : Isect, x.outs = [aRound] ∧ x.failed = false :=
  ⟨⟨{ walking 0 with next := some aRound }, rfl, rfl, by decide⟩, ⟨{ walking 1 with cur := some aRound }, rfl⟩,
   ⟨{ walking 1 with outs := [aRound], failed := true }, rfl, rfl, rfl, rfl⟩, ⟨{ walking 1 with outs := [aRound] }, rfl, rfl⟩⟩

theorem test_isect_done : translate tallied 0 (BitVec.ofNat 12 (bits (0x0010000000000000 : W64) 63 52)) = some 100 ∧ tallyAt tallied 100 + 1 < 2 ^ 48
    ∧ ({ walking 1 with merged := 1 } : Isect).kt ≤ 1 := by decide +kernel

/-- A spill of row 511 of set 0 in fresh form, and a drain that is done. -/
def spilling : Drain := { d1 := [], d2 := [], ctl := 0x1C001001FF, tally := 1, issue := 0, costs := [1], par := List.replicate 576 0 }

theorem test_drain_slot : nextDrain { demoCore with drains := [spilling] } = some spilling ∧ bits spilling.ctl 34 33 = 2 ∧ bits spilling.ctl 36 35 = 3
    ∧ bits spilling.ctl 8 0 + spilling.slot < 512 ∧ spilling.out = []
    ∧ dueNow (demo { demoCore with drains := [spilling] }) 0 (slotStart spilling spilling.slot) spilling.chain = true
    ∧ dueNow (demo { demoCore with drains := [{ spilling with issue := 1 }] }) 0 (slotStart { spilling with issue := 1 } 0) none = false := by decide +kernel
theorem test_drain_done :
    let d := { spilling with slot := 1 }
    let k := { tallyCore with drains := [d], ce := { run := .running, idx := drainEnd d } }
    k.drains.head? = some d ∧ d.costs.length ≤ d.slot ∧ d.out = [] ∧ d.chain = none ∧ translate tallied 0 d.tally = some 100
    ∧ dueNow (demo k) 0 (drainEnd d) d.chain = true := by decide +kernel

/-- Core 0 with its compute engine holding a bundle for a cause, in a cycle after it was last refused. -/
def holding (w : WaitCause) (b : List Staged) (s : State) : State :=
  { s with cores := [(0, { tallyCore with ce := { run := .running, held := some { cause := w, bundle := b, since := 0 } } })], clock := { s.clock with cycle := 1 } }

theorem test_ready_again : (∀ w ∈ [WaitCause.queue, .tally false, .tally true, .beat, .bank], ReadyAgain (holding w [waitSlot (slotOf .compute) 1 0 0] tallied) 0 .compute [waitSlot (slotOf .compute) 1 0 0])
    ∧ (let b : List Staged := [{ place := 2, slot := slotOf .compute, opcode := 0x01, effect := .qwait 0 64 }]; ReadyAgain (holding .queue b tallied) 0 .compute b) := by
  unfold ReadyAgain; decide +kernel

/-- An engine in interlocked mode with a result on its way. -/
def landing (w : RegWrite) (r : RegName) : Core := { demoCore with coreMode := 1, ce := { run := .running, pend := [{ name := r, ready := 5, write := w }] } }

theorem test_landing : (∀ q ∈ [(RegWrite.x 1 7, RegName.x 1), (.v 0 [(255, 1)], .v 0), (.p 7 1, .p 7), (.d 31 (List.replicate 128 1), .d 31)],
      (engOf (landing q.1 q.2) .compute).pend.find? (fun q => !q.landed) = some { name := q.2, ready := 5, write := q.1 })
    ∧ scheduled (landing (.x 1 7) (.x 1)) .compute = false ∧ (engOf (landing (.x 1 7) (.x 1)) .compute).held = none := by decide +kernel

theorem test_store_due : ∃ k : Core, ∃ st rest, k.stores = st :: rest ∧ st.cyc + 8 ≤ 8 := ⟨{ demoCore with stores := [{ off := 0, bytes := [1] }] }, _, _, rfl, by decide⟩
theorem test_range_done : ∃ s : State, ∃ r : SbRange, (coreOf s 0).ranges[0]? = some r ∧ r.done = true ∧ turnsOf s 0 = [] ∧ kilnCmds s 14 = [] ∧ (coreOf s 0).chains = []
    ∧ (coreOf s 0).waiters = [] ∧ (herdOf s 0).cmds = [] ∧ (engOf (coreOf s 0) .compute).held = none :=
  ⟨demo { demoCore with ranges := [{ agent := .drain, lo := 0, hi := 64, write := true, done := true }] }, _, rfl, rfl, rfl, rfl, rfl, rfl, rfl, rfl⟩

/-! ### The bundles of an image (R45, R62) -/

/-- Worked example 2.1 as bytes, lowest address first: its T2 form at bundle 1 of a scheduled core's image. -/
theorem test_image_bundle :
    let img := setBytes [] 16 (leBytes 16 0x80000000000003105000000202000000)
    programBundle (demo { demoCore with image := img, ce := { run := .running, pc := 1 } }) 0 .compute
      = [.vmul { core := 0, eng := .compute, more := true } 2 1 8, .qpop (slotOf .compute) 0 4] := by decide +kernel

/-- R46: an opcode of 0x12 in the S slot, which Table 2.4 does not list, stays an undefined one; R47: a bundle of no-ops is one no-op slot. -/
theorem test_bundle_opcodes :
    decodeT2 0 .compute (0x12 * 2 ^ 112 + 2 * 2 ^ 126) = [.add { slotOf .compute with opc := some 0x12 } 0 0 0]
    ∧ decodeT2 0 .compute (2 * 2 ^ 126) = [.add { slotOf .compute with opc := some 0 } 0 0 0] := by decide +kernel

/-- A Turn command of core 0 at its unit, as the unit keeps it. -/
def turnCmd : TurnCmd := { core := 0, d1 := spadImage 0 0 1 64 4, d2 := spadImage 0 0x1000 1 64 4, ctl := 0x4688, tally := 1 }

theorem test_turn_waits : turnsOf { tallied with turns := [(0, [{ turnCmd with ready := true }])] } 0 = [{ turnCmd with ready := true }]
    ∧ (({ turnCmd with chain := some 0 } : TurnCmd).ready || ({ turnCmd with chain := some 0 } : TurnCmd).chain.isSome) = true := by decide +kernel

theorem test_turn_ends : awaiting { tallied with turns := [(0, [{ turnCmd with ready := true }])] } 0 .turn = false ∧ turnPerm 0x4688 = [0, 1, 2, 3, 4] := by decide +kernel

/-- Core 0 with the first 64 bytes of its window registered by another agent. -/
def heldCore : Core := { tallyCore with ranges := [{ agent := .drain, lo := 0, hi := 64, write := true }] }

theorem test_herd_arrives :
    let cmd : HerdCmd := { id := 0, core := 0, ctx := some 0, op := 0, ctl := 0, off := 0, tally := 1, d1 := List.replicate 128 0 }
    let b := fun (k : Core) => modHerd (modCore { tallied with cores := [(0, k)] } 0 fun k => takeCredit k 2) 0 fun h => { h with serial := h.serial + 1, cmds := [cmd] }
    (herdOf tallied 0).cmds = [] ∧ (herdTake (b heldCore) 0 cmd).1 = false ∧ (herdTake (b tallyCore) 0 cmd).1 = true
    ∧ (match lowest (herdFlts (herdTake (b tallyCore) 0 cmd).2 0 0 cmd.d1 0 1) with | some f => f.cls != 9 | none => false) = true := by decide +kernel

theorem test_kiln_arrives : (1 : Nat) % 64 ≠ 0 ∧ spadFlt heldCore 0 192 = none ∧ kilnCmds tallied 14 = []
    ∧ canRegister heldCore .kiln [(0, 128, false)] = false := by decide +kernel

/-- A device with all its memory, core 0 having windows 0 and 1 over HBM and DDR5 and over the scratchpad map, and channel 0 of cluster 0. -/
def moving (h : Chan) : State :=
  { tallied with
    cores := [(0, { tallyCore with winBase := [(0, 0xFFFF000000000000), (1, 0xFFFF200000000000)], winBound := [(0, 0x1FFFFFFFFFC3), (1, 0x200080000003)] })]
    units := (List.range 8).map (fun n => (n, { present := true, region := n, capGiB := 48 })) ++ (List.range 12).map (fun n => (8 + n, { present := true, region := n / 2, capGiB := 256 }))
    chans := [(0, { h with own := 0x80000000 })] }

theorem test_ready_mov : Ready (moving {}) { place := 2, slot := slotOf .compute, opcode := 0x34, reads := [.x 0, .x 0], effect := .movGo 0 0 }
    ∧ Ready (moving {}) { place := 2, slot := slotOf .compute, opcode := 0x35, newT2 := true, reads := [.x 0, .x 0], effect := .movRing 0 0 }
    ∧ Ready (moving {}) { place := 2, slot := slotOf .compute, opcode := 0x36, reads := [.x 0], effect := .movAbort 0 } := by
  simp only [ready_iff]; decide +kernel

/-- Bytes at a place in HBM, and a gather of one element of 600 bytes with its list. -/
def gathering (h : Chan) : State := writeMem (writeMem (moving h) 0x1000 gatherMd) 0x2000 (leBytes 8 0xFFFF000000003000 ++ leBytes 8 600)
where
  /-- The descriptor: event 5 on virtual tally 1, pace event on channel 1. -/
  gatherMd : List Byte :=
    leBytes 8 0xFFFF000000001040 ++ leBytes 8 (2 ^ 60 + 2 ^ 57 + 2 ^ 44 + 5) ++ leBytes 8 0xFFFF000000002000 ++ leBytes 8 0xFFFF000000008000 ++ leBytes 8 1 ++ leBytes 8 0
      ++ List.replicate 16 0

theorem test_mover_fetch :
    let s := gathering { st := 1, head := 0xFFFF000000001000 }
    let ga := (chanOf s 0).head
    let s1 := (chanAsk s 0 [(ga, 64)]).2
    let m := chanBytes s1 0 ga 64
    let s2 := (chanAsk s1 0 (mdReads s1 0 m)).2
    (chanOf s 0).st = 1 ∧ lowest (mdPlaceFlts s 0 ga 64 64 6) = none ∧ (chanAsk s 0 [(ga, 64)]).1 = true ∧ lineFlt (chanRd s1 0 ga) (bits ga 47 0) 64 = none
    ∧ mdKind m = 1 ∧ (chanAsk s1 0 (mdReads s1 0 m)).1 = true ∧ (chanAsk s2 0 []).1 = true ∧ lowest (mdFlts (chanAsk s2 0 []).2 0 ga m) = none
    ∧ canRegisterMany (chanAsk s2 0 []).2 0 (.mover 0) (mdRanges (chanAsk s2 0 []).2 0 m) = true := by
  decide +kernel

/-- The same gather into own scratchpad over the map, where another agent has registered the bytes it would write. -/
theorem test_mover_fetch_waits :
    let md := patchBytes gathering.gatherMd 0x18 (leBytes 8 0xFFFF200000000000)
    let s := writeMem { gathering { st := 1, head := 0xFFFF000000001000 } with
               cores := [(0, { heldCore with winBase := (moving {}).cores.headD (0, {}) |>.2.winBase, winBound := (moving {}).cores.headD (0, {}) |>.2.winBound })] } 0x1000 md
    mdRanges s 0 md ≠ [] ∧ canRegisterMany s 0 (.mover 0) (mdRanges s 0 md) = false ∧ lowest (mdFlts s 0 0xFFFF000000001000 md) = none := by
  decide +kernel

/-- A ring block of level tally 1, `STOP` 0 and `START` 1. -/
def ringBlk : List Byte := leBytes 8 (2 ^ 52 + 8) ++ leBytes 4 0 ++ leBytes 4 1 ++ List.replicate 48 0

theorem test_mover_ring :
    ringLevel (moving { st := 1, ring := some ringBlk }) 0 ringBlk = some 0
    ∧ ringLevel { moving { st := 2, ring := some ringBlk } with tallies := [(100, 1)] } 0 ringBlk = some 1 := by decide +kernel

theorem test_mover_states : chanFree ({} : Chan) = true ∧ (∃ h : Chan, h.st = 1 ∧ h.desc ≠ none) ∧ (∃ h : Chan, h.st = 3 ∧ h.pace = 1) ∧ (∃ h : Chan, h.st = 3 ∧ h.pace = 0)
    ∧ ∃ h : Chan, h.st = 2 := ⟨by decide, ⟨{ st := 1, desc := some [] }, rfl, by decide⟩, ⟨{ st := 3, pace := 1 }, rfl, rfl⟩, ⟨{ st := 3 }, rfl, rfl⟩, ⟨{ st := 2 }, rfl⟩⟩

theorem test_mover_ends :
    let m := gathering.gatherMd
    let s := gathering { st := 1, head := 0xFFFF000000001000, desc := some m, unit := 1 }
    chanWhole s 0 (chanOf s 0) m = true ∧ mdRsig m = 0 ∧ translateCtx s 0 0 (BitVec.ofNat 12 (bits (mdCtl m) 55 44)) = some 100 ∧ tallyAt s 100 + bits (mdCtl m) 31 0 < 2 ^ 48 := by
  decide +kernel

theorem test_mover_read :
    let m := gathering.gatherMd
    let s := gathering { st := 1, head := 0xFFFF000000001000, desc := some m, entry := some (0xFFFF000000003000, 600) }
    (chanOf s 0).unit < (sgList m).2 ∧ isHere s (bits (0xFFFF000000003000 : W64) 63 48) = true ∧ accessFlt s 0 .here 0x3000 512 false = none
    ∧ (askSpace s 0 (.mover 0) .here false [(0x3000, 512)]).1 = true ∧ lineFlt (memRd s (.mover 0)) 0x3000 512 = none ∧ tagsHeld (chanOf s 0) < 64 := by decide +kernel

/-- Bank 0 of core 0's scratchpad is taken in this cycle by an agent of a better rank. -/
theorem test_mover_refused :
    let s := moving {}
    let t := { s with cores := [(0, claim (coreOf s 0) 0 (.engine .compute) (portsOf (coreOf s 0) 0 64 false))] }
    (askSpace t 0 (.mover 0) .here false [(0x200000000000, 64)]).1 = false := by decide +kernel

theorem test_mover_write :
    let q : MoverReq := { dev := some 0xFFFF, pieces := [⟨some 0x8000, 2⟩], data := some [1, 2] }
    let s := gathering { st := 1, desc := some gathering.gatherMd, reqs := [q] }
    (chanOf s 0).reqs = [q] ∧ ownRoom s (chanStream 0) = true ∧ accessFlt s 0 .here 0x8000 2 true = none ∧ (askSpace s 0 (.mover 0) .here true [(0x8000, 2)]).1 = true
    ∧ (lineWrites [(0x8000, [1, 2])]).all (fun w => (partialBad s w.1 w.2.length).isNone) = true
    ∧ (lineWrites [(0x8000, [1, 2])]).any (fun w => (partialBad { s with badLines := [0x8000] } w.1 w.2.length).isSome) = true := by decide +kernel

theorem test_mover_stop :
    let s := gathering { st := 4, cause := 4, desc := some gathering.gatherMd, saddr := 0xFFFF000000009000 }
    chanMayStop s 0 = true ∧ memFlt s (coreOf s (chanCore s 0)) 0xFFFF 0x9000 64 true = none
    ∧ (lineWrites [(0x9000, chanStatus s 0)]).all (fun w => (partialBad s w.1 w.2.length).isNone) = true ∧ isHere s 0xFFFF = true := by decide +kernel

/-! ### Witnesses: streams, chains, signals, folds, the relay -/

theorem test_fetch_stream :
    let m : Stream := { q := 1, image := spadImage 0 0 1 64 4 }
    let s := demo { demoCore with fe := { run := .running, streams := [.move m] } }
    let t := modCore s 0 fun k => claim k 0 (.engine .compute) (portsOf k 0 64 false)
    let ask := fun (s : State) => askSpace s 0 (.engine .fetch) ((Desc.of m.image).space s) false
      ((entryLines (Desc.of m.image) (streamRd s 0 m) m.next).dedup.map fun l => (l, 64))
    (queueAt (coreOf s 0) 1).length < 64 ∧ (Desc.of m.image).space s = .spad ∧ usesCache s 0 (Desc.of m.image) = false
    ∧ (match (Desc.of m.image).entry (streamRd s 0 m) m.next with | some (.ok bs) => bs.length == 64 | _ => false) = true
    ∧ (ask s).1 = true ∧ (ask t).1 = false := by decide +kernel

theorem test_fetch_stream_full : 64 ≤ (queueAt (setQueue demoCore 1 (List.replicate 64 [])) 1).length := by decide +kernel

theorem test_store_stream :
    let d := Desc.of (spadImage 0 0 1 64 4)
    let ask := fun (s : State) => askSpace s 0 (.engine .store) .spad true ((d.entryWrites 0 (padTo 64 [1])).map fun w => (w.1, w.2.length))
    d.space (demo demoCore) = .spad ∧ d.sparse = false ∧ d.accw = false ∧ d.unitCount = 64 ∧ d.entries = 4 ∧ queueAt (setQueue demoCore 0 [[1]]) 0 = [[1]]
    ∧ ownRoom (demo demoCore) 0 = true ∧ (ask (demo demoCore)).1 = true
    ∧ (ask (demo (claim demoCore 0 (.engine .compute) (portsOf demoCore 0 64 true)))).1 = false := by decide +kernel

theorem test_signal_overflows : chanFree (chanOf (moving { st := 1, desc := some [] }) 0) = false := by decide +kernel

theorem test_signal_arrives :
    let q : LocalSig := { core := 0, eng := .compute, pc := 0, phys := 100, amount := 1, virt := 1 }
    tallyAt tallied 100 + q.amount < 2 ^ 48 ∧ 2 ^ 48 ≤ tallyAt { tallied with tallies := [(100, 0xFFFFFFFFFFFF)] } 100 + q.amount := by decide +kernel

/-- An image on its way to core 0 of the cluster, from channel 0. -/
def relayIm : RelayImage := { tile := [], tally := 1, mask := 1, pos := 0, chan := 0 }

theorem test_relay :
    let s := moving {}
    (relayIm.mask.getLsbD 0 = true ∧ ctxOf (coreOf s 0) = chanCtx (chanOf s relayIm.chan) ∧ goodCore s 0 = true) ∧ (coreOf s 0).relayBuf.length < 2
    ∧ ¬ ({ relayIm with pos := 31 }).mask.getLsbD 31 = true ∧ 2 ≤ ({ demoCore with relayBuf := [relayIm, relayIm] } : Core).relayBuf.length := by decide +kernel

theorem test_counted_act : ∀ e ∈ [({ uncredited := 63, held := [{ ctx := 0, t := 1, bytes := 64 }] } : SrcStream), { uncredited := 64, held := [{ ctx := 0, t := 1, bytes := 64 }] }], e.held.length = 1 ∧ rsigTally tallied 0 1 = some 100 := by
  decide +kernel

theorem test_counted_act_full : (0xFFFF : BitVec 16) = tallied.fabric.devaddr ∧ (0x200 : BitVec 12).toNat < 0x400
    ∧ 2 ^ 48 ≤ tallyAt { tallied with tallies := [(100, 0xFFFFFFFFFFFF)] } 100 + 1 := by decide +kernel

theorem test_fold_ready :
    let q : LocalSig := { core := 0, eng := .compute, pc := 0, phys := 100, amount := 1, virt := 1 }
    let s := { tallied with folds := [(0, { defn := 0x4000000000000000 + 1, arrived := 1, named := [q, q] })] }
    foldReady s 0 0 = true ∧ foldScope (foldOf s 0 0) = 1 ∧ foldReady folded 0 0 = false ∧ tallyAt s 100 + ((foldOf s 0 0).named.map (·.phys)).count 100 < 2 ^ 48 := by
  decide +kernel

/-- The block of a chain of one pass of one row of FP8: staging at 0x8000, 0xC000 and 0x10000, the drain writing 64 FP32 elements. -/
def chainBlk (wturn : W64) : List Byte :=
  padTo 128 ((([0x2400000000000000, 0x600000, 0, 0x8000, 0x400000C000, 0x10000, wturn.toNat, 0, 0, 0, 0] : List Nat).map (leBytes 8)).flatten)

/-- A tile image of one column of 32 FP8 inputs. -/
def fp8Tile : AMap Byte := setBytes [] 0 (leBytes 64 (4 + 32 * 2 ^ 16 + 2 ^ 32))

/-- An accepted chain of one pass: a tile image as weights, one row of FP8, 64 FP32 elements out. -/
def oneChain : Chain :=
  { deferred := false, d1 := imageOf (0xA * 2 ^ 60 + 2 ^ 53) 0x4000 [0, 0, 0, 0, 1] [1, 1, 1, 1, 6720], d2 := spadImage 4 0 1 32 1, d3 := spadImage 0 0x100 1 64 4, ctl := 0
    tally := 1, serial := 0, accepted := true, blk := chainBlk 0 }

/-- Core 0 with a chain. -/
def chained (ch : Chain) : State := demo { tallyCore with chains := [ch], chainSer := 1 }

/-- The chain with both operands turned by a Turn that changes nothing, and its tile's 64 columns as weights. -/
def turnedChain : Chain :=
  { oneChain with blk := (chainBlk 0x8000000000004688).take 0x38 ++ leBytes 8 0x8000000000004688 ++ List.replicate 64 0, d1 := spadImage 4 0x4000 1 32 1 }

/-- What the fetch stage asks for an operand. -/
def fetchAsk (ch : Chain) (x : State) (d : Desc) : Bool × State :=
  match d.bounds false with
  | some (o, n) => askSpace x 0 (chainFetchAg 0 ch) (d.space x) false [(o.toNat, n)]
  | none => (true, x)

theorem test_chain_fetch :
    let s := chained turnedChain
    let r1 := fetchAsk turnedChain s (chWeights turnedChain 0)
    let r2 := fetchAsk turnedChain r1.2 (chActs turnedChain 0)
    chainAt s 0 0 = some turnedChain ∧ mayFetch s 0 turnedChain = true ∧ cbRtal turnedChain = 0 ∧ (cbTurn turnedChain 0x30).isSome = true
    ∧ (cbTurn turnedChain 0x38).isSome = true
    ∧ lowest ((chWeights turnedChain 0).check s 0 {} 0 ++ (chActs turnedChain 0).check s 0 {} 0) = none ∧ r1.1 = true ∧ r2.1 = true
    ∧ (match elemWords r2.2 0 (chWeights turnedChain 0), elemWords r2.2 0 (chActs turnedChain 0) with | .ok _, .ok _ => true | _, _ => false) = true := by decide +kernel

theorem test_chain_fetch_refused :
    let ch := { turnedChain with d2 := spadImage 4 64 1 32 1 }
    let s := modCore (chained ch) 0 fun k => claim k 0 (.engine .compute) (portsOf k 64 64 false)
    let r1 := fetchAsk ch s (chWeights ch 0)
    mayFetch s 0 ch = true ∧ r1.1 = true ∧ (fetchAsk ch r1.2 (chActs ch 0)).1 = false := by decide +kernel

theorem test_chain_fetch_ends : ({ oneChain with fetched := 1 }).fetched = chPasses oneChain ∧ ({ oneChain with fetched := 2 }).fetched = oneChain.passed + 2 := by decide +kernel

/-- A chain whose operands of one pass are here, its slot at the head of the Turn unit's queue. -/
def turningChain (bad : AMap (Option FaultRec)) : State :=
  { chained { oneChain with blk := chainBlk 0x8000000000004688, fetched := 1, bad := bad } with
    turns := [(0, [{ core := 0, d1 := [], d2 := [], ctl := 0, tally := 0, chain := some 0 }])] }

theorem test_chain_turn : ∀ bad ∈ [([] : AMap (Option FaultRec)), [(0, some { cls := 5, sub := 1, ukind := 5 })]],
    let s := turningChain bad
    (match chainAt s 0 0 with
     | some ch => decide (ch.turned < ch.fetched ∧ (turnsOf s 0).map (fun q => (q.core, q.chain)) = [(0, some ch.serial)] ∧ (cbTurn ch 0x30).isSome = true
         ∧ cbTurn ch 0x38 = none ∧ (mget none ch.bad ch.turned).isSome = !bad.isEmpty)
     | none => false) = true ∧ turnsOf (chained oneChain) 0 = [] := by decide +kernel

theorem test_chain_build :
    let ch := { oneChain with fetched := 1, wRaw := [(0, List.replicate 6720 0)], aRaw := [(0, List.replicate 64 0)] }
    ch.built < ch.fetched ∧ mget none ch.bad ch.built = none ∧ cbTurn ch 0x30 = none ∧ cbTurn ch 0x38 = none ∧ cbRtal ch = 0 ∧ isImages (chWeights ch ch.built) = true
    ∧ (mget [] ch.wRaw ch.built).length = tileBytes ∧ cbWst ch 0 + tileBytes ≤ cbAst ch 0 := by decide +kernel

theorem test_chain_pass : ∀ dfr ∈ [false, true],
    let ch := { oneChain with deferred := dfr, fetched := 1, built := 1, images := [(0, fp8Tile)] }
    spillDue ch = false ∧ ch.passed < ch.built ∧ arrayFree (chained ch) 0 = true ∧ ch.draining = false ∧ cbRtal ch = 0
    ∧ lowest (tileHdrFlt fp8Tile 0x8000 ++ tileMetaFlt fp8Tile (List.range (tileNcol fp8Tile)) 0x8000) = none ∧ BitVec.ofNat 64 (cbWst ch 0) = 0x8000 ∧ tileNin fp8Tile = chNin ch
    ∧ (pairOk (cbAop ch) (tileFmt fp8Tile) (Desc.of (chActImage ch 0)).fmt && modeOk (cbAop ch) (setBits (cbWord ch 8) 21 21 1) (tileS24 fp8Tile)) = true := by decide +kernel

theorem test_chain_drain :
    let ch := { oneChain with fetched := 1, built := 1, passed := 1 }
    let s := chained ch
    drainReady ch = true ∧ chainLanded (coreOf s 0) ch = true ∧ (coreOf s 0).drains = []
    ∧ lowest ((drainFlts s 0 s.clock.cycle (chOutImage ch) ch.aux 0 0 (chDrainCtl ch) ch.tally true 0).filter fun f => f.cls != 1 || f.sub == 0xB) = none := by
  decide +kernel

theorem test_chain_ends : awaiting (chained { oneChain with drained := true, stored := true }) 0 (.chain 0) = false ∧ translate (chained oneChain) 0 1 = some 100 := by decide +kernel

theorem test_pieces_start :
    let ch := { oneChain with deferred := true, fetched := 1, built := 1, images := [(0, fp8Tile)] }
    let s := demo { tallyCore with chains := [ch], ce := { run := .stopped } }
    piecesMayStart s 0 = true ∧ (nextPiece s 0).map (·.serial) = some 0 ∧ piecesMayStart tallied 0 = false
    ∧ piecesMayStart (holding (.tally true) [waitSlot (slotOf .compute) 1 0 0x8000000000000001] tallied) 0 = true := by decide +kernel

/-! ### Witnesses: the Herd and the Kilns -/

/-- The block of a pair of one token, one choice and one expert: staging at 0x30000, returned rows at 0x20000, their map at 0x21000. -/
def herdBlk : List Byte :=
  (([0, 2 ^ 16 + 1, 2 ^ 48 + 1, 0, 2 ^ 52 + 1, 0xFFFF000000022000, 0xFFFF000000023000, 0, 0, 0, 0xFFFF000000020000, 0xFFFF000000021000, 0xFFFF000000024000, 0, 0, 0]
    : List Nat).map (leBytes 8)).flatten

/-- The expert's map entry: 1 row, staging, input and tag areas. -/
def herdEntry : List Byte := (([2 ^ 16, 0xFFFF000000030000, 0xFFFF000000031000, 0xFFFF000000032000, 0, 0, 0, 0] : List Nat).map (leBytes 8)).flatten

/-- A live pair of context 0 with one source, this device's cluster 0, and room for one row. -/
def herdPair : HerdPair :=
  { serial := 0, half := false, ctx := 0, core := 0, blk := herdBlk, sources := [0xFFFF0], experts := [(0, some { entry := herdEntry, cap := 1 })] }

/-- A message to it. -/
def herdMsg (kind count : Nat) (tag : W64) : HerdMsg :=
  { kind := kind, cluster := 0, skey := 0, srcDev := 0xFFFF, srcCl := 0, tag := tag, row := List.replicate 64 7, count := count }

/-- The device with the pair live and the message on its way. -/
def herding (p : HerdPair) (m : HerdMsg) : State := { moving {} with herds := [(0, { pairs := [some p, none, none, none] })], herdMsgs := [m] }

theorem test_keep_arrival : ∀ x ∈ [({ entry := herdEntry, cap := 1 } : HerdExpert), { entry := herdEntry, cap := 1, kept := [⟨0, 0, 0⟩] }], x.kept.length ≤ x.cap := by decide
theorem test_keep_better : herdBefore ⟨0, 0x3F800000, 0⟩ ⟨0, 0, 0⟩ = true ∧ herdBefore ⟨0x8000, 0, 0⟩ ⟨0, 0, 0⟩ = false := by decide +kernel

theorem test_herd_row :
    let m := herdMsg 0 0 0
    let s := herding herdPair m
    pairAt s 0 0 false = some herdPair ∧ (streamRoom s m.srcDev (herdStream m.srcCl) && ownRoom s (herdStream m.cluster)) = true
    ∧ (mget none herdPair.experts m.expert).isSome = true ∧ m.skey = ctxKey s 0 ∧ 0xFFFF0 ∈ herdPair.sources
    ∧ 0xFFFF0 ∉ herdPair.counts ∧ herdPair.final = false ∧ (keepArrival { entry := herdEntry, cap := 1 } 0 0).2 = some 0
    ∧ (lineWrites [(bits (wordAt herdEntry 8) 47 0, m.row)]).all (fun w => (partialBad s w.1 w.2.length).isNone) = true
    ∧ (keepArrival { entry := herdEntry, cap := 1, kept := [⟨0, 0, 0⟩] } 0x8000 0).2 = none := by
  decide +kernel

/-- 8,192 other streams leave no room for a row's (R295). -/
theorem test_herd_no_room : ∃ s : State, (streamRoom s 0xFFFF (herdStream 0) && ownRoom s (herdStream 0)) = false :=
  ⟨{ State.reset with srcs := (List.range 8192).map fun n => (n, { uncredited := 1 }) }, by decide +kernel⟩

theorem test_herd_count :
    let s := herding { herdPair with rowsFrom := [(0xFFFF0, 1)] } (herdMsg 1 1 0)
    rowsBefore s (herdMsg 1 1 0) = false ∧ rowsMissing s (herdMsg 1 1 0) = false ∧ mget 0 [(0xFFFF0, 1)] 0xFFFF0 = 1
    ∧ rowsBefore (herding herdPair (herdMsg 1 0 0)) (herdMsg 1 0 0) = false ∧ rowsMissing (herding { herdPair with sources := [] } (herdMsg 1 0 0)) (herdMsg 1 0 0) = false := by
  decide +kernel

theorem test_herd_return :
    let m := herdMsg 2 0 0
    let s := herding herdPair m
    (streamRoom s m.srcDev (herdStream m.srcCl) && ownRoom s (herdStream m.cluster)) = true
    ∧ bits m.tag 30 15 < hbT herdBlk ∧ bits m.tag 14 12 < hbK herdBlk ∧ isHere s (bits (wordAt herdBlk 0x58) 63 48) = true
    ∧ isHere s (bits (wordAt herdBlk 0x50) 63 48) = true ∧ bits (wordAt herdBlk 0x58) 47 0 = 0x21000 ∧ bits (wordAt herdBlk 0x50) 47 0 = 0x20000
    ∧ (memRd s).byte 0x21000 ≠ 1 ∧ (lineWrites [(0x20000, m.row)]).all (fun w => (partialBad s w.1 w.2.length).isNone) = true ∧ partialBad s 0x21000 1 = none
    ∧ (memRd (writeMem s 0x21000 [1])).byte 0x21000 = 1 := by decide +kernel

theorem test_herd_done :
    let s := herding { herdPair with retFrom := [(0xFFFF0, 1)] } (herdMsg 3 1 0)
    rowsBefore s (herdMsg 3 1 0) = false ∧ rowsMissing s (herdMsg 3 1 0) = false ∧ mget 0 [(0xFFFF0, 1)] 0xFFFF0 = 1 := by decide +kernel

theorem test_herd_finalise :
    let p := { herdPair with counts := [0xFFFF0] }
    let s := herding p (herdMsg 3 1 0)
    pairAt s 0 0 false = some p ∧ p.final = false ∧ p.broken = false ∧ s.badLines = [] ∧ ownRoom s (herdStream 0) = true ∧ p.experts ≠ [] ∧ (∀ q ∈ p.sources, q ∈ p.counts) ∧ translate s 0 (hbRtal herdBlk) = some 100 ∧ tallyAt s 100 + 1 < 2 ^ 48 := by
  decide +kernel

/-- A `herd.comb` into a row of 16 FP32 elements of own scratchpad. -/
def combCmd : HerdCmd :=
  { id := 0, core := 0, ctx := some 0, op := 6, ctl := 0, blk := herdBlk, fetched := true, off := 0x1000, tally := 1, d1 := spadImage 0 0x2000 1 16 4, homes := [0xFFFF0] }

/-- The device with that command waiting, its one home done. -/
def combining (k : Core → Core) : State :=
  modCore { herding { herdPair with dones := [0xFFFF0] } (herdMsg 3 1 0) with
            herds := [(0, { pairs := [some { herdPair with dones := [0xFFFF0] }, none, none, none], cmds := [combCmd] })] } 0 k

theorem test_herd_combine :
    let s := combining id
    let r := combineTake s combCmd
    let a := ((herdArrays 6 combCmd.blk).filter fun x => !x.2.2).foldl (fun s x => noteAt s x.1 x.2.1) r.2
    (herdOf s 0).cmds = [combCmd] ∧ (pairAt s 0 (hbSerial combCmd.blk) (hbHalf combCmd.blk)).isSome = true ∧ r.1 = true ∧ (herdCombineRun a combCmd).2.1 = none
    ∧ (combineTake (combining fun k => claim k 0 (.engine .compute) (portsOf k 0x2000 64 true)) combCmd).1 = false := by
  decide +kernel

theorem test_herd_ends :
    let q := { combCmd with words := some [0, 1, 0, 1] }
    let s := combining id
    heldBy (coreOf s 0) (.herd 1) (0x1080 / 64 * 64) (roundUp (0x1080 + 64) 64) true = false ∧ ownRoom s (herdStream 0) = true
    ∧ (askPorts s 0 (.herd 1) (portsOf (coreOf s 0) 0x1080 64 true)).1 = true
    ∧ (let t := combining fun k => claim k 0 (.engine .compute) (portsOf k 0x1080 64 true)
       (askPorts t 0 (.herd 1) (portsOf (coreOf t 0) 0x1080 64 true)).1 = false)
    ∧ translate s 0 q.tally = some 100 := by decide +kernel

theorem test_update_rules : ∀ r ∈ [0, 1, 2, 3, 4], ksRule { op := 0, core := 0, eng := .compute, ctx := none, off := 0, tally := 0, blk := leBytes 8 (r * 2 ^ 52) } = r := by
  decide +kernel

/-- An accepted update of context 0: norm tally 1 with a target, one norm slot at 0x40000, a clip limit of 1, and words 0 and 0x30. -/
def stepCmd (w0 target w30 : Nat) : KilnCmd :=
  { op := 0, core := 0, eng := .compute, ctx := some 0, off := 0x1000, tally := 1, phase := 1
    blk := (([w0, 0xFFFF000000042000, 0xFFFF000000050000, 0xFFFF000000040000, 2 ^ 52 + target, 2 ^ 48, w30, 0, 0x3F800000] : List Nat).map (leBytes 8)).flatten
      ++ List.replicate 56 0 }

/-- The device with a command in Kiln 0, and one norm slot of n values. -/
def kilning (q : KilnCmd) (n : Nat) : State := writeMem { moving {} with kilns := [(0, { cmds := [q] })] } 0x40000 (leBytes 16 n)

theorem test_step_waits : kilnTally (kilning (stepCmd 0 1 0) 0) (stepCmd 0 1 0) (ksNtally (stepCmd 0 1 0)) = some 100 ∧ tallyAt (kilning (stepCmd 0 1 0) 0) 100 < bits (kb (stepCmd 0 1 0) 0x20) 47 0 := by
  decide +kernel

/-- Whether every element of a stream is there. -/
def allRead (l : List (Except Flt SElem)) : Bool := l.all fun e => match e with | .ok _ => true | .error _ => false

theorem test_step_starts :
    let q := stepCmd (2 ^ 50) 0 0
    let s := kilning q 0
    let hf := kilnTensor s q
    bits (kb q 0x20) 47 0 ≤ tallyAt s 100 ∧ mhTenant hf.1 = false ∧ (globalRd s (kb q 0x18)).bad (loc (kb q 0x18)) (16 * ksNslot q) = none
    ∧ f32IsFin ((normSlots s q).foldl (fun a e => f32Add a e.2) 0) = true ∧ bits (kb q 0x28) 47 0 = 0 ∧ ksRing q = false ∧ ksNofire q = true
    ∧ s.badLines = [] ∧ allRead (streamOf s hf.1) = true := by decide +kernel

/-- An update whose gradients come through a ring of 16 chunks, its producer and consumer tally 1 and 2. -/
def ringCmd : KilnCmd := stepCmd (2 ^ 51 + 2 ^ 50) 0 (2 ^ 52 + 2 * 2 ^ 40 + 2 ^ 24)

theorem test_ring_starts :
    let s := kilning ringCmd 2000
    ksRing ringCmd = true ∧ ksNslot ringCmd = 1 ∧ (∀ e ∈ normSlots s ringCmd, segChunks e.1 ≤ ksRch ringCmd) ∧ nextSeg (normSlots s ringCmd) 1 0 < 1 := by decide +kernel

theorem test_ring_chunk :
    let q := { ringCmd with phase := 2, slots := [(2000, 0)] }
    let s := kilning q 2000
    let t := { s with tallies := [(100, 1)] }
    kilnTally s q (ksRprod q) = some 100 ∧ kilnTally s q (ksRcons q) = some 101 ∧ tallyAt s 100 < bits (kb q 0x38) 47 0 + q.seg + 1
    ∧ bits (kb q 0x38) 47 0 + q.seg + 1 ≤ tallyAt t 100 ∧ lineFlt (memRd t) (loc (kb q 0x10)) 4096 = none ∧ q.chunk + 1 < segChunks (q.slots.getD 0 (0, 0)).1
    ∧ q.seg < q.slots.length ∧ tallyAt t 101 + 1 < 2 ^ 48 ∧ ksNofire q = true ∧ allRead (streamOf t (kilnTensor t q).1) = true
    ∧ (match (runStream 0 (kilnTensor t q).1 (kilnTensor t q).2 (fun _ => some 0) (streamOf t (kilnTensor t q).1) t q).2 with | .ok _ => true | .error _ => false) = true := by
  decide +kernel

/-- The last chunk of a segment with another after it. -/
theorem test_ring_segment :
    let q := { ringCmd with phase := 2, slots := [(2000, 0), (5, 0)], chunk := 1 }
    segChunks (q.slots.getD q.seg (0, 0)).1 ≤ q.chunk + 1 ∧ nextSeg q.slots q.slots.length (q.seg + 1) < q.slots.length := by decide +kernel

theorem test_step_ends :
    let q := { stepCmd 0 0 0 with phase := 3 }
    let s := kilning q 0
    let t := modCore s 0 fun k => claim k 0 (.engine .compute) (kilnPorts s q)
    kilnFree s 0 q = true ∧ s.badLines = [] ∧ (askPorts s q.core .kiln (kilnPorts s q)).1 = true ∧ (askPorts t q.core .kiln (kilnPorts t q)).1 = false
    ∧ isHere s (bits (kb { q with blk := patchBytes q.blk 0x70 (leBytes 8 0xFFFF000000060000) } 0x70) 63 48) = true ∧ isHere s (bits (kilnHdr q + 0x18) 63 48) = true := by
  decide +kernel

theorem test_kiln_done : ∃ q : KilnCmd, q.mc = true ∧ q.phase = 3 ∧ q.op = 2 := ⟨{ stepCmd 0 0 0 with mc := true, phase := 3, op := 2 }, rfl, rfl, rfl⟩
theorem test_kiln_result : ctxOf (coreOf tallied (stepCmd 0 0 0).core) = (stepCmd 0 0 0).ctx ∧ (stepCmd 0 0 0).words.length ≤ 8 := by decide +kernel

/-- A cast of a tensor of no elements whose header is all zeros. -/
theorem test_mask_run :
    let q : KilnCmd := { stepCmd 0 0 0 with op := 4, blk := List.replicate 128 0 }
    let s := kilning q 0
    let h := readMem s 0 128
    let s1 := noteArrays s ((wordAt q.blk 8, 128) :: passOneArrays 4 q.blk h)
    (kilnCmds s 0)[0]? = some q ∧ s.badLines = [] ∧ lowest (passOneFlts s1 4 q.blk h) = none
    ∧ (match decideMask s1 4 q.blk h with | .ok _ => true | .error _ => false) = true ∧ q.fire = [] := by decide +kernel

/-! ### Witnesses: memory units and the fabric -/

/-- The device with stack 0 as given, at a beat. -/
def tending (m : MemUnit) (beat : Nat) : State := { moving {} with units := [(0, m)], clock := { beat := beat } }

theorem test_memory_units :
    scrubDue (tending { present := true, cal := true } 1) 0 = true ∧ scrubDue (tending { present := true } 1) 0 = true
    ∧ windowOpens (tending { present := true, period := 10, caln := 5 } 5) 0 = true ∧ windowOpens (tending { present := true, period := 10, caln := 5 } 4) 0 = false
    ∧ (let s := tending { present := true } 960000; forcedDue s 0 = true ∧ firstDue s 0 = true ∧ tierLast s 0 < s.clock.beat)
    ∧ forcedDue (tending { present := true } 959999) 0 = false ∧ firstDue (tending { present := true, cal := true } 960000) 0 = false := by decide +kernel

/-- The device with address 1 and port 0 as given, ready for frames, and an import entry that accepts every source over HBM. -/
def linked (q : Port) : State :=
  { moving {} with fabric := { State.reset.fabric with ports := [(0, q)], devaddr := 1, ready := true
                                                       imports := [(0, 0xE000000000000000), (3, 0x6000000000)] } }

theorem test_link_trains : lanesUp (15 &&& ~~~(portOf (linked { st := 1 }) 0).dropped &&& (portOf (linked { st := 1 }) 0).peer.getD 15) = 15
    ∧ lanesUp (15 &&& ~~~(0 : BitVec 4) &&& (some (7 : BitVec 4)).getD 15) = 3 ∧ lanesUp (15 &&& ~~~(15 : BitVec 4) &&& 15) = 0 ∧ (linked { st := 1 }).plan.ports.getLsbD 0 = true := by decide +kernel

theorem test_link_events :
    (∃ q : Port, q.st = 1 ∧ q.linked = true ∧ q.unacked ≠ []) ∧ (∃ q : Port, 2 ≤ q.st ∧ q.lanes.getLsbD 0 = true ∧ q.retrains = [] ∧ q.naks = 8 ∧ q.unacked ≠ [])
    ∧ (∃ q : Port, 2 ≤ q.st ∧ q.excess = true) ∧ (∃ q : Port, 2 ≤ q.st ∧ q.known = true ∧ q.neigh ≠ 1) ∧ ∃ q : Port, 2 ≤ q.st ∧ q.lastHello + 1000 ≤ 1000 :=
  let f : Frame := { typ := 1, vc := 0, dst := 1, src := 2 }
  ⟨⟨{ st := 1, linked := true, unacked := [f] }, rfl, rfl, by decide⟩, ⟨{ st := 2, lanes := 15, naks := 8, unacked := [f] }, by decide, by decide, rfl, rfl, by decide⟩
   , ⟨{ st := 2, excess := true }, by decide, rfl⟩, ⟨{ st := 2, known := true }, by decide, rfl, by decide⟩, ⟨{ st := 2 }, by decide, by decide⟩⟩

theorem test_link_control :
    (let q : Port := { st := 2, lanes := 15, credits := [1024, 768, 128, 64] }
     ctlFits q = true ∧ ctlFits { q with credits := [1024, 768, 128, 0] } = false ∧ vcUsed (linked q) 0 3 + ctlCredits ≤ 64
     ∧ (q.lastHello = 0 ∧ q.lastMark = 0) ∧ ({ q with owed := [1, 0, 0, 0] } : Port).owed.all (· == 0) = false ∧ q.ctl = [])
    ∧ ({ serial := 1, port := 0, grade := 0xA, devaddr := 2, plan := 1, crcOk := false } : Hello).crcOk = false := by decide +kernel

/-- A frame that waits to leave for device 2, which a routing entry reaches through port 0. -/
def leaving : Frame := { typ := 1, vc := 0, dst := 2, src := 1 }

theorem test_frame_routes :
    let s := linked { st := 2, lanes := 15, credits := [1024, 768, 128, 64] }
    let r := { s with fabric := { s.fabric with waiting := [{ frame := leaving }], memberRt := [(2, 0x8000000000000000)] } }
    let e := { r with fabric := { r.fabric with ports := [(0, { st := 2, lanes := 15, credits := [0, 0, 0, 0] })] } }
    behindOther r 0 { frame := leaving } = false ∧ streamFull r leaving = false ∧ (routeFrame r { frame := leaving } = .port 0 false)
    ∧ routeFrame e { frame := leaving } = .wait ∧ routeFrame s { frame := leaving } = .none ∧ routeFrame s { frame := { leaving with dst := 1 } } = .here
    ∧ mustWait s { leaving with dst := 1 } = false := by decide +kernel

theorem test_frame_waits : ∀ b ∈ [9999, 10000], ∃ o : Outstanding, o.sent = 0 ∧ (b < 0 + (linked {}).fabric.tmo.toNat ∨ 0 + (linked {}).fabric.tmo.toNat ≤ b) := by
  intro b _; exact ⟨{ agent := .kiln, core := 0, sent := 0, frame := leaving }, rfl, by omega⟩

/-- A frame with its CRC. -/
def withCrc (f : Frame) : Frame := { f with crc := frameCrc f }

/-- A write of 2 bytes, a read of 2 bytes, the answers to frames of this device, a counted signal, fold and Herd frames. -/
def arriving (typ : Nat) (g : Frame → Frame) : Frame :=
  withCrc (g { typ := BitVec.ofNat 4 typ, vc := BitVec.ofNat 2 (frameVc typ), dst := 1, src := 2, stream := 0xC10 })

/-- Whether a frame is taken at port 0 of a state, as `Obligations.FrameArrivals` asks. -/
def takenAt (s : State) (f : Frame) : Bool :=
  (portOf s 0).st == 2 && !badFrame f && f.lseq == (portOf s 0).recvSeq && decide (vcUsed s 0 f.vc.toNat + frameCredits f ≤ vcSize f.vc.toNat) && s.fabric.ready && f.src != 0xFFFF
  && f.dst == s.fabric.devaddr && s.fabric.parked == [] && !mustWait s f && s.boot.state != 2

/-- A frame taken at port 0 has been acknowledged on its link. -/
def acked (s : State) (f : Frame) : State :=
  drained (sendCtl (setPort s 0 { portOf s 0 with recvSeq := (portOf s 0).recvSeq + 1, waitNak := false }) 0 { ack := some f.lseq }) 0 f

/-- The device with its port up. -/
def upLink : State := linked { st := 2, lanes := 15, credits := [1024, 768, 128, 64] }

theorem test_frame_bad : badFrame leaving = true ∧ badFrame (withCrc leaving) = false ∧ reservedTyp { leaving with typ := 14 } = true ∧ reservedTyp { leaving with typ := 0 } = true
    ∧ ((linked { st := 2, recvSeq := 5 }).fabric.ports.head?.map fun q => decide ((q.2.recvSeq - 4).toNat < 2 ^ 19)) = some true := by decide +kernel

theorem test_frame_write :
    let f := arriving 1 fun f => { f with addr := 0x1000, len := 2, payload := [1, 2] }
    let a := acked upLink f
    takenAt upLink f = true ∧ imported a 0 f 2 true = true ∧ reachable a 0 f 2 = true ∧ inCsr f.addr.toNat = false
    ∧ (lineWrites [(f.addr.toNat, f.payload)]).all (fun w => (partialBad upLink w.1 w.2.length).isNone) = true
    ∧ f.sseq = (windowOf a f).next ∧ (windowOf a f).early = [] := by decide +kernel

theorem test_frame_read :
    let f := arriving 2 fun f => { f with addr := 0x1000, aux := 2 }
    takenAt upLink f = true ∧ imported (acked upLink f) 0 f 2 false = true ∧ reachable (acked upLink f) 0 f 2 = true ∧ f.mcf = false ∧ inSpad f.addr.toNat = false ∧ badIn upLink f.addr.toNat 2 = none := by
  decide +kernel

/-- The device with a request of its own outstanding. -/
def asked (typ : BitVec 4) : State :=
  { upLink with fabric := { upLink.fabric with
      outst := [{ agent := .engine .compute, core := 0, sent := 0, frame := { leaving with typ := typ, stream := 0xC10 } }] } }

theorem test_frame_answers :
    (let f := arriving 3 id; takenAt (asked 2) f = true ∧ ((outstFor (acked (asked 2) f) f).map (·.frame.typ)) = some 2)
    ∧ (let f := arriving 4 id; takenAt (asked 1) f = true ∧ ((outstFor (acked (asked 1) f) f).map (·.frame.typ)) = some 1)
    ∧ (let f := arriving 5 fun f => { f with aux := 6 }; takenAt (asked 1) f = true ∧ (outstFor (acked (asked 1) f) f).isSome = true ∧ bits f.aux 7 0 = 6)
    ∧ (let f := arriving 5 fun f => { f with aux := 3 }
       takenAt (asked 1) f = true ∧ (match outstFor (acked (asked 1) f) f with | some o => (errorFlt (asked 1) o 3 0 0).isSome | none => false) = true) := by decide +kernel

theorem test_frame_signal :
    let f := arriving 6 fun f => { f with addr := 0x300080000008 }
    let s := { upLink with ctxs := [(0, 0x8000000000000000), (20, 0xA001010000000064)] }
    takenAt s f = true ∧ signalTarget 0x300080000008 = (0, 1) ∧ ctxState s 0 = 2 ∧ (rsigTally s 0 1).isSome = true ∧ f.skey = ctxKey s 0
    ∧ ctxState { s with ctxs := [] } 0 ≠ 2 ∧ takenAt { s with ctxs := [] } f = true := by decide +kernel

theorem test_frame_fold :
    let s := { upLink with folds := [(0, { defn := 0xC000000100000001, grp := 5 })] }
    let g : Frame → Frame := fun f => { f with aux := 0x50 }
    takenAt s (arriving 7 g) = true ∧ takenAt s (arriving 8 g) = true ∧ foldPlace s (foldNum (arriving 7 g)) (foldGroup (arriving 7 g)) = some 0
    ∧ (foldOf s (foldHome 0 (foldOf s 0 0)) 0).sentUp = false := by decide +kernel

theorem test_frame_herd :
    (let f := arriving 9 fun f => { f with aux := 0, len := 16, payload := List.replicate 16 1 }
     takenAt upLink f = true ∧ fromHerd f = true ∧ f.payload.length = 16 + f.aux.toNat ∧ bits f.addr 47 8 = 0 ∧ (herdOf upLink 0).parts = [])
    ∧ (let f := arriving 0xA fun f => { f with aux := 1, len := 16, payload := List.replicate 16 0 }
       takenAt upLink f = true ∧ fromHerd f = true) := by decide +kernel

theorem test_beats :
    let s := { upLink with fabric := { upLink.fabric with src := 1, beatCtl := 0x8000000000000000 } }
    let t := { upLink with fabric := { upLink.fabric with src := 1 }, clock := { beat := 2000000 } }
    beatRoot s = true ∧ upstream upLink = 0 ∧ upstream t = 0 ∧ (firstUp t).1 = 0 ∧ (upstream s ≠ 0 ∧ (firstUp s).1 ≠ 0) ∧ t.fabric.lastUp + 1024 ≤ t.clock.beat
    ∧ t.fabric.lastHb + 2 * bits t.fabric.hbp 31 0 ≤ t.clock.beat ∧ upLink.clock.beat < upLink.fabric.lastHb + 2 * bits upLink.fabric.hbp 31 0 := by decide +kernel

/-! ### Witnesses: contexts and registers -/

/-- A command block: first word, beat word, the words after them. -/
def block (w : Nat) (ws : List Nat) : List Byte := padTo 128 (leBytes 8 w ++ leBytes 8 0 ++ (ws.map (leBytes 8)).flatten)

/-- A device in service with context 5 parked (key 9, one core of cluster 0, 32 tallies from 100), its command in front. -/
def parkedDevice (b : List Byte) : State :=
  { demo { bundles := 10 } with
    cmdq := [b]
    ctxs := [(5 * 32, 0x4000000000000009), (5 * 32 + 1, 9), (5 * 32 + 2, 0x2000000000), (5 * 32 + 3, 2 ^ 18 + 2 ^ 8), (5 * 32 + 20, 0x800101F000000064)] }

/-- An acquire of context 5 on core 0. -/
def acquireBlk : List Byte := block (2 ^ 56 + 5 * 2 ^ 36) [1]

theorem test_acquire : headBlock (parkedDevice acquireBlk) 1 = some acquireBlk ∧ aqCtx acquireBlk = 5 ∧ aqCores acquireBlk = [0]
    ∧ mayAcquire (parkedDevice acquireBlk) 5 acquireBlk false none = true
    ∧ mayAcquire { parkedDevice acquireBlk with ctxs := [] } 5 acquireBlk false none = false ∧ aqReserved acquireBlk = false
    ∧ headBlock (parkedDevice (block (2 ^ 56 + 5 * 2 ^ 36 + 2 ^ 14) [1])) 1 = some (block (2 ^ 56 + 5 * 2 ^ 36 + 2 ^ 14) [1])
    ∧ aqReserved (block (2 ^ 56 + 5 * 2 ^ 36 + 2 ^ 14) [1]) = true ∧ bit (coreOf (demo { spw := 1 }) 0).spw 0 = true
    ∧ bit (cw (parkedDevice acquireBlk) 5 0x10) 0 = false ∧ 16 ≤ bankOfPhys ({} : Core) 1024 := by decide +kernel
theorem test_enqueue : hasBeat (blkOp (padTo 128 acquireBlk)) = true ∧ 64 ≤ (List.replicate 64 acquireBlk).length := by decide +kernel

/-- The device with context 5 live on core 0. -/
def liveDevice (k : Core) (b : List Byte) (w0 : W64) : State :=
  { parkedDevice b with cores := [(0, { k with coreCtx := 0x8000000000000005 })], ctxs := [(5 * 32, w0), (5 * 32 + 2, 0x2000000000), (5 * 32 + 3, 2 ^ 18 + 2 ^ 8)] }

theorem test_release :
    let b := block (2 * 2 ^ 56 + 5 * 2 ^ 36) []
    let run := liveDevice demoCore b 0x8000000000000009
    let stop := liveDevice { demoCore with fe := {}, ce := {}, se := {} } b 0x8000000000000009
    headBlock run 2 = some b ∧ aqReserved b = false ∧ isKeptRelease run b = false ∧ aqKeeps b = false ∧ ctxState run 5 = 2 ∧ releaseWaits run 5 (aqForce b) = true
    ∧ releaseWaits stop 5 (aqForce b) = false ∧ ctxState (parkedDevice b) 5 ≠ 2 ∧ isKeptRelease (parkedDevice b) b = false
    ∧ isKeptRelease { parkedDevice b with ctxs := [(5 * 32, 0x5000000000000009)] } b = true
    ∧ (let kb := block (2 * 2 ^ 56 + 2 ^ 50 + 5 * 2 ^ 36) []; aqKeeps kb = true ∧ aqReserved kb = false ∧ makerOpen run = true)
    ∧ aqReserved (block (2 * 2 ^ 56 + 2 ^ 35 + 5 * 2 ^ 36) []) = true := by decide +kernel

theorem test_release_ends :
    let r : Release := { ctx := 5, cores := [0] }
    ctxBusy (demo {}) r = false ∧ ctxBusy (demo { chains := [oneChain] }) r = true ∧ coreQuiet (demo { scrub := .scrubbing }) 0 = true := by decide +kernel

theorem test_switch :
    let b := block (3 * 2 ^ 56 + 5 * 2 ^ 36 + 6) [1]
    let run := liveDevice demoCore b 0x8000000000000009
    let stop := liveDevice { demoCore with fe := {}, ce := {}, se := {} } b 0x8000000000000009
    headBlock run 3 = some b ∧ aqReserved b = false ∧ aqKeeps b = false ∧ ctxState run 5 = 2 ∧ aqCores b = sortBy (fun a b => decide (a ≤ b)) (coresOf run 5)
    ∧ releaseWaits run 5 false = true ∧ releaseWaits stop 5 false = false ∧ aqForce b = false
    ∧ (let s := { parkedDevice b with switches := [b], clock := { beat := 1 } }
       (∀ c ∈ aqCores b, (coreOf s c).scrub = .clean ∧ goodCore s c = true) ∧ (wordAt b 8).toNat < s.clock.beat ∧ ctxState s (aqCtx b) ≠ 3)
    ∧ (coreOf (demo { scrub := .scrubbing }) 0).scrub ≠ .clean := by decide +kernel

theorem test_wait_limit :
    let s := fun (beat : Nat) => { holding .queue [] tallied with ctxs := [(0, 0x8000000200000000)], clock := { beat := beat } }
    ctxOf (coreOf (s 2000) 0) = some 0 ∧ ctxWlim (s 2000) 0 = 2 ∧ (s 2000).clock.beat ≤ 0 + 2 * 1000 ∧ 0 + 2 * 1000 < (s 2001).clock.beat
    ∧ (engOf (coreOf (holding .beat [] tallied) 0) .compute).held.map (·.cause) = some .beat := by decide +kernel

theorem test_mc_fill : headBlock (parkedDevice (block (0x15 * 2 ^ 56) [0x1000, 64, 7])) 0x15 = some (block (0x15 * 2 ^ 56) [0x1000, 64, 7]) := by decide +kernel
theorem test_debug : debugOpen (demo {}) = true ∧ debugOpen { demo {} with part := { State.reset.part with fuseB := true } } = false := by decide +kernel

theorem test_register_writes :
    regAt 0x300004000010 = some (.core 0 0x10) ∧ coreRegRw 0x10 = true ∧ regAt 0x300004000040 = some (.core 0 0x40) ∧ badSpw 0x2000000000 = false ∧ badSpw 0x3F001F0001 = true
    ∧ bit (coreOf (demo { spw := 1 }) 0).spw 0 = true ∧ bit (0 : W64) 0 = false ∧ 16 ≤ bankOfPhys ({ spw := 0 } : Core) 1024
    ∧ (ctxOf (coreOf (demo demoCore) 0)).isSome = true ∧ ctxOf (coreOf (demo {}) 0) = none ∧ regAt 0x30000C000320 = some (.tally 100) ∧ tallyLive (demo {}) 100 = false
    ∧ tallyLive tallied 100 = true ∧ regAt 0x30000C000321 = none := by decide +kernel

theorem test_context_word :
    let s := { demo {} with ctxs := [(5 * 32, 0xA000000000000009)] }
    ctxThere s 5 = true ∧ 2 ≤ ctxState s 5 ∧ bits (0xA000000300000009 : W64) 63 62 = ctxState s 5 ∧ bits (0xA000000300000009 : W64) 31 0 = bits (cw s 5 0) 31 0
    ∧ ctxDisc s 5 = true := by decide +kernel

theorem test_reads :
    readClosed (demo {}) 0x1000 = none ∧ inCsr 0x1000 = false ∧ populatedRange (moving {}) 0x1000 8 = true ∧ badIn (moving {}) 0x1000 8 = none
    ∧ readClosed { demo {} with part := { State.reset.part with fuseB := true } } 0x200000000000 = some 0x54
    ∧ readClosed (demo {}) 0x300004000010 = none ∧ (regVal (demo {}) (.core 0 0x10)).isSome = true := by decide +kernel

theorem test_record_out :
    let s := { demo {} with fabric := { State.reset.fabric with ports := [(16, { st := 2, credits := [0, 0, 4, 0] })] } }
    2 ≤ (portOf s 16).st ∧ 4 ≤ (portOf s 16).credits.getD 2 0 ∧ 2 < (portOf s 16).credits.length ∧ (portOf (demo {}) 16).credits.getD 2 0 < 4 := by decide +kernel

/-! ### Witnesses: securing, replicas, fences, service -/

/-- The device with a plan of one region of context 5 (64 bytes at 0x100000, number 1) and a keep-area of two slots of 64 MiB in DDR5. -/
def securing (b : List Byte) (k : Option Nat) : State :=
  writeMem { moving {} with
    cmdq := [b], cores := (match k with | some w => [(0, { coreCtx := BitVec.ofNat 64 w })] | none => [])
    ctxs := [(5 * 32, if k.isSome then 0x8000000000000009 else 0x4000000000000009)]
    secure := { State.reset.secure with plan := BitVec.ofNat 64 (2 ^ 48 + 0x60000), keepLoc := 0x0001100000000001 } }
    0x60000 (leBytes 8 0x100000 ++ leBytes 8 64 ++ leBytes 8 (5 * 2 ^ 50 + 2 ^ 48 + 1))

/-- The armed round of that plan. -/
def oneRound (g : Region → Region) : Round := { number := 1, regions := [g { regSrc := 0x100000, regLen := 64, ctx := 5, devWide := false, isDig := true, regId := 1 }] }

/-- The device with that round. -/
def inRound (r : Round) (k : Option Nat) : State :=
  let s := securing [] k
  { s with secure := { s.secure with round := some r } }

theorem test_cone : (∀ beat ∈ [999, 1000], beat < 0 + 1000 ∨ 0 + 1000 ≤ beat) ∧ badPlan (securing [] none) (planRegions (securing [] none)) = false
    ∧ oddPlan (securing [] none) = false
    ∧ bits (securing [] none).secure.cfg 63 61 = 4 ∧ bits (securing [] none).secure.cfg 47 32 = 64
    ∧ (let s := securing [] none
       let t := { s with secure := { s.secure with points := 300 } }
       4 ≤ Nat.min 7 ((t.secure.points - t.secure.points / 16 + coneInput t + bits t.secure.ext 7 0) / 64)
       ∧ Nat.min 7 ((s.secure.points - s.secure.points / 16 + coneInput s + bits s.secure.ext 7 0) / 64) < 4) := by decide +kernel

theorem test_round_arm :
    let b := block (0x10 * 2 ^ 56) []
    headBlock (securing b none) 0x10 = some b ∧ armReserved b = false ∧ oddPlan (securing b none) = false ∧ armReserved (block (0x10 * 2 ^ 56 + 1) []) = true
    ∧ oddPlan (writeMem (securing b none) 0x60006 [1]) = true ∧ bit (wordAt b 0) 51 = false
    ∧ badPlan { securing b none with units := [] } (planRegions { securing b none with units := [] }) = true
    ∧ (planRegions (securing b none)).map (·.regId) = [1] := by decide +kernel

theorem test_secure_point : ctxState (securing [] (some 0x8000000000000005)) 5 = 2 ∧ ctxStopped (securing [] (some 0x8000000000000005)) 5 = true
    ∧ ctxStopped (liveDevice demoCore [] 0x8000000000000009) 5 = false := by decide +kernel

theorem test_region_copy :
    let r := oneRound fun g => { g with ready := true }
    let s := inRound r none
    s.secure.round = some r ∧ kilnBusy s 5 = false ∧ badIn s 0x100000 64 = none ∧ keepOn s = true ∧ partnerOn s = false
    ∧ badIn { s with badLines := [0x100000] } 0x100000 64 = some 0x100000 := by decide +kernel

theorem test_round_seal :
    let r := oneRound fun g => { g with ready := true, copied := true }
    let s := inRound r none
    s.gates = [] ∧ (∀ g ∈ r.regions, g.copied = true ∨ g.dropped = true) ∧ r.sealing = false ∧ keepOn s = true ∧ partnerOn s = false ∧ partnerBusy s = false
    ∧ ∃ g ∈ (oneRound id).regions, g.copied = false ∧ g.dropped = false := by
  refine ⟨?_, ?_, ?_, ?_, ?_, ?_, _, List.mem_singleton.mpr rfl, rfl, rfl⟩ <;> decide +kernel

/-- A restore of image 0 or 1 of the own keep-area into the plan at 0x60000. -/
def restoreBlk : List Byte := block (0x11 * 2 ^ 56) [0, 0, 2 ^ 48 + 0x60000]

/-- The device with a sealed image of no region but the system's, of round 1, in slot 0. -/
def sealedImage : State :=
  let man : List Byte := padTo 128 (leBytes 8 1 ++ leBytes 24 0 ++ leBytes 8 0 ++ leBytes 8 1)
  writeMem (securing restoreBlk none) 0x100000000000 (digest32 man ++ leBytes 8 1 ++ leBytes 24 0 ++ man)

theorem test_restore_starts :
    headBlock (securing restoreBlk none) 0x11 = some restoreBlk ∧ awaiting (securing restoreBlk none) 0 (.remote 2) = false ∧ rsSrc restoreBlk < 2
    ∧ keepOn (securing restoreBlk none) = true ∧ (∀ g ∈ localSlots (securing restoreBlk none), imgSealed (securing restoreBlk none) g = false) ∧ rsFab restoreBlk = false := by
  decide +kernel

theorem test_image_sealed : imgSealed sealedImage (0xFFFF * 2 ^ 48 + 0x100000000000) = true ∧ rsChoose sealedImage restoreBlk = some (0xFFFF * 2 ^ 48 + 0x100000000000) := by
  decide +kernel

/-- A restore under way from an image of region 1 whose shard has the digest given. -/
def restoring (dig : List Byte) : State :=
  let s := writeMem (writeMem (securing restoreBlk none) 0x100000000060 (leBytes 8 1 ++ leBytes 8 1)) 0x1000000000A0 (leBytes 8 1 ++ leBytes 8 64 ++ leBytes 8 0x600000 ++ leBytes 8 0 ++ dig)
  { s with secure := { s.secure with restore := some { base := 0xFFFF * 2 ^ 48 + 0x100000000000, ctxs := [5] } } }

theorem test_restore_shard :
    let s := restoring (digest32 (List.replicate 64 0))
    let ga := 0xFFFF * 2 ^ 48 + 0x100000000000
    ((rsPlan s restoreBlk)[0]?.map (·.regLen)) = some 64 ∧ imgFind s ga 1 = some (1, 64, 0x600000, 0) ∧ isHere s (ga / 2 ^ 48) = true
    ∧ digest32 (imgBytes s ga 0x600000 64) = imgDigest s ga 0 ∧ digest32 (imgBytes s ga 0x600000 64) ≠ imgDigest (restoring []) ga 0 ∧ rsAlt restoreBlk = false
    ∧ (rsPlan s restoreBlk)[1]? = none := by decide +kernel

/-- The device in a replica group of n members, as rank r, at the root or with a parent, waiting on context 5. -/
def replicating (n r parent : Nat) (g : Gate) : State :=
  let s := securing [] none
  { s with gates := [(5, some g)], secure := { s.secure with repl := 0x8000000000000000 }
           fabric := { s.fabric with groups := [(0, BitVec.ofNat 64 (2 ^ 63 + parent * 2 ^ 52 + n * 2 ^ 32 + r * 2 ^ 16))] } }

theorem test_replicas :
    let g : Gate := { digest := [1], serial := 1, from_ := [(0, [1]), (1, [1]), (2, [1])] }
    let h : Gate := { digest := [1], serial := 1, from_ := [(0, [1]), (1, [2]), (2, [2])] }
    let s := replicating 3 0 0 g
    replOn s = true ∧ gateOf s 5 = some g ∧ replRoot s = true ∧ replMembers s = 3 ∧ replRank s = 0 ∧ allDigests s g = true ∧ (∀ r, r < 3 → digestOf g r = g.digest)
    ∧ allDigests s { g with from_ := [] } = false ∧ majority h 3 = some [2] ∧ digestOf h 0 ≠ [2] ∧ replRoot (replicating 3 1 1 g) = false
    ∧ replOn (demo {}) = false ∧ gateOf (demo {}) 5 = none := by decide +kernel

theorem test_peer_copy :
    let s := replicating 3 0 0 { digest := [1], serial := 1, giver := some (2, [2]) }
    ((planRegions s).filter (fun q => q.ctx == 5)).map (·.regLen) = [64] ∧ stepDigest s 5 1 ≠ [2] := by decide +kernel

theorem test_peer_copy_good : ∃ e, stepDigest (writeMem (replicating 3 0 0 { digest := [1], serial := 1 }) 0x100000 (List.replicate 64 3)) 5 1 = e := ⟨_, rfl⟩

theorem test_fence :
    let b := block (0x12 * 2 ^ 56 + 3) []
    headBlock (parkedDevice b) 0x12 = some b ∧ badFence (parkedDevice b) b = false ∧ bits (wordAt b 0) 15 13 = 0
    ∧ badFence { parkedDevice b with plan := {} } b = true ∧ (demo {}).plan.clusters.getLsbD 0 = true := by decide +kernel

theorem test_service :
    let b := fun (action : Nat) => block (0x13 * 2 ^ 56 + action * 2 ^ 52 + 2 ^ 50) []
    let s := fun (a : Nat) => { parkedDevice (b a) with units := [(0, { present := true })] }
    (∀ a ∈ [1, 2, 3, 5], headBlock (s a) 0x13 = some (b a) ∧ svAction (b a) = a ∧ badService (s a) (b a) = false ∧ belowMin (s a) (b a) = false)
    ∧ badService (s 4) (b 4) = true ∧ svAction (b 6) = 6
    ∧ badService { s 6 with service := { drained := [(1, 0)] } } (b 6) = false ∧ belowMin { s 6 with service := { drained := [(1, 0)] } } (b 6) = false
    ∧ belowMin { s 1 with service := { minReg := BitVec.allOnes 64 } } (b 1) = true
    ∧ (let fb := block (0x13 * 2 ^ 56 + 4 * 2 ^ 52) []; badService (parkedDevice fb) fb = false ∧ belowMin (parkedDevice fb) fb = false) := by decide +kernel

theorem test_drains :
    let s := { demo {} with service := { closing := [(1, 0)] } }
    (busyCtxs s = []) ∧ unitBusy s 1 0 = false ∧ unitBusy { s with secure := { s.secure with restore := some { base := 0, ctxs := [] } } } 1 0 = true := by decide +kernel

theorem test_actions : ∀ a ∈ [2, 3, 4, 5, 6],
    let q : SvcReq := { kind := 1, unit := 0, action := a, ret := true, beat := 0 }
    nextAction { demo {} with service := { drained := [(1, 0)], reqs := [q] } } = some q := by decide +kernel

theorem test_load_image :
    let b := padTo 128 (leBytes 8 (0x14 * 2 ^ 56) ++ leBytes 8 0 ++ leBytes 64 1 ++ leBytes 8 0x1000 ++ leBytes 8 64 ++ digest32 (List.replicate 64 0))
    let s := { moving {} with cores := [], cmdq := [b] }
    headBlock s 0x14 = some b ∧ badLoad s b = false ∧ badIn s (ldSrc b) (ldLen b) = none ∧ inHbm (ldSrc b) = true ∧ populatedRange s (ldSrc b) (ldLen b) = true
    ∧ digest32 (readMem s (ldSrc b) (ldLen b)) = ldDig b ∧ digest32 (readMem (writeMem s 0x1000 [1]) (ldSrc b) (ldLen b)) ≠ ldDig b
    ∧ badLoad { s with plan := {} } b = true := by decide +kernel

/-! ### Witnesses: life cycle, batches, resets, power, the block as a whole -/

/-- The device in a life-cycle state (fuses B, G) with a command object of a kind at 0x70000 and its command in front. -/
def signing (b g : Bool) (kind : Nat) : State :=
  writeMem { moving {} with cmdq := [block (0x21 * 2 ^ 56) []], part := { State.reset.part with fuseB := b, fuseG := g, owners := [1] } } 0x70000
    (leBytes 4 0x51543943 ++ leBytes 4 kind ++ List.replicate 56 0)

/-- The command that names the object. -/
def objBlk : List Byte := padTo 128 (leBytes 8 (0x21 * 2 ^ 56) ++ leBytes 8 0x70000 ++ leBytes 8 64)

/-- The device with that command. -/
def objDevice (b g : Bool) (kind : Nat) : State := { signing b g kind with cmdq := [objBlk] }

theorem test_objects : ∀ q ∈ [(false, false, 1), (true, false, 2), (true, false, 3), (true, true, 4), (true, true, 5)],
    let s := objDevice q.1 q.2.1 q.2.2
    headBlock s 0x21 = some objBlk ∧ badIn s (objAddr objBlk) (objLen objBlk) = none ∧ objKind (objBytes s objBlk) = q.2.2 ∧ kindAllowed s q.2.2 = true
    ∧ headerOk s (objBytes s objBlk) = true ∧ headerOk { s with life := { s.life with nonce := 1 } } (objBytes s objBlk) = false ∧ destructionDue s = false
    ∧ objReserved objBlk = false ∧ badIn { s with badLines := [0x70000] } (objAddr objBlk) (objLen objBlk) = some 0x70000 := by decide +kernel

theorem test_object_reserved : objReserved (padTo 128 (leBytes 8 (0x21 * 2 ^ 56 + 1) ++ leBytes 8 0x70000 ++ leBytes 8 64)) = true := by decide +kernel

theorem test_object_signed : ∀ (s : State) (o : List Byte), let key := (o.drop 64).take (Config.xmssKeyBytes (o.drop 64))
    Config.xmssVerify key (o.take (64 + key.length)) ((o.drop 64).drop key.length) = true → signerDigest s (objKind o) = some (BitVec.ofNat 256 (leNat (digest32 key))) →
    signatureOk s o = true := by
  intro s o key h1 h2
  simp only [signatureOk, Bool.and_eq_true, beq_iff_eq]; exact ⟨h2, h1⟩

theorem test_owners : (State.reset.part.owners).length < 4 ∧ (List.replicate 4 (1 : BitVec 256)).length = 4 := by decide

theorem test_destruction : destructionDue { demo {} with cores := [], plan := {}, part := { State.reset.part with fuseB := true, fuseS := true } } = true := by decide +kernel

/-- A batch of one request of kind 2 at 0x70000, its answer at 0x80000. -/
def batchBlk (cap : Nat) : List Byte := padTo 128 ((([0x20 * 2 ^ 56, 0x70000, 1, 0x80000, cap] : List Nat).map (leBytes 8)).flatten)

/-- The device with that batch and the next leaf given. -/
def batching (active : Bool) (leaf cap : Nat) : State :=
  writeMem { moving {} with cmdq := [batchBlk cap], part := { State.reset.part with fuseB := true }, life := { active := active, leaf := leaf } } 0x70000 [2]

theorem test_batch :
    let b := batchBlk 100000
    let s := batching true 1023 100000
    headBlock s 0x20 = some b ∧ lcState s = 1 ∧ batchBadLine s b = none ∧ batchBadLine { s with badLines := [0x70000] } b = some 0x70000 ∧ batchOk s b = true ∧ 96 + 4963 + (batchParts s b).1.length ≤ bkCap b
    ∧ populatedRange s (bkDest b) (96 + 4963 + (batchParts s b).1.length) = true ∧ s.life.active = true ∧ s.life.leaf < 1024
    ∧ bkCap (batchBlk 0) < 96 + 4963 ∧ lcState (demo {}) = 0 := by decide +kernel

theorem test_epochs_burned : (openEpoch { batching false 0 100000 with part := { State.reset.part with epochs := BitVec.allOnes 1024 } } (List.range 3)).2 = none := by decide +kernel

theorem test_epoch_opens : ∀ (s : State) (e : Nat) (r : List Nat), s.part.epochs.getLsbD e = false → Config.fuseBurns s.free e = true → (openEpoch s (e :: r)).2 = some e := by
  intro s e r h hb
  have ok : ((List.range 3).any fun k => Config.fuseBurns (s.free + k) e) = true := List.any_eq_true.mpr ⟨0, by decide, by simpa using hb⟩
  simp only [openEpoch, h, Bool.false_eq_true, if_false, ok, if_true]

theorem test_stages : ∀ n ∈ [0, 1, 2, 3, 4, 5, 6, 7, 8, 9], ∃ s : State, s.boot.state = 0 ∧ s.boot.next = n ∧ destroying s = false :=
  fun n _ => ⟨{ State.reset with boot := { next := n } }, rfl, rfl, rfl⟩
theorem test_slots : ∃ p : Part, slotUsed p = none := ⟨{ slotA := { valid := false }, slotB := { valid := false } }, by decide +kernel⟩
theorem test_slot_newer : slotUsed { slotB := { version := 2 } } = some true ∧ slotUsed {} = some false := by decide +kernel
theorem test_ready_last : ∃ s : State, s.boot.state = 0 ∧ s.boot.next = 9 ∧ s.fabric.ready = true ∧ s.fabric.lock = true :=
  ⟨{ State.reset with boot := { next := 9 }, fabric := { State.reset.fabric with ready := true, lock := true } }, rfl, rfl, rfl, rfl⟩

theorem test_power : (demo {}).boot.state ≠ 2 ∧ (demo {}).power.therm = false
    ∧ (∃ x ∈ readings (demo {}) (List.replicate 28 110), 110 ≤ x) ∧ ∀ x ∈ readings (demo {}) (List.replicate 28 109), x < 110 := by decide +kernel

theorem test_block_idle : State.reset.pending = [] ∧ State.reset.power.therm = false ∧ State.reset.cores = [] ∧ (∀ u, (unitOf State.reset u).recent = [])
    ∧ (∀ k, turnsOf State.reset k = [] ∧ (herdOf State.reset k).cmds = [] ∧ kilnCmds State.reset k = []) ∧ State.reset.fabric.parked = []
    ∧ windowsUsed State.reset = 0 :=
  ⟨rfl, rfl, rfl, fun _ => rfl, fun _ => ⟨rfl, rfl, rfl⟩, rfl, by decide +kernel⟩

theorem test_invariants_at_reset : Memory.wf State.reset.mem = true ∧ SigningSound State.reset := ⟨by decide +kernel, by simp [SigningSound, State.reset]⟩

/-! ### Small checks against published values -/

/-- FIPS 202: SHAKE256 of the empty message begins 46 b9 dd 2b. -/
theorem test_shake : (digest32 []).take 4 = [0x46, 0xB9, 0xDD, 0x2B] := by decide +kernel
/-- The check value of CRC-32: "123456789" gives 0xCBF43926. -/
theorem test_crc : crc32 [0x31, 0x32, 0x33, 0x34, 0x35, 0x36, 0x37, 0x38, 0x39] = 0xCBF43926 := by decide +kernel
/-- IEEE 754: 1.5 + 2.5 = 4, 1/3 rounds to 0x3EAAAAAB, the square root of 2 to 0x3FB504F3, and inf − inf is a NaN. -/
theorem test_float : f32Add 0x3FC00000 0x40200000 = 0x40800000 ∧ f32Div 0x3F800000 0x40400000 = 0x3EAAAAAB ∧ f32Sqrt 0x40000000 = 0x3FB504F3
    ∧ f32IsNan (f32Sub 0x7F800000 0x7F800000) = true ∧ f32Mul 0x00800000 0x00800000 = 0 := by decide +kernel

end Sys2Proof.Tests
end

section
/-! PROOF. What a fault condition at issue does, for every instruction (R17, R41): a condition that the effect of a slot raises is one of its
bundle's, and a bundle that meets one stops its core and does nothing else in it. -/

namespace Sys2Proof.Machine

open Sys2Proof

/-! ### The fault that is taken -/

/-- Where a condition is met, one of those met is taken (R17). -/
theorem exists_lowest_of_mem {f : Flt} {l : List Flt} (h : f ∈ l) : ∃ g, lowest l = some g := by
  cases l with
  | nil => exact absurd h List.not_mem_nil
  | cons a t =>
    unfold lowest
    cases lowest t with
    | none => exact ⟨a, rfl⟩
    | some g =>
      by_cases ha : a.cls < g.cls ∨ (a.cls = g.cls ∧ a.sub ≤ g.sub)
      · exact ⟨a, if_pos ha⟩
      · exact ⟨g, if_neg ha⟩

/-! ### The stop of a core (R41) -/

/-- A core is read from the cores alone. -/
theorem coreOf_of_cores_eq {s t : State} (h : t.cores = s.cores) (c : Nat) : coreOf t c = coreOf s c := by
  rw [coreOf, coreOf, h]

@[simp] theorem report_cores (s : State) (k : Option Nat) (r : Record) : (report s k r).cores = s.cores := by
  unfold report
  cases k with
  | none => rfl
  | some k => by_cases hk : s.plan.clusters.getLsbD k = true <;> simp [hk]

@[simp] theorem reportCore_cores (s : State) (c : Nat) (r : FaultRec) : (reportCore s c r).cores = s.cores := report_cores s _ _

@[simp] theorem reportStopped_cores (s0 s1 s : State) (x : Option Nat) : (reportStopped s0 s1 s x).cores = s.cores := by
  unfold reportStopped
  cases x with
  | none => rfl
  | some x =>
    dsimp only
    split
    · exact reportMC_cores s _
    · rfl

theorem coreOf_stopCore (s : State) (c : Nat) :
    coreOf (stopCore s c) c = if (coreOf s c).faulted then coreOf s c else haltCore (coreOf s c) := by
  unfold stopCore
  split
  · rfl
  · rw [coreOf_of_cores_eq (reportStopped_cores _ _ _ _), coreOf_modCore]

/-- The record of a fault leaves the core as it is; the fault halts it, unless one has done so before. -/
theorem coreOf_coreFault (s : State) (c : Nat) (r : FaultRec) :
    coreOf (coreFault s c r) c = if (coreOf s c).faulted then coreOf s c else haltCore (coreOf s c) := by
  rw [coreFault, coreOf_stopCore, coreOf_of_cores_eq (reportCore_cores s c r)]

theorem coreFault_faulted (s : State) (c : Nat) (r : FaultRec) : (coreOf (coreFault s c r) c).faulted = true := by
  rw [coreOf_coreFault]
  split
  · assumption
  · rfl

theorem coreFault_queueAt (s : State) (c : Nat) (r : FaultRec) (q : Fin 16) :
    queueAt (coreOf (coreFault s c r) c) q = queueAt (coreOf s c) q := by
  rw [coreOf_coreFault]
  split <;> rfl

/-! ### A bundle of one slot that meets a condition -/

/-- Only schedule faults (class 0x01) are given the words of a schedule record. -/
theorem scheduleWords_of_cls_ne (k : Core) (e : Engine) (place : Nat) {f : Flt} (h : f.cls ≠ 1) : scheduleWords k e place f = f := if_neg h

/-- What the effect of a slot raises is among the conditions of the slot. -/
theorem mem_slotFlts_of_effectFlts {s : State} {c n : Nat} {e : Engine} {chk : Bool} {pc : W64} {st : Staged} {f : Flt}
    (h : f ∈ effectFlts s c e chk n pc st) : f ∈ slotFlts s c e chk n pc st := List.mem_append_right _ h

/-- What a slot meets, other than a schedule fault, its bundle meets as it stands. -/
theorem mem_bundleFlts_of_slotFlts {s : State} {c n : Nat} {e : Engine} {chk : Bool} {st : Staged} {b : List Staged} {f : Flt}
    (hst : st ∈ b) (hc : f.cls ≠ 1) (h : f ∈ slotFlts s c e chk n (BitVec.ofInt 64 (engOf (coreOf s c) e).pc) st) :
    f ∈ bundleFlts s c e chk n b := by
  have hw : f ∈ (slotFlts s c e chk n (BitVec.ofInt 64 (engOf (coreOf s c) e).pc) st).map (scheduleWords (coreOf s c) e st.place.val) :=
    List.mem_map.2 ⟨f, h, scheduleWords_of_cls_ne _ _ _ hc⟩
  unfold bundleFlts
  simp only [List.append_assoc]
  exact List.mem_append_left _ (List.mem_flatten.2 ⟨_, List.mem_map_of_mem hst, hw⟩)

/-- A slot that comes to issue and of whose conditions `g` is taken stops its core on the record of `g`, in the state in which it was checked. -/
theorem offer_of_lowest {s : State} {st : Staged} {g : Flt} (h : Comes s st) (hg : lowest (faultsAt s st) = some g) :
    offer s st = coreFault (atIssue s st) st.slot.core.val (g.toRec (engKind st.slot.eng)) := by
  obtain ⟨hop, htakes, hmore, hstaged, hopened, hdue, hwait⟩ := h
  have hissue : offer s st = issueBundle (opened s st) st.slot.core.val st.slot.eng [st] none := by
    simp only [offer, hop, htakes, hmore, hstaged, Bool.not_true, Bool.false_eq_true, if_false, List.nil_append, opened]
  have hdueAt : bringDue (opened s st) st.slot.core.val st.slot.eng (engTime (opened s st) (coreOf (opened s st) st.slot.core.val) st.slot.eng)
      = atIssue s st := rfl
  have hheld : (if scheduled (coreOf (atIssue s st) st.slot.core.val) st.slot.eng = true then none
      else interlockWait (atIssue s st) st.slot.core.val st.slot.eng (issueNow s st) [st]) = none := ite_eq_left_iff.2 hwait.resolve_left
  simp only [faultsAt, issueNow] at hg hheld
  simp only [hissue, issueBundle, hopened, hdueAt, hdue, hheld, hg, Bool.false_eq_true, if_false]

/-- A slot that comes to issue and meets a condition has its core stopped, and the core's queues are left as they are (R41). -/
theorem offer_of_fault {s : State} {st : Staged} {f : Flt} (h : Comes s st) (hf : f ∈ faultsAt s st) :
    (coreOf (offer s st) st.slot.core.val).faulted = true
    ∧ ∀ q, queueAt (coreOf (offer s st) st.slot.core.val) q = queueAt (coreOf (atIssue s st) st.slot.core.val) q := by
  obtain ⟨g, hg⟩ := exists_lowest_of_mem hf
  rw [offer_of_lowest h hg]
  exact ⟨coreFault_faulted _ _ _, coreFault_queueAt _ _ _⟩

end Sys2Proof.Machine
end

section
/-! PROOF. `qwait` (R23): when its condition holds, and the queue faults that it and `qdrain` meet at issue. -/

namespace Sys2Proof.Machine

open Sys2Proof

/-! ### The condition of a `qwait` -/

/-- A `qwait` alone in its bundle waits for room where its engine is the queue's producer, else for entries. -/
theorem conditionWait_qwait {s : State} {c n : Nat} {e p cn : Engine} {st : Staged} {q : Fin 16} (he : st.effect = .qwait q n)
    (hq : queueEnds (coreOf s c) q = some (p, cn)) :
    conditionWait s c e [st] = none
      ↔ if p = e then (queueAt (coreOf s c) q).length + n ≤ 64 else n ≤ (queueAt (coreOf s c) q).length := by
  by_cases hp : p = e
  · by_cases hn : (queueAt (coreOf s c) q).length + n ≤ 64 <;> simp [conditionWait, he, hq, hp, hn]
  · by_cases hn : n ≤ (queueAt (coreOf s c) q).length <;> simp [conditionWait, he, hq, hp, hn]

/-! ### Queue faults -/

/-- A slot that moves or waits for a number of entries of a queue. -/
def CountsEntries (st : Staged) (q : Fin 16) (n : Nat) : Prop := st.effect = .qwait q n ∨ ∃ off, st.effect = .qdrain q off n

/-- R23: a count of 0 or above 64 is a queue fault of subcode 0x02. -/
theorem badCount_mem_effectFlts {s : State} {c m n : Nat} {e : Engine} {chk : Bool} {pc : W64} {st : Staged} {q : Fin 16}
    (he : CountsEntries st q m) (hm : m = 0 ∨ 64 < m) :
    ({ cls := 7, sub := 2, addr := pc, w1 := BitVec.ofNat 64 q.val, w2 := BitVec.ofNat 64 (queueAt (coreOf s c) q).length
       w3 := BitVec.ofNat 64 m } : Flt) ∈ effectFlts s c e chk n pc st := by
  rcases he with he | ⟨off, he⟩ <;> simp [effectFlts, creditClass, he, hm]

/-- R21: a `qwait` of an engine that is neither end of the queue is a queue fault of subcode 0x01. -/
theorem notAnEnd_mem_effectFlts {s : State} {c m n : Nat} {e : Engine} {chk : Bool} {pc : W64} {st : Staged} {q : Fin 16}
    (he : st.effect = .qwait q m) (hm : 1 ≤ m ∧ m ≤ 64) (hq : ∀ p cn, queueEnds (coreOf s c) q = some (p, cn) → p ≠ e ∧ cn ≠ e) :
    ({ cls := 7, sub := 1, addr := pc, w1 := BitVec.ofNat 64 q.val } : Flt) ∈ effectFlts s c e chk n pc st := by
  have hcount : ¬ (m = 0 ∨ 64 < m) := by omega
  cases hk : queueEnds (coreOf s c) q with
  | none => simp [effectFlts, creditClass, he, hcount, hk]
  | some ends =>
    obtain ⟨hp, hcn⟩ := hq ends.1 ends.2 hk
    simp [effectFlts, creditClass, he, hcount, hk, hp, hcn, faultIf]

/-- A slot whose effect raises a queue fault at its issue meets it, and its core stops with its queues as they are. -/
theorem queueFault_stops {s : State} {i : Instr} {st : Staged} {f : Flt} (hx : exec i s = .next (offer s st)) (h : Comes s st) (hc : f.cls = 7)
    (hf : f ∈ effectFlts (atIssue s st) st.slot.core.val st.slot.eng (scheduled (coreOf (atIssue s st) st.slot.core.val) st.slot.eng)
      (issueNow s st) (BitVec.ofInt 64 (engOf (coreOf (atIssue s st) st.slot.core.val) st.slot.eng).pc) st) :
    (∃ f' ∈ faultsAt s st, f'.cls = 7 ∧ f'.sub = f.sub) ∧ ∃ t, exec i s = .next t ∧ (coreOf t st.slot.core.val).faulted = true
      ∧ ∀ q, queueAt (coreOf t st.slot.core.val) q = queueAt (coreOf (atIssue s st) st.slot.core.val) q := by
  have hmem : f ∈ faultsAt s st := mem_bundleFlts_of_slotFlts (List.mem_singleton_self st) (by omega) (mem_slotFlts_of_effectFlts hf)
  exact ⟨⟨f, hmem, hc, rfl⟩, offer s st, hx, offer_of_fault h hmem⟩

end Sys2Proof.Machine

open Sys2Proof Sys2Proof.Machine

/-- Settles O15. A ready `qwait` runs no effect; its condition and its queue faults are those of the lemmas above. -/
theorem queueWaitsAndFaults : Obligations.QueueWaitsAndFaults := by
  unfold Obligations.QueueWaitsAndFaults
  refine ⟨fun s sl q n => ⟨?_, ?_⟩, fun s sl q r n => ⟨fun hcomes => ⟨fun hn => ?_, fun hlo hhi hq => ?_⟩, fun hcomes hn => ?_⟩⟩
  · exact computes_write rfl (by simp) fun a _ => rfl
  · intro p c hends _ _
    exact conditionWait_qwait rfl hends
  · have hcount : n.toNat = 0 ∨ 64 < n.toNat := hn.imp_left fun h => by simp [h]
    obtain ⟨hmet, t, ht, hstop, -⟩ := queueFault_stops (i := .qwait sl q n) rfl hcomes rfl (badCount_mem_effectFlts (.inl rfl) hcount)
    exact ⟨hmet, t, ht, hstop⟩
  · obtain ⟨hmet, t, ht, hstop, -⟩ := queueFault_stops (i := .qwait sl q n) rfl hcomes rfl (notAnEnd_mem_effectFlts rfl ⟨hlo, hhi⟩ hq)
    exact ⟨hmet, t, ht, hstop⟩
  · have hcount : n.toNat = 0 ∨ 64 < n.toNat := hn.imp_left fun h => by simp [h]
    obtain ⟨hmet, t, ht, hstop, hkeep⟩ := queueFault_stops (i := .qdrain sl q r n) rfl hcomes rfl (badCount_mem_effectFlts (.inr ⟨_, rfl⟩) hcount)
    exact ⟨hmet, t, ht, hstop, hkeep q⟩

end

section
/-! PROOF. What the issue of a slot leaves of its engine and its core: a slot that only sends a result, the engine's advance after it, and a
condition of a slot's effect, of whatever class, that stops its core. -/

namespace Sys2Proof.Machine

open Sys2Proof

/-- A slot whose effect is to send `w` computes that. -/
theorem computes_of_sends {s : State} {i : Instr} {st : Staged} {w : RegWrite} (hw : st.effect = .write w)
    (hx : exec i s = .next (offer s st)) : Computes s i st id (some w) :=
  computes_write hx (by simp [hw]) fun a _ => by simp [runEffect, hw]

/-! ### The engine after an issue -/

/-- A result on its way joins the pending ones, and its engine is otherwise as before. -/
theorem withResult_rest (g : Eng) (n lat : Nat) (w : Option RegWrite) :
    withResult g n lat w = { g with pend := (withResult g n lat w).pend } := by
  unfold withResult
  split
  · split <;> rfl
  · rfl

@[simp] theorem withResult_pc (g : Eng) (n lat : Nat) (w : Option RegWrite) : (withResult g n lat w).pc = g.pc := by
  rw [withResult_rest]

@[simp] theorem withResult_delay (g : Eng) (n lat : Nat) (w : Option RegWrite) : (withResult g n lat w).delay = g.delay := by
  rw [withResult_rest]

@[simp] theorem withResult_x (g : Eng) (n lat : Nat) (w : Option RegWrite) : (withResult g n lat w).x = g.x := by
  rw [withResult_rest]

/-- A result that has no register to go to is discarded (R49). -/
theorem withResult_of_discarded {w : RegWrite} (h : writeName w = none) (g : Eng) (n lat : Nat) : withResult g n lat (some w) = g := by
  simp [withResult, h]

/-- The engine of a slot that issued holds the result and has gone to its next bundle. -/
theorem engAt_of_issuedAs {s t : State} {st : Staged} {f : Core → Core} {w : Option RegWrite} (h : IssuedAs s t st f w) :
    engAt t st = nextBundle [st] (issueNow s st)
      (withResult (engOf (f (coreOf (atIssue s st) st.slot.core.val)) st.slot.eng) (issueNow s st) st.lat w) := by
  obtain ⟨-, ports, refused, passes, hk⟩ := h
  rw [engAt, hk, engOf_setEng]

/-- After the delay issue of a taken branch or jump its target issues next (R53). -/
theorem advance_of_delay {s t : State} {st : Staged} {w : Option RegWrite} {target : Int} (h : IssuedAs s t st id w)
    (hd : (engAt (atIssue s st) st).delay = some target) : (engAt t st).pc = target ∧ (engAt t st).delay = none := by
  rw [engAt_of_issuedAs h]
  rw [engAt] at hd
  simp [nextBundle, hd]

/-- Elsewhere the next bundle issues next, as the delay issue where the slot goes somewhere. -/
theorem advance_of_no_delay {s t : State} {st : Staged} {w : Option RegWrite} (h : IssuedAs s t st id w)
    (hd : (engAt (atIssue s st) st).delay = none) :
    (engAt t st).pc = (engAt (atIssue s st) st).pc + 1 ∧ (engAt t st).delay = jumpOf [st] := by
  rw [engAt_of_issuedAs h]
  rw [engAt] at hd ⊢
  simp [nextBundle, hd]

/-- No register changes in the issue itself: results land when they are due. -/
theorem sameFiles_of_issuedAs {s t : State} {st : Staged} {w : Option RegWrite} (h : IssuedAs s t st id w) :
    SameFiles (coreOf (atIssue s st) st.slot.core.val) (coreOf t st.slot.core.val) := by
  obtain ⟨-, ports, refused, passes, hk⟩ := h
  rw [hk]
  cases st.slot.eng <;> simp [SameFiles, setEng, engOf, nextBundle]

/-! ### A condition of a slot's effect, of whatever class -/

@[simp] theorem scheduleWords_cls (k : Core) (e : Engine) (place : Nat) (f : Flt) : (scheduleWords k e place f).cls = f.cls := by
  unfold scheduleWords
  split <;> rfl

@[simp] theorem scheduleWords_sub (k : Core) (e : Engine) (place : Nat) (f : Flt) : (scheduleWords k e place f).sub = f.sub := by
  unfold scheduleWords
  split <;> rfl

/-- What the effect of a slot alone in its bundle raises, the bundle meets with the words of its record. -/
theorem scheduleWords_mem_faultsAt {s : State} {st : Staged} {f : Flt}
    (hf : f ∈ effectFlts (atIssue s st) st.slot.core.val st.slot.eng (scheduled (coreOf (atIssue s st) st.slot.core.val) st.slot.eng)
      (issueNow s st) (BitVec.ofInt 64 (engAt (atIssue s st) st).pc) st) :
    scheduleWords (coreOf (atIssue s st) st.slot.core.val) st.slot.eng st.place.val f ∈ faultsAt s st := by
  unfold faultsAt bundleFlts
  simp only [List.append_assoc, List.map_cons, List.map_nil, List.flatten_cons, List.flatten_nil, List.append_nil]
  exact List.mem_append_left _ (List.mem_map_of_mem (mem_slotFlts_of_effectFlts hf))

/-- A slot that comes to issue with a condition of its effect meets it, and its core stops (R41). -/
theorem effectFault_stops {s : State} {i : Instr} {st : Staged} {f : Flt} (hx : exec i s = .next (offer s st)) (h : Comes s st)
    (hf : f ∈ effectFlts (atIssue s st) st.slot.core.val st.slot.eng (scheduled (coreOf (atIssue s st) st.slot.core.val) st.slot.eng)
      (issueNow s st) (BitVec.ofInt 64 (engAt (atIssue s st) st).pc) st) :
    (∃ f' ∈ faultsAt s st, f'.cls = f.cls ∧ f'.sub = f.sub) ∧ ∃ t, exec i s = .next t ∧ (coreOf t st.slot.core.val).faulted = true := by
  have hmem := scheduleWords_mem_faultsAt hf
  exact ⟨⟨_, hmem, scheduleWords_cls _ _ _ _, scheduleWords_sub _ _ _ _⟩, offer s st, hx, (offer_of_fault h hmem).1⟩

end Sys2Proof.Machine
end

section
/-! PROOF. The scalar arithmetic of R51: the operations of Table 2.4 as the operations on words that they are. -/

namespace Sys2Proof.Machine

open Sys2Proof

/-! ### Shifts -/

theorem shamt_eq (b : W64) : shamt b = b.toNat % 64 := by simp [shamt, bits]

/-- The shift amount of an immediate is the same before and after its sign extension. -/
theorem shamt_signExtend (m : BitVec 22) : shamt (m.signExtend 64) = m.toNat % 64 := by
  rw [shamt_eq, BitVec.toNat_signExtend, BitVec.toNat_setWidth]
  have hm : m.toNat < 2 ^ 22 := m.isLt
  split <;> omega

theorem shl_eq (a b : W64) : shl a b = a <<< (b.toNat % 64) := by rw [shl, shamt_eq]
theorem shr_eq (a b : W64) : shr a b = a >>> (b.toNat % 64) := by rw [shr, shamt_eq]
theorem sar_eq (a b : W64) : sar a b = a.sshiftRight (b.toNat % 64) := by rw [sar, shamt_eq]

theorem shl_signExtend (a : W64) (m : BitVec 22) : shl a (m.signExtend 64) = a <<< (m.toNat % 64) := by rw [shl, shamt_signExtend]
theorem shr_signExtend (a : W64) (m : BitVec 22) : shr a (m.signExtend 64) = a >>> (m.toNat % 64) := by rw [shr, shamt_signExtend]
theorem sar_signExtend (a : W64) (m : BitVec 22) : sar a (m.signExtend 64) = a.sshiftRight (m.toNat % 64) := by
  rw [sar, shamt_signExtend]

/-! ### Comparisons, quotients and remainders -/

theorem ltS_eq (a b : W64) : ltS a b = if a.slt b then 1 else 0 := by simp [ltS, BitVec.slt]
theorem ltU_eq (a b : W64) : ltU a b = if a.ult b then 1 else 0 := by simp [ltU, BitVec.ult]

/-- The quotient truncated toward zero, the overflowing one wrapping to the most negative word, is that of `BitVec.sdiv`. -/
theorem ofInt_tdiv (a b : W64) : BitVec.ofInt 64 (a.toInt.tdiv b.toInt) = a.sdiv b :=
  BitVec.eq_of_toInt_eq (by rw [BitVec.toInt_ofInt, BitVec.toInt_sdiv])

theorem ofInt_tmod (a b : W64) : BitVec.ofInt 64 (a.toInt.tmod b.toInt) = a.srem b := by
  rw [← BitVec.toInt_srem, BitVec.ofInt_toInt]

theorem quoS_eq (a b : W64) : quoS a b = if b = 0 then BitVec.allOnes 64 else a.sdiv b := by rw [quoS, ofInt_tdiv]
theorem remS_eq (a b : W64) : remS a b = if b = 0 then a else a.srem b := by rw [remS, ofInt_tmod]

theorem quoU_eq (a b : W64) : quoU a b = if b = 0 then BitVec.allOnes 64 else a / b := by
  rw [quoU, ← BitVec.toNat_udiv, BitVec.ofNat_toNat, BitVec.setWidth_eq]

theorem remU_eq (a b : W64) : remU a b = if b = 0 then a else a % b := by
  rw [remU, ← BitVec.toNat_umod, BitVec.ofNat_toNat, BitVec.setWidth_eq]

/-! ### `luh` -/

/-- `luh` keeps the low 48 bits and takes the low 16 of its immediate above them. -/
theorem setBits_high16 (a : W64) (m : BitVec 27) :
    setBits a 63 48 (bits m 15 0) = BitVec.ofNat 64 (a.toNat % 2 ^ 48 + m.toNat % 2 ^ 16 * 2 ^ 48) := by
  have ha : a.toNat < 2 ^ 64 := a.isLt
  simp only [setBits, bits, Nat.shiftRight_eq_div_pow]
  congr 1
  omega

/-- The upper bits of the immediate of `luh` are 0 exactly where it fits 16 bits. -/
theorem high11_ne_zero (m : BitVec 27) : (bits m 26 16 != 0) = decide (2 ^ 16 ≤ m.toNat) := by
  have hm : m.toNat < 2 ^ 27 := m.isLt
  rw [Bool.eq_iff_iff, bne_iff_ne, decide_eq_true_iff]
  simp only [bits, Nat.shiftRight_eq_div_pow]
  omega

/-! ### Instructions -/

/-- An operation of two registers computes its value, whatever way that is written. -/
theorem computes_of_scalarRR {s : State} {i : Instr} {sl : Slot} {op lat : Nat} {rd rs1 rs2 : Reg} {f : W64 → W64 → W64} {t2 : Bool} {v : W64}
    (hx : exec i s = .next (scalarRR s sl op lat rd rs1 rs2 f t2)) (hv : f (slotX s sl rs1) (slotX s sl rs2) = v) :
    Computes s i (rrSlot sl op lat rd rs1 rs2 v t2) id (some (.x rd v)) := by
  subst hv
  exact computes_of_sends rfl hx

/-- An operation of a register and an immediate computes its value, whatever way that is written. -/
theorem computes_of_scalarRI {s : State} {i : Instr} {sl : Slot} {op : Nat} {rd rs1 : Reg} {imm : BitVec 22} {f : W64 → W64 → W64} {v : W64}
    (hx : exec i s = .next (scalarRI s sl op rd rs1 imm f)) (hv : f (slotX s sl rs1) (imm.signExtend 64) = v) :
    Computes s i (riSlot sl op rd rs1 v) id (some (.x rd v)) := by
  subst hv
  exact computes_of_sends rfl hx

/-- The slot that `luh` offers, in terms of arithmetic on its operands. -/
theorem exec_luh (s : State) (sl : Slot) (rd : Reg) (imm : BitVec 27) :
    let v := BitVec.ofNat 64 ((slotX s sl rd).toNat % 2 ^ 48 + imm.toNat % 2 ^ 16 * 2 ^ 48)
    exec (.luh sl rd imm) s = .next (offer s { place := 0, slot := sl, opcode := 0x1F, newT2 := true, badEnc := decide (2 ^ 16 ≤ imm.toNat),
                                               reads := [.x rd], dest := some (.x rd), effect := .write (.x rd v) }) := by
  have hx : exec (.luh sl rd imm) s = execLuh sl rd imm s := rfl
  rw [hx, execLuh, setBits_high16, high11_ne_zero]

end Sys2Proof.Machine

open Sys2Proof Sys2Proof.Machine

/-- Settles O1. Every one of these instructions only sends a value; the values are those of the lemmas above. -/
theorem scalarArithmetic : Obligations.ScalarArithmetic := by
  unfold Obligations.ScalarArithmetic
  intro s sl rd rs1 rs2 imm imm27
  refine ⟨computes_of_scalarRR rfl rfl, computes_of_scalarRR rfl rfl, computes_of_scalarRR rfl rfl, computes_of_scalarRR rfl rfl,
    computes_of_scalarRR rfl rfl, computes_of_scalarRR rfl (shl_eq _ _), computes_of_scalarRR rfl (shr_eq _ _),
    computes_of_scalarRR rfl (sar_eq _ _), computes_of_scalarRR rfl (ltS_eq _ _), computes_of_scalarRR rfl (ltU_eq _ _),
    computes_of_scalarRR rfl rfl, computes_of_scalarRR rfl rfl, computes_of_scalarRR rfl (quoS_eq _ _), computes_of_scalarRR rfl (quoU_eq _ _),
    computes_of_scalarRR rfl (remS_eq _ _), computes_of_scalarRR rfl (remU_eq _ _), ?_⟩
  exact ⟨computes_of_scalarRI rfl rfl, computes_of_scalarRI rfl rfl, computes_of_scalarRI rfl rfl, computes_of_scalarRI rfl rfl,
    computes_of_scalarRI rfl (shl_signExtend _ _), computes_of_scalarRI rfl (shr_signExtend _ _), computes_of_scalarRI rfl (sar_signExtend _ _),
    computes_of_scalarRI rfl (ltS_eq _ _), computes_of_sends rfl rfl, computes_of_sends rfl (exec_luh s sl rd imm27)⟩

end

section
/-! PROOF. Writes to x0 and p0 (R49): a result that has no register to go to never joins those on their way. -/

namespace Sys2Proof.Machine

open Sys2Proof

/-- An instruction whose only result is discarded issues, with the results on their way and the registers as before. -/
theorem discards_of_computes {s : State} {i : Instr} {st : Staged} {w : RegWrite} (hw : writeName w = none)
    (h : Computes s i st id (some w)) (hready : Ready s st) :
    ∃ t, exec i s = .next t ∧ (engAt t st).pend = (engAt (atIssue s st) st).pend
      ∧ SameFiles (coreOf (atIssue s st) st.slot.core.val) (coreOf t st.slot.core.val) := by
  obtain ⟨t, ht, hissued⟩ := h hready
  refine ⟨t, ht, ?_, sameFiles_of_issuedAs hissued⟩
  rw [engAt_of_issuedAs hissued, withResult_of_discarded hw]
  rfl

end Sys2Proof.Machine

open Sys2Proof Sys2Proof.Machine

/-- Settles O2. `add` and `vcmp` only send their result, and one for x0 or p0 has no register to go to. -/
theorem discardedWrites : Obligations.DiscardedWrites := by
  unfold Obligations.DiscardedWrites
  intro s sl rs1 rs2 mod
  refine ⟨fun hready => ?_, fun hready => ?_, fun g k => ⟨rfl, rfl⟩⟩
  · exact discards_of_computes rfl (computes_of_scalarRR rfl rfl) hready
  · exact discards_of_computes rfl (computes_of_sends rfl rfl) hready

end

section
/-! PROOF. Branches and jumps (R53): where they send their engine, the condition they meet in a delay issue, and the window fault of `csrr`. -/

namespace Sys2Proof.Machine

open Sys2Proof

/-! ### What a branch or jump does -/

/-- A slot of a branch or jump: it goes to `target`, none where it is not taken, and sends its link value where it has one. -/
def Diverts (st : Staged) (w : Option RegWrite) (target : Option Int) : Prop :=
  (∃ p link, st.effect = .jump p link ∧ w = link.map (fun l => .x l.1 l.2) ∧ target = some p)
  ∨ (st.effect = .notTaken ∧ w = none ∧ target = none)

/-- R53 for one branch or jump: what it does when it is ready, and that in a delay issue it stops its core. -/
def ObeysR53 (s : State) (i : Instr) (st : Staged) (w : Option RegWrite) (target : Option Int) : Prop :=
  Branches s i st w target
  ∧ (Comes s st → (engAt (atIssue s st) st).delay ≠ none →
      (∃ f ∈ faultsAt s st, f.cls = 1 ∧ f.sub = 0x0A) ∧ ∃ t, exec i s = .next t ∧ (coreOf t st.slot.core.val).faulted = true)

section Diverting

variable {s : State} {i : Instr} {st : Staged} {w : Option RegWrite} {target : Option Int}

theorem jumpOf_of_diverts (h : Diverts st w target) : jumpOf [st] = target := by
  obtain ⟨p, link, he, -, rfl⟩ | ⟨he, -, rfl⟩ := h <;> simp [jumpOf, he]

theorem computes_of_diverts (hx : exec i s = .next (offer s st)) (h : Diverts st w target) : Computes s i st id w := by
  obtain ⟨p, link, he, rfl, -⟩ | ⟨he, rfl, -⟩ := h
  · exact computes_write hx (by simp [he]) fun a _ => by simp [runEffect, he]
  · exact computes_write hx (by simp [he]) fun a _ => by simp [runEffect, he]

/-- In a delay issue a branch or jump, taken or not, is a schedule fault of subcode 0x0A. -/
theorem delayFault_mem_effectFlts {c n : Nat} {e : Engine} {chk : Bool} {pc : W64} (h : Diverts st w target)
    (hd : (engOf (coreOf s c) e).delay ≠ none) : schedFlt 0x0A pc ∈ effectFlts s c e chk n pc st := by
  have hsome : (engOf (coreOf s c) e).delay.isSome = true := Option.isSome_iff_ne_none.2 hd
  obtain ⟨p, link, he, -, -⟩ | ⟨he, -, -⟩ := h <;> simp [effectFlts, creditClass, he, faultIf, hsome]

/-- A branch or jump that is ready stands in no delay issue. -/
theorem no_delay_of_ready (h : Diverts st w target) (hready : Ready s st) : (engAt (atIssue s st) st).delay = none := by
  obtain ⟨-, hnone, -⟩ := hready
  by_contra hd
  obtain ⟨g, hg⟩ := exists_lowest_of_mem (scheduleWords_mem_faultsAt (delayFault_mem_effectFlts h hd))
  rw [hnone] at hg
  cases hg

/-- Every slot that diverts its engine does so as R53 says. -/
theorem obeysR53_of_diverts (hx : exec i s = .next (offer s st)) (h : Diverts st w target) : ObeysR53 s i st w target := by
  refine ⟨fun hready => ?_, fun hcomes hd => effectFault_stops hx hcomes (delayFault_mem_effectFlts h hd)⟩
  obtain ⟨t, ht, hissued⟩ := computes_of_diverts hx h hready
  obtain ⟨hpc, hdelay⟩ := advance_of_no_delay hissued (no_delay_of_ready h hready)
  exact ⟨t, ht, hissued, hpc, hdelay.trans (jumpOf_of_diverts h)⟩

/-- A conditional branch goes to its target where its condition holds, and nowhere else. -/
theorem obeysR53_of_branch {sl : Slot} {op : Nat} {rs1 rs2 : Reg} {off : BitVec 22} {p : W64 → W64 → Bool} {P : Prop}
    (hx : exec i s = .next (branch s sl op rs1 rs2 off p)) (hp : p (slotX s sl rs1) (slotX s sl rs2) = true ↔ P) :
    (P → ObeysR53 s i (branchSlot sl op rs1 rs2 (.jump (slotPc s sl + off.toInt) none)) none (some (slotPc s sl + off.toInt)))
    ∧ (¬ P → ObeysR53 s i (branchSlot sl op rs1 rs2 .notTaken) none none) := by
  rw [branch] at hx
  refine ⟨fun hholds => ?_, fun hfails => ?_⟩
  · rw [if_pos (hp.2 hholds)] at hx
    exact obeysR53_of_diverts hx (.inl ⟨_, none, rfl, rfl, rfl⟩)
  · rw [if_neg (mt hp.1 hfails)] at hx
    exact obeysR53_of_diverts hx (.inr ⟨rfl, rfl, rfl⟩)

end Diverting

/-! ### `csrr` outside its block -/

/-- An offset at which the core's block has no register is a window fault of `csrr`. -/
theorem windowFault_mem_effectFlts {s : State} {c n : Nat} {e : Engine} {chk : Bool} {pc : W64} {st : Staged} {rd : Reg} {off : Int}
    (he : st.effect = .csrr rd off) (hoff : off < 0 ∨ coreReg s c off.toNat = none) :
    ({ cls := 2, sub := 8, addr := BitVec.ofInt 64 off, w1 := 8, w2 := noIndex } : Flt) ∈ effectFlts s c e chk n pc st := by
  rcases hoff with hoff | hoff <;> simp [effectFlts, creditClass, he, faultIf, hoff]

end Sys2Proof.Machine

open Sys2Proof Sys2Proof.Machine

/-- Settles O3. A ready branch or jump stands in no delay issue, so its engine goes on to the delay issue; any bundle in one goes to the target. -/
theorem branchesAndJumps : Obligations.BranchesAndJumps := by
  unfold Obligations.BranchesAndJumps
  refine ⟨fun s sl rd rs1 rs2 off imm => ?_, fun s sl rd rs1 rs2 target hready hdelay => ?_, fun s sl rd imm hcomes hoff => ?_⟩
  · exact ⟨obeysR53_of_branch rfl beq_iff_eq, obeysR53_of_branch rfl bne_iff_ne, obeysR53_of_branch rfl decide_eq_true_iff,
      obeysR53_of_branch rfl decide_eq_true_iff, obeysR53_of_branch rfl decide_eq_true_iff, obeysR53_of_branch rfl decide_eq_true_iff,
      obeysR53_of_diverts rfl (.inl ⟨_, some _, rfl, rfl, rfl⟩), obeysR53_of_diverts rfl (.inl ⟨_, some _, rfl, rfl, rfl⟩)⟩
  · obtain ⟨t, ht, hissued⟩ := computes_of_scalarRR (i := .add sl rd rs1 rs2) rfl rfl hready
    exact ⟨t, ht, advance_of_delay hissued hdelay⟩
  · obtain ⟨⟨f, hmem, hcls, -⟩, hstop⟩ := effectFault_stops (i := .csrr sl rd 0 imm) rfl hcomes (windowFault_mem_effectFlts rfl hoff)
    exact ⟨⟨f, hmem, hcls⟩, hstop⟩

end

section
/-! PROOF. Reductions (R56): the fold over halves of a list, which is how the model writes the pairwise tree, is the tree of stages 128, 64,
…, 1 lane by lane. -/

namespace Sys2Proof.Machine

open Sys2Proof

/-- Lane n of the pairwise tree after k stages: a stage joins each lane with the one its span further on (R56). -/
def treeStage (join : W32 → W32 → W32) (leaf : Nat → W32) : Nat → Nat → W32
  | 0, n => leaf n
  | k + 1, n => join (treeStage join leaf k n) (treeStage join leaf k (n + 2 ^ (7 - k)))

/-- One stage on a list: its first half joined with its second. -/
theorem zipWith_halves {α : Type} (join : α → α → α) (g : Nat → α) (h : Nat) :
    List.zipWith join (((List.range (2 * h)).map g).take h) (((List.range (2 * h)).map g).drop h)
      = (List.range h).map fun n => join (g n) (g (n + h)) := by
  apply List.ext_getElem
  · simp; omega
  · intro n h₁ h₂
    simp [Nat.add_comm]

/-- The last m stages, on the lanes that the stages before them leave, answer lane 0 of the whole tree. -/
theorem treeFold_treeStage (join : W32 → W32 → W32) (leaf : Nat → W32) {m : Nat} (hm : m ≤ 8) :
    treeFold join m ((List.range (2 ^ m)).map (treeStage join leaf (8 - m))) = [treeStage join leaf 8 0] := by
  induction m with
  | zero => rfl
  | succ m ih =>
    have hspan : 7 - (8 - (m + 1)) = m := by omega
    have hstage : 8 - (m + 1) + 1 = 8 - m := by omega
    have hnext : (fun n => join (treeStage join leaf (8 - (m + 1)) n) (treeStage join leaf (8 - (m + 1)) (n + 2 ^ m)))
        = treeStage join leaf (8 - m) := by
      funext n
      rw [← hstage, treeStage, hspan]
    have hhalf : ((List.range (2 * 2 ^ m)).map (treeStage join leaf (8 - (m + 1)))).length / 2 = 2 ^ m := by simp
    rw [pow_succ', treeFold, hhalf, zipWith_halves, hnext]
    exact ih (by omega)

/-- What lane n brings to a reduction: `f` of it where the slot runs on it, else `unit` (R50). -/
def reductionLeaf (s : State) (sl : Slot) (a : Reg) (f : W32 → W32) (unit : W32) (n : Nat) : W32 :=
  if laneOn s sl n then f (slotV s sl a n) else unit

/-- A reduction sends lane 0 of the tree over its lanes, and 0 for the others. -/
theorem reduction_eq (s : State) (sl : Slot) (op : Nat) (t2 : Bool) (vd a : Reg) (unit : W32) (f : W32 → W32) (join : W32 → W32 → W32) :
    reduction s sl op t2 vd a unit f join
      = offer s (vectorSlot sl op 9 t2 [.v a] vd
          ((0, treeStage join (reductionLeaf s sl a f unit) 8 0) :: (List.range 255).map fun n => (n + 1, 0))) := by
  have htree : treeFold join 8 ((List.range 256).map (reductionLeaf s sl a f unit)) = [treeStage join (reductionLeaf s sl a f unit) 8 0] :=
    treeFold_treeStage join (reductionLeaf s sl a f unit) le_rfl
  unfold reductionLeaf at htree ⊢
  simp only [reduction, htree, List.headD_cons]

/-- R56: an instruction sends lane 0 of the pairwise tree over its lanes, written lane by lane and stage by stage. -/
def ReducesByTree (s : State) (sl : Slot) (vd a : Reg) (i : Instr) (op : Nat) (t2 : Bool) (f : W32 → W32) (unit : W32)
    (join : W32 → W32 → W32) : Prop :=
  ∃ stage : Nat → Nat → W32, ∃ lanes : List (Nat × W32),
    Computes s i (vectorSlot sl op 9 t2 [.v a] vd lanes) id (some (.v vd lanes))
    ∧ (∀ n, n < 256 → stage 0 n = if (slotP s sl sl.vp).getLsbD n ≠ sl.vneg then f (slotV s sl a n) else unit)
    ∧ (∀ k n, k < 8 → n < 2 ^ (7 - k) → stage (k + 1) n = join (stage k n) (stage k (n + 2 ^ (7 - k))))
    ∧ lanes = (0, stage 8 0) :: (List.range 255).map fun n => (n + 1, 0)

theorem reducesByTree_of_reduction {s : State} {i : Instr} {sl : Slot} {op : Nat} {t2 : Bool} {vd a : Reg} {unit : W32} {f : W32 → W32}
    {join : W32 → W32 → W32} (hx : exec i s = .next (reduction s sl op t2 vd a unit f join)) :
    ReducesByTree s sl vd a i op t2 f unit join := by
  rw [reduction_eq] at hx
  refine ⟨treeStage join (reductionLeaf s sl a f unit), _, computes_of_sends rfl hx, fun n _ => ?_, fun k n _ _ => rfl, rfl⟩
  simp [treeStage, reductionLeaf, laneOn]

end Sys2Proof.Machine

open Sys2Proof Sys2Proof.Machine

/-- Settles O11. Each of the three is a reduction by the tree, with its own join and its own contribution of a lane. -/
theorem vectorReductions : Obligations.VectorReductions := by
  unfold Obligations.VectorReductions
  intro s sl vd a
  have hsum : ReducesByTree s sl vd a (.vredsum sl vd a) 0x28 false id 0 f32Add := reducesByTree_of_reduction rfl
  have hmax : ReducesByTree s sl vd a (.vredmax sl vd a) 0x29 false id 0xFF800000 f32Max := reducesByTree_of_reduction rfl
  have hsq : ReducesByTree s sl vd a (.vredsq sl vd a) 0x2A true (fun x => f32Mul x x) 0 f32Add := reducesByTree_of_reduction rfl
  exact ⟨hsum, hmax, hsq⟩

end

section
/-! PROOF. The issue of an array pass (R126, R127, R132, R136, R141, R142): what starting a pass does to its core, what the selection it owes
adds to that, and what the end of the issue leaves of both. -/

namespace Sys2Proof.Machine

open Sys2Proof

/-! ### Frames of a core -/

theorem CoreOnly.trans {s t u : State} {c : Nat} (h : CoreOnly s t c) (h' : CoreOnly t u c) : CoreOnly s u c :=
  ⟨h'.1.trans (congrArg (fun x : State => { x with cores := u.cores }) h.1), fun c' hc => (h'.2 c' hc).trans (h.2 c' hc)⟩

theorem coreOnly_modCore (s : State) (c : Nat) (f : Core → Core) : CoreOnly s (modCore s c f) c :=
  ⟨modCore_rest s c f, fun c' hc => coreOf_modCore_other s c c' f hc⟩

theorem coreOnly_claimed {s a : State} {st : Staged} (h : Claimed s a st) : CoreOnly (atIssue s st) a st.slot.core.val := by
  obtain ⟨ports, refused, rfl⟩ := h
  exact coreOnly_modCore _ _ _

theorem coreOnly_finished (st : Staged) (n : Nat) (s : State) : CoreOnly s (finished st n s) st.slot.core.val := by
  unfold finished
  split
  · exact (coreOnly_modCore _ _ _).trans (coreOnly_modCore _ _ _)
  · exact coreOnly_modCore _ _ _

/-! ### The end of an issue of the compute engine -/

/-- Bringing rows to the array changes, of each pass, the rows that it has read. -/
theorem passes_readRows (s : State) (c n : Nat) : ∃ rd : Pass → Pass, (∀ p, rd p = { p with readRows := (rd p).readRows })
    ∧ coreOf (readRows s c n) c = { coreOf s c with passes := (coreOf s c).passes.map rd } := by
  refine ⟨_, fun p => ?_, coreOf_modCore s c _⟩
  dsimp only
  split <;> rfl

@[simp] theorem nextBundle_x (b : List Staged) (n : Nat) (g : Eng) : (nextBundle b n g).x = g.x := rfl

/-- The end of an issue of the compute engine brings rows to the passes and moves the engine on; the core is otherwise as its effects left it. -/
theorem coreOf_finished_compute {st : Staged} (hc : st.slot.eng = .compute) (n : Nat) (s : State) :
    ∃ rd : Pass → Pass, (∀ p, rd p = { p with readRows := (rd p).readRows })
      ∧ coreOf (finished st n s) st.slot.core.val
        = { coreOf s st.slot.core.val with passes := (coreOf s st.slot.core.val).passes.map rd
                                           ce := nextBundle [st] n (coreOf s st.slot.core.val).ce } := by
  obtain ⟨rd, hrd, hk⟩ := passes_readRows s st.slot.core.val n
  refine ⟨rd, hrd, ?_⟩
  rw [finished, if_pos hc, coreOf_modEng, hk, hc]
  rfl

/-! ### What a pass does to its core -/

/-- A pass in the array is the one that op, the image of d1 and the control word w ask for, issued at n over `tile`. -/
def Pass.IsOf (p : Pass) (n op : Nat) (img : List Byte) (w : W64) (tile : AMap Byte) : Prop :=
  p.op = op ∧ p.issue = n ∧ p.first = 96 ∧ p.rows = passRows (Desc.of img) ∧ p.row0 = bits w 8 0 ∧ p.set = bits w 16 16
    ∧ p.init = bit w 21 ∧ p.tile = tile ∧ p.act = img ∧ p.landed = 0

/-- What stands of a selection record that a pass issued at n owes (R142): its bytes are made when the last row has landed. -/
def SelWrite.IsOf (q : SelWrite) (n rows : Nat) (d2 : List Byte) (w : W64) : Prop :=
  q.d2 = d2 ∧ q.rows = rows ∧ q.pcol = bits w 19 17 ∧ q.selk = bits w 55 48 ∧ q.thr = bits w 47 32 ∧ q.set = bits w 16 16 ∧ q.issue = n
    ∧ q.ready = n + rows + 111 ∧ (rows ≠ 0 → q.bytes = [])

/-- From core k to core k' a pass issued at n came to owe the selection record of the image `sel`, or none. -/
def Owes (n rows : Nat) (w : W64) (k k' : Core) : Option (List Byte) → Prop
  | none => k'.selWrites = k.selWrites
  | some d2 => ∃ q : SelWrite, k'.selWrites = k.selWrites ++ [q] ∧ q.IsOf n rows d2 w

/-- From core k to core k' a pass was issued at n: its tile, its rows, its occupation of the array and the selection that it owes. -/
structure StartsPass (n op : Nat) (img : List Byte) (sel : Option (List Byte)) (w : W64) (k k' : Core) : Prop where
  arrayUntil : k'.arrayUntil = n + Nat.max (passRows (Desc.of img)) 1
  active : k'.active = if bit w 22 then k.shadow else k.active
  swapped : bit w 22 = true → k'.unswapped = false
  shadow : k'.shadow = k.shadow
  acc : k'.acc = k.acc
  v : k'.v = k.v
  x : k'.ce.x = k.ce.x
  count : mget 0 k'.passCount (bits w 16 16) = if bit w 21 then 1 else Nat.min 4097 (mget 0 k.passCount (bits w 16 16) + 1)
  noRows : passRows (Desc.of img) = 0 → k'.passes.length = k.passes.length
  rows : passRows (Desc.of img) ≠ 0 →
    ∃ p, k'.passes.getLast? = some p ∧ k'.passes.length = k.passes.length + 1 ∧ p.IsOf n op img w k'.active
  owes : Owes n (passRows (Desc.of img)) w k k' sel

/-- A swap that is asked for or not (R132): only the tile and what is known of it change. -/
theorem swapTile_if (b : Bool) (k : Core) :
    (if b then swapTile k else k)
      = { k with active := if b then k.shadow else k.active, hasTile := if b then k.shadowOk else k.hasTile
                 unswapped := !b && k.unswapped, voided := k.voided && !(b && k.unswapped) } := by
  cases b
  · simp
  · rfl

/-- Starting a pass that owes no selection: the swap comes before its tile is taken. -/
theorem startsPass_none (s : State) (c n op : Nat) (img : List Byte) (w : W64) :
    StartsPass n op img none w (coreOf s c) (coreOf (startPass s c n op img none w) c) := by
  simp only [startPass, coreOf_modCore, swapTile_if]
  refine ⟨rfl, rfl, fun hswap => by simp [countPass, hswap], rfl, rfl, rfl, rfl, mget_mset_same _ _ _ _, fun hm => ?_, fun hm => ?_, rfl⟩
  · simp [countPass, hm]
  · rw [if_neg hm]
    exact ⟨_, List.getLast?_concat, List.length_append, rfl, rfl, rfl, rfl, rfl, rfl, rfl, rfl, rfl, rfl⟩

/-- Registering ranges changes what is registered and who waits for it, and nothing else of the core. -/
theorem registerAll_rest (k : Core) (ag : Agent) (rs : List (Nat × Nat × Bool)) :
    ∃ ranges sbHigh waiters, registerAll k ag rs = { k with ranges := ranges, sbHigh := sbHigh, waiters := waiters } := by
  suffices h : ∀ k' : Core, ∃ ranges sbHigh waiters, rs.foldl (fun k r => register k ag r.1 r.2.1 r.2.2) k'
      = { k' with ranges := ranges, sbHigh := sbHigh, waiters := waiters } from h (leaveQueue k ag)
  induction rs with
  | nil => exact fun k' => ⟨_, _, _, rfl⟩
  | cons r rs ih =>
    intro k'
    obtain ⟨ranges, sbHigh, waiters, h⟩ := ih (register k' ag r.1 r.2.1 r.2.2)
    rw [List.foldl_cons, h, register]
    split
    · exact ⟨_, _, _, rfl⟩
    · exact ⟨_, _, _, rfl⟩

/-- A selection that a pass owes (R142) joins the others, and registers its range; the pass itself is as without it. -/
theorem coreOf_startPass_some (s : State) (c n op : Nat) (img d2 : List Byte) (w : W64) :
    ∃ ranges sbHigh waiters q, SelWrite.IsOf q n (passRows (Desc.of img)) d2 w
      ∧ coreOf (startPass s c n op img (some d2) w) c
        = { coreOf (startPass s c n op img none w) c with
            ranges := ranges, sbHigh := sbHigh, waiters := waiters
            selWrites := (coreOf (startPass s c n op img none w) c).selWrites ++ [q] } := by
  obtain ⟨ranges, sbHigh, waiters, h⟩ :=
    registerAll_rest (coreOf (startPass s c n op img none w) c) .select (selRange (Desc.of d2))
  simp only [startPass, coreOf_modCore] at h ⊢
  rw [h]
  refine ⟨ranges, sbHigh, waiters, _, ?_, rfl⟩
  split
  · next hm => exact ⟨rfl, rfl, rfl, rfl, rfl, rfl, rfl, rfl, fun hne => absurd hm hne⟩
  · exact ⟨rfl, rfl, rfl, rfl, rfl, rfl, rfl, rfl, fun _ => rfl⟩

theorem startsPass_startPass (s : State) (c n op : Nat) (img : List Byte) (sel : Option (List Byte)) (w : W64) :
    StartsPass n op img sel w (coreOf s c) (coreOf (startPass s c n op img sel w) c) := by
  have h := startsPass_none s c n op img w
  cases sel with
  | none => exact h
  | some d2 =>
    obtain ⟨ranges, sbHigh, waiters, q, hq, hk⟩ := coreOf_startPass_some s c n op img d2 w
    have hsel : (coreOf (startPass s c n op img none w) c).selWrites = (coreOf s c).selWrites := h.owes
    rw [hk, hsel]
    exact { h with owes := ⟨q, rfl, hq⟩ }

/-- A started pass stands as started at the end of its issue. -/
theorem StartsPass.finished {n op : Nat} {img : List Byte} {sel : Option (List Byte)} {w : W64} {k : Core} {s : State} {st : Staged}
    (h : StartsPass n op img sel w k (coreOf s st.slot.core.val)) (hc : st.slot.eng = .compute) :
    StartsPass n op img sel w k (coreOf (finished st n s) st.slot.core.val) := by
  obtain ⟨rd, hrd, hk⟩ := coreOf_finished_compute hc n s
  rw [hk]
  refine { h with noRows := fun hm => ?_, rows := fun hm => ?_, owes := ?_ }
  · simpa using h.noRows hm
  · obtain ⟨p, hlast, hlen, hp⟩ := h.rows hm
    refine ⟨rd p, by simp [hlast], by simpa using hlen, ?_⟩
    rw [hrd p]
    exact hp
  · exact h.owes

/-! ### The instructions -/

/-- The start of a pass whose images are those of d1 and, where it owes a selection, of `sel`. -/
def startsWith (sl : Slot) (n op : Nat) (d1 : Reg) (sel : Option Reg) (w : W64) (a : State) : State :=
  let im := dVal (coreOf a sl.core.val) .compute
  startPass a sl.core.val n op (im d1) (sel.map im) w

theorem coreOnly_startPass (s : State) (c n op : Nat) (img : List Byte) (sel : Option (List Byte)) (w : W64) :
    CoreOnly s (startPass s c n op img sel w) c := by
  unfold startPass
  cases sel with
  | none => exact coreOnly_modCore _ _ _
  | some d2 => exact (coreOnly_modCore _ _ _).trans (coreOnly_modCore _ _ _)

theorem startsPass_startsWith (sl : Slot) (n op : Nat) (d1 : Reg) (sel : Option Reg) (w : W64) (a : State) :
    let k := coreOf a sl.core.val
    StartsPass n op (dVal k .compute d1) (sel.map (dVal k .compute)) w k (coreOf (startsWith sl n op d1 sel w a) sl.core.val) :=
  startsPass_startPass _ _ _ _ _ _ _

/-- A pass instruction that is ready starts its pass: `MMA_D`, `MMA_S24`, `MMA_MX4` and `MMA_BF`. -/
theorem through_pass {s : State} {i : Instr} {sl : Slot} {op : Nat} {t2 : Bool} {ds : List Reg} {xs d1 : Reg} {w : W64}
    (hc : sl.eng = .compute) (hx : exec i s = .next (offer s (arraySlot sl op t2 ds xs (.pass op d1 w)))) :
    let st := arraySlot sl op t2 ds xs (.pass op d1 w)
    Through s i st (startsWith sl (issueNow s st) op d1 none w) :=
  through_of hx Effect.noConfusion fun a => by simp [runSlotEffect, runEffect, arraySlot, startsWith, hc]

/-- `MMA_PRED` that is ready starts its pass, which owes a selection with `SELECT`. -/
theorem through_pred {s : State} {i : Instr} {sl : Slot} {t2 : Bool} {ds : List Reg} {xs d1 d2 : Reg} {w : W64}
    (hc : sl.eng = .compute) (hx : exec i s = .next (offer s (arraySlot sl 0x29 t2 ds xs (.pred d1 d2 w)))) :
    let st := arraySlot sl 0x29 t2 ds xs (.pred d1 d2 w)
    Through s i st (startsWith sl (issueNow s st) 0x29 d1 (if bit w 23 then some d2 else none) w) :=
  through_of hx Effect.noConfusion fun a => by
    cases hsel : bit w 23 <;> simp [runSlotEffect, runEffect, arraySlot, startsWith, hc, hsel]

/-- A ready instruction whose slot starts a pass changes its own core alone, and in it that pass has started. -/
theorem startsPass_of_through {s : State} {i : Instr} {st : Staged} {op : Nat} {d1 : Reg} {sel : Option Reg} {w : W64}
    (hc : st.slot.eng = .compute) (h : Through s i st (startsWith st.slot (issueNow s st) op d1 sel w)) (hready : Ready s st) :
    let k := coreOf (atIssue s st) st.slot.core.val
    ∃ t, exec i s = .next t ∧ CoreOnly (atIssue s st) t st.slot.core.val
      ∧ StartsPass (issueNow s st) op (dVal k .compute d1) (sel.map (dVal k .compute)) w k (coreOf t st.slot.core.val) := by
  obtain ⟨a, ha, ht⟩ := h hready
  refine ⟨_, ht, ((coreOnly_claimed ha).trans (coreOnly_startPass _ _ _ _ _ _ _)).trans (coreOnly_finished st (issueNow s st) _), ?_⟩
  have hstart := (startsPass_startsWith st.slot (issueNow s st) op d1 sel w a).finished hc
  obtain ⟨ports, refused, rfl⟩ := ha
  rw [coreOf_modCore] at hstart
  exact { hstart with }

end Sys2Proof.Machine

open Sys2Proof Sys2Proof.Machine

/-- Settles O20. Each of the five starts one pass, and `mma.pred` with `SELECT` alone owes a selection. -/
theorem arrayPass : Obligations.ArrayPass := by
  unfold Obligations.ArrayPass
  intro s sl d1 d2 xs hc c w swap pass
  have hpass : ∀ {i : Instr} {st : Staged} {op : Nat} {sel : Option Reg}, st.slot = sl →
      sel = (if op = 0x29 ∧ bit w 23 = true then some d2 else none) → Through s i st (startsWith sl (issueNow s st) op d1 sel w) →
      pass i st op := by
    rintro i st op sel rfl rfl hthrough hready
    obtain ⟨t, ht, honly, h⟩ := startsPass_of_through hc hthrough hready
    have howes := h.owes
    refine ⟨t, ht, honly, h.arrayUntil, h.active, h.swapped, h.shadow, h.acc, h.v, h.x, h.count, h.noRows, h.rows,
      fun hno => ?_, fun hop hsel => ?_⟩
    · rw [if_neg hno] at howes
      exact howes
    · rw [if_pos ⟨hop, hsel⟩] at howes
      exact howes
  exact ⟨hpass rfl rfl (through_pass hc rfl), hpass rfl rfl (through_pass hc rfl), hpass rfl rfl (through_pass hc rfl),
    hpass rfl rfl (through_pass hc rfl), hpass rfl (by simp) (through_pred hc rfl)⟩

end


section
/-! PROOF. Waits for a tally or the beat, and reads of them (R33, R34, R37, R225, R228, R285, R287, R359): what a wait that is met leaves of its core, and
which target or beat meets it. -/

namespace Sys2Proof.Machine

open Sys2Proof

/-! ### What a wait that is met does -/

/-- A wait yields only in scheduled mode, on the compute engine, with bit 63 of its operand set (R225). -/
theorem yields_iff {k : Core} {e : Engine} {x : W64} : yields k e x = true ↔ e = .compute ∧ interlocked k = false ∧ bit x 63 = true := by
  simp [yields, scheduled, and_assoc]

theorem yields_eq_false {k : Core} {e : Engine} {x : W64} (h : e ≠ .compute ∨ interlocked k = true ∨ bit x 63 = false) : yields k e x = false := by
  rw [← Bool.not_eq_true, yields_iff]
  rintro ⟨he, hk, hx⟩
  rcases h with h | h | h
  · exact h he
  · simp [hk] at h
  · simp [hx] at h

/-- R228: the active and shadow pairs of a core's array are void. -/
def voidTiles (k : Core) : Core := { k with voided := true }

/-- The core after a `twait` of tally t on engine e: the compute engine has waited for the chains that name t (R37), and a wait
that yields leaves the array's pairs void (R228). -/
def afterTwait (e : Engine) (t : BitVec 12) (yielding : Bool) (k : Core) : Core :=
  let k := if e = .compute then waitedChains k t else k
  if yielding then voidTiles k else k

theorem portFree_afterTwait (e : Engine) (t : BitVec 12) (yielding : Bool) : PortFree (afterTwait e t yielding) := fun k ports refused =>
  ⟨ports, refused, by by_cases he : e = .compute <;> cases yielding <;> simp [afterTwait, he, waitedChains, voidTiles]⟩

/-- A change of a core under a condition leaves everything outside the core as it is. -/
theorem modCore_if (s : State) (c : Nat) (P : Prop) [Decidable P] (f : Core → Core) :
    CoreOnly s (if P then modCore s c f else s) c
    ∧ coreOf (if P then modCore s c f else s) c = if P then f (coreOf s c) else coreOf s c := by
  by_cases hP : P
  · simp only [if_pos hP]
    exact ⟨coreOnly_modCore _ _ _, coreOf_modCore _ _ _⟩
  · simp only [if_neg hP]
    exact ⟨⟨rfl, fun _ _ => rfl⟩, trivial⟩

/-- A `twait` sends nothing and changes its own core alone. -/
theorem runEffect_twait {s : State} {c n : Nat} {e : Engine} {st : Staged} {t : BitVec 12} {x : W64} (he : st.effect = .twait t x) :
    ∃ b, runEffect s c e n st = (b, none) ∧ CoreOnly s b c ∧ coreOf b c = afterTwait e t (yields (coreOf s c) e x) (coreOf s c) := by
  let waited := if e = .compute then modCore s c fun k => waitedChains k t else s
  have hrun : runEffect s c e n st = (if yields (coreOf s c) e x then modCore waited c voidTiles else waited, none) := by
    simp only [runEffect, he]
    rfl
  obtain ⟨honly, hcore⟩ := modCore_if s c (e = .compute) fun k => waitedChains k t
  obtain ⟨honly', hcore'⟩ := modCore_if waited c (yields (coreOf s c) e x) voidTiles
  refine ⟨_, hrun, honly.trans honly', hcore'.trans ?_⟩
  rw [hcore]
  rfl

/-- Taking the ports of an issue changes no mode of the core. -/
theorem yields_claimed {s a : State} {st : Staged} (h : Claimed s a st) (e : Engine) (x : W64) :
    yields (coreOf a st.slot.core.val) e x = yields (coreOf (atIssue s st) st.slot.core.val) e x := by
  obtain ⟨ports, refused, rfl⟩ := h
  rw [coreOf_modCore]
  rfl

/-- A `twait` that is ready leaves its core as `afterTwait` says, yielding or not as its core's mode at issue has it. -/
theorem computes_twait {s : State} {i : Instr} {sl : Slot} {t : BitVec 12} {xs : Reg} {y : Bool} (hx : exec i s = .next (tallyWait s sl t xs))
    (hy : yields (coreOf (atIssue s (waitSlot sl t xs (slotX s sl xs))) sl.core.val) sl.eng (slotX s sl xs) = y) :
    Computes s i (waitSlot sl t xs (slotX s sl xs)) (afterTwait sl.eng t y) none := by
  refine computes_of hx (by simp [waitSlot]) (portFree_afterTwait _ _ _) fun a ha => ?_
  obtain ⟨b, hrun, ⟨hrest, hother⟩, hcore⟩ := runEffect_twait (s := a) (c := sl.core.val) (e := sl.eng)
    (n := issueNow s (waitSlot sl t xs (slotX s sl xs))) (st := waitSlot sl t xs (slotX s sl xs)) rfl
  have hya : yields (coreOf a sl.core.val) sl.eng (slotX s sl xs) = y := (yields_claimed ha _ _).trans hy
  rw [hya] at hcore
  exact ⟨b, hrun, hrest, hcore, hother⟩

/-! ### Which target or beat meets a wait -/

/-- R285: a count is at or above a target of 63 bits when it is at or above its low 48 and the upper 15 are 0. -/
theorem target_le_iff {x : W64} {n : Nat} (hn : n < 2 ^ 48) : bits x 62 0 ≤ n ↔ bits x 62 48 = 0 ∧ bits x 47 0 ≤ n := by
  simp only [bits, Nat.shiftRight_eq_div_pow]
  omega

theorem tallyAt_lt (s : State) (p : Nat) : tallyAt s p < 2 ^ 48 := (mget 0 s.tallies p).isLt

/-- R285: the wait's tally meets its target. -/
theorem tallyMet_iff {s : State} {c p : Nat} {t : BitVec 12} {x : W64} (hp : translate s c t = some p) :
    tallyMet s c t (BitVec.ofNat 64 (bits x 62 0)) = true ↔ bits x 62 48 = 0 ∧ bits x 47 0 ≤ tallyAt s p := by
  have hfits : bits x 62 0 < 2 ^ 64 := by simp only [bits]; omega
  rw [← target_le_iff (tallyAt_lt s p), tallyMet, hp, BitVec.toNat_ofNat, Nat.mod_eq_of_lt hfits, decide_eq_true_iff]

/-- A `twait` alone in its bundle that does not yield waits for its tally. -/
theorem conditionWait_twait {s : State} {c : Nat} {e : Engine} {st : Staged} {t : BitVec 12} {x : W64} (he : st.effect = .twait t x)
    (hy : yields (coreOf s c) e x = false) :
    conditionWait s c e [st] = none ↔ tallyMet s c t (BitVec.ofNat 64 (bits x 62 0)) = true := by
  cases hm : tallyMet s c t (BitVec.ofNat 64 (bits x 62 0)) <;> simp [conditionWait, he, hy, hm]

/-- R33: a `bwait` alone in its bundle waits for the beat. -/
theorem conditionWait_bwait {s : State} {c : Nat} {e : Engine} {st : Staged} {x : W64} (he : st.effect = .bwait x) :
    conditionWait s c e [st] = none ↔ x.toNat ≤ s.clock.beat := by
  by_cases hb : x.toNat ≤ s.clock.beat <;> simp [conditionWait, he, hb]

/-! ### What a read sends -/

@[simp] theorem beatW_modCore (s : State) (c : Nat) (f : Core → Core) : beatW (modCore s c f) = beatW s := rfl

@[simp] theorem tallyAt_modCore (s : State) (c : Nat) (f : Core → Core) (p : Nat) : tallyAt (modCore s c f) p = tallyAt s p := rfl

/-- Taking the ports of an issue changes no translation register. -/
theorem translate_claimed {s a : State} {st : Staged} (h : Claimed s a st) (t : BitVec 12) :
    translate a st.slot.core.val t = translate (atIssue s st) st.slot.core.val t := by
  obtain ⟨ports, refused, rfl⟩ := h
  unfold translate
  rw [coreOf_modCore]

/-- R287: a `trd` that is ready sends the count of the tally that its name stands for. -/
theorem computes_trd {s : State} {i : Instr} {st : Staged} {r : Reg} {t : BitVec 12} {p : Nat} (he : st.effect = .trd r t)
    (hx : exec i s = .next (offer s st)) (hp : translate (atIssue s st) st.slot.core.val t = some p) :
    Computes s i st id (some (.x r (BitVec.ofNat 64 (tallyAt (atIssue s st) p)))) :=
  computes_write hx (by simp [he]) fun a ha => by
    have hpa := (translate_claimed ha t).trans hp
    obtain ⟨ports, refused, rfl⟩ := ha
    simp [runEffect, he, hpa]

/-- R359: a `brd` that is ready sends the beat. -/
theorem computes_brd {s : State} {i : Instr} {st : Staged} {r : Reg} (he : st.effect = .brd r) (hx : exec i s = .next (offer s st)) :
    Computes s i st id (some (.x r (beatW (atIssue s st)))) :=
  computes_write hx (by simp [he]) fun a ha => by
    obtain ⟨ports, refused, rfl⟩ := ha
    simp [runEffect, he]

end Sys2Proof.Machine

open Sys2Proof Sys2Proof.Machine

/-- Settles O19. Both spellings of a `twait` offer one slot, which leaves its core as `afterTwait` says; a `bwait` changes nothing, and the
reads send what they read at issue. -/
theorem waitsAndReads : Obligations.WaitsAndReads := by
  unfold Obligations.WaitsAndReads
  intro s sl v xs
  refine ⟨⟨fun hno => ?_, fun hcompute hmode hbit => ?_, fun p hbit hp => ?_⟩, ⟨?_, conditionWait_bwait rfl⟩, fun p hp => ?_, ?_⟩
  · have hy := yields_eq_false hno
    exact ⟨computes_twait rfl hy, computes_twait rfl hy⟩
  · have hy := yields_iff.2 ⟨hcompute, hmode, hbit⟩
    have hafter : afterTwait sl.eng v true = fun k => voidTiles (waitedChains k v) := by
      rw [hcompute]
      rfl
    have htwait {i : Instr} (hx : exec i s = .next (tallyWait s sl v xs)) := hafter ▸ computes_twait hx hy
    exact ⟨htwait rfl, htwait rfl⟩
  · exact (conditionWait_twait rfl (yields_eq_false (.inr (.inr hbit)))).trans (tallyMet_iff hp)
  · exact computes_write rfl (by simp) fun a _ => rfl
  · exact computes_trd rfl rfl hp
  · exact computes_brd rfl rfl

end

section
/-! PROOF. What stops a core from outside its program (R375, R441): the wait limit and the debug stop halt the core and set `DISC`, and leave
memory, tallies and the other cores; and the fill by the MC (R256), whose block the Kiln reads back word by word. -/

namespace Sys2Proof.Machine

open Sys2Proof

/-! ### The stop of a core and what it leaves -/

/-- A core that ends stopped where memory, the tallies and every other core stay as they are. -/
structure StopsCore (s t : State) (c : Nat) : Prop where
  faulted : (coreOf t c).faulted = true
  mem : t.mem = s.mem
  tallies : t.tallies = s.tallies
  others : ∀ o, o ≠ c → coreOf t o = coreOf s o

/-- What follows on the stop and leaves cores, memory and tallies leaves it a stop. -/
theorem StopsCore.congr_right {s t u : State} {c : Nat} (h : StopsCore s t c) (hcores : u.cores = t.cores) (hmem : u.mem = t.mem)
    (htallies : u.tallies = t.tallies) : StopsCore s u c where
  faulted := by rw [coreOf_of_cores_eq hcores, h.faulted]
  mem := hmem.trans h.mem
  tallies := htallies.trans h.tallies
  others o ho := (coreOf_of_cores_eq hcores o).trans (h.others o ho)

/-- The context-stopped record (R379) is all that the check for it can add. -/
theorem reportStopped_cases (s0 s1 s : State) (x : Option Nat) :
    reportStopped s0 s1 s x = s ∨ ∃ r, reportStopped s0 s1 s x = reportMC s r := by
  unfold reportStopped
  cases x with
  | none => exact .inl rfl
  | some x =>
    dsimp only
    split
    · exact .inr ⟨_, rfl⟩
    · exact .inl rfl

/-- Stopping a core does nothing to one that has stopped; else it halts the core, and the MC may take one record. -/
theorem stopCore_cases (s : State) (c : Nat) :
    ((coreOf s c).faulted = true ∧ stopCore s c = s) ∨ stopCore s c = modCore s c haltCore
      ∨ ∃ r, stopCore s c = reportMC (modCore s c haltCore) r := by
  by_cases hf : (coreOf s c).faulted = true
  · exact .inl ⟨hf, if_pos hf⟩
  · rw [stopCore, if_neg hf]
    exact .inr (reportStopped_cases _ _ _ _)

theorem stopsCore_modCore_haltCore (s : State) (c : Nat) : StopsCore s (modCore s c haltCore) c where
  faulted := by simp [haltCore]
  mem := modCore_mem s c _
  tallies := modCore_tallies s c _
  others o ho := coreOf_modCore_other s c o haltCore ho

theorem stopsCore_stopCore (s : State) (c : Nat) : StopsCore s (stopCore s c) c := by
  rcases stopCore_cases s c with ⟨hf, h⟩ | h | ⟨r, h⟩
  · rw [h]
    exact ⟨hf, rfl, rfl, fun _ _ => rfl⟩
  · rw [h]
    exact stopsCore_modCore_haltCore s c
  · rw [h]
    exact (stopsCore_modCore_haltCore s c).congr_right (reportMC_cores _ r) (reportMC_mem _ r) (reportMC_tallies _ r)

/-- The stop of a core adds at most one record to what the MC holds. -/
theorem stopCore_mcq (s : State) (c : Nat) :
    (stopCore s c).mcq = s.mcq ∨ ∃ q, (stopCore s c).mcq = s.mcq.takeAt s.clock.cycle q := by
  rcases stopCore_cases s c with ⟨-, h⟩ | h | ⟨r, h⟩
  · exact .inl (congrArg State.mcq h)
  · exact .inl ((congrArg State.mcq h).trans (modCore_mcq s c _))
  · exact .inr ⟨r, congrArg State.mcq h⟩

/-! ### The record of a core's fault -/

/-- Beside what the MC takes, a report changes the records that the sequencers hold, and nothing else. -/
theorem report_eq_reportMC (s : State) (k : Option Nat) (r : Record) : ∃ qs, report s k r = reportMC { s with seqs := qs } r := by
  cases k with
  | none => exact ⟨s.seqs, rfl⟩
  | some k =>
    by_cases hk : s.plan.clusters.getLsbD k = true
    · exact ⟨mset {} s.seqs k ((mget {} s.seqs k).offer 64 r), by simp only [report, hk, if_true]⟩
    · exact ⟨s.seqs, by simp only [report, hk]; rfl⟩

/-- The record of a fault of core c differs from the one given in what `coreRec` fills in and in its flags. -/
theorem reportCore_eq (s : State) (c : Nat) (r : FaultRec) :
    ∃ qs fl, reportCore s c r = reportMC { s with seqs := qs } (.fault (coreRec s c { r with flags := fl })) := by
  by_cases hf : (coreOf s c).faulted = true
  · obtain ⟨qs, hrep⟩ := report_eq_reportMC s (some (clusterOf c)) (.fault (coreRec s c r))
    exact ⟨qs, r.flags, by simp only [reportCore, if_pos hf, hrep]⟩
  · obtain ⟨qs, hrep⟩ := report_eq_reportMC s (some (clusterOf c)) (.fault (coreRec s c { r with flags := r.flags ||| 1 }))
    exact ⟨qs, r.flags ||| 1, by simp only [reportCore, if_neg hf, hrep]⟩

/-- A fault of a core's unit stops the core. -/
theorem stopsCore_coreFault (s : State) (c : Nat) (r : FaultRec) : StopsCore s (coreFault s c r) c := by
  obtain ⟨qs, fl, hrep⟩ := reportCore_eq s c r
  rw [coreFault, hrep]
  obtain ⟨hfaulted, hmem, htallies, hothers⟩ := stopsCore_stopCore (reportMC { s with seqs := qs } (.fault (coreRec s c { r with flags := fl }))) c
  exact ⟨hfaulted, hmem, htallies, hothers⟩

/-- A fault of a core's unit gives the MC its record, and after it at most the one that the stop adds. -/
theorem coreFault_mcq (s : State) (c : Nat) (r : FaultRec) : ∃ fl,
    (coreFault s c r).mcq = s.mcq.takeAt s.clock.cycle (.fault (coreRec s c { r with flags := fl }))
    ∨ ∃ q, (coreFault s c r).mcq = (s.mcq.takeAt s.clock.cycle (.fault (coreRec s c { r with flags := fl }))).takeAt s.clock.cycle q := by
  obtain ⟨qs, fl, hrep⟩ := reportCore_eq s c r
  rw [coreFault, hrep]
  exact ⟨fl, stopCore_mcq _ c⟩

/-! ### `DISC` -/

/-- The bit that `setDisc` writes reads as 1. -/
theorem bit_setBits_61 (w : W64) : bit (setBits w 61 61 1) 61 = true := by
  have hw : w.toNat < 2 ^ 64 := w.isLt
  simp only [bit, setBits, bits, BitVec.getLsbD_ofNat, Nat.testBit_eq_decide_div_mod_eq, Nat.shiftRight_eq_div_pow,
    Bool.and_eq_true, decide_eq_true_eq]
  omega

@[simp] theorem ctxDisc_setDisc (s : State) (x : Nat) : ctxDisc (setDisc s x) x = true := by
  rw [ctxDisc, setDisc, cw_setCw]
  exact bit_setBits_61 _

theorem StopsCore.then_setDisc {s t : State} {c : Nat} (h : StopsCore s t c) (x : Nat) : StopsCore s (setDisc t x) c :=
  h.congr_right (setDisc_cores t x) (setDisc_mem t x) (setDisc_tallies t x)

/-! ### The debug stop (R441) -/

/-- R441: where debug is open, the core stops and `DISC` is set on the context that holds it. -/
theorem exec_debugCoreHalt_open {s : State} (h : debugOpen s = true) (c : CoreId) :
    exec (.debugCoreHalt c) s = .next (discOpt (stopCore s c.val) (ctxOf (coreOf s c.val))) := if_pos h

theorem exec_debugCoreHalt_closed {s : State} (h : debugOpen s = false) (c : CoreId) :
    exec (.debugCoreHalt c) s = .next (refuse s 0x54 0 0) := if_neg (ne_true_of_eq_false h)

theorem StopsCore.then_discOpt {s t : State} {c : Nat} (h : StopsCore s t c) (x : Option Nat) : StopsCore s (discOpt t x) c := by
  cases x with
  | none => exact h
  | some x => exact h.then_setDisc x

/-! ### The wait limit (R375) -/

/-- The fault of a wait that its context's limit ends (R375). -/
def waitLimitFlt (s : State) (c : Nat) (e : Engine) (b : List Staged) : FaultRec :=
  let w := waitWords s c b
  { cls := 8, sub := 0xC, ukind := engKind e, flags := 2, addr := BitVec.ofInt 64 (engOf (coreOf s c) e).pc, w1 := w.1, w2 := w.2.1, w3 := w.2.2 }

/-- A held `qwait` or `twait` of a context that sets a limit ends exactly when it has waited longer than the limit. -/
theorem exec_waitLimitExpiry_limited {s : State} {c : CoreId} {e : Engine} {h : Held} {x : Nat} (hheld : (engOf (coreOf s c.val) e).held = some h)
    (hctx : ctxOf (coreOf s c.val) = some x) (hcause : h.cause = .queue ∨ ∃ y, h.cause = .tally y) (hlim : ctxWlim s x ≠ 0) :
    exec (.waitLimitExpiry c e) s
      = .next (if h.since + ctxWlim s x * 1000 < s.clock.beat then setDisc (coreFault s c.val (waitLimitFlt s c.val e h.bundle)) x else s) := by
  change execWaitLimitExpiry c e s = _
  have hne : (ctxWlim s x != 0) = true := bne_iff_ne.2 hlim
  rw [apply_ite Host.Outcome.next]
  rcases hcause with hcause | ⟨y, hcause⟩ <;> simp [execWaitLimitExpiry, waitLimitFlt, hheld, hctx, hcause, hne]

/-- R375: a `bwait` is never limited. -/
theorem exec_waitLimitExpiry_bwait {s : State} {c : CoreId} {e : Engine} {h : Held} (hheld : (engOf (coreOf s c.val) e).held = some h)
    (hcause : h.cause = .beat) : exec (.waitLimitExpiry c e) s = .next s := by
  change execWaitLimitExpiry c e s = _
  cases hctx : ctxOf (coreOf s c.val) <;> simp [execWaitLimitExpiry, hheld, hctx, hcause]

/-- The record that an engine's fault leaves bears the number of its core. -/
theorem coreRec_unit_of_engine {s : State} {c : Nat} {r : FaultRec} {e : Engine} (h : r.ukind = engKind e) : (coreRec s c r).unit = c := by
  cases e <;> simp [coreRec, h, engKind]

/-! ### The fill by the MC (R256) -/

@[simp] theorem length_leBytes (n v : Nat) : (leBytes n v).length = n := by simp [leBytes]

theorem leBytes_succ (n v : Nat) : leBytes (n + 1) v = BitVec.ofNat 8 v :: leBytes n (v / 256) := by
  have hbyte (i : Nat) : v >>> (8 * (i + 1)) = (v / 256) >>> (8 * i) := by
    rw [show v / 256 = v >>> 8 from (Nat.shiftRight_eq_div_pow v 8).symm, ← Nat.shiftRight_add]
    congr 1
    omega
  simp [leBytes, List.range_succ_eq_map, hbyte]

/-- The bytes of a number read back as the number. -/
theorem leNat_leBytes (n v : Nat) : leNat (leBytes n v) = v % 256 ^ n := by
  induction n generalizing v with
  | zero => simp [leBytes, leNat, Nat.mod_one]
  | succ n ih =>
    rw [leBytes_succ, leNat, ih, Nat.pow_succ', Nat.mod_mul]
    simp

/-- The word written first reads back. -/
theorem wordAt_leBytes_append (v : Nat) (b : List Byte) : wordAt (leBytes 8 v ++ b) 0 = BitVec.ofNat 64 v := by
  have htake : (leBytes 8 v ++ b).take 8 = leBytes 8 v := List.take_left' (length_leBytes 8 v)
  rw [wordAt, numAt, List.drop_zero, htake, leNat_leBytes]
  apply BitVec.eq_of_toNat_eq
  simp

/-- A word after the one written first is a word of the rest. -/
theorem wordAt_leBytes_append_add (v : Nat) (b : List Byte) (off : Nat) : wordAt (leBytes 8 v ++ b) (8 + off) = wordAt b off := by
  have hdrop : (leBytes 8 v ++ b).drop (8 + off) = b.drop off := by
    rw [← List.drop_drop, List.drop_left' (length_leBytes 8 v)]
  rw [wordAt, numAt, hdrop, wordAt, numAt]

/-- The fill that the MC makes of a block, as its Kiln takes it (R256). -/
def mcFillCmd (b : List Byte) : KilnCmd :=
  let odd := bits (wordAt b 0) 55 0 != 0 || bits (wordAt b 0x10) 63 48 != 0 || (b.drop 0x28).any (· != 0)
  { op := 2, core := 0, eng := .compute, ctx := none, off := 0, tally := 0, mc := true
    blk := leBytes 8 (0xFFFF * 2 ^ 48 + bits (wordAt b 0x10) 47 0) ++ leBytes 8 (wordAt b 0x18).toNat ++ leBytes 8 (wordAt b 0x20).toNat
      ++ leBytes 8 (if odd then 1 else 0) ++ leBytes 96 0 }

theorem exec_mcFill {s : State} {b : List Byte} (h : headBlock s 0x15 = some b) : exec .mcFill s = .next (kilnSubmit (popCmd s) (mcFillCmd b)) := by
  change execMcFill s = _
  simp only [execMcFill, h]
  rfl

/-- The first three words of the fill's block: the destination, its length and the pattern. -/
theorem kb_mcFillCmd (b : List Byte) :
    kb (mcFillCmd b) 0 = BitVec.ofNat 64 (0xFFFF * 2 ^ 48 + bits (wordAt b 0x10) 47 0) ∧ kb (mcFillCmd b) 8 = wordAt b 0x18
    ∧ kb (mcFillCmd b) 0x10 = wordAt b 0x20 := by
  simp only [kb, mcFillCmd, List.append_assoc]
  refine ⟨wordAt_leBytes_append _ _, ?_, ?_⟩
  · exact (wordAt_leBytes_append_add _ _ 0).trans ((wordAt_leBytes_append _ _).trans (by simp))
  · exact (wordAt_leBytes_append_add _ _ 8).trans ((wordAt_leBytes_append_add _ _ 0).trans ((wordAt_leBytes_append _ _).trans (by simp)))

end Sys2Proof.Machine

open Sys2Proof Sys2Proof.Machine

/-- Settles O47. The wait limit and the debug stop stop their core (`StopsCore`), and `DISC` is set after that; the words of a fill's block read
back as they were written. -/
theorem limitsAndDebug : Obligations.LimitsAndDebug := by
  unfold Obligations.LimitsAndDebug
  refine ⟨fun s c e h x hheld hctx hcause hlim => ⟨fun hin => ?_, fun hlate => ?_⟩, fun s c e h hheld hcause => exec_waitLimitExpiry_bwait hheld hcause,
    fun s b hb => ?_, fun s c => ⟨fun hopen => ?_, fun hclosed => ?_⟩⟩
  · rw [exec_waitLimitExpiry_limited hheld hctx hcause hlim, if_neg (Nat.not_lt.2 hin)]
  · have hx := exec_waitLimitExpiry_limited hheld hctx hcause hlim
    rw [if_pos hlate] at hx
    obtain ⟨hfaulted, hmem, htallies, hothers⟩ := (stopsCore_coreFault s c.val (waitLimitFlt s c.val e h.bundle)).then_setDisc x
    obtain ⟨fl, hmcq⟩ := coreFault_mcq s c.val (waitLimitFlt s c.val e h.bundle)
    rw [← setDisc_mcq _ x] at hmcq
    exact ⟨_, hx, hfaulted, ctxDisc_setDisc _ x,
      ⟨coreRec s c.val { waitLimitFlt s c.val e h.bundle with flags := fl }, rfl, rfl, coreRec_unit_of_engine rfl, rfl, rfl, hmcq⟩,
      hmem, htallies, hothers⟩
  · obtain ⟨hdst, hlen, hpat⟩ := kb_mcFillCmd b
    exact ⟨mcFillCmd b, exec_mcFill hb, rfl, rfl, rfl, hdst, hlen, hpat⟩
  · obtain ⟨hfaulted, hmem, htallies, hothers⟩ := (stopsCore_stopCore s c.val).then_discOpt (ctxOf (coreOf s c.val))
    refine ⟨_, exec_debugCoreHalt_open hopen c, hfaulted, fun x hx => ?_, hmem, htallies, hothers⟩
    rw [hx]
    exact ctxDisc_setDisc _ x
  · exact exec_debugCoreHalt_closed hclosed c

end
